-- ==== Sys2Proof/Word.lean ====
section
/-! DEFINITION. The word types of the 9600 (R3, R166): little-endian throughout, bit 0 least significant. -/

namespace Sys2Proof

/-- A 64-bit word: an `s` register, a system register, a virtual address (R166). -/
abbrev Word := BitVec 64
/-- A 32-bit word: one lane of a `v` register (R166). -/
abbrev W32 := BitVec 32
/-- One byte. -/
abbrev Byte := BitVec 8
/-- A lane mask: bit `l` stands for lane `l`, `0 ≤ l < 64` (R166, R172). -/
abbrev Mask := BitVec 64
/-- The 96-bit instruction word (R155). -/
abbrev IWord := BitVec 96

end Sys2Proof
end

