-- ==== Sys2Proof/Syntax.lean ====
section
/-! DEFINITION. The instructions of the 9600, one constructor per row of the opcode table: rows of the
opcode map (R170) with their operands, and rows of events (R5, R24-R357) with the operands that say which pending item they
concern or what arrives from outside the package. -/

namespace Sys2Proof

/-- A bypass latch (R162). -/
inductive LatchSel | b0 | b1 | b2
  deriving DecidableEq, Repr

/-- A source of kind S (R157): a register, a latch, or IMM where the description allows an immediate. -/
inductive SSrc
  | reg (k : BitVec 6)
  | latch (k : LatchSel)
  | imm (v : BitVec 32)
  deriving DecidableEq, Repr

/-- A source of kind V, which may name a latch or a message port (R157, R161). -/
inductive VSrc
  | reg (k : BitVec 9)
  | latch (k : LatchSel)
  | port (k : BitVec 2)
  deriving DecidableEq, Repr

/-- A source of kind M (R157). -/
inductive MSrc
  | reg (k : BitVec 4)
  | latch (k : LatchSel)
  deriving DecidableEq, Repr

/-- A destination of kind S; `dash` is NWB (R158). -/
inductive SDst
  | reg (k : BitVec 6)
  | dash
  deriving DecidableEq, Repr

/-- A destination of kind V, which may be a message port (R161); `dash` is NWB. -/
inductive VDst
  | reg (k : BitVec 9)
  | dash
  | port (k : BitVec 2)
  deriving DecidableEq, Repr

/-- A destination of kind M; `dash` is NWB. -/
inductive MDst
  | reg (k : BitVec 4)
  | dash
  deriving DecidableEq, Repr

/-- Format codes (R130), in the order of their codes. -/
inductive Fmt
  | n8 | n16 | n32 | n64 | i8 | i16 | i32 | i64 | b32 | b64 | f16 | bf16 | f32 | f8a | f8b | q4n
  deriving DecidableEq, Repr

/-- Rounding modes (R134). -/
inductive RMode | rne | rtz | rup | rdn | rto
  deriving DecidableEq, Repr

/-- Condition codes (R159). -/
inductive Cond | eq | ne | lt | le | gt | ge | un | ord
  deriving DecidableEq, Repr

/-- Address spaces (R45, R160). -/
inductive Space | g | l | p
  deriving DecidableEq, Repr

/-- Scopes of atomics (R111). -/
inductive Scope | cr | dv | sy
  deriving DecidableEq, Repr

/-- Orderings of atomics (R111). -/
inductive Ord | relaxed | acq | rel | ar
  deriving DecidableEq, Repr

/-- Atomic operations (R216). -/
inductive AOp | add | min | max | and | or | xor | exch | cas
  deriving DecidableEq, Repr

/-- The four counters of a group (R115, R219). -/
inductive Ctr | lc | sc | cc | xc
  deriving DecidableEq, Repr

/-- Operations of `redux` and `vscan` (R205). -/
inductive RedOp | add | min | max | and | or | xor | argmin | argmax
  deriving DecidableEq, Repr

/-- One-source scalar operands: guard, destination, source, type (R184). -/
structure SOp1 where
  g : BitVec 4
  d : SDst
  a : SSrc
  ty : Fmt
  deriving DecidableEq, Repr

/-- Two-source scalar operands. -/
structure SOp2 where
  g : BitVec 4
  d : SDst
  a : SSrc
  b : SSrc
  ty : Fmt
  deriving DecidableEq, Repr

/-- Three-source scalar operands. -/
structure SOp3 where
  g : BitVec 4
  d : SDst
  a : SSrc
  b : SSrc
  c : SSrc
  ty : Fmt
  deriving DecidableEq, Repr

/-- One-source vector operands (R187). -/
structure VOp1 where
  g : BitVec 4
  d : VDst
  a : VSrc
  ty : Fmt
  deriving DecidableEq, Repr

/-- Two-source vector operands. -/
structure VOp2 where
  g : BitVec 4
  d : VDst
  a : VSrc
  b : VSrc
  ty : Fmt
  deriving DecidableEq, Repr

/-- Three-source vector operands. -/
structure VOp3 where
  g : BitVec 4
  d : VDst
  a : VSrc
  b : VSrc
  c : VSrc
  ty : Fmt
  deriving DecidableEq, Repr

/-- One-source float operands with a rounding mode (R190). -/
structure FOp1 where
  g : BitVec 4
  d : VDst
  a : VSrc
  ty : Fmt
  rm : RMode
  deriving DecidableEq, Repr

/-- Two-source float operands. -/
structure FOp2 where
  g : BitVec 4
  d : VDst
  a : VSrc
  b : VSrc
  ty : Fmt
  rm : RMode
  deriving DecidableEq, Repr

/-- Three-source float operands. -/
structure FOp3 where
  g : BitVec 4
  d : VDst
  a : VSrc
  b : VSrc
  c : VSrc
  ty : Fmt
  rm : RMode
  deriving DecidableEq, Repr

/-- Operands of `cmp` and `fcmp` (R189, R193). -/
structure CmpOp where
  g : BitVec 4
  d : MDst
  a : VSrc
  b : VSrc
  ty : Fmt
  cc : Cond
  deriving DecidableEq, Repr

/-- Modes of `shfl` with their selectors (R202). -/
inductive ShflMode
  | pick (b : VSrc)
  | rot (δ : BitVec 6)
  | rev
  | flip (δ : BitVec 6)
  | one (δ : BitVec 6)
  | zip
  | unzip
  deriving DecidableEq, Repr

/-- Operations of `vote` with their destinations (R203). -/
inductive VoteOp
  | some (d : MDst)
  | every (d : MDst)
  | none (d : MDst)
  | bits (d : SDst)
  | count (d : SDst)
  | first (d : SDst)
  deriving DecidableEq, Repr

/-- Modes of `match` with their destinations (R204). -/
inductive MatchOp
  | mask (d : VDst)
  | lead (d : MDst)
  | cnt (d : VDst)
  deriving DecidableEq, Repr

/-- Destinations of `gets`, whose kind follows from the special value (R167). -/
inductive GDst
  | v (d : VDst)
  | s (d : SDst)
  | m (d : MDst)
  deriving DecidableEq, Repr

/-- A memory address (R14, R209): base register, optional per-lane offset register, displacement. -/
structure MAddr where
  sp : Space
  base : SSrc
  off : Option VSrc
  disp : BitVec 32
  deriving DecidableEq, Repr

/-- The control of an atomic or reduction (R160, R216): address, operation, ordering, scope. -/
structure AtomCtl where
  sp : Space
  base : SSrc
  off : Option VSrc
  disp : BitVec 23
  op : AOp
  ord : Ord
  scope : Scope
  ty : Fmt
  deriving DecidableEq, Repr

/-- Operands of `mma`, `mmas` and `mmaq` (R243, R257). -/
structure MmaOp where
  g : BitVec 4
  d : BitVec 4
  a : SSrc
  b : SSrc
  o : SSrc
  fa : Fmt
  fb : Fmt
  mc : BitVec 2
  nc : BitVec 2
  kc : BitVec 2
  negA : Bool
  negB : Bool
  noAcc : Bool
  deriving DecidableEq, Repr

/-- How a packet arrives on its port (R323, R324): the LSEQ and the CRC of its header flit, and whether there is buffer room for its flits. -/
structure Arrival where
  lseq : Nat
  crc : BitVec 32
  room : Bool
  deriving DecidableEq, Repr

/-- A packet that answers a request of this package: how it arrives, and the request (R325). -/
structure Answer where
  link : Arrival
  req : Nat
  deriving DecidableEq, Repr

/-- Read data: how it arrives, its request, the recall number of its slice (R103), and whether it is a frozen fill. -/
structure ReadAnswer where
  link : Arrival
  req : Nat
  rseq : Nat
  frozen : Bool
  deriving DecidableEq, Repr

/-- A recall of a peer or its acknowledgement (R331): how it arrives, and from which package. -/
structure FromPeer where
  link : Arrival
  pkg : Nat
  deriving DecidableEq, Repr

/-- A write of the host to a register over its port (R325, R332): how it arrives, and the value. -/
structure Posted where
  link : Arrival
  v : Word
  deriving DecidableEq, Repr

/-- An access of the host to its register window (R325, R332): how it arrives, and the value of a write. -/
structure BarAccess where
  link : Arrival
  v : Option Word
  deriving DecidableEq, Repr

/-- A read over the management port: UC*k* of a context (R315), an entry of the black box (R342), or the certificate of the device (R354). -/
inductive PortRead
  | uc (ctx k : Nat)
  | box (entry : Nat)
  | certificate
  deriving DecidableEq, Repr

/-- A link packet as its header gives it (R323), for the TYPEs that reach this package as a far end. -/
structure Packet where
  link : Arrival
  vf : Nat
  src : Nat
  dst : Nat
  aseq : Nat
  aop : BitVec 4
  ty : BitVec 4
  ord : BitVec 2
  len : Nat
  addr : Nat
  data : List Byte
  deriving DecidableEq, Repr

/-- The place at which an uncorrectable storage error is found (R339); `word` is the 32-bit word of a 64-bit register. The last two are storage that
has failed and that a spare takes the place of (R335): of a datapath of a core, and of a way of a set of a slice. -/
inductive ErrSite
  | vreg (gid reg lane : Nat)
  | sreg (gid reg word : Nat)
  | mreg (gid reg word : Nat)
  | acc (core tile elem : Nat)
  | scratch (crew off : Nat)
  | l1 (core pa : Nat)
  | l2Clean (pa : Nat)
  | mem (pa : Nat)
  | stamp (tile : Nat)
  | freeze (granule : Nat)
  | lane (core datapath : Nat)
  | way (slice set : Nat)
  deriving DecidableEq, Repr

/-- What the re-executions of a failing checker show (R337): the second passes; the second fails and the third, on the
spare lane or with SUSPECT set, passes; or the operation still fails. -/
inductive CheckerOutcome | second | third | fails
  deriving DecidableEq, Repr

/-- A signed image as the management controller receives it, byte by byte (R353). The manual gives the header no field that asks for the fused minimum
to be raised: `raisesMin` says whether it does (DESIGN CHOICE, log 35). -/
structure SignedImage where
  bytes : List Byte
  raisesMin : Bool
  deriving DecidableEq, Repr

/-- What the firmware brings to steps 3 to 6 of bring-up (R352): the step that fails, or 0; the repair list, of spare cores, lanes and L2 ways; the
supervisor image, and the entry that TVEC takes. -/
structure BringUp where
  fails : Nat
  spares : BitVec 24
  lanes : List Nat
  ways : List (Nat × Nat)
  supervisor : List Byte
  tvec : Word
  deriving DecidableEq, Repr

/-- The instructions: constructors 1 to 138 are the rows of the opcode map, the rest the rows of events. -/
inductive Instr
  -- class 000, control (R182)
  | nop
  | bra (g : BitVec 4) (t : BitVec 32)
  | call (g : BitVec 4) (t : BitVec 32)
  | ret (g : BitVec 4)
  | exit (g : BitVec 4)
  | trap (g : BitVec 4) (code : BitVec 16)
  | ifm (a : MSrc) (t : BitVec 32)
  | elsem (t : BitVec 32)
  | endif
  | loop (t : BitVec 32)
  | brk (g : BitVec 4) (t : BitVec 32)
  | cont (g : BitVec 4) (t : BitVec 32)
  | endloop (t : BitVec 32)
  | trigger (g : BitVec 4)
  | gets (g : BitVec 4) (d : GDst) (n : BitVec 8)
  -- class 001, scalar (R185, R186)
  | sadd (o : SOp2)
  | ssub (o : SOp2)
  | smul (o : SOp2)
  | smad (o : SOp3)
  | smulhi (o : SOp2)
  | smin (o : SOp2)
  | smax (o : SOp2)
  | sand (o : SOp2)
  | sor (o : SOp2)
  | sxor (o : SOp2)
  | sshl (o : SOp2)
  | sshr (o : SOp2)
  | ssar (o : SOp2)
  | scmp (o : SOp2) (cc : Cond)
  | ssel (o : SOp3)
  | smov (o : SOp1)
  | sli (g : BitVec 4) (d : SDst) (ty : Fmt) (v : BitVec 32)
  | sliPc (g : BitVec 4) (d : SDst) (v : BitVec 32)
  | sbfe (o : SOp2)
  | spopc (o : SOp1)
  | sclz (o : SOp1)
  -- class 010, integer vector (R188, R189)
  | add (o : VOp2)
  | sub (o : VOp2)
  | mul (o : VOp2)
  | mulhi (o : VOp2)
  | mad (o : VOp3)
  | min (o : VOp2)
  | max (o : VOp2)
  | abs (o : VOp1)
  | neg (o : VOp1)
  | and (o : VOp2)
  | or (o : VOp2)
  | xor (o : VOp2)
  | not (o : VOp1)
  | shl (o : VOp2)
  | shr (o : VOp2)
  | sar (o : VOp2)
  | rot (o : VOp2)
  | bfe (o : VOp2)
  | bfi (o : VOp3)
  | popc (o : VOp1)
  | clz (o : VOp1)
  | brev (o : VOp1)
  | cmp (o : CmpOp)
  | sel (o : VOp2) (c : MSrc)
  | mov (o : VOp1)
  | movi (g : BitVec 4) (d : VDst) (ty : Fmt) (v : BitVec 32)
  | movs (g : BitVec 4) (d : VDst) (a : SSrc) (ty : Fmt)
  -- class 011, float vector (R191 to R196)
  | fadd (o : FOp2)
  | fsub (o : FOp2)
  | fmul (o : FOp2)
  | ffma (o : FOp3)
  | fmin (o : VOp2)
  | fmax (o : VOp2)
  | fcmp (o : CmpOp)
  | fclass (o : VOp1)
  | fround (o : FOp1)
  | frcp (o : FOp1)
  | frsq (o : FOp1)
  | fsqrt (o : FOp1)
  | fex2 (o : FOp1)
  | flg2 (o : FOp1)
  | fsin (o : FOp1)
  | fcos (o : FOp1)
  -- class 100, conversion and cross-lane (R197 to R206)
  | cvt (g : BitVec 4) (d : VDst) (a : VSrc) (toF frm : Fmt) (rm : RMode)
  | pack2 (o : VOp2)
  | unpk2 (o : VOp1)
  | shfl (g : BitVec 4) (d : VDst) (a : VSrc) (ty : Fmt) (mode : ShflMode) (seg : BitVec 3)
  | vote (g : BitVec 4) (op : VoteOp) (a : MSrc)
  | matchv (g : BitVec 4) (op : MatchOp) (a : VSrc) (ty : Fmt)
  | redux (g : BitVec 4) (op : RedOp) (d : SDst) (a : VSrc) (ty : Fmt)
  | vscan (g : BitVec 4) (op : RedOp) (excl : Bool) (d : VDst) (a : VSrc) (ty : Fmt)
  -- class 101, memory and atomics (R213 to R219)
  | ld (g : BitVec 4) (d : BitVec 9) (m : MAddr) (ty : Fmt)
  | st (g : BitVec 4) (m : MAddr) (c : VSrc) (ty : Fmt)
  | sld (g : BitVec 4) (d : BitVec 6) (sp : Space) (a : SSrc) (disp : BitVec 32) (ty : Fmt)
  | sst (g : BitVec 4) (sp : Space) (a : SSrc) (disp : BitVec 32) (c : SSrc) (ty : Fmt)
  | pref (g : BitVec 4) (m : MAddr) (ty : Fmt)
  | atom (g : BitVec 4) (d : BitVec 9) (m : AtomCtl) (c : VSrc)
  | red (g : BitVec 4) (m : AtomCtl) (c : VSrc)
  | redFar (g : BitVec 4) (m : AtomCtl) (c : VSrc)
  | waitc (k : Ctr) (n : BitVec 8)
  -- class 110, synchronisation, monitors, freeze and tasks (R221 to R233)
  | bar (id : BitVec 4) (count : BitVec 6)
  | arrive (d : BitVec 6) (a : SSrc)
  | arrivex (d : BitVec 6) (a b : SSrc)
  | bwait (a b : SSrc)
  | paint (g : BitVec 4) (a n : SSrc) (c : BitVec 12)
  | unpaint (g : BitVec 4) (a n : SSrc)
  | mwait (g : BitVec 4) (c : BitVec 12)
  | mnotify (g : BitVec 4) (c : BitVec 12)
  | mnotifyall (g : BitVec 4) (c : BitVec 12)
  | mheld (g : BitVec 4) (d : BitVec 6) (i : BitVec 4)
  | freeze (g : BitVec 4) (a n : SSrc)
  | thaw (g : BitVec 4) (a n : SSrc)
  | frzq (g : BitVec 4) (d : BitVec 6) (a : SSrc)
  | spawn (g : BitVec 4) (a : SSrc) (b : VSrc)
  | binflush (g : BitVec 4) (a : SSrc)
  | fget (g : BitVec 4) (d : BitVec 6) (a : SSrc)
  | fput (g : BitVec 4) (a b : SSrc)
  | launch (g : BitVec 4) (d : BitVec 6) (a : SSrc)
  | retake (g : BitVec 4) (d : BitVec 6) (a : SSrc)
  | rdcnt (g : BitVec 4) (d : BitVec 6) (k : BitVec 2)
  -- class 111, matrix, copy and system (R244 to R255, R268 to R274)
  | mma (o : MmaOp)
  | mmas (o : MmaOp)
  | mmaq (o : MmaOp)
  | sacc (g d p : BitVec 4) (c s : SSrc) (ty : Fmt) (mc nc : BitVec 2) (noAcc : Bool)
  | accz (g d : BitVec 4)
  | acczPair (g d : BitVec 4)
  | accld (g d : BitVec 4) (a o : SSrc) (ty : Fmt) (mc nc : BitVec 2)
  | accst (g : BitVec 4) (a o : SSrc) (t : BitVec 4) (ty : Fmt) (mc nc : BitVec 2)
  | accdrain (g : BitVec 4) (a : SSrc)
  | accfill (g : BitVec 4) (a : SSrc)
  | xbatch
  | xwait (n : BitVec 8)
  | opready
  | copy (g : BitVec 4) (d s : SSrc)
  | copyBar (g : BitVec 4) (d s b : SSrc)
  | xcopy (g : BitVec 4) (d s : SSrc) (e : BitVec 4)
  | srd (g : BitVec 4) (d : SDst) (num : BitVec 12)
  | swr (g : BitVec 4) (a : SSrc) (num : BitVec 12)
  | eret
  | tlbinv (a n : SSrc)
  | idle (n : BitVec 16)
  | halt
  -- events: fetch and issue
  | lineFetch (gid : Nat) (err : BitVec 512)
  | lineRefetch (gid : Nat) (err : BitVec 512)
  | issueSelect (first : Nat)
  -- events: launches, placement, retirement
  | stampMapCleared
  | retakeDecision (launch : Nat)
  | mailboxEntryTake (ctx : Nat)
  | crewPlace (spawned : Bool) (id : Nat) (cores : List Nat)
  | priorityAgeing (launch : Nat)
  | headReservation (ctx : Nat) (cores : List Nat)
  | crewMigrate (crew : Nat)
  | triggerComplete (gid : Nat)
  | groupRetire (gid : Nat)
  | spawnBinTimerExpire (core : Nat) (entry : Word)
  | greenRoomBackoffExpire (gid : Nat)
  | monitorGrant (ctx colour : Nat)
  | monitorRelease (gid : Nat)
  | mwaitBackoffExpire (gid : Nat)
  -- events: memory
  | homeAccess (req : Nat)
  | loadReturn (req : Nat)
  | leaseGrant (req : Nat)
  | leaseRecall (line : Nat)
  | l1Evict (core line : Nat)
  | writeRejectReturn (req : Nat)
  | copyBytesLand (copy elem : Nat)
  | engineCommandPerform (engine : Nat)
  | matrixOpComplete (core op : Nat)
  | flitArrive (flit : Nat)
  | peerAccessArrive (req : Nat)
  | peerReplyReturn (gid op : Nat)
  | faultRecordWrite (id : Nat)
  -- events: pre-emption and partitions
  | preemptRequest (crew : Nat)
  | crewSave (crew : Nat)
  | arrayHalt (core : Nat)
  | crewRestore (crew : Nat) (cores : List Nat)
  | quantumExpire (ctx : Nat)
  -- events: translation and freeze
  | tlbWalkComplete (core ctx : Nat) (va : Word)
  | shootdownComplete (id : Nat)
  | pagerRequest (gid : Nat) (va : Word)
  | thawRecallArrive (granule holder : Nat)
  | thawRecallComplete (granule : Nat)
  | fillArrive (fill : Nat)
  -- events: usage counters
  | uc0Snapshot (read : PortRead)
  | uc12Sample
  -- events: links
  | linkRead (p : Packet)
  | linkWrite (p : Packet)
  | linkAtomic (p : Packet)
  | linkReadData (x : ReadAnswer) (data : List Byte)
  | linkWriteAck (x : Answer)
  | linkAtomicResult (x : Answer) (old : Word)
  | linkAck (port lseq : Nat)
  | linkNack (port lseq : Nat)
  | linkRecall (x : FromPeer) (slice granule rseq : Nat)
  | linkRecallAck (x : FromPeer) (granule rseq : Nat)
  | linkInterrupt
  | linkRefuse (x : Answer) (code : Nat)
  | linkRetrain (port : Nat) (ok : Bool)
  | portDown (port : Nat)
  | portUp (port : Nat)
  -- events: register writes
  | jqcmdWrite (ctx : Nat) (v : Word)
  | journalQueryComplete (ctx : Nat) (result : BitVec 3) (old : Word)
  | featgntWrite (ctx k : Nat) (v : Word)
  | hostBarAccess (ctx : Nat) (num : BitVec 12) (x : BarAccess)
  | lmboxWrite (ctx : Nat) (x : Posted)
  | rgnownWrite (v : Word)
  | vfcfgWrite (ctx : Nat) (v : Word)
  | svcountWrite (ctx : Nat) (v : Word)
  | arrctlWrite (core : Nat) (v : Word)
  | bandhiWrite (v : Word)
  | triplimWrite (v : Word)
  | registerWrite (ctx : Nat) (num : BitVec 12) (v : Word)
  -- events: reliability
  | checkerMismatch (gid unit datapath : Nat) (out : CheckerOutcome)
  | scoreboardMismatch (core : Nat)
  | softError (site : ErrSite)
  | coreReplace (core : Nat)
  | hbmPinSwap (stack : Nat)
  | softPostPackageRepair (stack : Nat)
  -- events: cryogenics and bring-up
  | sensorReading (cores : List (Nat × Nat)) (hub hbm : List Nat)
  | bandChange
  | scrubSweep (bad : List Nat)
  | soakTimerExpire (b : BringUp)
  | retreatHoldExpire
  | coolholdRelease
  | cmdCool
  | cmdWarm
  | cmdService (die : BitVec 4)
  | cmdOff
  | cmdClear
  | cmdInvalid (v : Word)
  | powerUp (bank0 bank1 : List Byte)
  | warmReset
  | coldReset
  | firmwareUpdate (img : SignedImage)
  | attestationReport (nonce : BitVec 256)
  | idleExpire (gid : Nat)
  deriving DecidableEq, Repr

end Sys2Proof
end

