-- ==== Sys2Proof/WellFormed.lean ====
section
/-! DEFINITION. When an instruction is well formed: its operands are of the kinds, types and ranges that its
description lists (R157 to R161, R182 to R257), so that it has an encoding. Rows of events have no encoding, so none of them
is well formed as an instruction word. -/

namespace Sys2Proof

/-- The 64-bit types (R187). -/
def Fmt.wide (t : Fmt) : Bool := t == .n64 || t == .i64 || t == .b64
/-- The 32-bit types of the integer vector class (R187). -/
def Fmt.narrow (t : Fmt) : Bool := t == .n32 || t == .i32 || t == .b32
/-- All six integer vector types (R188). -/
def Fmt.six (t : Fmt) : Bool := t.wide || t.narrow
/-- `i32`, `n32`, `i64`, `n64`. -/
def Fmt.ordered (t : Fmt) : Bool := t == .i32 || t == .n32 || t == .i64 || t == .n64
/-- `i32`, `n32`. -/
def Fmt.pair32 (t : Fmt) : Bool := t == .i32 || t == .n32
/-- The scalar types (R184). -/
def Fmt.scalar (t : Fmt) : Bool := t == .i64 || t == .n64
/-- The float types of R191. -/
def Fmt.arith (t : Fmt) : Bool := t == .f32 || t == .f16 || t == .bf16
/-- Any float format. -/
def Fmt.isFloat (t : Fmt) : Bool := t.arith || t == .f8a || t == .f8b
/-- An `i` or `n` integer type. -/
def Fmt.isInt (t : Fmt) : Bool :=
  t == .n8 || t == .n16 || t == .n32 || t == .n64 || t == .i8 || t == .i16 || t == .i32 || t == .i64
/-- The types of a load or store (R208). -/
def Fmt.access (t : Fmt) : Bool := t.isInt || t == .b32 || t == .b64

/-- A register or latch source of kind S, not IMM. -/
def SSrc.noImm : SSrc → Bool
  | .imm _ => false
  | _ => true

/-- A source of kind V: even where a pair is required, a port only where `ports` allows one. -/
def VSrc.ok (pair ports : Bool) : VSrc → Bool
  | .reg k => !pair || k.getLsbD 0 == false
  | .latch _ => true
  | .port _ => ports

/-- A source names a port. -/
def VSrc.isPort : VSrc → Bool
  | .port _ => true
  | _ => false

/-- A destination of kind V. -/
def VDst.ok (pair ports : Bool) : VDst → Bool
  | .reg k => !pair || k.getLsbD 0 == false
  | .dash => true
  | .port _ => ports

/-- The destination is NWB. -/
def VDst.isDash : VDst → Bool
  | .dash => true
  | _ => false

/-- A destination of kind M: `m0` is none (R157). -/
def MDst.ok : MDst → Bool
  | .reg k => k != 0
  | .dash => true

/-- The destination is NWB. -/
def MDst.isDash : MDst → Bool
  | .dash => true
  | _ => false

/-- NWB stands only where there is a latch result, so not beside a port (R158, R162). -/
def noDashPort (dash : Bool) (srcs : List VSrc) : Bool := !dash || srcs.all (fun v => !v.isPort)

/-- Well-formed one-source scalar operands. -/
def SOp1.ok (o : SOp1) : Bool := o.a.noImm && o.ty.scalar
/-- Well-formed two-source scalar operands; `b` may be an immediate where `imm` says so. -/
def SOp2.ok (o : SOp2) (imm : Bool) : Bool := o.a.noImm && (imm || o.b.noImm) && o.ty.scalar
/-- Well-formed three-source scalar operands. -/
def SOp3.ok (o : SOp3) : Bool := o.a.noImm && o.c.noImm && o.ty.scalar

/-- Well-formed one-source vector operands of types `p`. -/
def VOp1.ok (o : VOp1) (p : Fmt → Bool) : Bool :=
  p o.ty && o.d.ok o.ty.wide (!o.ty.wide) && o.a.ok o.ty.wide (!o.ty.wide) && noDashPort o.d.isDash [o.a]
/-- Well-formed two-source vector operands; `single` says that the second source is one register under every type. -/
def VOp2.ok (o : VOp2) (p : Fmt → Bool) (single : Bool) : Bool :=
  p o.ty && o.d.ok o.ty.wide (!o.ty.wide) && o.a.ok o.ty.wide (!o.ty.wide)
    && o.b.ok (o.ty.wide && !single) (!o.ty.wide) && noDashPort o.d.isDash [o.a, o.b]
/-- Well-formed three-source vector operands. -/
def VOp3.ok (o : VOp3) (p : Fmt → Bool) : Bool :=
  p o.ty && o.d.ok o.ty.wide (!o.ty.wide) && o.a.ok o.ty.wide (!o.ty.wide) && o.b.ok o.ty.wide (!o.ty.wide)
    && o.c.ok o.ty.wide (!o.ty.wide) && noDashPort o.d.isDash [o.a, o.b, o.c]
/-- Well-formed float operands of types `p`. -/
def FOp1.ok (o : FOp1) (p : Fmt → Bool) : Bool := p o.ty && noDashPort o.d.isDash [o.a]
/-- Well-formed two-source float operands. -/
def FOp2.ok (o : FOp2) : Bool := o.ty.arith && noDashPort o.d.isDash [o.a, o.b]
/-- Well-formed three-source float operands. -/
def FOp3.ok (o : FOp3) : Bool := o.ty.arith && noDashPort o.d.isDash [o.a, o.b, o.c]

/-- `eq` or `ne`. -/
def Cond.equality (c : Cond) : Bool := c == .eq || c == .ne
/-- Condition codes 0 to 5 (R159). -/
def Cond.integer (c : Cond) : Bool := !(c == .un || c == .ord)

/-- The kind that `gets` writes for a number (R167). -/
def GDst.ok (n : BitVec 8) : GDst → Bool
  | .v d => n == 0 && (match d with | .port _ => false | _ => true)
  | .m d => n == 1 && d.ok
  | .s _ => decide (2 ≤ n.toNat ∧ n.toNat ≤ 19)

/-- The combinations of formats that `cvt` accepts (R197). -/
def cvtOk (toF frm : Fmt) : Bool :=
  (frm.isInt && (toF.isInt || toF == .b32 || toF == .b64 || toF.isFloat))
    || ((frm == .b32 || frm == .b64) && (toF.isInt || toF == .b32 || toF == .b64))
    || (frm.isFloat && (toF.isFloat || toF.isInt)) || (frm == .q4n && toF.isFloat)

/-- The elements of `pack2` and `unpk2` (R199). -/
def Fmt.packed (t : Fmt) : Bool :=
  t == .n16 || t == .i16 || t == .f16 || t == .bf16 || t == .n8 || t == .i8 || t == .f8a || t == .f8b

/-- The types of `shfl` and `match` (R202, R204). -/
def Fmt.lanes (t : Fmt) : Bool := t.six || t == .f32

/-- The combinations of `redux` (R205). -/
def reduxOk (op : RedOp) (t : Fmt) : Bool :=
  match op with
  | .add => t.six || t == .f32
  | .min | .max | .argmin | .argmax => t.ordered || t == .f32
  | .and | .or | .xor => t.six

/-- A memory address whose registers are of their kinds (R209, R220). -/
def MAddr.ok (m : MAddr) : Bool :=
  m.base.noImm && (match m.off with | some v => v.ok false false | none => true)

/-- Operations and types of an atomic (R216). -/
def aopOk (op : AOp) (t : Fmt) : Bool :=
  match op with
  | .add | .min | .max => t.ordered || t == .f32
  | .and | .or | .xor | .cas => t.six
  | .exch => t.six || t == .f32

/-- The data source of an atomic: a register aligned for its size, or a latch but for `cas` (R217). -/
def atomSrcOk (op : AOp) (t : Fmt) : VSrc → Bool
  | .reg k => match op with
    | .cas => if t.wide then k.toNat % 4 == 0 else k.toNat % 2 == 0
    | _ => !t.wide || k.toNat % 2 == 0
  | .latch _ => op != .cas
  | .port _ => false

/-- The control of an atomic: type and operation, scope of its space (R218). -/
def AtomCtl.ok (m : AtomCtl) (far : Bool) : Bool :=
  m.base.noImm && (match m.off with | some v => v.ok false false | none => true) && aopOk m.op m.ty
    && (m.sp != .l || m.scope == .cr) && (!far || m.sp == .g)

/-- A reduction: no `exch`, no `cas`, and relaxed or `.rel` (R216, R218). -/
def redOk (m : AtomCtl) (c : VSrc) (far : Bool) : Bool :=
  m.ok far && m.op != .exch && m.op != .cas && (m.ord == .relaxed || m.ord == .rel) && atomSrcOk m.op m.ty c

/-- The pairs of operand formats of the matrix array (R142). -/
def mmaPair (a b : Fmt) : Bool :=
  (a == .f16 && b == .f16) || (a == .bf16 && b == .bf16) || (a == .i8 && b == .i8)
    || ((a == .f8a || a == .f8b) && (b == .f8a || b == .f8b))
    || (a == .q4n && (b == .f16 || b == .f8a || b == .f8b))

/-- Operands of the matrix operations (R243). -/
def MmaOp.ok (o : MmaOp) : Bool :=
  o.a.noImm && o.b.noImm && o.o.noImm && mmaPair o.fa o.fb && o.mc != 3 && o.nc != 3
    && (if o.fa == .q4n then o.kc == 0 else o.kc != 3)

/-- An accumulator tile, even where a pair is required. -/
def tileOk (pair : Bool) (t : BitVec 4) : Bool := !pair || t.getLsbD 0 == false

/-- The system-register numbers that some chapter assigns (R269, R287, R300, R309, R333, R343, R351). -/
def srAssigned (n : BitVec 12) : Bool :=
  let k := n.toNat
  decide (k ≤ 0x003 ∨ (0x010 ≤ k ∧ k ≤ 0x026) ∨ (0x040 ≤ k ∧ k ≤ 0x048) ∨ k = 0x050 ∨ k = 0x058 ∨ (0x060 ≤ k ∧ k ≤ 0x064)
    ∨ (0x070 ≤ k ∧ k ≤ 0x072) ∨ (0x080 ≤ k ∧ k ≤ 0x087) ∨ (0x0C0 ≤ k ∧ k ≤ 0x0C4) ∨ (0x0D0 ≤ k ∧ k ≤ 0x0D2)
    ∨ (0x0D8 ≤ k ∧ k ≤ 0x0E2) ∨ (0x0F0 ≤ k ∧ k ≤ 0x0FF) ∨ (0x100 ≤ k ∧ k ≤ 0x102) ∨ (0x104 ≤ k ∧ k ≤ 0x10A)
    ∨ (0x140 ≤ k ∧ k ≤ 0x143) ∨ (0x180 ≤ k ∧ k ≤ 0x185))

/-- A row of events: it has no encoding. -/
def Instr.isEvent (i : Instr) : Bool :=
  match i with
  | .nop | .bra _ _ | .call _ _ | .ret _ | .exit _ | .trap _ _ | .ifm _ _ | .elsem _ | .endif | .loop _ | .brk _ _ | .cont _ _
  | .endloop _ | .trigger _ | .gets _ _ _ | .sadd _ | .ssub _ | .smul _ | .smad _ | .smulhi _ | .smin _ | .smax _ | .sand _
  | .sor _ | .sxor _ | .sshl _ | .sshr _ | .ssar _ | .scmp _ _ | .ssel _ | .smov _ | .sli _ _ _ _ | .sliPc _ _ _ | .sbfe _
  | .spopc _ | .sclz _ | .add _ | .sub _ | .mul _ | .mulhi _ | .mad _ | .min _ | .max _ | .abs _ | .neg _ | .and _ | .or _
  | .xor _ | .not _ | .shl _ | .shr _ | .sar _ | .rot _ | .bfe _ | .bfi _ | .popc _ | .clz _ | .brev _ | .cmp _ | .sel _ _
  | .mov _ | .movi _ _ _ _ | .movs _ _ _ _ | .fadd _ | .fsub _ | .fmul _ | .ffma _ | .fmin _ | .fmax _ | .fcmp _ | .fclass _
  | .fround _ | .frcp _ | .frsq _ | .fsqrt _ | .fex2 _ | .flg2 _ | .fsin _ | .fcos _ | .cvt _ _ _ _ _ _ | .pack2 _ | .unpk2 _
  | .shfl _ _ _ _ _ _ | .vote _ _ _ | .matchv _ _ _ _ | .redux _ _ _ _ _ | .vscan _ _ _ _ _ _ | .ld _ _ _ _ | .st _ _ _ _
  | .sld _ _ _ _ _ _ | .sst _ _ _ _ _ _ | .pref _ _ _ | .atom _ _ _ _ | .red _ _ _ | .redFar _ _ _ | .waitc _ _ | .bar _ _
  | .arrive _ _ | .arrivex _ _ _ | .bwait _ _ | .paint _ _ _ _ | .unpaint _ _ _ | .mwait _ _ | .mnotify _ _ | .mnotifyall _ _
  | .mheld _ _ _ | .freeze _ _ _ | .thaw _ _ _ | .frzq _ _ _ | .spawn _ _ _ | .binflush _ _ | .fget _ _ _ | .fput _ _ _
  | .launch _ _ _ | .retake _ _ _ | .rdcnt _ _ _ | .mma _ | .mmas _ | .mmaq _ | .sacc _ _ _ _ _ _ _ _ _ | .accz _ _
  | .acczPair _ _ | .accld _ _ _ _ _ _ _ | .accst _ _ _ _ _ _ _ | .accdrain _ _ | .accfill _ _ | .xbatch | .xwait _ | .opready
  | .copy _ _ _ | .copyBar _ _ _ _ | .xcopy _ _ _ _ | .srd _ _ _ | .swr _ _ _ | .eret | .tlbinv _ _ | .idle _ | .halt => false
  | _ => true

/-- An instruction has an encoding: every operand is one that its description accepts. -/
def Instr.wf (i : Instr) : Bool :=
  match i with
  | .gets _ d n => d.ok n
  | .sadd o | .ssub o | .smul o | .smulhi o | .smin o | .smax o | .sand o | .sor o | .sxor o | .sshl o | .sshr o | .ssar o
  | .sbfe o => o.ok true
  | .scmp o cc => o.ok true && cc.integer
  | .smad o | .ssel o => o.ok
  | .smov o | .spopc o | .sclz o => o.ok
  | .sli _ _ ty _ => ty.scalar
  | .add o | .sub o | .mul o | .and o | .or o | .xor o => o.ok Fmt.six false
  | .mulhi o => o.ok Fmt.pair32 false
  | .mad o => o.ok Fmt.six
  | .min o | .max o => o.ok Fmt.ordered false
  | .abs o => o.ok (fun t => t == .i32 || t == .i64)
  | .neg o | .not o | .mov o => o.ok Fmt.six
  | .shl o | .shr o | .sar o => o.ok Fmt.six true
  | .rot o => o.ok Fmt.narrow false
  | .bfe o => o.ok Fmt.pair32 false
  | .bfi o => o.ok Fmt.narrow
  | .popc o | .clz o | .brev o => o.ok Fmt.narrow
  | .cmp o => o.ty.six && o.cc.integer && (o.ty.ordered || o.cc.equality) && o.d.ok && o.a.ok o.ty.wide (!o.ty.wide)
      && o.b.ok o.ty.wide (!o.ty.wide) && noDashPort o.d.isDash [o.a, o.b]
  | .sel o _ => o.ok Fmt.six false
  | .movi _ d ty _ => ty.six && d.ok ty.wide false
  | .movs _ d a ty => ty.six && d.ok ty.wide (!ty.wide) && a.noImm
  | .fadd o | .fsub o | .fmul o => o.ok
  | .ffma o => o.ok
  | .fmin o | .fmax o => o.ok Fmt.arith false
  | .fcmp o => o.ty.arith && o.d.ok && noDashPort o.d.isDash [o.a, o.b]
  | .fclass o => o.ok Fmt.isFloat
  | .fround o => o.ok Fmt.arith
  | .frcp o | .frsq o | .fsqrt o | .fex2 o | .flg2 o | .fsin o | .fcos o => o.ok (fun t => t == .f32)
  | .cvt _ d a toF frm _ => cvtOk toF frm && d.ok toF.wide false && a.ok frm.wide false
  | .pack2 o => (o.ty.packed || o.ty == .b32) && o.d.ok (o.ty == .b32) (o.ty != .b32) && o.a.ok false true && o.b.ok false true
      && noDashPort o.d.isDash [o.a, o.b]
  | .unpk2 o => o.ty.packed && o.d.ok true false && o.a.ok false true && noDashPort o.d.isDash [o.a]
  | .shfl _ d a ty mode seg => ty.lanes && d.ok ty.wide false && a.ok ty.wide false && seg != 7
      && (match mode with | .pick b => b.ok false false | _ => true)
  | .vote _ op _ => match op with
    | .some d | .every d | .none d => d.ok
    | _ => true
  | .matchv _ op a ty => ty.lanes && a.ok ty.wide false && (match op with
    | .mask d => d.ok true false
    | .lead d => d.ok
    | .cnt d => d.ok false false)
  | .redux _ op _ a ty => reduxOk op ty && a.ok ty.wide false
  | .vscan _ op _ d a ty => reduxOk op ty && op != .argmin && op != .argmax && d.ok ty.wide false && a.ok ty.wide false
  | .ld _ d m ty => m.ok && ty.access && (!ty.wide || d.getLsbD 0 == false)
  | .st _ m c ty => m.ok && ty.access && c.ok ty.wide false
  | .sld _ _ _ a _ ty => a.noImm && ty.access
  | .sst _ _ a _ c ty => a.noImm && c.noImm && ty.access
  | .pref _ m ty => m.ok && m.sp == .g && ty.access
  | .atom _ d m c => m.ok false && atomSrcOk m.op m.ty c && (!m.ty.wide || d.getLsbD 0 == false)
  | .red _ m c => redOk m c false
  | .redFar _ m c => redOk m c true
  | .bar _ n => decide (1 ≤ n.toNat ∧ n.toNat ≤ 32)
  | .arrive _ a => a.noImm
  | .arrivex _ a _ | .bwait a _ => a.noImm
  | .paint _ a n c => a.noImm && n.noImm && c != 0
  | .unpaint _ a n | .freeze _ a n | .thaw _ a n | .fput _ a n | .tlbinv a n => a.noImm && n.noImm
  | .mwait _ c | .mnotify _ c | .mnotifyall _ c => c != 0
  | .frzq _ _ a | .binflush _ a | .fget _ _ a | .launch _ _ a | .retake _ _ a => a.noImm
  | .spawn _ a b => a.noImm && (match b with | .reg k => k.toNat % 4 == 0 | _ => false)
  | .mma o | .mmas o | .mmaq o => o.ok
  | .sacc _ _ _ c s ty mc nc _ => c.noImm && s.noImm && (ty == .f32 || ty == .i32) && mc != 3 && nc != 3
  | .acczPair _ d => tileOk true d
  | .accld _ d a o ty mc nc => tileOk (mc == 3) d && a.noImm && o.noImm && (ty == .f32 || ty == .i32) && nc != 3
  | .accst _ a o t ty mc nc => tileOk (mc == 3) t && a.noImm && o.noImm
      && (ty == .f32 || ty == .i32 || ty == .f16 || ty == .bf16) && nc != 3
  | .accdrain _ a | .accfill _ a => a.noImm
  | .copy _ d s | .xcopy _ d s _ => d.noImm && s.noImm
  | .copyBar _ d s b => d.noImm && s.noImm && b.noImm
  | .srd _ _ num => srAssigned num
  | .swr _ a num => a.noImm && srAssigned num
  | .idle n => n != 0
  | i => !i.isEvent

end Sys2Proof
end

