-- ==== Sys2Proof/Decode.lean ====
section
/-! DEFINITION. Decoding of the 96-bit instruction word (R155 to R161, R167 to R170 and the encoding tables R174 to R274),
total on every word: an instruction, or the lowest ILLEGAL detail of R169. The encoder stands after it. The line word
(R148, R149) is read here too. -/

namespace Sys2Proof

/-! ## Fields (R155) -/

/-- The fields of an instruction word (R155). -/
structure Fields where
  opc : BitVec 10
  grd : BitVec 4
  dst : BitVec 9
  nwb : Bool
  sa : BitVec 9
  sela : BitVec 2
  sb : BitVec 9
  selb : BitVec 2
  sc : BitVec 9
  selc : BitVec 2
  typ : BitVec 4
  mod : BitVec 3
  imm : BitVec 32
  deriving DecidableEq, Repr

/-- Bits `hi:lo` of a word, as a vector of width `n`. -/
def bitsAt {w : Nat} (x : BitVec w) (lo n : Nat) : BitVec n := x.extractLsb' lo n

/-- The fields of a word. -/
def Fields.ofWord (w : IWord) : Fields :=
  { opc := bitsAt w 86 10, grd := bitsAt w 82 4, dst := bitsAt w 73 9, nwb := w.getLsbD 72, sa := bitsAt w 63 9,
    sela := bitsAt w 61 2, sb := bitsAt w 52 9, selb := bitsAt w 50 2, sc := bitsAt w 41 9, selc := bitsAt w 39 2,
    typ := bitsAt w 35 4, mod := bitsAt w 32 3, imm := bitsAt w 0 32 }

/-- The word of the fields. -/
def Fields.toWord (f : Fields) : IWord :=
  f.opc ++ f.grd ++ f.dst ++ BitVec.ofBool f.nwb ++ f.sa ++ f.sela ++ f.sb ++ f.selb ++ f.sc ++ f.selc ++ f.typ ++ f.mod ++ f.imm

/-! ## Codes -/

/-- The format of a code (R130). -/
def Fmt.ofCode (c : BitVec 4) : Fmt :=
  match c.toNat with
  | 0 => .n8 | 1 => .n16 | 2 => .n32 | 3 => .n64 | 4 => .i8 | 5 => .i16 | 6 => .i32 | 7 => .i64
  | 8 => .b32 | 9 => .b64 | 10 => .f16 | 11 => .bf16 | 12 => .f32 | 13 => .f8a | 14 => .f8b | _ => .q4n

/-- The code of a format (R130). -/
def Fmt.code (t : Fmt) : BitVec 4 :=
  match t with
  | .n8 => 0 | .n16 => 1 | .n32 => 2 | .n64 => 3 | .i8 => 4 | .i16 => 5 | .i32 => 6 | .i64 => 7
  | .b32 => 8 | .b64 => 9 | .f16 => 10 | .bf16 => 11 | .f32 => 12 | .f8a => 13 | .f8b => 14 | .q4n => 15

/-- The condition of a code (R159). -/
def Cond.ofCode (c : BitVec 3) : Cond :=
  match c.toNat with
  | 0 => .eq | 1 => .ne | 2 => .lt | 3 => .le | 4 => .gt | 5 => .ge | 6 => .un | _ => .ord

/-- The code of a condition. -/
def Cond.code (c : Cond) : BitVec 3 :=
  match c with
  | .eq => 0 | .ne => 1 | .lt => 2 | .le => 3 | .gt => 4 | .ge => 5 | .un => 6 | .ord => 7

/-- The rounding mode of a code (R134); codes 5 to 7 are refused before this is read. -/
def RMode.ofCode (c : BitVec 3) : RMode :=
  match c.toNat with
  | 0 => .rne | 1 => .rtz | 2 => .rup | 3 => .rdn | _ => .rto

/-- The code of a rounding mode. -/
def RMode.code (r : RMode) : BitVec 3 :=
  match r with
  | .rne => 0 | .rtz => 1 | .rup => 2 | .rdn => 3 | .rto => 4

/-- The space of a code (R160). -/
def Space.ofCode (c : BitVec 2) : Space :=
  match c.toNat with
  | 0 => .g | 1 => .l | _ => .p

/-- The code of a space. -/
def Space.code (s : Space) : BitVec 2 :=
  match s with
  | .g => 0 | .l => 1 | .p => 2

/-- The scope of a code (R160). -/
def Scope.ofCode (c : BitVec 2) : Scope :=
  match c.toNat with
  | 0 => .cr | 1 => .dv | _ => .sy

/-- The code of a scope. -/
def Scope.code (s : Scope) : BitVec 2 :=
  match s with
  | .cr => 0 | .dv => 1 | .sy => 2

/-- The ordering of a code (R160). -/
def Ord.ofCode (c : BitVec 2) : Ord :=
  match c.toNat with
  | 0 => .relaxed | 1 => .acq | 2 => .rel | _ => .ar

/-- The code of an ordering. -/
def Ord.code (o : Ord) : BitVec 2 :=
  match o with
  | .relaxed => 0 | .acq => 1 | .rel => 2 | .ar => 3

/-- The atomic operation of a code (R216); codes 8 to 15 are refused before this is read. -/
def AOp.ofCode (c : BitVec 4) : AOp :=
  match c.toNat with
  | 0 => .add | 1 => .min | 2 => .max | 3 => .and | 4 => .or | 5 => .xor | 6 => .exch | _ => .cas

/-- The code of an atomic operation. -/
def AOp.code (o : AOp) : BitVec 4 :=
  match o with
  | .add => 0 | .min => 1 | .max => 2 | .and => 3 | .or => 4 | .xor => 5 | .exch => 6 | .cas => 7

/-- The counter of a code (R219). -/
def Ctr.ofCode (c : BitVec 2) : Ctr :=
  match c.toNat with
  | 0 => .lc | 1 => .sc | 2 => .cc | _ => .xc

/-- The code of a counter. -/
def Ctr.code (k : Ctr) : BitVec 2 :=
  match k with
  | .lc => 0 | .sc => 1 | .cc => 2 | .xc => 3

/-- The operation of `redux` of a code (R205). -/
def RedOp.ofCode (c : BitVec 3) : RedOp :=
  match c.toNat with
  | 0 => .add | 1 => .min | 2 => .max | 3 => .and | 4 => .or | 5 => .xor | 6 => .argmin | _ => .argmax

/-- The code of an operation of `redux`. -/
def RedOp.code (o : RedOp) : BitVec 3 :=
  match o with
  | .add => 0 | .min => 1 | .max => 2 | .and => 3 | .or => 4 | .xor => 5 | .argmin => 6 | .argmax => 7

/-- The latch of a nonzero select (R155). -/
def LatchSel.ofSel (c : BitVec 2) : LatchSel :=
  match c.toNat with
  | 1 => .b0 | 2 => .b1 | _ => .b2

/-- The select of a latch. -/
def LatchSel.sel (l : LatchSel) : BitVec 2 :=
  match l with
  | .b0 => 1 | .b1 => 2 | .b2 => 3

/-! ## Checks

A check answers the ILLEGAL details that fail (R169); the parsers answer an operand and the details. -/

/-- Detail `d` when `bad` holds. -/
def bad (b : Bool) (d : Nat) : List Nat := if b then [d] else []

/-- A field that the instruction does not use: zero with select 00 (R157). -/
def unused (f : BitVec 9) (sel : BitVec 2) : List Nat := bad (f != 0 || sel != 0) 2

/-- Source B is unused. -/
def noB (f : Fields) : List Nat := unused f.sb f.selb
/-- Source C is unused. -/
def noC (f : Fields) : List Nat := unused f.sc f.selc
/-- Sources A, B and C are unused. -/
def noABC (f : Fields) : List Nat := unused f.sa f.sela ++ noB f ++ noC f
/-- The guard is unused. -/
def noG (f : Fields) : List Nat := bad (f.grd != 0) 2
/-- NWB is not allowed; DST is zero under it (R158). -/
def noNwb (f : Fields) : List Nat := bad f.nwb 11 ++ bad (f.nwb && f.dst != 0) 2
/-- There is no destination. -/
def noD (f : Fields) : List Nat := bad (f.dst != 0) 2 ++ bad f.nwb 11
/-- TYP is zero (R159; a value not listed raises detail 3). -/
def noT (f : Fields) : List Nat := bad (f.typ != 0) 3
/-- MOD is zero. -/
def noMod (f : Fields) : List Nat := bad (f.mod != 0) 4
/-- IMM has only bits of `m`. -/
def immMask (f : Fields) (m : BitVec 32) : List Nat := bad (f.imm &&& ~~~m != 0) 2
/-- IMM is zero. -/
def noImm (f : Fields) : List Nat := immMask f 0
/-- MOD is a rounding mode. -/
def modRound (f : Fields) : List Nat := bad (decide (4 < f.mod.toNat)) 4

/-- A source of kind S; `imm` allows IMM. A latch select on a field that selects IMM is detail 12 (R157). -/
def srcS (imm : Bool) (fld : BitVec 9) (sel : BitVec 2) (v : BitVec 32) : SSrc × List Nat :=
  if imm && fld == 0x100 then (.imm v, bad (sel != 0) 12)
  else if sel != 0 then (.latch (LatchSel.ofSel sel), bad (fld != 0) 2)
  else (.reg (bitsAt fld 0 6), bad (bitsAt fld 6 3 != 0) 2)

/-- A source of kind M. -/
def srcM (fld : BitVec 9) (sel : BitVec 2) : MSrc × List Nat :=
  if sel != 0 then (.latch (LatchSel.ofSel sel), bad (fld != 0) 2)
  else (.reg (bitsAt fld 0 4), bad (bitsAt fld 4 5 != 0) 2)

/-- A source of kind V below `n`, aligned to `al` registers; `port` is its port bit, `pok` whether a port may stand here. -/
def srcV (n al : Nat) (pok port : Bool) (fld : BitVec 9) (sel : BitVec 2) : VSrc × List Nat :=
  if port then (.port (bitsAt fld 0 2), bad (!pok || sel != 0 || bitsAt fld 2 7 != 0) 7)
  else if sel != 0 then (.latch (LatchSel.ofSel sel), bad (fld != 0) 2)
  else (.reg fld, bad (decide (n ≤ fld.toNat)) 5 ++ bad (decide (fld.toNat % al ≠ 0)) 6)

/-- A destination of kind S; under NWB it is `dash`. -/
def dstS (f : Fields) : SDst × List Nat :=
  if f.nwb then (.dash, bad (f.dst != 0) 2) else (.reg (bitsAt f.dst 0 6), bad (bitsAt f.dst 6 3 != 0) 2)

/-- A destination of kind M; `m0` is none. -/
def dstM (f : Fields) : MDst × List Nat :=
  if f.nwb then (.dash, bad (f.dst != 0) 2)
  else (.reg (bitsAt f.dst 0 4), bad (bitsAt f.dst 4 5 != 0) 2 ++ bad (f.dst == 0) 8)

/-- A destination of kind V. -/
def dstV (n al : Nat) (pok port : Bool) (f : Fields) : VDst × List Nat :=
  if f.nwb then (.dash, bad (f.dst != 0) 2 ++ bad (port && !pok) 7 ++ bad port 11)
  else if port then (.port (bitsAt f.dst 0 2), bad (!pok || bitsAt f.dst 2 7 != 0) 7)
  else (.reg f.dst, bad (decide (n ≤ f.dst.toNat)) 5 ++ bad (decide (f.dst.toNat % al ≠ 0)) 6)

/-- A plain `s` register destination without NWB. -/
def dstS6 (f : Fields) : BitVec 6 × List Nat := (bitsAt f.dst 0 6, bad (bitsAt f.dst 6 3 != 0) 2 ++ noNwb f)

/-- A plain `v` register destination without NWB. -/
def dstV9 (n al : Nat) (f : Fields) : BitVec 9 × List Nat :=
  (f.dst, bad (decide (n ≤ f.dst.toNat)) 5 ++ bad (decide (f.dst.toNat % al ≠ 0)) 6 ++ noNwb f)

/-- An accumulator tile in a field (R157). -/
def tile (pair : Bool) (fld : BitVec 9) : BitVec 4 × List Nat :=
  (bitsAt fld 0 4, bad (bitsAt fld 4 5 != 0) 2 ++ bad (pair && fld.getLsbD 0) 6)

/-- The type of the instruction. -/
def Fields.ty (f : Fields) : Fmt := Fmt.ofCode f.typ
/-- TYP is one of those of `p`. -/
def tyIn (f : Fields) (p : Fmt → Bool) : List Nat := bad (!p f.ty) 3
/-- Registers of one value of the type: two under a 64-bit type. -/
def Fmt.regs (t : Fmt) : Nat := if t.wide then 2 else 1

/-! The port word (R161). -/
/-- PORTD. -/
def Fields.pD (f : Fields) : Bool := f.imm.getLsbD 3
/-- PORTA. -/
def Fields.pA (f : Fields) : Bool := f.imm.getLsbD 2
/-- PORTB. -/
def Fields.pB (f : Fields) : Bool := f.imm.getLsbD 1
/-- PORTC. -/
def Fields.pC (f : Fields) : Bool := f.imm.getLsbD 0
/-- Bits 31:4 of the port word are zero; NWB does not stand beside a port (R158, R162). -/
def portWord (f : Fields) : List Nat := immMask f 15 ++ bad (f.nwb && f.imm &&& 15 != 0) 11

/-! ## Shapes of operands -/

/-- A decoded instruction with the details that fail. -/
abbrev Dec := Instr × List Nat

/-- One-source scalar (R184). -/
def decS1 (f : Fields) (k : SOp1 → Instr) : Dec :=
  let d := dstS f
  let a := srcS false f.sa f.sela f.imm
  (k ⟨f.grd, d.1, a.1, f.ty⟩, d.2 ++ a.2 ++ noB f ++ noC f ++ tyIn f Fmt.scalar ++ noMod f ++ noImm f)

/-- IMM is zero unless source B selects it (R184). -/
def immFree (f : Fields) : List Nat := if f.sb == 0x100 then [] else noImm f

/-- Two-source scalar, MOD checked by `m` (R184). -/
def decS2 (f : Fields) (m : List Nat) (k : SOp2 → Instr) : Dec :=
  let d := dstS f
  let a := srcS false f.sa f.sela f.imm
  let b := srcS true f.sb f.selb f.imm
  (k ⟨f.grd, d.1, a.1, b.1, f.ty⟩, d.2 ++ a.2 ++ b.2 ++ noC f ++ tyIn f Fmt.scalar ++ m ++ immFree f)

/-- Three-source scalar. -/
def decS3 (f : Fields) (k : SOp3 → Instr) : Dec :=
  let d := dstS f
  let a := srcS false f.sa f.sela f.imm
  let b := srcS true f.sb f.selb f.imm
  let c := srcS false f.sc f.selc f.imm
  (k ⟨f.grd, d.1, a.1, b.1, c.1, f.ty⟩, d.2 ++ a.2 ++ b.2 ++ c.2 ++ tyIn f Fmt.scalar ++ noMod f ++ immFree f)

/-- One-source vector of types `p` (R187). -/
def decV1 (n : Nat) (f : Fields) (p : Fmt → Bool) (k : VOp1 → Instr) : Dec :=
  let al := f.ty.regs
  let d := dstV n al (!f.ty.wide) f.pD f
  let a := srcV n al (!f.ty.wide) f.pA f.sa f.sela
  (k ⟨f.grd, d.1, a.1, f.ty⟩,
    d.2 ++ a.2 ++ noB f ++ noC f ++ tyIn f p ++ noMod f ++ portWord f ++ bad (f.pB || f.pC) 7)

/-- Two-source vector of types `p`; `one` says that B is one register under every type. -/
def decV2 (n : Nat) (f : Fields) (p : Fmt → Bool) (one : Bool) (k : VOp2 → Instr) : Dec :=
  let al := f.ty.regs
  let d := dstV n al (!f.ty.wide) f.pD f
  let a := srcV n al (!f.ty.wide) f.pA f.sa f.sela
  let b := srcV n (if one then 1 else al) (!f.ty.wide) f.pB f.sb f.selb
  (k ⟨f.grd, d.1, a.1, b.1, f.ty⟩,
    d.2 ++ a.2 ++ b.2 ++ noC f ++ tyIn f p ++ noMod f ++ portWord f ++ bad f.pC 7)

/-- Three-source vector of types `p`. -/
def decV3 (n : Nat) (f : Fields) (p : Fmt → Bool) (k : VOp3 → Instr) : Dec :=
  let al := f.ty.regs
  let d := dstV n al (!f.ty.wide) f.pD f
  let a := srcV n al (!f.ty.wide) f.pA f.sa f.sela
  let b := srcV n al (!f.ty.wide) f.pB f.sb f.selb
  let c := srcV n al (!f.ty.wide) f.pC f.sc f.selc
  (k ⟨f.grd, d.1, a.1, b.1, c.1, f.ty⟩, d.2 ++ a.2 ++ b.2 ++ c.2 ++ tyIn f p ++ noMod f ++ portWord f)

/-- One-source float of types `p` with a rounding mode (R190). -/
def decF1 (n : Nat) (f : Fields) (p : Fmt → Bool) (k : FOp1 → Instr) : Dec :=
  let d := dstV n 1 true f.pD f
  let a := srcV n 1 true f.pA f.sa f.sela
  (k ⟨f.grd, d.1, a.1, f.ty, RMode.ofCode f.mod⟩,
    d.2 ++ a.2 ++ noB f ++ noC f ++ tyIn f p ++ modRound f ++ portWord f ++ bad (f.pB || f.pC) 7)

/-- Two-source float with a rounding mode. -/
def decF2 (n : Nat) (f : Fields) (k : FOp2 → Instr) : Dec :=
  let d := dstV n 1 true f.pD f
  let a := srcV n 1 true f.pA f.sa f.sela
  let b := srcV n 1 true f.pB f.sb f.selb
  (k ⟨f.grd, d.1, a.1, b.1, f.ty, RMode.ofCode f.mod⟩,
    d.2 ++ a.2 ++ b.2 ++ noC f ++ tyIn f Fmt.arith ++ modRound f ++ portWord f ++ bad f.pC 7)

/-- Three-source float with a rounding mode. -/
def decF3 (n : Nat) (f : Fields) (k : FOp3 → Instr) : Dec :=
  let d := dstV n 1 true f.pD f
  let a := srcV n 1 true f.pA f.sa f.sela
  let b := srcV n 1 true f.pB f.sb f.selb
  let c := srcV n 1 true f.pC f.sc f.selc
  (k ⟨f.grd, d.1, a.1, b.1, c.1, f.ty, RMode.ofCode f.mod⟩,
    d.2 ++ a.2 ++ b.2 ++ c.2 ++ tyIn f Fmt.arith ++ modRound f ++ portWord f)

/-- A comparison of types `p`, MOD checked by `m` (R189, R193). -/
def decCmp (n : Nat) (f : Fields) (p : Fmt → Bool) (m : List Nat) (k : CmpOp → Instr) : Dec :=
  let al := f.ty.regs
  let d := dstM f
  let a := srcV n al (!f.ty.wide) f.pA f.sa f.sela
  let b := srcV n al (!f.ty.wide) f.pB f.sb f.selb
  (k ⟨f.grd, d.1, a.1, b.1, f.ty, Cond.ofCode f.mod⟩,
    d.2 ++ a.2 ++ b.2 ++ noC f ++ tyIn f p ++ m ++ portWord f ++ bad (f.pC || f.pD) 7)

/-- Fields of a control instruction that has at most a guard and an immediate of bits `m` (R182). -/
def decCtl (f : Fields) (guard : Bool) (m : BitVec 32) (i : Instr) : Dec :=
  (i, noD f ++ noABC f ++ noT f ++ noMod f ++ immMask f m ++ (if guard then [] else noG f))

/-- `gets` (R167): the number before the kind. -/
def decGets (n : Nat) (f : Fields) : Dec :=
  let num : BitVec 8 := bitsAt f.imm 0 8
  let d : GDst × List Nat :=
    if num == 0 then (let d := dstV n 1 false false f; (.v d.1, d.2))
    else if num == 1 then (let d := dstM f; (.m d.1, d.2))
    else if decide (num.toNat ≤ 19) then (let d := dstS f; (.s d.1, d.2))
    else (.s .dash, [4])
  (.gets f.grd d.1 num, d.2 ++ noABC f ++ noT f ++ noMod f ++ immMask f 255)

/-- `cmp` accepts `eq` and `ne` with every type, and the others with `i` and `n` types (R189). -/
def cmpMod (f : Fields) : List Nat :=
  bad (!(Cond.ofCode f.mod).integer || ((f.ty == .b32 || f.ty == .b64) && !(Cond.ofCode f.mod).equality)) 4

/-- `pack2` (R199). -/
def decPack (n : Nat) (f : Fields) : Dec :=
  let w := f.ty == .b32
  let d := dstV n (if w then 2 else 1) (!w) f.pD f
  let a := srcV n 1 true f.pA f.sa f.sela
  let b := srcV n 1 true f.pB f.sb f.selb
  (.pack2 ⟨f.grd, d.1, a.1, b.1, f.ty⟩, d.2 ++ a.2 ++ b.2 ++ noC f ++ tyIn f (fun t => t.packed || t == .b32) ++ noMod f
    ++ portWord f ++ bad f.pC 7)

/-- `unpk2` (R200). -/
def decUnpk (n : Nat) (f : Fields) : Dec :=
  let d := dstV n 2 false f.pD f
  let a := srcV n 1 true f.pA f.sa f.sela
  (.unpk2 ⟨f.grd, d.1, a.1, f.ty⟩, d.2 ++ a.2 ++ noB f ++ noC f ++ tyIn f Fmt.packed ++ noMod f ++ portWord f
    ++ bad (f.pB || f.pC) 7)

/-- `cvt` (R197). -/
def decCvt (n : Nat) (f : Fields) : Dec :=
  let frm := Fmt.ofCode (bitsAt f.imm 0 4)
  let d := dstV n f.ty.regs false false f
  let a := srcV n frm.regs false false f.sa f.sela
  (.cvt f.grd d.1 a.1 f.ty frm (RMode.ofCode f.mod), d.2 ++ a.2 ++ noB f ++ noC f ++ bad (!cvtOk f.ty frm) 3 ++ modRound f
    ++ immMask f 15)

/-- The segment width of a code (R202). -/
def segWidth (w : Nat) (k : BitVec 3) : Nat := if k == 0 then w else 2 ^ k.toNat

/-- `shfl` (R202).  MOD 7 names no operation, and R202 does not say which fields are unused there: SB counts as unused
(detail 2 where it is not 0) and IMM⟨5:0⟩ does not, so that detail 4 alone is raised over it (DESIGN CHOICE, log 18). -/
def decShfl (n w : Nat) (f : Fields) : Dec :=
  let d := dstV n f.ty.regs false false f
  let a := srcV n f.ty.regs false false f.sa f.sela
  let b := srcV n 1 false false f.sb f.selb
  let δ : BitVec 6 := bitsAt f.imm 0 6
  let k : BitVec 3 := bitsAt f.imm 8 3
  let m : ShflMode × List Nat :=
    match f.mod.toNat with
    | 0 => (.pick b.1, b.2 ++ bad (δ != 0) 2)
    | 1 => (.rot δ, noB f)
    | 2 => (.rev, noB f ++ bad (δ != 0) 2)
    | 3 => (.flip δ, noB f)
    | 4 => (.one δ, noB f)
    | 5 => (.zip, noB f ++ bad (δ != 0) 2)
    | 6 => (.unzip, noB f ++ bad (δ != 0) 2)
    | _ => (.rev, noB f ++ [4])
  (.shfl f.grd d.1 a.1 f.ty m.1 k, d.2 ++ a.2 ++ m.2 ++ noC f ++ tyIn f Fmt.lanes ++ immMask f 0x73F
    ++ bad (k == 7 || decide (w < segWidth w k)) 4)

/-- `vote` (R203). -/
def decVote (f : Fields) : Dec :=
  let a := srcM f.sa f.sela
  let dm := dstM f
  let ds := dstS f
  let o : VoteOp × List Nat :=
    match f.mod.toNat with
    | 0 => (.some dm.1, dm.2)
    | 1 => (.every dm.1, dm.2)
    | 2 => (.none dm.1, dm.2)
    | 3 => (.bits ds.1, ds.2)
    | 4 => (.count ds.1, ds.2)
    | 5 => (.first ds.1, ds.2)
    | _ => (.bits .dash, [4])
  (.vote f.grd o.1 a.1, o.2 ++ a.2 ++ noB f ++ noC f ++ bad (f.ty != .b32) 3 ++ noImm f)

/-- `match` (R204). -/
def decMatch (n : Nat) (f : Fields) : Dec :=
  let a := srcV n f.ty.regs false false f.sa f.sela
  let o : MatchOp × List Nat :=
    match f.mod.toNat with
    | 0 => (let d := dstV n 2 false false f; (.mask d.1, d.2))
    | 1 => (let d := dstM f; (.lead d.1, d.2))
    | 2 => (let d := dstV n 1 false false f; (.cnt d.1, d.2))
    | _ => (.cnt .dash, [4])
  (.matchv f.grd o.1 a.1 f.ty, o.2 ++ a.2 ++ noB f ++ noC f ++ tyIn f Fmt.lanes ++ noImm f)

/-- `redux` (R205). -/
def decRedux (n : Nat) (f : Fields) : Dec :=
  let d := dstS f
  let a := srcV n f.ty.regs false false f.sa f.sela
  let op := RedOp.ofCode f.mod
  (.redux f.grd op d.1 a.1 f.ty, d.2 ++ a.2 ++ noB f ++ noC f ++ tyIn f (reduxOk op) ++ noImm f)

/-- `vscan` (R206): MOD 6 and 7 raise detail 4 with every type that another MOD takes. -/
def decVscan (n : Nat) (f : Fields) : Dec :=
  let d := dstV n f.ty.regs false false f
  let a := srcV n f.ty.regs false false f.sa f.sela
  let op := RedOp.ofCode f.mod
  (.vscan f.grd op (f.imm.getLsbD 0) d.1 a.1 f.ty, d.2 ++ a.2 ++ noB f ++ noC f
    ++ tyIn f (fun t => if op == .argmin || op == .argmax then reduxOk .and t || reduxOk .add t else reduxOk op t)
    ++ bad (op == .argmin || op == .argmax) 4 ++ immMask f 1)

/-! ## Memory (R160, R220) -/

/-- OFS (R160). -/
def Fields.ofs (f : Fields) : Bool := f.mod.getLsbD 2
/-- The space bits of MOD. -/
def Fields.spc (f : Fields) : BitVec 2 := bitsAt f.mod 0 2

/-- The offset register, used only under OFS. -/
def offV (n : Nat) (f : Fields) : Option VSrc × List Nat :=
  if f.ofs then (let b := srcV n 1 false false f.sb f.selb; (some b.1, b.2)) else (none, noB f)

/-- A per-lane address with a displacement in IMM. -/
def decAddr (n : Nat) (f : Fields) : MAddr × List Nat :=
  let a := srcS false f.sa f.sela f.imm
  let b := offV n f
  (⟨Space.ofCode f.spc, a.1, b.1, f.imm⟩, a.2 ++ b.2 ++ bad (f.spc == 3) 4)

/-- The atomic control word with the address (R160, R216 to R218). -/
def decAtomCtl (n : Nat) (f : Fields) : AtomCtl × List Nat :=
  let a := srcS false f.sa f.sela f.imm
  let b := offV n f
  let aop : BitVec 4 := bitsAt f.imm 28 4
  let scp : BitVec 2 := bitsAt f.imm 24 2
  let sp := Space.ofCode f.spc
  (⟨sp, a.1, b.1, bitsAt f.imm 0 23, AOp.ofCode aop, Ord.ofCode (bitsAt f.imm 26 2), Scope.ofCode scp, f.ty⟩,
    a.2 ++ b.2 ++ bad (f.spc == 3 || scp == 3 || (sp == .l && scp != 0)) 4 ++ bad (decide (7 < aop.toNat)) 4
      ++ (if 7 < aop.toNat then tyIn f (fun t => t.six || t == .f32) else tyIn f (aopOk (AOp.ofCode aop))))

/-- Registers that the data of an atomic is a multiple of (R217). -/
def atomAlign (op : AOp) (t : Fmt) : Nat :=
  match op with
  | .cas => if t.wide then 4 else 2
  | _ => t.regs

/-- The data source of an atomic; no latch for `cas` (R217). -/
def atomSrc (n : Nat) (f : Fields) (op : AOp) : VSrc × List Nat :=
  let c := srcV n (atomAlign op f.ty) false false f.sc f.selc
  (c.1, c.2 ++ bad (op == .cas && f.selc != 0) 12)

/-- `atom` (R216). -/
def decAtom (n : Nat) (f : Fields) : Dec :=
  let m := decAtomCtl n f
  let c := atomSrc n f m.1.op
  let d := dstV9 n f.ty.regs f
  (.atom f.grd d.1 m.1 c.1, m.2 ++ c.2 ++ d.2 ++ bad (f.imm.getLsbD 23) 2)

/-- `red` (R216, R218): no `exch` or `cas`, relaxed or `.rel`, `.far` in `.g` only. -/
def decRed (n : Nat) (f : Fields) : Dec :=
  let m := decAtomCtl n f
  let c := atomSrc n f m.1.op
  let far := f.imm.getLsbD 23
  let i : Instr := if far then .redFar f.grd m.1 c.1 else .red f.grd m.1 c.1
  (i, m.2 ++ c.2 ++ noD f
    ++ bad (m.1.op == .exch || m.1.op == .cas || !(m.1.ord == .relaxed || m.1.ord == .rel) || (far && m.1.sp != .g)) 4)

/-! ## Classes 110 and 111 -/

/-- TYP and MOD are zero. -/
def noTM (f : Fields) : List Nat := noT f ++ noMod f

/-- One S source, no destination. -/
def decA (f : Fields) (k : SSrc → Instr) : Dec :=
  let a := srcS false f.sa f.sela f.imm
  (k a.1, a.2 ++ noD f ++ noB f ++ noC f ++ noTM f ++ noImm f)

/-- An S destination and one S source. -/
def decDA (f : Fields) (g : List Nat) (k : BitVec 6 → SSrc → Instr) : Dec :=
  let a := srcS false f.sa f.sela f.imm
  let d := dstS6 f
  (k d.1 a.1, d.2 ++ a.2 ++ noB f ++ noC f ++ noTM f ++ noImm f ++ g)

/-- Two S sources, no destination, IMM of bits `m`. -/
def decAB (f : Fields) (m : BitVec 32) (g : List Nat) (k : SSrc → SSrc → Instr) : Dec :=
  let a := srcS false f.sa f.sela f.imm
  let b := srcS false f.sb f.selb f.imm
  (k a.1 b.1, noD f ++ a.2 ++ b.2 ++ noC f ++ noTM f ++ immMask f m ++ g)

/-- A colour in IMM (R225). -/
def colourImm (f : Fields) : List Nat := bad ((bitsAt f.imm 0 12 : BitVec 12) == 0) 4

/-- Matrix operations (R243). -/
def decMma (f : Fields) (k : MmaOp → Instr) : Dec :=
  let a := srcS false f.sa f.sela f.imm
  let b := srcS false f.sb f.selb f.imm
  let o := srcS false f.sc f.selc f.imm
  let d := tile false f.dst
  let fb := Fmt.ofCode (bitsAt f.imm 8 4)
  let mc : BitVec 2 := bitsAt f.imm 0 2
  let nc : BitVec 2 := bitsAt f.imm 2 2
  let kc : BitVec 2 := bitsAt f.imm 4 2
  (k ⟨f.grd, d.1, a.1, b.1, o.1, f.ty, fb, mc, nc, kc, f.mod.getLsbD 2, f.mod.getLsbD 1, f.mod.getLsbD 0⟩,
    d.2 ++ a.2 ++ b.2 ++ o.2 ++ noNwb f ++ bad (!mmaPair f.ty fb) 3
      ++ bad (mc == 3 || nc == 3 || (if f.ty == .q4n then kc != 0 else kc == 3) || f.imm &&& 0xFFFFF0C0 != 0) 4)

/-- `sacc` (R249). -/
def decSacc (f : Fields) : Dec :=
  let d := tile false f.dst
  let p := tile false f.sa
  let c := srcS false f.sb f.selb f.imm
  let s := srcS false f.sc f.selc f.imm
  let mc : BitVec 2 := bitsAt f.imm 0 2
  let nc : BitVec 2 := bitsAt f.imm 2 2
  (.sacc f.grd d.1 p.1 c.1 s.1 f.ty mc nc (f.mod.getLsbD 0),
    d.2 ++ p.2 ++ bad (f.sela != 0) 12 ++ c.2 ++ s.2 ++ noNwb f ++ tyIn f (fun t => t == .f32 || t == .i32)
      ++ bad (mc == 3 || nc == 3 || (bitsAt f.mod 1 2 : BitVec 2) != 0) 4 ++ immMask f 15)

/-- `accld` (R250). -/
def decAccld (f : Fields) : Dec :=
  let mc : BitVec 2 := bitsAt f.imm 0 2
  let nc : BitVec 2 := bitsAt f.imm 2 2
  let d := tile (mc == 3) f.dst
  let a := srcS false f.sa f.sela f.imm
  let o := srcS false f.sb f.selb f.imm
  (.accld f.grd d.1 a.1 o.1 f.ty mc nc, d.2 ++ a.2 ++ o.2 ++ noC f ++ noNwb f ++ tyIn f (fun t => t == .f32 || t == .i32)
    ++ bad (nc == 3) 4 ++ noMod f ++ immMask f 15)

/-- `accst` (R251). -/
def decAccst (f : Fields) : Dec :=
  let mc : BitVec 2 := bitsAt f.imm 0 2
  let nc : BitVec 2 := bitsAt f.imm 2 2
  let t := tile (mc == 3) f.sc
  let a := srcS false f.sa f.sela f.imm
  let o := srcS false f.sb f.selb f.imm
  (.accst f.grd a.1 o.1 t.1 f.ty mc nc, t.2 ++ bad (f.selc != 0) 12 ++ a.2 ++ o.2 ++ noD f
    ++ tyIn f (fun t => t == .f32 || t == .i32 || t == .f16 || t == .bf16) ++ bad (nc == 3) 4 ++ noMod f ++ immMask f 15)

/-- `copy` and `copy.bar` (R254). -/
def decCopy (f : Fields) : Dec :=
  let d := srcS false f.sa f.sela f.imm
  let s := srcS false f.sb f.selb f.imm
  let b := srcS false f.sc f.selc f.imm
  let c := d.2 ++ s.2 ++ noD f ++ noTM f ++ immMask f 1
  if f.imm.getLsbD 0 then (.copyBar f.grd d.1 s.1 b.1, c ++ b.2) else (.copy f.grd d.1 s.1, c ++ noC f)

/-! ## The opcode map (R170) -/

/-- Class 000. -/
def decodeControl (n : Nat) (f : Fields) : Dec :=
  match f.opc.toNat with
  | 0x001 => decCtl f false 0 .nop
  | 0x002 => decCtl f true (-1) (.bra f.grd f.imm)
  | 0x003 => decCtl f true (-1) (.call f.grd f.imm)
  | 0x004 => decCtl f true 0 (.ret f.grd)
  | 0x005 => decCtl f true 0 (.exit f.grd)
  | 0x006 => decCtl f true 0xFFFF (.trap f.grd (bitsAt f.imm 0 16))
  | 0x007 => let a := srcM f.sa f.sela
             (.ifm a.1 f.imm, a.2 ++ noD f ++ noB f ++ noC f ++ noTM f ++ noG f)
  | 0x008 => decCtl f false (-1) (.elsem f.imm)
  | 0x009 => decCtl f false 0 .endif
  | 0x00A => decCtl f false (-1) (.loop f.imm)
  | 0x00B => decCtl f true (-1) (.brk f.grd f.imm)
  | 0x00C => decCtl f true (-1) (.cont f.grd f.imm)
  | 0x00D => decCtl f false (-1) (.endloop f.imm)
  | 0x00E => decCtl f true 0 (.trigger f.grd)
  | 0x00F => decGets n f
  | _ => (.nop, [1])

/-- `sli` and `sli.pc` (R186). -/
def decSli (f : Fields) : Dec :=
  let d := dstS f
  let c := d.2 ++ noABC f ++ bad ((bitsAt f.mod 1 2 : BitVec 2) != 0) 4
  if f.mod.getLsbD 0 then (.sliPc f.grd d.1 f.imm, c ++ bad (f.ty != .i64) 3)
  else (.sli f.grd d.1 f.ty f.imm, c ++ tyIn f Fmt.scalar)

/-- Class 001. -/
def decodeScalar (f : Fields) : Dec :=
  match f.opc.toNat with
  | 0x080 => decS2 f (noMod f) .sadd
  | 0x081 => decS2 f (noMod f) .ssub
  | 0x082 => decS2 f (noMod f) .smul
  | 0x083 => decS3 f .smad
  | 0x084 => decS2 f (noMod f) .smulhi
  | 0x085 => decS2 f (noMod f) .smin
  | 0x086 => decS2 f (noMod f) .smax
  | 0x087 => decS2 f (noMod f) .sand
  | 0x088 => decS2 f (noMod f) .sor
  | 0x089 => decS2 f (noMod f) .sxor
  | 0x08A => decS2 f (noMod f) .sshl
  | 0x08B => decS2 f (noMod f) .sshr
  | 0x08C => decS2 f (noMod f) .ssar
  | 0x08D => decS2 f (bad (decide (5 < f.mod.toNat)) 4) (fun o => .scmp o (Cond.ofCode f.mod))
  | 0x08E => decS3 f .ssel
  | 0x08F => decS1 f .smov
  | 0x090 => decSli f
  | 0x091 => decS2 f (noMod f) .sbfe
  | 0x092 => decS1 f .spopc
  | 0x093 => decS1 f .sclz
  | _ => (.nop, [1])

/-- `sel` (R189). -/
def decSel (n : Nat) (f : Fields) : Dec :=
  let al := f.ty.regs
  let d := dstV n al (!f.ty.wide) f.pD f
  let a := srcV n al (!f.ty.wide) f.pA f.sa f.sela
  let b := srcV n al (!f.ty.wide) f.pB f.sb f.selb
  let c := srcM f.sc f.selc
  (.sel ⟨f.grd, d.1, a.1, b.1, f.ty⟩ c.1, d.2 ++ a.2 ++ b.2 ++ c.2 ++ tyIn f Fmt.six ++ noMod f ++ portWord f ++ bad f.pC 7)

/-- `movi`: IMM is its value, so no port (R161). -/
def decMovi (n : Nat) (f : Fields) : Dec :=
  let d := dstV n f.ty.regs false false f
  (.movi f.grd d.1 f.ty f.imm, d.2 ++ noABC f ++ tyIn f Fmt.six ++ noMod f)

/-- `movs`. -/
def decMovs (n : Nat) (f : Fields) : Dec :=
  let d := dstV n f.ty.regs (!f.ty.wide) f.pD f
  let a := srcS false f.sa f.sela f.imm
  (.movs f.grd d.1 a.1 f.ty, d.2 ++ a.2 ++ noB f ++ noC f ++ tyIn f Fmt.six ++ noMod f ++ portWord f
    ++ bad (f.pA || f.pB || f.pC) 7)

/-- Class 010. -/
def decodeInteger (n : Nat) (f : Fields) : Dec :=
  match f.opc.toNat with
  | 0x100 => decV2 n f Fmt.six false .add
  | 0x101 => decV2 n f Fmt.six false .sub
  | 0x102 => decV2 n f Fmt.six false .mul
  | 0x103 => decV2 n f Fmt.pair32 false .mulhi
  | 0x104 => decV3 n f Fmt.six .mad
  | 0x105 => decV2 n f Fmt.ordered false .min
  | 0x106 => decV2 n f Fmt.ordered false .max
  | 0x107 => decV1 n f (fun t => t == .i32 || t == .i64) .abs
  | 0x108 => decV1 n f Fmt.six .neg
  | 0x109 => decV2 n f Fmt.six false .and
  | 0x10A => decV2 n f Fmt.six false .or
  | 0x10B => decV2 n f Fmt.six false .xor
  | 0x10C => decV1 n f Fmt.six .not
  | 0x10D => decV2 n f Fmt.six true .shl
  | 0x10E => decV2 n f Fmt.six true .shr
  | 0x10F => decV2 n f Fmt.six true .sar
  | 0x110 => decV2 n f Fmt.narrow false .rot
  | 0x111 => decV2 n f Fmt.pair32 false .bfe
  | 0x112 => decV3 n f Fmt.narrow .bfi
  | 0x113 => decV1 n f Fmt.narrow .popc
  | 0x114 => decV1 n f Fmt.narrow .clz
  | 0x115 => decV1 n f Fmt.narrow .brev
  | 0x116 => decCmp n f Fmt.six (cmpMod f) .cmp
  | 0x117 => decSel n f
  | 0x118 => decV1 n f Fmt.six .mov
  | 0x119 => decMovi n f
  | 0x11A => decMovs n f
  | _ => (.nop, [1])

/-- Class 011. -/
def decodeFloat (n : Nat) (f : Fields) : Dec :=
  match f.opc.toNat with
  | 0x180 => decF2 n f .fadd
  | 0x181 => decF2 n f .fsub
  | 0x182 => decF2 n f .fmul
  | 0x183 => decF3 n f .ffma
  | 0x184 => decV2 n f Fmt.arith false .fmin
  | 0x185 => decV2 n f Fmt.arith false .fmax
  | 0x186 => decCmp n f Fmt.arith [] .fcmp
  | 0x187 => decV1 n f Fmt.isFloat .fclass
  | 0x188 => decF1 n f Fmt.arith .fround
  | 0x189 => decF1 n f (fun t => t == .f32) .frcp
  | 0x18A => decF1 n f (fun t => t == .f32) .frsq
  | 0x18B => decF1 n f (fun t => t == .f32) .fsqrt
  | 0x18C => decF1 n f (fun t => t == .f32) .fex2
  | 0x18D => decF1 n f (fun t => t == .f32) .flg2
  | 0x18E => decF1 n f (fun t => t == .f32) .fsin
  | 0x18F => decF1 n f (fun t => t == .f32) .fcos
  | _ => (.nop, [1])

/-- Class 100. -/
def decodeCross (n w : Nat) (f : Fields) : Dec :=
  match f.opc.toNat with
  | 0x200 => decCvt n f
  | 0x201 => decPack n f
  | 0x202 => decUnpk n f
  | 0x208 => decShfl n w f
  | 0x209 => decVote f
  | 0x20A => decMatch n f
  | 0x20B => decRedux n f
  | 0x20C => decVscan n f
  | _ => (.nop, [1])

/-- `ld` (R213). -/
def decLd (n : Nat) (f : Fields) : Dec :=
  let m := decAddr n f
  let d := dstV9 n f.ty.regs f
  (.ld f.grd d.1 m.1 f.ty, m.2 ++ d.2 ++ noC f ++ tyIn f Fmt.access)

/-- `st` (R213). -/
def decSt (n : Nat) (f : Fields) : Dec :=
  let m := decAddr n f
  let c := srcV n f.ty.regs false false f.sc f.selc
  (.st f.grd m.1 c.1 f.ty, m.2 ++ c.2 ++ noD f ++ tyIn f Fmt.access)

/-- The space of `sld` and `sst`, whose OFS is clear (R209). -/
def scalarSpace (f : Fields) : List Nat := bad (f.ofs || f.spc == 3) 4

/-- `sld` (R214). -/
def decSld (f : Fields) : Dec :=
  let a := srcS false f.sa f.sela f.imm
  let d := dstS6 f
  (.sld f.grd d.1 (Space.ofCode f.spc) a.1 f.imm f.ty, d.2 ++ a.2 ++ noB f ++ noC f ++ tyIn f Fmt.access ++ scalarSpace f)

/-- `sst` (R214). -/
def decSst (f : Fields) : Dec :=
  let a := srcS false f.sa f.sela f.imm
  let c := srcS false f.sc f.selc f.imm
  (.sst f.grd (Space.ofCode f.spc) a.1 f.imm c.1 f.ty, noD f ++ a.2 ++ c.2 ++ noB f ++ tyIn f Fmt.access ++ scalarSpace f)

/-- `pref` (R215). -/
def decPref (n : Nat) (f : Fields) : Dec :=
  let m := decAddr n f
  (.pref f.grd m.1 f.ty, m.2 ++ noD f ++ noC f ++ tyIn f Fmt.access ++ bad (f.spc != 0) 4)

/-- Class 101. -/
def decodeMemory (n : Nat) (f : Fields) : Dec :=
  match f.opc.toNat with
  | 0x280 => decLd n f
  | 0x281 => decSt n f
  | 0x282 => decSld f
  | 0x283 => decSst f
  | 0x284 => decPref n f
  | 0x285 => decAtom n f
  | 0x286 => decRed n f
  | 0x287 => (.waitc (Ctr.ofCode (bitsAt f.imm 8 2)) (bitsAt f.imm 0 8), noD f ++ noABC f ++ noG f ++ noTM f ++ immMask f 0x3FF)
  | _ => (.nop, [1])

/-- `bar` (R221). -/
def decBar (f : Fields) : Dec :=
  let c : BitVec 6 := bitsAt f.imm 8 6
  (.bar (bitsAt f.imm 0 4) c, noD f ++ noABC f ++ noG f ++ noTM f ++ immMask f 0x3F0F
    ++ bad (decide (c.toNat = 0 ∨ 32 < c.toNat)) 4)

/-- `arrivex` (R223). -/
def decArrivex (f : Fields) : Dec :=
  let a := srcS false f.sa f.sela f.imm
  let b := srcS true f.sb f.selb f.imm
  let d := dstS6 f
  (.arrivex d.1 a.1 b.1, d.2 ++ a.2 ++ b.2 ++ noC f ++ noTM f ++ immFree f ++ noG f)

/-- `bwait` (R224). -/
def decBwait (f : Fields) : Dec :=
  let a := srcS false f.sa f.sela f.imm
  let b := srcS true f.sb f.selb f.imm
  (.bwait a.1 b.1, noD f ++ a.2 ++ b.2 ++ noC f ++ noTM f ++ immFree f ++ noG f)

/-- `mwait`, `mnotify`, `mnotifyall` (R225). -/
def decColour (f : Fields) (k : BitVec 12 → Instr) : Dec :=
  (k (bitsAt f.imm 0 12), noD f ++ noABC f ++ noTM f ++ immMask f 0xFFF ++ colourImm f)

/-- `spawn` (R227): four registers from a multiple of four, all below the count; no latch. -/
def decSpawn (n : Nat) (f : Fields) : Dec :=
  let a := srcS false f.sa f.sela f.imm
  (.spawn f.grd a.1 (.reg f.sb), a.2 ++ bad (f.selb != 0) 12 ++ bad (decide (n ≤ f.sb.toNat + 3)) 5
    ++ bad (decide (f.sb.toNat % 4 ≠ 0)) 6 ++ noD f ++ noC f ++ noTM f ++ noImm f)

/-- An S destination and an immediate of bits `m`. -/
def decD (f : Fields) (m : BitVec 32) (k : BitVec 6 → Instr) : Dec :=
  let d := dstS6 f
  (k d.1, d.2 ++ noABC f ++ noTM f ++ immMask f m)

/-- Class 110. -/
def decodeSync (n : Nat) (f : Fields) : Dec :=
  match f.opc.toNat with
  | 0x300 => decBar f
  | 0x301 => decDA f (noG f) .arrive
  | 0x302 => decArrivex f
  | 0x303 => decBwait f
  | 0x304 => decAB f 0xFFF (colourImm f) (fun a b => .paint f.grd a b (bitsAt f.imm 0 12))
  | 0x305 => decAB f 0 [] (.unpaint f.grd)
  | 0x306 => decColour f (.mwait f.grd)
  | 0x307 => decColour f (.mnotify f.grd)
  | 0x308 => decColour f (.mnotifyall f.grd)
  | 0x309 => decD f 15 (fun d => .mheld f.grd d (bitsAt f.imm 0 4))
  | 0x30A => decAB f 0 [] (.freeze f.grd)
  | 0x30B => decAB f 0 [] (.thaw f.grd)
  | 0x30C => decDA f [] (.frzq f.grd)
  | 0x310 => decSpawn n f
  | 0x311 => decA f (.binflush f.grd)
  | 0x312 => decDA f [] (.fget f.grd)
  | 0x313 => decAB f 0 [] (.fput f.grd)
  | 0x314 => decDA f [] (.launch f.grd)
  | 0x315 => decDA f [] (.retake f.grd)
  | 0x316 => decD f 3 (fun d => .rdcnt f.grd d (bitsAt f.imm 0 2))
  | _ => (.nop, [1])

/-- No operand at all but an immediate of bits `m` (R257). -/
def decBare (f : Fields) (m : BitVec 32) (g : List Nat) (i : Instr) : Dec :=
  (i, noD f ++ noABC f ++ noG f ++ noTM f ++ immMask f m ++ g)

/-- `accz` and `accz.pair` (R250). -/
def decAccz (f : Fields) : Dec :=
  let p := f.imm.getLsbD 0
  let d := tile p f.dst
  (if p then .acczPair f.grd d.1 else .accz f.grd d.1, d.2 ++ noNwb f ++ noABC f ++ noTM f ++ immMask f 1)

/-- `srd` (R268). -/
def decSrd (f : Fields) : Dec :=
  let d := dstS f
  (.srd f.grd d.1 (bitsAt f.imm 0 12), d.2 ++ noABC f ++ noTM f ++ immMask f 0xFFF ++ bad (!srAssigned (bitsAt f.imm 0 12)) 4)

/-- `swr` (R268). -/
def decSwr (f : Fields) : Dec :=
  let a := srcS false f.sa f.sela f.imm
  (.swr f.grd a.1 (bitsAt f.imm 0 12), noD f ++ a.2 ++ noB f ++ noC f ++ noTM f ++ immMask f 0xFFF
    ++ bad (!srAssigned (bitsAt f.imm 0 12)) 4)

/-- Class 111. -/
def decodeSystem (f : Fields) : Dec :=
  match f.opc.toNat with
  | 0x380 => decMma f .mma
  | 0x381 => decMma f .mmas
  | 0x382 => decMma f .mmaq
  | 0x383 => decSacc f
  | 0x384 => decAccz f
  | 0x385 => decAccld f
  | 0x386 => decAccst f
  | 0x387 => decA f (.accdrain f.grd)
  | 0x388 => decA f (.accfill f.grd)
  | 0x389 => decBare f 0 [] .xbatch
  | 0x38A => decBare f 0xFF [] (.xwait (bitsAt f.imm 0 8))
  | 0x38B => decBare f 0 [] .opready
  | 0x38C => decCopy f
  | 0x38D => decAB f 15 [] (fun d s => .xcopy f.grd d s (bitsAt f.imm 0 4))
  | 0x390 => decSrd f
  | 0x391 => decSwr f
  | 0x392 => decBare f 0 [] .eret
  | 0x393 => decAB f 0 (noG f) .tlbinv
  | 0x394 => decBare f 0xFFFF (bad ((bitsAt f.imm 0 16 : BitVec 16) == 0) 4) (.idle (bitsAt f.imm 0 16))
  | 0x395 => decBare f 0 [] .halt
  | _ => (.nop, [1])

/-- The least of a list of details. -/
def leastDetail : List Nat → Option Nat
  | [] => none
  | d :: l => match leastDetail l with
    | none => some d
    | some e => some (if d < e then d else e)

/-- The instruction of the fields, with the details that fail. -/
def decodeFields (n w : Nat) (f : Fields) : Dec :=
  match (bitsAt f.opc 7 3 : BitVec 3).toNat with
  | 0 => decodeControl n f
  | 1 => decodeScalar f
  | 2 => decodeInteger n f
  | 3 => decodeFloat n f
  | 4 => decodeCross n w f
  | 5 => decodeMemory n f
  | 6 => decodeSync n f
  | _ => decodeSystem f

/-- Decoding for a group of `n` registers and width `w`: the instruction, or the ILLEGAL detail that R169 raises first. -/
def decode (n w : Nat) (x : IWord) : Except Nat Instr :=
  let r := decodeFields n w (Fields.ofWord x)
  match leastDetail r.2 with
  | some d => .error d
  | none => .ok r.1

/-- The instruction that the decoder reads from the bits of `w`, numbered as the opcode table numbers them: an instruction is
one little-endian 96-bit slot (R148), so the numbering is that of the word. -/
def decodeTableWord (_nbits w : Nat) : Option Instr :=
  match decode 512 64 (BitVec.ofNat 96 w) with
  | .ok i => some i
  | .error _ => none

/-! ## The encoder, from the same tables -/

/-- Fields with an opcode and everything else zero. -/
def Fields.op (o : BitVec 10) : Fields := ⟨o, 0, 0, false, 0, 0, 0, 0, 0, 0, 0, 0, 0⟩

/-- Field and select of an S source. -/
def SSrc.enc : SSrc → BitVec 9 × BitVec 2
  | .reg k => (k.setWidth 9, 0)
  | .latch l => (0, l.sel)
  | .imm _ => (0x100, 0)
/-- IMM of an S source. -/
def SSrc.encImm : SSrc → BitVec 32
  | .imm v => v
  | _ => 0
/-- Field and select of a V source. -/
def VSrc.enc : VSrc → BitVec 9 × BitVec 2
  | .reg k => (k, 0)
  | .latch l => (0, l.sel)
  | .port k => (k.setWidth 9, 0)
/-- Field and select of an M source. -/
def MSrc.enc : MSrc → BitVec 9 × BitVec 2
  | .reg k => (k.setWidth 9, 0)
  | .latch l => (0, l.sel)
/-- DST and NWB. -/
def SDst.enc : SDst → BitVec 9 × Bool
  | .reg k => (k.setWidth 9, false)
  | .dash => (0, true)
/-- DST and NWB. -/
def VDst.enc : VDst → BitVec 9 × Bool
  | .reg k => (k, false)
  | .dash => (0, true)
  | .port k => (k.setWidth 9, false)
/-- DST and NWB. -/
def MDst.enc : MDst → BitVec 9 × Bool
  | .reg k => (k.setWidth 9, false)
  | .dash => (0, true)

/-- The port bit of a destination. -/
def VDst.portBit : VDst → BitVec 32
  | .port _ => 8
  | _ => 0
/-- The port bit `b` of a source. -/
def VSrc.portBit (b : BitVec 32) : VSrc → BitVec 32
  | .port _ => b
  | _ => 0

/-- Guard. -/
def Fields.g (f : Fields) (g : BitVec 4) : Fields := { f with grd := g }
/-- Destination and NWB. -/
def Fields.d (f : Fields) (d : BitVec 9 × Bool) : Fields := { f with dst := d.1, nwb := d.2 }
/-- Source A. -/
def Fields.a (f : Fields) (x : BitVec 9 × BitVec 2) : Fields := { f with sa := x.1, sela := x.2 }
/-- Source B. -/
def Fields.b (f : Fields) (x : BitVec 9 × BitVec 2) : Fields := { f with sb := x.1, selb := x.2 }
/-- Source C. -/
def Fields.c (f : Fields) (x : BitVec 9 × BitVec 2) : Fields := { f with sc := x.1, selc := x.2 }
/-- Type. -/
def Fields.t (f : Fields) (t : Fmt) : Fields := { f with typ := t.code }
/-- Modifier. -/
def Fields.m (f : Fields) (m : BitVec 3) : Fields := { f with mod := m }
/-- Immediate. -/
def Fields.i (f : Fields) (v : BitVec 32) : Fields := { f with imm := v }

/-- One-source scalar. -/
def encS1 (op : BitVec 10) (o : SOp1) : Fields := (Fields.op op).g o.g |>.d o.d.enc |>.a o.a.enc |>.t o.ty
/-- Two-source scalar with a modifier. -/
def encS2 (op : BitVec 10) (o : SOp2) (m : BitVec 3 := 0) : Fields :=
  (Fields.op op).g o.g |>.d o.d.enc |>.a o.a.enc |>.b o.b.enc |>.t o.ty |>.m m |>.i o.b.encImm
/-- Three-source scalar. -/
def encS3 (op : BitVec 10) (o : SOp3) : Fields :=
  (Fields.op op).g o.g |>.d o.d.enc |>.a o.a.enc |>.b o.b.enc |>.c o.c.enc |>.t o.ty |>.i o.b.encImm
/-- One-source vector. -/
def encV1 (op : BitVec 10) (o : VOp1) : Fields :=
  (Fields.op op).g o.g |>.d o.d.enc |>.a o.a.enc |>.t o.ty |>.i (o.d.portBit ||| o.a.portBit 4)
/-- Two-source vector. -/
def encV2 (op : BitVec 10) (o : VOp2) : Fields :=
  (Fields.op op).g o.g |>.d o.d.enc |>.a o.a.enc |>.b o.b.enc |>.t o.ty
    |>.i (o.d.portBit ||| o.a.portBit 4 ||| o.b.portBit 2)
/-- Three-source vector. -/
def encV3 (op : BitVec 10) (o : VOp3) : Fields :=
  (Fields.op op).g o.g |>.d o.d.enc |>.a o.a.enc |>.b o.b.enc |>.c o.c.enc |>.t o.ty
    |>.i (o.d.portBit ||| o.a.portBit 4 ||| o.b.portBit 2 ||| o.c.portBit 1)
/-- One-source float. -/
def encF1 (op : BitVec 10) (o : FOp1) : Fields := (encV1 op ⟨o.g, o.d, o.a, o.ty⟩).m o.rm.code
/-- Two-source float. -/
def encF2 (op : BitVec 10) (o : FOp2) : Fields := (encV2 op ⟨o.g, o.d, o.a, o.b, o.ty⟩).m o.rm.code
/-- Three-source float. -/
def encF3 (op : BitVec 10) (o : FOp3) : Fields := (encV3 op ⟨o.g, o.d, o.a, o.b, o.c, o.ty⟩).m o.rm.code
/-- A comparison. -/
def encCmp (op : BitVec 10) (o : CmpOp) : Fields :=
  (Fields.op op).g o.g |>.d o.d.enc |>.a o.a.enc |>.b o.b.enc |>.t o.ty |>.m o.cc.code
    |>.i (o.a.portBit 4 ||| o.b.portBit 2)
/-- A matrix operation. -/
def encMma (op : BitVec 10) (o : MmaOp) : Fields :=
  (Fields.op op).g o.g |>.d (o.d.setWidth 9, false) |>.a o.a.enc |>.b o.b.enc |>.c o.o.enc |>.t o.fa
    |>.m (BitVec.ofBool o.negA ++ BitVec.ofBool o.negB ++ BitVec.ofBool o.noAcc)
    |>.i ((0 : BitVec 20) ++ o.fb.code ++ (0 : BitVec 2) ++ o.kc ++ o.nc ++ o.mc)

/-- MOD of an access: OFS and space. -/
def encSpace (sp : Space) (ofs : Bool) : BitVec 3 := BitVec.ofBool ofs ++ sp.code
/-- Field and select of an optional offset register. -/
def encOff : Option VSrc → BitVec 9 × BitVec 2
  | some v => v.enc
  | none => (0, 0)
/-- An address with a displacement. -/
def Fields.addr (f : Fields) (m : MAddr) : Fields :=
  f.a m.base.enc |>.b (encOff m.off) |>.m (encSpace m.sp m.off.isSome) |>.i m.disp
/-- An address with an atomic control word. -/
def Fields.acw (f : Fields) (m : AtomCtl) (far : Bool) : Fields :=
  f.a m.base.enc |>.b (encOff m.off) |>.m (encSpace m.sp m.off.isSome) |>.t m.ty
    |>.i (m.op.code ++ m.ord.code ++ m.scope.code ++ BitVec.ofBool far ++ m.disp)

/-- DST of `gets`. -/
def GDst.enc : GDst → BitVec 9 × Bool
  | .v d => d.enc
  | .s d => d.enc
  | .m d => d.enc

/-- DST and MOD of `vote`. -/
def VoteOp.enc : VoteOp → (BitVec 9 × Bool) × BitVec 3
  | .some d => (d.enc, 0)
  | .every d => (d.enc, 1)
  | .none d => (d.enc, 2)
  | .bits d => (d.enc, 3)
  | .count d => (d.enc, 4)
  | .first d => (d.enc, 5)

/-- DST and MOD of `match`. -/
def MatchOp.enc : MatchOp → (BitVec 9 × Bool) × BitVec 3
  | .mask d => (d.enc, 0)
  | .lead d => (d.enc, 1)
  | .cnt d => (d.enc, 2)

/-- MOD, SB and IMM⟨5:0⟩ of `shfl`. -/
def ShflMode.enc : ShflMode → BitVec 3 × (BitVec 9 × BitVec 2) × BitVec 6
  | .pick b => (0, b.enc, 0)
  | .rot δ => (1, (0, 0), δ)
  | .rev => (2, (0, 0), 0)
  | .flip δ => (3, (0, 0), δ)
  | .one δ => (4, (0, 0), δ)
  | .zip => (5, (0, 0), 0)
  | .unzip => (6, (0, 0), 0)

/-- A field that holds a small number. -/
def fld {n : Nat} (k : BitVec n) : BitVec 9 × Bool := (k.setWidth 9, false)

/-- The fields of an instruction that has an encoding; a row of events has none. -/
def encodeFields (i : Instr) : Option Fields :=
  match i with
  | .nop => some (.op 0x001)
  | .bra g t => some ((Fields.op 0x002).g g |>.i t)
  | .call g t => some ((Fields.op 0x003).g g |>.i t)
  | .ret g => some ((Fields.op 0x004).g g)
  | .exit g => some ((Fields.op 0x005).g g)
  | .trap g c => some ((Fields.op 0x006).g g |>.i (c.setWidth 32))
  | .ifm a t => some ((Fields.op 0x007).a a.enc |>.i t)
  | .elsem t => some ((Fields.op 0x008).i t)
  | .endif => some (.op 0x009)
  | .loop t => some ((Fields.op 0x00A).i t)
  | .brk g t => some ((Fields.op 0x00B).g g |>.i t)
  | .cont g t => some ((Fields.op 0x00C).g g |>.i t)
  | .endloop t => some ((Fields.op 0x00D).i t)
  | .trigger g => some ((Fields.op 0x00E).g g)
  | .gets g d n => some ((Fields.op 0x00F).g g |>.d d.enc |>.i (n.setWidth 32))
  | .sadd o => some (encS2 0x080 o)
  | .ssub o => some (encS2 0x081 o)
  | .smul o => some (encS2 0x082 o)
  | .smad o => some (encS3 0x083 o)
  | .smulhi o => some (encS2 0x084 o)
  | .smin o => some (encS2 0x085 o)
  | .smax o => some (encS2 0x086 o)
  | .sand o => some (encS2 0x087 o)
  | .sor o => some (encS2 0x088 o)
  | .sxor o => some (encS2 0x089 o)
  | .sshl o => some (encS2 0x08A o)
  | .sshr o => some (encS2 0x08B o)
  | .ssar o => some (encS2 0x08C o)
  | .scmp o cc => some (encS2 0x08D o cc.code)
  | .ssel o => some (encS3 0x08E o)
  | .smov o => some (encS1 0x08F o)
  | .sli g d ty v => some ((Fields.op 0x090).g g |>.d d.enc |>.t ty |>.i v)
  | .sliPc g d v => some ((Fields.op 0x090).g g |>.d d.enc |>.t .i64 |>.m 1 |>.i v)
  | .sbfe o => some (encS2 0x091 o)
  | .spopc o => some (encS1 0x092 o)
  | .sclz o => some (encS1 0x093 o)
  | .add o => some (encV2 0x100 o)
  | .sub o => some (encV2 0x101 o)
  | .mul o => some (encV2 0x102 o)
  | .mulhi o => some (encV2 0x103 o)
  | .mad o => some (encV3 0x104 o)
  | .min o => some (encV2 0x105 o)
  | .max o => some (encV2 0x106 o)
  | .abs o => some (encV1 0x107 o)
  | .neg o => some (encV1 0x108 o)
  | .and o => some (encV2 0x109 o)
  | .or o => some (encV2 0x10A o)
  | .xor o => some (encV2 0x10B o)
  | .not o => some (encV1 0x10C o)
  | .shl o => some (encV2 0x10D o)
  | .shr o => some (encV2 0x10E o)
  | .sar o => some (encV2 0x10F o)
  | .rot o => some (encV2 0x110 o)
  | .bfe o => some (encV2 0x111 o)
  | .bfi o => some (encV3 0x112 o)
  | .popc o => some (encV1 0x113 o)
  | .clz o => some (encV1 0x114 o)
  | .brev o => some (encV1 0x115 o)
  | .cmp o => some (encCmp 0x116 o)
  | .sel o c => some ((encV2 0x117 o).c c.enc)
  | .mov o => some (encV1 0x118 o)
  | .movi g d ty v => some ((Fields.op 0x119).g g |>.d d.enc |>.t ty |>.i v)
  | .movs g d a ty => some ((Fields.op 0x11A).g g |>.d d.enc |>.a a.enc |>.t ty |>.i d.portBit)
  | .fadd o => some (encF2 0x180 o)
  | .fsub o => some (encF2 0x181 o)
  | .fmul o => some (encF2 0x182 o)
  | .ffma o => some (encF3 0x183 o)
  | .fmin o => some (encV2 0x184 o)
  | .fmax o => some (encV2 0x185 o)
  | .fcmp o => some (encCmp 0x186 o)
  | .fclass o => some (encV1 0x187 o)
  | .fround o => some (encF1 0x188 o)
  | .frcp o => some (encF1 0x189 o)
  | .frsq o => some (encF1 0x18A o)
  | .fsqrt o => some (encF1 0x18B o)
  | .fex2 o => some (encF1 0x18C o)
  | .flg2 o => some (encF1 0x18D o)
  | .fsin o => some (encF1 0x18E o)
  | .fcos o => some (encF1 0x18F o)
  | .cvt g d a toF frm rm => some ((Fields.op 0x200).g g |>.d d.enc |>.a a.enc |>.t toF |>.m rm.code |>.i (frm.code.setWidth 32))
  | .pack2 o => some (encV2 0x201 o)
  | .unpk2 o => some (encV1 0x202 o)
  | .shfl g d a ty mode seg => some ((Fields.op 0x208).g g |>.d d.enc |>.a a.enc |>.b mode.enc.2.1 |>.t ty |>.m mode.enc.1
      |>.i ((0 : BitVec 21) ++ seg ++ (0 : BitVec 2) ++ mode.enc.2.2))
  | .vote g op a => some ((Fields.op 0x209).g g |>.d op.enc.1 |>.a a.enc |>.t .b32 |>.m op.enc.2)
  | .matchv g op a ty => some ((Fields.op 0x20A).g g |>.d op.enc.1 |>.a a.enc |>.t ty |>.m op.enc.2)
  | .redux g op d a ty => some ((Fields.op 0x20B).g g |>.d d.enc |>.a a.enc |>.t ty |>.m op.code)
  | .vscan g op e d a ty => some ((Fields.op 0x20C).g g |>.d d.enc |>.a a.enc |>.t ty |>.m op.code
      |>.i ((BitVec.ofBool e).setWidth 32))
  | .ld g d m ty => some ((Fields.op 0x280).g g |>.d (d, false) |>.addr m |>.t ty)
  | .st g m c ty => some ((Fields.op 0x281).g g |>.addr m |>.c c.enc |>.t ty)
  | .sld g d sp a disp ty => some ((Fields.op 0x282).g g |>.d (fld d) |>.a a.enc |>.m (encSpace sp false) |>.i disp |>.t ty)
  | .sst g sp a disp c ty => some ((Fields.op 0x283).g g |>.a a.enc |>.c c.enc |>.m (encSpace sp false) |>.i disp |>.t ty)
  | .pref g m ty => some ((Fields.op 0x284).g g |>.addr m |>.t ty)
  | .atom g d m c => some ((Fields.op 0x285).g g |>.d (d, false) |>.acw m false |>.c c.enc)
  | .red g m c => some ((Fields.op 0x286).g g |>.acw m false |>.c c.enc)
  | .redFar g m c => some ((Fields.op 0x286).g g |>.acw m true |>.c c.enc)
  | .waitc k n => some ((Fields.op 0x287).i ((0 : BitVec 22) ++ k.code ++ n))
  | .bar id n => some ((Fields.op 0x300).i ((0 : BitVec 18) ++ n ++ (0 : BitVec 4) ++ id))
  | .arrive d a => some ((Fields.op 0x301).d (fld d) |>.a a.enc)
  | .arrivex d a b => some ((Fields.op 0x302).d (fld d) |>.a a.enc |>.b b.enc |>.i b.encImm)
  | .bwait a b => some ((Fields.op 0x303).a a.enc |>.b b.enc |>.i b.encImm)
  | .paint g a n c => some ((Fields.op 0x304).g g |>.a a.enc |>.b n.enc |>.i (c.setWidth 32))
  | .unpaint g a n => some ((Fields.op 0x305).g g |>.a a.enc |>.b n.enc)
  | .mwait g c => some ((Fields.op 0x306).g g |>.i (c.setWidth 32))
  | .mnotify g c => some ((Fields.op 0x307).g g |>.i (c.setWidth 32))
  | .mnotifyall g c => some ((Fields.op 0x308).g g |>.i (c.setWidth 32))
  | .mheld g d i => some ((Fields.op 0x309).g g |>.d (fld d) |>.i (i.setWidth 32))
  | .freeze g a n => some ((Fields.op 0x30A).g g |>.a a.enc |>.b n.enc)
  | .thaw g a n => some ((Fields.op 0x30B).g g |>.a a.enc |>.b n.enc)
  | .frzq g d a => some ((Fields.op 0x30C).g g |>.d (fld d) |>.a a.enc)
  | .spawn g a b => some ((Fields.op 0x310).g g |>.a a.enc |>.b b.enc)
  | .binflush g a => some ((Fields.op 0x311).g g |>.a a.enc)
  | .fget g d a => some ((Fields.op 0x312).g g |>.d (fld d) |>.a a.enc)
  | .fput g a b => some ((Fields.op 0x313).g g |>.a a.enc |>.b b.enc)
  | .launch g d a => some ((Fields.op 0x314).g g |>.d (fld d) |>.a a.enc)
  | .retake g d a => some ((Fields.op 0x315).g g |>.d (fld d) |>.a a.enc)
  | .rdcnt g d k => some ((Fields.op 0x316).g g |>.d (fld d) |>.i (k.setWidth 32))
  | .mma o => some (encMma 0x380 o)
  | .mmas o => some (encMma 0x381 o)
  | .mmaq o => some (encMma 0x382 o)
  | .sacc g d p c s ty mc nc noAcc => some ((Fields.op 0x383).g g |>.d (fld d) |>.a (p.setWidth 9, 0) |>.b c.enc |>.c s.enc
      |>.t ty |>.m ((BitVec.ofBool noAcc).setWidth 3) |>.i ((0 : BitVec 28) ++ nc ++ mc))
  | .accz g d => some ((Fields.op 0x384).g g |>.d (fld d))
  | .acczPair g d => some ((Fields.op 0x384).g g |>.d (fld d) |>.i 1)
  | .accld g d a o ty mc nc => some ((Fields.op 0x385).g g |>.d (fld d) |>.a a.enc |>.b o.enc |>.t ty
      |>.i ((0 : BitVec 28) ++ nc ++ mc))
  | .accst g a o t ty mc nc => some ((Fields.op 0x386).g g |>.a a.enc |>.b o.enc |>.c (t.setWidth 9, 0) |>.t ty
      |>.i ((0 : BitVec 28) ++ nc ++ mc))
  | .accdrain g a => some ((Fields.op 0x387).g g |>.a a.enc)
  | .accfill g a => some ((Fields.op 0x388).g g |>.a a.enc)
  | .xbatch => some (.op 0x389)
  | .xwait n => some ((Fields.op 0x38A).i (n.setWidth 32))
  | .opready => some (.op 0x38B)
  | .copy g d s => some ((Fields.op 0x38C).g g |>.a d.enc |>.b s.enc)
  | .copyBar g d s b => some ((Fields.op 0x38C).g g |>.a d.enc |>.b s.enc |>.c b.enc |>.i 1)
  | .xcopy g d s e => some ((Fields.op 0x38D).g g |>.a d.enc |>.b s.enc |>.i (e.setWidth 32))
  | .srd g d num => some ((Fields.op 0x390).g g |>.d d.enc |>.i (num.setWidth 32))
  | .swr g a num => some ((Fields.op 0x391).g g |>.a a.enc |>.i (num.setWidth 32))
  | .eret => some (.op 0x392)
  | .tlbinv a n => some ((Fields.op 0x393).a a.enc |>.b n.enc)
  | .idle n => some ((Fields.op 0x394).i (n.setWidth 32))
  | .halt => some (.op 0x395)
  | _ => none

/-- The word of an instruction. -/
def encode (i : Instr) : Option IWord := (encodeFields i).map Fields.toWord

/-! ## The line word (R148, R149) -/

/-- The word of slot `i` of a line. -/
def slotWord (line : BitVec 512) (i : Nat) : IWord := bitsAt line (96 * i) 96
/-- The line word. -/
def lineWord (line : BitVec 512) : BitVec 32 := bitsAt line 480 32
/-- BT of slot `i`. -/
def lineBt (line : BitVec 512) (i : Nat) : Bool := (lineWord line).getLsbD (22 + i)
/-- PAIR of slots `j` and `j + 1`. -/
def linePair (line : BitVec 512) (j : Nat) : Bool := decide (j < 4) && (lineWord line).getLsbD (18 + j)

/-- The parity of the low `n` bits of `x`. -/
def parityBits {w : Nat} (x : BitVec w) : Nat → Bool
  | 0 => false
  | n + 1 => (x.getLsbD n) ^^ parityBits x n

/-- A slot passes its even parity (R149). -/
def slotParityOk (line : BitVec 512) (i : Nat) : Bool :=
  parityBits (slotWord line i) 96 == (lineWord line).getLsbD (27 + i)

end Sys2Proof
end

