-- ==== Sys2Proof/Machine/Maps.lean ====
section
/-! DEFINITION. Finite maps from Nat as sorted lists, the plain data in which State holds everything sparse. A map is in
canonical form when its keys rise strictly and no entry equals what an unlisted key reads as. -/

namespace Sys2Proof.Machine

/-- A map: keys strictly rising. -/
abbrev SMap (α : Type) := List (Nat × α)

variable {α : Type}

/-- The entry at a key. -/
def SMap.find? (m : SMap α) (k : Nat) : Option α :=
  match m with
  | [] => none
  | (k', v) :: r => if k' = k then some v else SMap.find? r k

/-- The value at a key; `d` is what an unlisted key reads as. -/
def SMap.get (m : SMap α) (d : α) (k : Nat) : α := (SMap.find? m k).getD d

/-- The map with `v` at `k`. -/
def SMap.ins (m : SMap α) (k : Nat) (v : α) : SMap α :=
  match m with
  | [] => [(k, v)]
  | (k', v') :: r => if k' = k then (k, v) :: r else if k < k' then (k, v) :: (k', v') :: r else (k', v') :: SMap.ins r k v

/-- The map without `k`. -/
def SMap.del (m : SMap α) (k : Nat) : SMap α :=
  match m with
  | [] => []
  | (k', v') :: r => if k' = k then SMap.del r k else (k', v') :: SMap.del r k

/-- Write `v` at `k`; a value equal to `d` is not listed. -/
def SMap.put [DecidableEq α] (m : SMap α) (d : α) (k : Nat) (v : α) : SMap α :=
  if v = d then SMap.del m k else SMap.ins m k v

/-- Change the entry at `k` where there is one. -/
def SMap.upd (m : SMap α) (k : Nat) (f : α → α) : SMap α :=
  match SMap.find? m k with
  | some v => SMap.ins m k (f v)
  | none => m

/-- Every key is above `b`. -/
def SMap.above (b : Nat) (m : SMap α) : Bool := m.all (fun e => decide (b < e.1))

/-- Keys rise strictly. -/
def SMap.sorted (m : SMap α) : Bool :=
  match m with
  | [] => true
  | (k, _) :: r => SMap.above k r && SMap.sorted r

/-- The canonical form: keys rise strictly and no entry is the default. -/
def SMap.wf [DecidableEq α] (m : SMap α) (d : α) : Bool := SMap.sorted m && m.all (fun e => decide (e.2 ≠ d))

/-- The keys. -/
def SMap.keys (m : SMap α) : List Nat := m.map Prod.fst

/-! ## Memory -/

/-- Bytes by physical address, or by scratchpad offset. -/
abbrev Memory := List Host.Cell

/-- What a byte of memory that nothing has written reads as (DESIGN CHOICE, log 2). -/
def unlistedByte : Byte := 0

/-- The byte at an address. -/
def Memory.byte (m : Memory) (a : Nat) : Byte := SMap.get m unlistedByte a

/-- The memory with a byte written. -/
def Memory.setByte (m : Memory) (a : Nat) (b : Byte) : Memory := SMap.put m unlistedByte a b

/-- The form of memory: addresses strictly rising, no entry equal to an unlisted byte. -/
def Memory.wf (m : Memory) : Bool := SMap.wf m unlistedByte

/-- The `n` bytes from `a`, little-endian, as a number (R3). -/
def Memory.readNat (m : Memory) (a : Nat) : Nat → Nat
  | 0 => 0
  | n + 1 => (Memory.byte m a).toNat + 256 * Memory.readNat m (a + 1) n

/-- Write the low `n` bytes of `v` from `a`, little-endian. -/
def Memory.writeNat (m : Memory) (a v : Nat) : Nat → Memory
  | 0 => m
  | n + 1 => Memory.writeNat (Memory.setByte m a (BitVec.ofNat 8 v)) (a + 1) (v / 256) n

/-- The list of `n` bytes from `a`. -/
def Memory.bytes (m : Memory) (a : Nat) : Nat → List Byte
  | 0 => []
  | n + 1 => Memory.byte m a :: Memory.bytes m (a + 1) n

/-- Write a list of bytes from `a`. -/
def Memory.writeBytes (m : Memory) (a : Nat) : List Byte → Memory
  | [] => m
  | b :: l => Memory.writeBytes (Memory.setByte m a b) (a + 1) l

/-- Remove the bytes of an address range: they read as unlisted. -/
def Memory.drop (m : Memory) (lo hi : Nat) : Memory := m.filter (fun c => !(decide (lo ≤ c.1) && decide (c.1 < hi)))

/-! ## Sorted sets of numbers -/

/-- The set with `k`. -/
def setIns (l : List Nat) (k : Nat) : List Nat :=
  match l with
  | [] => [k]
  | a :: r => if a = k then l else if k < a then k :: l else a :: setIns r k

/-- The set without `k`. -/
def setDel (l : List Nat) (k : Nat) : List Nat := l.filter (· != k)

end Sys2Proof.Machine
end

