-- ==== Sys2Proof/Machine/State.lean ====
section
/-! DEFINITION. The state of one package, as plain data, and the state after reset. Entities that come and go (groups, crews,
launches, requests in flight) are maps by identity; fields marked "model" are the model's own and no register of the spec. -/

namespace Sys2Proof.Machine

/-- What stops the model. Every fault of the spec is an exception that the machine takes, so it is a next state. -/
inductive Fault
  /-- Raised by a core instruction when the group `cur` does not exist. No step runs one then: `step` issues only for a group
  that exists. Safe: the model stops. -/
  | noGroup
  deriving DecidableEq, Repr

/-- What the model gives no meaning. -/
inductive Refusal
  /-- Raised by an arm of `exec` whose instruction has no meaning yet. Safe: the model stops. -/
  | notModelled (mnemonic : String)
  deriving DecidableEq, Repr

/-! ## Groups -/

/-- A latch result (R162). Lanes outside `mask` hold unpredictable values: free values at `fr` (DESIGN CHOICE, log 4). -/
inductive LatchVal
  | none
  | vec (wide : Bool) (mask : Mask) (vals : SMap (BitVec 64)) (fr : Nat)
  | s (v : Word)
  | m (mask : Mask) (v : Mask) (fr : Nat)
  deriving DecidableEq, Repr

/-- The vector, scalar and mask registers of a group (R166); an unlisted register reads 0 (R30). `v` is keyed by
`64 * register + lane`. -/
structure Regs where
  v : SMap W32
  s : SMap Word
  m : SMap Mask
  deriving DecidableEq, Repr

/-- Kinds of mask-stack entries (R173). -/
inductive MKind | ifK | elseK | exitK | iterK
  deriving DecidableEq, Repr

/-- A mask-stack entry (R173); `since` is the first operation that the construct may issue (R110 reconvergence). -/
structure MaskEntry where
  kind : MKind
  mask : Mask
  since : Nat
  deriving DecidableEq, Repr

/-- A frame-stack entry (R32, R177); `handler` marks the frame of a user fault handler (R43). -/
structure Frame where
  ret : Word
  depth : Nat
  mask : Mask
  since : Nat
  handler : Bool
  deriving DecidableEq, Repr

/-- An instruction counted on a counter and not retired (R115, R116). -/
structure CtrEntry where
  op : Nat
  complete : Bool
  deriving DecidableEq, Repr

/-- A fault with what its record needs beside the group's own fields (R277). -/
structure FaultInfo where
  cause : Nat
  detail : Nat
  addr : Word
  lane : Nat
  aux : BitVec 16
  replay : Bool
  report : Bool
  deriving DecidableEq, Repr

/-- A fault held for report against an instruction, with the level it issued at (R116, R117, R316); several records for LINKLOST. -/
structure HeldFault where
  ctr : Ctr
  op : Nat
  sup : Bool
  recs : List FaultInfo
  deriving DecidableEq, Repr

/-- A flit (R62): lanes outside `mask` hold unpredictable values, free values at `fr`. -/
structure Flit where
  mask : Mask
  vals : SMap W32
  fr : Nat
  deriving DecidableEq, Repr

/-- What a parked group waits for (R31). -/
inductive Park
  | counters | counterRoom | lines | held | monitor | faultRoom | barrier | object | portEmpty | portRoom | maintenance | launch
  | arrayClaim | arrayRoom | copyLines | engine | idle | spawnRoom | image | futures | reply | trigger | drain | granule | walk
  deriving DecidableEq, Repr

/-- What a waiting group is registered for (R31, R40). -/
inductive WaitKey
  | future (pa : Nat)
  | colour (ctx c : Nat)
  deriving DecidableEq, Repr

/-- Group states (R31). Trapped is `sup`; an exited group is no longer listed. -/
inductive Status
  | ready
  | parked (why : Park)
  | waiting (key : WaitKey)
  deriving DecidableEq, Repr

/-- Registers with their poison markers as they stood before a pair, for its higher member (R151, R339). -/
structure PairOld where
  pc : Word
  regs : Regs
  active : Mask
  vPoison : List Nat
  sPoison : List Nat
  mPoison : List Nat
  deriving DecidableEq, Repr

/-- An instruction parked for PAGE (R211): its operation, its unfinished lanes and its run of fault records. `old` is what the higher member of a
pair reads when it is replayed (R151). -/
structure ParkOp where
  pc : Word
  depth : Nat
  sup : Bool
  op : Nat
  unfinished : Mask
  recAddr : Word
  nrec : Nat
  old : Option PairOld
  deriving DecidableEq, Repr

/-- The frame of a user fault handler in progress (R43, R167). -/
structure HandlerInfo where
  depth : Nat
  recAddr : Word
  pc : Word
  deriving DecidableEq, Repr

/-- Why a group drains its counters to retire (R41, R117). -/
inductive Leaving | exit | halt | dead | double
  deriving DecidableEq, Repr

/-- The trap state of a routine that is itself interrupted at `idle` (R279, R280). -/
structure TrapSave where
  tcause : Word
  tpc : Word
  trec : Word
  tmask : Word
  latch : Option (List LatchVal × Nat)
  e : Nat
  d : Nat
  fwd : Bool
  run : Nat × Nat
  at_ : Word
  deriving DecidableEq, Repr

/-- The submission of a `launch` or `retake` that has issued and not taken its answer (R232): how many traps at stop points stand below its
instruction, the instruction, and its launch. -/
structure Sub where
  level : Nat
  pc : Word
  launch : Nat
  answer : Option Word
  deriving DecidableEq, Repr

/-- The target that the lower member of a pair leaves to its higher member (R151): it goes there from slot `at_`, at the frame depth and level
given, with the latches that the return from a user fault handler restores (R165). It stays while the higher member's fault is handled. -/
structure AfterPair where
  at_ : Word
  depth : Nat
  sup : Bool
  target : Word
  saved : Option (List LatchVal × Nat)
  deriving DecidableEq, Repr

/-- Where a group stood when it took a trap at a stop point (R280, R282, R297), to which `eret` returns it. `done` says that its
instruction has completed since; `nest` is the trap state of the routine that it stood in; `wants`, `rewait` and `frames` say for which
colours it waits there, and at which frame depth; `passed` is the group's own, and `pend` its fault that waits for the ring. -/
structure Place where
  pc : Word
  status : Status
  wants : List Nat
  rewait : Option (Nat × Nat)
  frames : Nat
  passed : Option (Word × Bool × List (List (BitVec 64)))
  leaving : Option Leaving
  pair : Option PairOld
  issued : Bool
  done : Bool
  nest : Option TrapSave
  pend : Option Nat
  deriving DecidableEq, Repr

/-- The kinds of matrix operations (R245). -/
inductive MKindOp | mma | mmas | mmaq | sacc | accz | accld
  deriving DecidableEq, Repr

/-- A shape record as it was read (R237). -/
structure Shape where
  base : Nat
  metaBase : Nat
  ext : List Nat
  stride : List Int
  box : List Nat
  mstride : Int
  sparse : Nat
  zfill : Bool
  ndim : Nat
  space : Nat
  fmt : Fmt
  deriving DecidableEq, Repr

/-- A matrix operation in the array (R244 to R250). `tainted` says that an operand may have been written (R121); `a`, `b` are
records, `colours` those of their pages, `origin` the origin word, `k1`, `k2` the offsets of scales, `ready` the first operation
of the group after the `opready` that precedes it (R246), `stuck` says that the array has failed at it (R337), `fault` what its batch reports
(R247). `regs` are the `s` registers that name its operands. -/
structure MOp where
  id : Nat
  gid : Nat
  kind : MKindOp
  d : Nat
  p : Nat
  a : Option Shape
  b : Option Shape
  origin : BitVec 64
  mm : Nat
  nn : Nat
  kk : Nat
  fa : Fmt
  fb : Fmt
  negA : Bool
  negB : Bool
  noAcc : Bool
  k1 : Nat
  k2 : Nat
  joint : Nat
  batch : Option Nat
  complete : Bool
  tainted : Bool
  colours : List Nat
  ready : Nat
  regs : List Nat
  sup : Bool
  stuck : Bool
  fault : Option FaultInfo
  deriving DecidableEq, Repr

/-- A group: the agent of the consistency model (R24). `slot` is its place among the 32 group slots of its core (R305). `wants` are the
colours that its instruction waits for, the next one first (R69); `lastRelease` is its last release atomic (R123); `trapRun` is the cause of
its trap and how many fault records it has (R293); `passed` is the instruction that has passed the checks of R242 and waits, with the shape
records that it read (R240). `trapAt` is where TPC stood at trap entry, and `skipped` the instruction, by pc, frame depth and level, to which a
routine that moved TPC has gone (R164). `opRegs` are the `s` registers that matrix operations of the group name, `sHit` those of them that have been
written since (R121). `pipe` lists the
PIPEERRs that it takes at its next stop point, each with its detail and the black-box event that names its record (R337, R342). `bars` are the barriers at which it has arrived, by the number of traps at stop points below the instruction (R221).
`shelf` holds complete matrix operations of batches that have not retired while an array image is taken (R252),
and `imaged` says that others are in the image. -/
structure Group where
  crew : Nat
  idx : Nat
  core : Nat
  slot : Nat
  w : Nat
  nregs : Nat
  regs : Regs
  active : Mask
  live : Mask
  dead : Mask
  pc : Word
  line : BitVec 512
  entered : Bool
  needBt : Bool
  refetched : Bool
  latches : List LatchVal
  window : Nat
  handlerLatch : Option (List LatchVal × Nat)
  trapLatch : Option (List LatchVal × Nat)
  skipped : Option (Word × Nat × Bool)
  stack : List MaskEntry
  frames : List Frame
  handler : Option HandlerInfo
  held : List (Nat × Nat)
  wants : List Nat
  rewait : Option (Nat × Nat)
  passed : Option (Word × Bool × List (List (BitVec 64)))
  subs : List Sub
  bars : List (Nat × Nat)
  lc : List CtrEntry
  sc : List CtrEntry
  cc : List CtrEntry
  xc : List CtrEntry
  heldFaults : List HeldFault
  fences : List (Nat × Nat)
  lastRelease : Nat
  ptgt : SMap Word
  queues : SMap (List Flit)
  status : Status
  stamp : Nat
  issued : Bool
  pair : Option PairOld
  afterPair : List AfterPair
  sup : Bool
  tcause : Word
  tpc : Word
  trec : Word
  tmask : Word
  sscr : SMap Word
  tfwd : Bool
  trapAt : Word
  trapE : Nat
  trapD : Nat
  trapRun : Nat × Nat
  parks : List ParkOp
  pend : Option Nat
  leaving : Option Leaving
  stopped : Bool
  pager : Option Word
  pipe : List (Nat × Option (BitVec 48))
  places : List Place
  shelf : List MOp
  imaged : Bool
  ready : Nat
  opRegs : List Nat
  sHit : List Nat
  unwaited : List MOp
  vPoison : List Nat
  sPoison : List Nat
  mPoison : List Nat
  deriving DecidableEq, Repr

/-! ## Crews -/

/-- A round of a named barrier (R221). -/
structure BarRound where
  k : Nat
  arrived : List Nat
  deriving DecidableEq, Repr

/-- The continuity recording of a crew (R86 to R90). Ranges are first tile and tile count; `full` says that no range was free, so that
nothing more is recorded. -/
structure Recording where
  reads : List (Nat × Nat)
  writes : List (Nat × Nat)
  full : Bool
  ovf : Bool
  frd : Bool
  vcause : BitVec 8
  broken : Bool
  deriving DecidableEq, Repr

/-- The matrix array of a core (R236, R245, R270). Tiles are keyed by `4096 * tile + 64 * row + column`. -/
structure ArraySt where
  holder : Option Nat
  tiles : SMap W32
  poison : List Nat
  ops : List MOp
  halt : Bool
  halted : Bool
  deriving DecidableEq, Repr

/-- A crew (R24, R28, R29). `recent` lists what its groups wrote since the last `opready` of its matrix group (R121): 0 for a global
virtual address, one more than a crew for its scratchpad, or 2^64 for a physical address that another crew has written, the first byte, how many, and the group and operation that wrote them.
`arrayKept` holds the arrays that a saved crew held, by the place of their core in `cores`, until they are claimed again (R236, R282);
`slot` is the save slot that it uses while it is pre-empted or saved and while its RESTORE routine may read it (R281). -/
structure Crew where
  ctx : Nat
  launch : Nat
  idx : Nat
  spawned : Bool
  cores : List Nat
  started : Nat
  gids : List Nat
  scratchBytes : Nat
  scratch : Memory
  absent : List Nat
  scratchPoison : List Nat
  bars : SMap BarRound
  triggered : Bool
  rcd : Recording
  matrixGroup : Option Nat
  mmaqCount : Nat
  recent : List (Nat × Nat × Nat × Nat × Nat)
  preempt : Bool
  saved : Bool
  slot : Nat
  hasImage : Bool
  since : Nat
  migrating : Bool
  arrayKept : SMap ArraySt
  deriving DecidableEq, Repr

/-! ## Cores -/

/-- A valid L1 line (R55, R57). -/
structure L1Line where
  data : BitVec 1024
  colour : Nat
  frozen : Bool
  leased : Bool
  deriving DecidableEq, Repr

/-- A translation held by a TLB (R288): page base and size, and the leaf entry. -/
structure TlbEntry where
  ctx : Nat
  base : Nat
  size : Nat
  leaf : BitVec 64
  deriving DecidableEq, Repr

/-- A spawn bin (R39): threads as four argument words with their spawning crew. -/
structure Bin where
  entry : Word
  launch : Nat
  threads : List (Nat × List W32)
  start : Nat
  deriving DecidableEq, Repr

/-- A core (R1). Its pointer over the 32 group slots advances by one each cycle (R305): it stands at `clock` modulo 32. `tlb` is its own TLB, `ahead` the walk-ahead TLB of its tile fetch unit and `copyTlb` that of its copy unit (R253, R288). -/
structure CoreSt where
  l1 : SMap L1Line
  carve : Nat
  recallSeq : SMap (BitVec 32)
  tlb : List TlbEntry
  ahead : List TlbEntry
  copyTlb : List TlbEntry
  bins : List Bin
  streams : List Nat
  array : ArraySt
  suspect : BitVec 5
  failing : Bool
  outOfService : Bool
  hotSince : Option Nat
  deriving DecidableEq, Repr

/-! ## Contexts -/

/-- The registers and queues of a context (R269, R287, R300, R309, R316, R333). `restoring` says that step 5 of a world switch to it goes
on, `part` the dies of the partition of which it is the scheduled context, or was last (R311). Usage counters of time are kept in ticks of 1/84 ns and read in microseconds (R313). -/
structure Ctx where
  fpxc : SMap (BitVec 32)
  fpxctl : Word
  fpxksel : Word
  fpxstat : BitVec 20
  fqbase : Word
  fqctl : Word
  fqhead : Nat
  fqtail : Nat
  fqseq : BitVec 32
  svbase : Word
  svcount : Nat
  slatebase : Word
  ptroot : Word
  xlctl : Bool
  bbbase : Word
  bbhead : BitVec 16
  bbtail : BitVec 16
  mailbox : List Word
  mailBusy : Option Nat
  lost : Bool
  schedctl : Word
  vfcfg : Word
  l2quota : BitVec 15
  cntcfg : SMap Word
  cnt : SMap (BitVec 48)
  cntstat : BitVec 4
  cntgrant : Bool
  uc : SMap Nat
  ucSnap : SMap Nat
  uctime : Nat
  featoff0 : Word
  featoff1 : Word
  featgnt0 : Word
  featgnt1 : Word
  jqcmd : Option Word
  jqres : BitVec 3
  jqval : Word
  scheduled : Bool
  switching : Bool
  restoring : Bool
  quantumStart : Nat
  part : BitVec 6
  deriving DecidableEq, Repr

/-! ## Launches -/

/-- A launch or retake that is accepted and not complete, or that waits for room or for its rejection record (R33 to R42, R91 to R95, R299).
`recAddr` is the record's address, `pa` the physical address of its word at 0x70, `preds` those of its predecessors' words; `met5` says that
one of them has read STATE 5 (R36). `waited` counts the cycles of its ageing step that it was eligible before (R302), `asker` is the group that submitted it. -/
structure Launch where
  ctx : Nat
  recAddr : Word
  pa : Nat
  isRetake : Bool
  entry : Word
  gx : Nat
  gy : Nat
  gz : Nat
  spawnt : Nat
  prio : Nat
  pair : Bool
  quad : Bool
  coop : Bool
  scratch : Nat
  nregs : Nat
  w : Nat
  groups : Nat
  param : Word
  handler : Word
  cont : Word
  preds : List Nat
  met5 : Bool
  gen : BitVec 32
  state : Nat
  decided : Bool
  rerun : Option (List Nat)
  begun : Nat
  retired : Nat
  order : Nat
  eligibleSince : Option Nat
  waited : Nat
  boost : Nat
  headSince : Option Nat
  clearing : Bool
  issuer : Option Nat
  reject : Nat
  asker : Option Nat
  deriving DecidableEq, Repr

/-- A group of threads flushed from a bin and not yet placed (R39, R301). -/
structure Flushed where
  ctx : Nat
  launch : Nat
  core : Nat
  entry : Word
  threads : List (List W32)
  since : Nat
  deriving DecidableEq, Repr

/-- A placement unit by name: the next unit of a launch, given by its launch and the crews that have started before it, or a flushed group
(R301). -/
inductive UnitKey
  | launch (lid begun : Nat)
  | spawn (f : Flushed)
  deriving DecidableEq, Repr

/-- Cores that are reserved for a unit (R303). -/
structure Reservation where
  ctx : Nat
  key : UnitKey
  cores : List Nat
  deriving DecidableEq, Repr

/-- A run of fault records that waits to be written (R276). `gid` is the group that raised it, `deliv` who takes it, `sup`
the level that it is attributed to (R316), `entry` the black-box event whose DETAIL names it (R342). -/
structure PendFault where
  ctx : Nat
  gid : Option Nat
  pc : Word
  recs : List FaultInfo
  grp : Nat
  crewIdx : BitVec 32
  deliv : Nat
  sup : Bool
  launch : Option Nat
  entry : Option (BitVec 48)
  deriving DecidableEq, Repr

/-! ## Requests, copies, maintenance -/

/-- The kinds of requests (R106); `pref` is a prefetch of a window line, which belongs to no group (R215). -/
inductive ReqKind | load | store | atom | frzq | pref
  deriving DecidableEq, Repr

/-- Where the value of a request is written. -/
inductive Dst
  | none
  | v (r : Nat)
  | s (r : Nat)
  deriving DecidableEq, Repr

/-- One lane's access in flight (R59, R106). In `.l` and `.p`, `pa` is the offset in crew `tgt`. `dPoison` marks the poisoned words of its data by
bits, `vPoison` is the storage that gave it a poisoned value, by its SRC of the black box, or 0 (R339, R342). -/
structure Req where
  gid : Nat
  crew : Nat
  core : Nat
  ctx : Nat
  op : Nat
  lane : Nat
  kind : ReqKind
  sp : Space
  va : Word
  pa : Nat
  tgt : Nat
  width : Nat
  colour : Nat
  tracked : Bool
  frozen : Bool
  sup : Bool
  far : Bool
  data : BitVec 64
  cmp : BitVec 64
  dPoison : Nat
  aop : AOp
  ty : Fmt
  ord : Ord
  scope : Scope
  dst : Dst
  sent : Bool
  forwarded : Bool
  aseq : Nat
  performed : Bool
  val : BitVec 64
  vPoison : Nat
  deriving DecidableEq, Repr

/-- An instruction with requests in flight: how many of its lanes are incomplete, its counters, the lowest lane that a PEERGONE
reply refused, whether it waits for its replies (R48), the scope of an acquire, one more than its latency class so far (0: no
lane performed), whether every lane so far hit the L1, and the level it issued at (R60, R316). -/
structure Op where
  gid : Nat
  pc : Word
  ctrs : List Ctr
  left : Nat
  gone : Option (Nat × Word)
  precise : Bool
  acq : Option Scope
  cls : Nat
  hits : Bool
  sup : Bool
  deriving DecidableEq, Repr

/-- A copy or an `accst` in flight (R251, R254, R255): `unit` 16 is the core's copy unit. `after` is the last release atomic of the group
before it (R123); `todo` lists the elements not yet landed, and `sent` those of them that are on their way to a window. For `accst`, `vals`
holds the elements of the tile as they were read, and `bad` those that are poisoned. `stuck` says that the copy unit has failed at it (R337). -/
structure Copy where
  gid : Nat
  crew : Nat
  core : Nat
  ctx : Nat
  op : Nat
  unit : Nat
  after : Nat
  src : Shape
  dst : Shape
  srcCrew : Nat
  obj : Option Nat
  todo : List Nat
  sent : List Nat
  landed : List Nat
  tainted : Bool
  gone : Bool
  stuck : Bool
  sup : Bool
  colours : List Nat
  vals : Option (SMap (BitVec 64))
  bad : List Nat
  deriving DecidableEq, Repr

/-- Kinds of shootdowns (R291). -/
inductive Maint | paint | freeze | thaw | tlbinv
  deriving DecidableEq, Repr

/-- A shootdown in progress (R67, R98, R102, R291): the accesses it waits for, the granules of a thaw whose recalls are outstanding, and the
granules that its `freeze` or `thaw` holds until it completes (R97). `phys` are the physical ranges that it maps when it is accepted. -/
structure Shoot where
  ctx : Nat
  gid : Nat
  kind : Maint
  lo : Nat
  hi : Nat
  phys : List (Nat × Nat)
  waits : List Nat
  granules : List Nat
  locks : List Nat
  shot : Bool
  deriving DecidableEq, Repr

/-- A fill on its way to a cache (R103). -/
structure Fill where
  core : Nat
  line : Nat
  slice : Nat
  seq : BitVec 32
  colour : Nat
  frozen : Bool
  deriving DecidableEq, Repr

/-- A flit on its way (R62): its sender, the port of the target group `grp` of crew `tgt` that it goes to, and what its
instruction does when the flit is accepted: the ports it takes flits from, and its exception events (R145). -/
structure FlitMsg where
  gid : Nat
  port : Nat
  tgt : Nat
  grp : Nat
  flit : Flit
  takes : List Nat
  fpFmt : Nat
  fp : List Nat
  deriving DecidableEq, Repr

/-! ## Homes -/

/-- A freeze-table entry (R96). -/
structure FreezeEntry where
  count : Nat
  thawing : Bool
  holders : BitVec 22
  deriving DecidableEq, Repr

/-- A scope record (R114): the scope, and the party (crew, this package's context-independent identity, host or peer). -/
structure ScopeRec where
  scope : Scope
  crew : Nat
  outside : Bool
  deriving DecidableEq, Repr

/-- An L2 line (R312): the owner tag, when it was last used, and whether it is newer than HBM. -/
structure L2Line where
  owner : Nat
  used : Nat
  dirty : Bool
  deriving DecidableEq, Repr

/-- A slate entry (R68); `backed` says that it is kept in the backing area of its context. -/
structure Slate where
  owner : Option Nat
  queue : List Nat
  backed : Bool
  deriving DecidableEq, Repr

/-- A green-room entry (R40). -/
structure Green where
  die : Nat
  gid : Nat
  key : WaitKey
  deriving DecidableEq, Repr

/-- A group that found the green room full (R40, R76): the back-off and when it ends. -/
structure Backoff where
  delay : Nat
  due : Nat
  deriving DecidableEq, Repr

/-! ## Links -/

/-- A packet sent by this package and not acknowledged: the fields of its header and its data (R323, R324). -/
structure OutPacket where
  lseq : Nat
  ty : Nat
  vf : Nat
  src : Nat
  dst : Nat
  aseq : Nat
  aop : BitVec 4
  typ : BitVec 4
  ord : BitVec 2
  len : Nat
  code : Nat
  addr : Nat
  rseq : Nat
  data : List Byte
  deriving DecidableEq, Repr

/-- A link port (R324): `lseq` numbers the next flit to be sent, `expect` the next one to be accepted; `answer` is the last link ack (6) or
nack (7) sent since it came up, with the LSEQ that it names; `nacks` counts the nacks of the flit `nackAt`; `retrains` lists when
retrains failed. -/
structure Port where
  up : Bool
  lseq : Nat
  expect : Nat
  answer : Option (Nat × Nat)
  unacked : List OutPacket
  nacks : Nat
  nackAt : Nat
  retrains : List Nat
  deriving DecidableEq, Repr

/-- The copy of a window line that its home holds (R322), with the frozen flag of its fill (R101). `bad` is the fault of a read that was refused or
lost: its bytes are free. -/
structure FarCopy where
  data : BitVec 1024
  frozen : Bool
  bad : Option (Nat × Nat)
  deriving DecidableEq, Repr

/-- A miss of a home on a window line that has been forwarded to the far end (R322). `own` says that it is charged to the context (R313),
`again` that this package has written the line since, so that the data is asked for once more. -/
structure FarRead where
  line : Nat
  ctx : Nat
  own : Bool
  again : Bool
  deriving DecidableEq, Repr

/-- Whose write to a window is on its way: element `i` of a copy, bytes of a group's array image, the 9600's own, or the word at 0x70 of a
launch whose submission it answers with `w` (R263). -/
inductive FarOwner
  | copy (cid i : Nat)
  | image (gid : Nat)
  | own
  | launch (lid : Nat) (w : Word)
  deriving DecidableEq, Repr

/-- A write of an engine or of the 9600 itself to a window that its far end has not acknowledged (R106, R325): `n` bytes with the value `v`. -/
structure FarWrite where
  owner : FarOwner
  gid : Nat
  ctx : Nat
  va : Word
  pa : Nat
  n : Nat
  v : Nat
  deriving DecidableEq, Repr

/-- The journal and counters of a stream (R327): keyed by far end and context. `journal` holds the atomics that this package has received as the far
end; `answered` the last 4,096 of its own that have an answer, with the old value of one that was performed. -/
structure Stream where
  nextAseq : Nat
  outstanding : Nat
  highest : Option Nat
  journal : SMap (Option Word)
  answered : SMap (Option Word)
  deriving DecidableEq, Repr

/-! ## Reliability and cryogenics -/

/-- A black-box entry (R342). -/
structure BoxEntry where
  eseq : BitVec 48
  sev : Nat
  src : Nat
  die : Nat
  unit : Nat
  vf : Nat
  addr : Word
  time : BitVec 32
  detail : BitVec 32
  deriving DecidableEq, Repr

/-- A sensor reading (R344). -/
structure Reading where
  time : Nat
  tmax : Nat
  tmin : Nat
  deriving DecidableEq, Repr

/-- The limits of BANDHI and TRIPLIM (R351). -/
structure Limits where
  hi0 : Nat
  hi1 : Nat
  hi2 : Nat
  hi3 : Nat
  tripLo : Nat
  tripHi : Nat
  deriving DecidableEq, Repr

/-- The management controller (R344 to R354). Temperatures are in units of 0.25 K. `reg` are the limits as BANDHI and TRIPLIM read, `lim` those in
effect since the last reading (R351). A flash bank is `none` while it holds what it was made with (DESIGN CHOICE, log 17). -/
structure Cryo where
  st : Nat
  band : Nat
  wantBand : Nat
  tset : Nat
  refused : Bool
  coolhold : Bool
  withinSince : Option Nat
  refon : Bool
  holdSince : Option Nat
  readings : List Reading
  tmax : Nat
  tmin : Nat
  rate : Int
  reg : Limits
  lim : Limits
  svcDie : Nat
  step : Nat
  bank0 : Option (List Byte)
  bank1 : Option (List Byte)
  running : Nat
  supDigest : BitVec 256
  minMc : BitVec 32
  minSup : BitVec 32
  raising : Option (BitVec 32)
  svnMc : BitVec 32
  svnSup : BitVec 32
  scrubbed : Nat
  reports : List (List Byte)
  deriving DecidableEq, Repr

/-- The state of the package. `pins` lists the L2 lines that a matrix operation pins, each with the operation (R253); `quadTlb` holds the
TLB of each quad (R288), `engineTlb` the walk-ahead TLB of each package copy engine (R253), and `asked` the pages that engine operations have asked the pager for: context, operation, page (R297). `uc12At` counts the
samples of UC12, one for each millisecond (R313). `idles` says when the `idle` of a group ends (R274), `barRead`, `mgmtRead` and `mgmtBytes` what the host and the
management controller have read last (R315, R332, R342, R354). `stampPoison` and `freezePoison` list the tiles and granules whose words of the stamp map and
the freeze table are poisoned (R339), `waySpares` the sets whose spare L2 way is in use (R335). `farRecall` holds the recall sequence numbers that its caches have recorded for the home slices of
peer packages, keyed by 96 times the package and the slice (R103, R331): a recall from a peer reaches all of them at once. -/
structure State where
  -- model: which agents move next (DESIGN CHOICE, log 1)
  agenda : List Instr
  issueNow : List Nat
  cur : Nat
  autoTurn : Nat
  freeCtr : Nat
  nextId : Nat
  -- time (R167, R315)
  clock : Nat
  time : Nat
  -- entities
  groups : SMap Group
  crews : SMap Crew
  launches : SMap Launch
  flushed : List Flushed
  cores : SMap CoreSt
  ctxs : SMap Ctx
  reqs : SMap Req
  ops : SMap Op
  copies : SMap Copy
  engines : SMap (List Nat)
  shoots : SMap Shoot
  fills : SMap Fill
  flits : SMap FlitMsg
  pends : SMap PendFault
  -- memory and homes
  mem : Memory
  memPoison : List Nat
  stampPoison : List Nat
  freezePoison : List Nat
  stamps : SMap (BitVec 32)
  freezeTable : SMap FreezeEntry
  sliceSeq : SMap (BitVec 32)
  gen : BitVec 32
  epoch : BitVec 8
  thawGen : BitVec 32
  clearing : Bool
  owners : SMap Nat
  rgnidx : BitVec 19
  leases : SMap Nat
  syncLines : List Nat
  scopes : SMap ScopeRec
  lineHolds : SMap Nat
  l2 : SMap L2Line
  pins : List (Nat × Nat)
  quadTlb : SMap (List TlbEntry)
  engineTlb : SMap (List TlbEntry)
  thaws : SMap (Nat × BitVec 22)
  -- monitors and the green room
  slates : SMap Slate
  green : List Green
  backoffs : SMap Backoff
  idles : SMap Nat
  -- package registers
  tvec : Word
  migctl : Word
  lnkid : BitVec 8
  lktbase : Word
  ports : SMap Port
  linkStreams : SMap Stream
  farRecall : SMap (BitVec 32)
  farCopies : SMap FarCopy
  farReads : SMap FarRead
  farWrites : SMap FarWrite
  asked : List (Nat × Nat × Nat)
  interrupts : List (Nat × Nat)
  uc12At : Nat
  barRead : Option Word
  mgmtRead : Option Word
  mgmtBytes : List Byte
  spares : BitVec 24
  softppr : BitVec 12
  lanesSpared : List Nat
  pinSpares : List Nat
  waySpares : List (Nat × Nat)
  eseq : BitVec 48
  box : List BoxEntry
  reserved : List Reservation
  cryo : Cryo
  deriving DecidableEq, Repr

/-! ## Values of entities that are not listed -/

/-- An array that no crew holds (R236). -/
def ArraySt.idle : ArraySt := ⟨none, [], [], [], false, false⟩

/-- A core at reset (DESIGN CHOICE, log 17). -/
def CoreSt.reset : CoreSt := ⟨[], 0, [], [], [], [], [], [], ArraySt.idle, 0, false, false, none⟩

/-- A context at reset: FQCTL.SIZE 7 (R275), HEADWAIT 256, AGESH 6, MIGOK 1 (R300), QUANTUM 10 (R309); every other register 0. -/
def Ctx.reset : Ctx :=
  { fpxc := [], fpxctl := 0, fpxksel := 0, fpxstat := 0, fqbase := 0, fqctl := 7, fqhead := 0, fqtail := 0, fqseq := 0,
    svbase := 0, svcount := 0, slatebase := 0, ptroot := 0, xlctl := false, bbbase := 0, bbhead := 0, bbtail := 0,
    mailbox := [], mailBusy := none, lost := false, schedctl := 0x01000061, vfcfg := 0xA00000000, l2quota := 0, cntcfg := [],
    cnt := [], cntstat := 0, cntgrant := false, uc := [], ucSnap := [], uctime := 0, featoff0 := 0, featoff1 := 0,
    featgnt0 := 0, featgnt1 := 0, jqcmd := none, jqres := 0, jqval := 0, scheduled := false, switching := false, restoring := false, quantumStart := 0, part := 0 }

/-- A link port that has never been up (R324). -/
def Port.reset : Port := ⟨false, 0, 0, none, [], 0, 0, []⟩

/-- A stream that has carried nothing (R327). -/
def Stream.reset : Stream := ⟨0, 0, none, [], []⟩

/-- A monitor without owner or queue (R68). -/
def Slate.free : Slate := ⟨none, [], false⟩

/-- A granule that is not frozen (R96). -/
def FreezeEntry.none : FreezeEntry := ⟨0, false, 0⟩

/-- BANDHI and TRIPLIM at reset (R351). -/
def Limits.reset : Limits := ⟨344, 440, 640, 960, 280, 1280⟩

/-- The management controller at reset: OFF, band 4, timing set D, BANDHI and TRIPLIM at their reset values (R351). -/
def Cryo.reset : Cryo :=
  { st := 0, band := 4, wantBand := 4, tset := 3, refused := false, coolhold := false, withinSince := none, refon := false,
    holdSince := none, readings := [], tmax := 0, tmin := 0, rate := 0, reg := .reset, lim := .reset, svcDie := 0,
    step := 0, bank0 := none, bank1 := none, running := 0, supDigest := 0,
    minMc := 0, minSup := 0, raising := none, svnMc := 0, svnSup := 0, scrubbed := 0, reports := [] }

/-- No register written. -/
def Regs.zero : Regs := ⟨[], [], []⟩

/-- Nothing recorded (R90). -/
def Recording.empty : Recording := ⟨[], [], false, false, false, 0, false⟩

/-- The machine right after reset: no context enabled, no crew, memory with nothing listed, generation 1 (R352), the package in
OFF (R351). -/
def State.reset : State :=
  { agenda := [], issueNow := [], cur := 0, autoTurn := 0, freeCtr := 0, nextId := 0, clock := 0, time := 0, groups := [],
    crews := [], launches := [], flushed := [], cores := [], ctxs := [], reqs := [], ops := [], copies := [], engines := [],
    shoots := [], fills := [], flits := [], pends := [], mem := [], memPoison := [], stampPoison := [], freezePoison := [], stamps := [], freezeTable := [],
    sliceSeq := [], gen := 1, epoch := 0, thawGen := 0, clearing := false, owners := [], rgnidx := 0, leases := [],
    syncLines := [], scopes := [], lineHolds := [], l2 := [], pins := [], quadTlb := [], engineTlb := [], thaws := [], slates := [], green := [], backoffs := [], idles := [],
    tvec := 0, migctl := 0xC04, lnkid := 0, lktbase := 0, ports := [], linkStreams := [], farRecall := [],
    farCopies := [], farReads := [], farWrites := [], asked := [], interrupts := [], uc12At := 0, barRead := none, mgmtRead := none, mgmtBytes := [],
    spares := 0, softppr := 0, lanesSpared := [], pinSpares := [], waySpares := [], eseq := 0, box := [], reserved := [], cryo := .reset }

end Sys2Proof.Machine
end

