-- ==== Sys2Proof/Machine/Bits.lean ====
section
/-! DEFINITION. Lanes, masks and bit fields. -/

namespace Sys2Proof.Machine

/-- Lanes 0 to 63. -/
def allLanes : List Nat := List.range 64

/-- The lanes of a mask, ascending. -/
def lanesOf (m : Mask) : List Nat := allLanes.filter (fun l => m.getLsbD l)

/-- The mask with one lane. -/
def laneBit (l : Nat) : Mask := BitVec.ofNat 64 (2 ^ l)

/-- The mask of a list of lanes. -/
def maskOf (ls : List Nat) : Mask := ls.foldl (fun m l => m ||| laneBit l) 0

/-- Lanes 0 to `w - 1` (R30). -/
def fullMask (w : Nat) : Mask := BitVec.ofNat 64 (2 ^ w - 1)

/-- The number of set bits among the low `n` (R185, R188). -/
def popCount {w : Nat} (x : BitVec w) : Nat → Nat
  | 0 => 0
  | n + 1 => (if x.getLsbD n then 1 else 0) + popCount x n

/-- The number of zero bits above the highest one bit of the low `n` (R185, R188). -/
def leadZeros {w : Nat} (x : BitVec w) : Nat → Nat
  | 0 => 0
  | n + 1 => if x.getLsbD n then 0 else 1 + leadZeros x n

/-- Bit `k` moves to bit `31 - k` (R188). -/
def revBits (x : W32) : W32 :=
  BitVec.ofNat 32 ((List.range 32).foldl (fun a k => if x.getLsbD k then a + 2 ^ (31 - k) else a) 0)

/-- The first lane of a list, else `d`. -/
def headOr (l : List Nat) (d : Nat) : Nat := l.headD d

/-- Sign-extend a 32-bit immediate to 64 bits (R157). -/
def sext32 (v : BitVec 32) : Word := v.signExtend 64

/-- The low `n` bits of `x`, sign- or zero-extended to `w` bits. -/
def extend (signed : Bool) (n w : Nat) (x : Nat) : BitVec w :=
  let y := x % 2 ^ n
  if signed && decide (2 ^ (n - 1) ≤ y) then BitVec.ofInt w ((y : Int) - (2 ^ n : Nat)) else BitVec.ofNat w y

/-- Bytes of a value of a type in memory (R208). -/
def fmtBytes (t : Fmt) : Nat :=
  match t with
  | .n8 | .i8 | .f8a | .f8b | .q4n => 1
  | .n16 | .i16 | .f16 | .bf16 => 2
  | .n32 | .i32 | .b32 | .f32 => 4
  | .n64 | .i64 | .b64 => 8

/-- A type is signed. -/
def fmtSigned (t : Fmt) : Bool := t == .i8 || t == .i16 || t == .i32 || t == .i64

/-- A value of type `t` extended to `w` bits (R208). -/
def fmtExtend (t : Fmt) (w : Nat) (x : Nat) : BitVec w := extend (fmtSigned t) (8 * fmtBytes t) w x

/-- A byte of a 128-byte line. -/
def lineByte (d : BitVec 1024) (o : Nat) : Byte := d.extractLsb' (8 * o) 8

/-- A 128-byte line with a byte written. -/
def setLineByte (d : BitVec 1024) (o : Nat) (b : Byte) : BitVec 1024 :=
  (d &&& ~~~((255 : BitVec 1024) <<< (8 * o))) ||| ((b.setWidth 1024) <<< (8 * o))

/-- Write the low `n` bytes of `v` into a line at `o`. -/
def setLineNat (d : BitVec 1024) (o v : Nat) : Nat → BitVec 1024
  | 0 => d
  | n + 1 => setLineNat (setLineByte d o (BitVec.ofNat 8 v)) (o + 1) (v / 256) n

/-- The `n` bytes of a line at `o`, little-endian. -/
def lineNat (d : BitVec 1024) (o : Nat) : Nat → Nat
  | 0 => 0
  | n + 1 => (lineByte d o).toNat + 256 * lineNat d (o + 1) n

end Sys2Proof.Machine
end

