-- ==== Sys2Proof/Machine/Num.lean ====
section
/-! DEFINITION. Number formats and the one rounding function (R130 to R139), exact arithmetic on dyadic values, and the
exceptions of a result (R145). -/

namespace Sys2Proof.Machine

/-- A value: NaN, an infinity, or (-1)^neg * m * 2^e; a zero keeps its sign (R133). -/
inductive XVal
  | nan
  | inf (neg : Bool)
  | fin (neg : Bool) (m : Nat) (e : Int)
  deriving DecidableEq, Repr

/-- Exponent bits, fraction bits, bias, and whether the format has infinities (R131). -/
structure FParam where
  eb : Nat
  fb : Nat
  bias : Nat
  hasInf : Bool

/-- The parameters of a float format. -/
def fparam (t : Fmt) : FParam :=
  match t with
  | .f16 => ⟨5, 10, 15, true⟩
  | .bf16 => ⟨8, 7, 127, true⟩
  | .f8a => ⟨4, 3, 7, false⟩
  | .f8b => ⟨5, 2, 15, true⟩
  | _ => ⟨8, 23, 127, true⟩

/-- The code of the largest finite magnitude (R131). -/
def maxCode (t : Fmt) : Nat :=
  let p := fparam t
  if p.hasInf then (2 ^ p.eb - 1) * 2 ^ p.fb - 1 else 2 ^ (p.eb + p.fb) - 2

/-- The sign bit of a format. -/
def signCode (t : Fmt) : Nat := 2 ^ ((fparam t).eb + (fparam t).fb)

/-- The canonical NaN (R131). -/
def canonNaN (t : Fmt) : Nat :=
  match t with
  | .f16 => 0x7E00
  | .bf16 => 0x7FC0
  | .f8a => 0x7F
  | .f8b => 0x7E
  | _ => 0x7FC00000

/-- The magnitude code and sign of an encoding. -/
def splitCode (t : Fmt) (x : Nat) : Bool × Nat :=
  let y := x % (2 * signCode t)
  (decide (signCode t ≤ y), y % signCode t)

/-- An encoding is a NaN. -/
def isNaNCode (t : Fmt) (x : Nat) : Bool :=
  let m := (splitCode t x).2
  if (fparam t).hasInf then decide ((2 ^ (fparam t).eb - 1) * 2 ^ (fparam t).fb < m) else decide (maxCode t < m)

/-- An encoding is an infinity. -/
def isInfCode (t : Fmt) (x : Nat) : Bool :=
  (fparam t).hasInf && (splitCode t x).2 == (2 ^ (fparam t).eb - 1) * 2 ^ (fparam t).fb

/-- The value of an encoding (R131). -/
def ofCode (t : Fmt) (x : Nat) : XVal :=
  let p := fparam t
  let s := (splitCode t x).1
  let m := (splitCode t x).2
  if isNaNCode t x then .nan
  else if isInfCode t x then .inf s
  else
    let ef := m / 2 ^ p.fb
    let fr := m % 2 ^ p.fb
    if ef = 0 then .fin s fr (1 - (p.bias : Int) - p.fb) else .fin s (2 ^ p.fb + fr) ((ef : Int) - p.bias - p.fb)

/-- The magnitude of a code of the codebook, times 256 (R138). -/
def q4Mag (i : Nat) : Nat :=
  match i with
  | 0 => 11 | 1 => 33 | 2 => 55 | 3 => 80 | 4 => 107 | 5 => 139 | 6 => 181 | _ => 256

/-- The value of a q4n code (R138). -/
def ofQ4 (c : Nat) : XVal := .fin (decide (8 ≤ c % 16)) (q4Mag (c % 8)) (-8)

/-- The value of an integer. -/
def ofInt (i : Int) : XVal := .fin (decide (i < 0)) i.natAbs 0

/-! ## Rounding (R134, R135) -/

/-- A rounded result: its encoding, whether `Overflow` was called, whether it underflowed (R145). -/
structure Rounded where
  code : Nat
  ovf : Bool
  unf : Bool
  deriving DecidableEq, Repr

/-- The choice between `k` and `k + 1` of R134: `rem` of `den` is what `k` leaves. -/
def pickUp (mode : RMode) (neg : Bool) (k rem den : Nat) : Nat :=
  if rem = 0 then k
  else match mode with
    | .rne => if 2 * rem < den then k else if den < 2 * rem then k + 1 else if k % 2 = 0 then k else k + 1
    | .rtz => k
    | .rup => if neg then k else k + 1
    | .rdn => if neg then k + 1 else k
    | .rto => if k % 2 = 1 then k else k + 1

/-- The magnitude code that `Overflow` gives (R135). -/
def overflowCode (t : Fmt) (mode : RMode) (neg : Bool) : Nat :=
  if (fparam t).hasInf then
    match mode, neg with
    | .rne, _ => maxCode t + 1
    | .rup, false => maxCode t + 1
    | .rdn, true => maxCode t + 1
    | _, _ => maxCode t
  else maxCode t

/-- `RoundTo(fmt, mode, x)` (R134). -/
def roundTo (t : Fmt) (mode : RMode) (x : XVal) : Rounded :=
  let p := fparam t
  match x with
  | .nan => ⟨canonNaN t, false, false⟩
  | .inf s =>
    if p.hasInf then ⟨(if s then signCode t else 0) + maxCode t + 1, false, false⟩
    else ⟨if s then 0xFF else 0x7F, false, false⟩
  | .fin s m e =>
    let sc := if s then signCode t else 0
    if m = 0 then ⟨sc, false, false⟩
    else
      let emin : Int := 1 - p.bias
      let ee : Int := max ((Nat.log2 m : Int) + e) emin
      let q : Int := ee - p.fb
      let up := (e - q).toNat
      let dn := (q - e).toNat
      let k0 := m * 2 ^ up / 2 ^ dn
      let rem := m * 2 ^ up % 2 ^ dn
      let k := pickUp mode s k0 rem (2 ^ dn)
      -- the code of k * 2^q: codes rise with the value, across the change of exponent
      let code := if k < 2 ^ p.fb then k else (q + p.fb + p.bias - 1).toNat * 2 ^ p.fb + k
      if maxCode t < code then ⟨sc + overflowCode t mode s, true, false⟩
      else ⟨sc + code, false, decide (rem ≠ 0) && decide (code < 2 ^ p.fb)⟩

/-! ## Exact arithmetic (R133, R191) -/

/-- The negation of a value, zeros and NaN included. -/
def XVal.neg : XVal → XVal
  | .nan => .nan
  | .inf s => .inf (!s)
  | .fin s m e => .fin (!s) m e

/-- The exact product. -/
def XVal.mul (a b : XVal) : XVal :=
  match a, b with
  | .nan, _ => .nan
  | _, .nan => .nan
  | .inf s, .inf r => .inf (s ^^ r)
  | .inf s, .fin r m _ => if m = 0 then .nan else .inf (s ^^ r)
  | .fin s m _, .inf r => if m = 0 then .nan else .inf (s ^^ r)
  | .fin s m e, .fin r n f => .fin (s ^^ r) (m * n) (e + f)

/-- The signed magnitude at exponent `f`, where `f` is not above `e`. -/
def scaled (s : Bool) (m : Nat) (e f : Int) : Int :=
  let v : Int := m * 2 ^ (e - f).toNat
  if s then -v else v

/-- The exact sum; a zero sum takes its sign as R133 states, in rounding mode `mode`. -/
def XVal.add (mode : RMode) (a b : XVal) : XVal :=
  match a, b with
  | .nan, _ => .nan
  | _, .nan => .nan
  | .inf s, .inf r => if s = r then .inf s else .nan
  | .inf s, _ => .inf s
  | _, .inf r => .inf r
  | .fin s m e, .fin r n f =>
    let g := min e f
    let v := scaled s m e g + scaled r n f g
    if v = 0 then .fin (if m = 0 ∧ n = 0 ∧ s ∧ r then true else mode == .rdn) 0 0
    else .fin (decide (v < 0)) v.natAbs g

/-- The exact sum of a list of products (R143): NaN, infinities, and -0 only if every product is -0. -/
def sumExact (l : List XVal) : XVal :=
  if l.any (fun x => x == .nan) then .nan
  else
    let pos := l.any (fun x => x == .inf false)
    let neg := l.any (fun x => x == .inf true)
    if pos && neg then .nan
    else if pos then .inf false
    else if neg then .inf true
    else
      let allNegZero := !l.isEmpty && l.all (fun x => match x with | .fin true 0 _ => true | _ => false)
      let r := l.foldl (fun a x => XVal.add .rne a x) (.fin false 0 0)
      match r with
      | .fin _ 0 _ => .fin allNegZero 0 0
      | y => y

/-- Compare two values that are not NaN: -1, 0 or 1; `-0` is below `+0` when `zeros` holds. -/
def XVal.cmp (zeros : Bool) (a b : XVal) : Int :=
  match a, b with
  | .inf s, .inf r => if s = r then 0 else if s then -1 else 1
  | .inf s, _ => if s then -1 else 1
  | _, .inf r => if r then 1 else -1
  | .fin s m e, .fin r n f =>
    let g := min e f
    let v := scaled s m e g - scaled r n f g
    if v < 0 then -1 else if 0 < v then 1
    else if zeros && m == 0 && n == 0 then (if s && !r then -1 else if r && !s then 1 else 0) else 0
  | _, _ => 0

/-- A value rounded to an integer in a mode (R136, R195). -/
def XVal.toInt (mode : RMode) (s : Bool) (m : Nat) (e : Int) : Int :=
  let up := e.toNat
  let dn := (-e).toNat
  let k := pickUp mode s (m * 2 ^ up / 2 ^ dn) (m * 2 ^ up % 2 ^ dn) (2 ^ dn)
  if s then -(k : Int) else k

/-- The range of an integer type. -/
def intRange (t : Fmt) : Int × Int :=
  let b := 8 * fmtBytes t
  if fmtSigned t then (-(2 ^ (b - 1) : Nat), (2 ^ (b - 1) : Nat) - 1) else (0, (2 ^ b : Nat) - 1)

/-- Float to integer: rounded, then clamped; infinities to the ends, NaN to 0 (R136). -/
def toIntType (t : Fmt) (mode : RMode) (x : XVal) : Int :=
  let r := intRange t
  match x with
  | .nan => 0
  | .inf s => if s then r.1 else r.2
  | .fin s m e => max r.1 (min r.2 (XVal.toInt mode s m e))

/-- Round to an integral value of the format (R195). -/
def fround (t : Fmt) (mode : RMode) (x : Nat) : Nat :=
  match ofCode t x with
  | .nan => canonNaN t
  | .inf _ => x % (2 * signCode t)
  | .fin s m e =>
    if 0 ≤ e then x % (2 * signCode t) else (roundTo t .rne (.fin s (XVal.toInt mode s m e).natAbs 0)).code

/-- The lesser or greater of two encodings (R192). -/
def fminmax (t : Fmt) (less : Bool) (a b : Nat) : Nat :=
  let w := 2 * signCode t
  if isNaNCode t a && isNaNCode t b then canonNaN t
  else if isNaNCode t a then b % w
  else if isNaNCode t b then a % w
  else
    let c := XVal.cmp true (ofCode t a) (ofCode t b)
    if c = 0 then a % w else if (decide (c < 0)) == less then a % w else b % w

/-- A condition on two encodings (R193). -/
def fcond (t : Fmt) (cc : Cond) (a b : Nat) : Bool :=
  let un := isNaNCode t a || isNaNCode t b
  let c := XVal.cmp false (ofCode t a) (ofCode t b)
  match cc with
  | .eq => !un && c == 0
  | .ne => un || c != 0
  | .lt => !un && decide (c < 0)
  | .le => !un && decide (c ≤ 0)
  | .gt => !un && decide (0 < c)
  | .ge => !un && decide (0 ≤ c)
  | .un => un
  | .ord => !un

/-- The class word (R194). -/
def fclassOf (t : Fmt) (x : Nat) : Nat :=
  let s := (splitCode t x).1
  let m := (splitCode t x).2
  if isNaNCode t x then 2 ^ 8
  else if isInfCode t x then (if s then 1 else 2 ^ 7)
  else if m = 0 then (if s then 2 ^ 3 else 2 ^ 4)
  else if m < 2 ^ (fparam t).fb then (if s then 2 ^ 2 else 2 ^ 5)
  else if s then 2 ^ 1 else 2 ^ 6

/-! ## Exceptions (R145) -/

/-- The number of a format in FPXC (R146). -/
def fpxFormat (t : Fmt) : Nat :=
  match t with
  | .f16 => 1 | .bf16 => 2 | .f8a => 3 | .f8b => 4 | _ => 0

/-- The events of a result: NaN produced, infinity produced, overflow, underflow; `inNaN`, `inInf` say what the inputs held. -/
def fpEvents (t : Fmt) (inNaN inInf : Bool) (r : Rounded) : List Nat :=
  (if isNaNCode t r.code && !inNaN then [0] else []) ++ (if isInfCode t r.code && !inInf then [1] else [])
    ++ (if r.ovf then [2] else []) ++ (if r.unf then [3] else [])

/-- A value is an infinity. -/
def XVal.isInf : XVal → Bool
  | .inf _ => true
  | _ => false

/-- A value is NaN. -/
def XVal.isNaN : XVal → Bool
  | .nan => true
  | _ => false

/-- A float result with its events: the operands, the exact result, the format and mode. -/
def fresult (t : Fmt) (mode : RMode) (ins : List XVal) (x : XVal) : Nat × List Nat :=
  let r := roundTo t mode x
  (r.code, fpEvents t (ins.any XVal.isNaN) (ins.any XVal.isInf) r)

end Sys2Proof.Machine
end

