-- ==== Sys2Proof/Config.lean ====
section
/-! DEFINITION. What an implementation of the 9600 fixes and the manual leaves open, and the free values (DESIGN CHOICE, log 4,
log 10, log 16). A constant here has no body: nothing proved about the machine can rest on what it is. -/

namespace Sys2Proof.Config

/-- The free values (R5 "unpredictable"): the machine takes `freeBits` at a counter that it advances, and numbers the values that it
takes at once (DESIGN CHOICE, log 4). -/
opaque freeBits : Nat → Nat → BitVec 64

/-- The L2 set, 0 to 1,535, of a line address in its slice, which the manual does not give (R53, R312; DESIGN CHOICE, log 16). -/
opaque l2Set : Nat → Fin 1536

/-- The energy coefficient of a kind of event in a band, as UC11 counts it (R314; DESIGN CHOICE, log 10). Kinds 0 to 7 are the issued
instruction classes, 8 an L2 access, 9 an HBM burst, 10 a link flit, 11 and up a matrix chunk by the code of its format, 27 the static share
of a resident core. -/
opaque energy : Nat → Nat → Nat

/-- SHA-256 of a list of bytes (R353, R354; DESIGN CHOICE, log 10). -/
opaque sha256 : List Byte → BitVec 256

/-- Verification of an RSA-3072 PSS signature: modulus, signature, message (R353; DESIGN CHOICE, log 10). -/
opaque rsaVerify : List Byte → List Byte → List Byte → Bool

/-- The fused key hashes (R353; DESIGN CHOICE, log 10). -/
opaque keyHash : Nat → BitVec 256

/-- A fused key hash is revoked (R353; DESIGN CHOICE, log 10). -/
opaque keyRevoked : Nat → Bool

/-- The attestation signature of the device over a list of bytes (R354; DESIGN CHOICE, log 10). -/
opaque attestSign : List Byte → List Byte

/-- The certificate of the device (R354; DESIGN CHOICE, log 10). -/
opaque certificate : List Byte

end Sys2Proof.Config
end

