-- ==== Sys2Proof/Machine/Xlate.lean ====
section
/-! DEFINITION. Address translation (R284 to R288): the five-level walk, its checks in order, and the translations that the TLBs
hold. The physical map (R52, R322) and home slices (R53). -/

namespace Sys2Proof.Machine

/-! ## The physical map -/

/-- The first address above HBM (R52). -/
def hbmEnd : Nat := 0x9000000000

/-- An address lies in HBM. -/
def inHbm (pa : Nat) : Bool := decide (pa < hbmEnd)

/-- An address lies in the host window (R322). -/
def inHost (pa : Nat) : Bool := decide (0x800000000000 ≤ pa ∧ pa < 0x900000000000)

/-- The package whose window holds an address (R322): its index must not be the own one nor above GSIZE. -/
def peerOf (lnkid : BitVec 8) (pa : Nat) : Option Nat :=
  let q := (pa - 0xC00000000000) / 0x10000000000
  if 0xC00000000000 ≤ pa ∧ q ≤ 15 ∧ (pa - 0xC00000000000) % 0x10000000000 < hbmEnd ∧ q ≤ (lnkid.extractLsb' 4 4).toNat
    ∧ q ≠ (lnkid.extractLsb' 0 4).toNat then some q else none

/-- An address lies in the host window or a peer-package window. -/
def inWindow (lnkid : BitVec 8) (pa : Nat) : Bool := inHost pa || (peerOf lnkid pa).isSome

/-- Something stands at a physical address (R52). -/
def mapped (lnkid : BitVec 8) (pa : Nat) : Bool := inHbm pa || inWindow lnkid pa

/-- The home slice of an address (R53). -/
def homeSlice (pa : Nat) : Nat :=
  let s := if inHbm pa then pa / 0xC00000000 else pa / 2 ^ 12 % 2 ^ 20 % 12
  let j := Nat.xor (Nat.xor (pa / 2 ^ 7 % 8) (pa / 2 ^ 12 % 8)) (pa / 2 ^ 17 % 8)
  8 * s + j

/-- The die of a core, slice and stack. -/
def dieOfCore (c : Nat) : Nat := c / 64
/-- The die of a slice. -/
def dieOfSlice (s : Nat) : Nat := s / 16

/-- The line of an address (R55). -/
def lineOf (pa : Nat) : Nat := pa / 128
/-- The trace tile of an address (R83). -/
def tileOf (pa : Nat) : Nat := pa / 4096
/-- The freeze granule of an address (R96). -/
def granuleOf (pa : Nat) : Nat := pa / 65536

/-! ## Leaf entries (R284) -/

/-- Bit `k` of an entry. -/
def pteBit (e : BitVec 64) (k : Nat) : Bool := e.getLsbD k
/-- V. -/
def pteV (e : BitVec 64) : Bool := pteBit e 0
/-- P. -/
def pteP (e : BitVec 64) : Bool := pteBit e 1
/-- LEAF. -/
def pteLeaf (e : BitVec 64) : Bool := pteBit e 8
/-- C64. -/
def pteC64 (e : BitVec 64) : Bool := pteBit e 9
/-- UNTR. -/
def pteUntr (e : BitVec 64) : Bool := pteBit e 10
/-- FRZ. -/
def pteFrz (e : BitVec 64) : Bool := pteBit e 11
/-- The address of bits 51:12. -/
def pteAddr (e : BitVec 64) : Nat := (e.extractLsb' 12 40).toNat * 4096
/-- COLOUR. -/
def pteColour (e : BitVec 64) : Nat := (e.extractLsb' 52 12).toNat

/-- A fault of translation: cause and detail. -/
abbrev XFault := Nat × Nat

/-- Why a translation gives no address: a fault; PAGE, with the colour of a leaf that is not resident and the size of its page (R211,
R285); or an entry in a window that its home has first to read at the far end (R322). -/
inductive XErr
  | fault (cause detail : Nat)
  | page (detail : Nat) (colour : Nat) (size : Nat)
  | far (pa : Nat)
  deriving DecidableEq, Repr

/-- A leaf found by a walk: the entry, its address, and the size of its page. -/
structure Leaf where
  e : BitVec 64
  at_ : Nat
  size : Nat
  deriving DecidableEq, Repr

/-- The size of a page whose leaf stands at a level (R285). -/
def pageSize (level : Nat) : Nat := 2 ^ (12 + 9 * level)

/-- The registers of a context. -/
def State.ctx (s : State) (x : Nat) : Ctx := SMap.get s.ctxs Ctx.reset x

/-- A core. -/
def State.core (s : State) (c : Nat) : CoreSt := SMap.get s.cores CoreSt.reset c

/-- The `n` bytes from an address as its home holds them (R53, R106): in HBM, or in the home's copy of a window line (R322); `none` where
the home has to read them at the far end first. The bytes lie in one line. -/
def State.homeNat? (s : State) (pa n : Nat) : Option Nat :=
  if inWindow s.lnkid pa then (SMap.find? s.farCopies (lineOf pa)).map (fun c => lineNat c.data (pa % 128) n)
  else some (Memory.readNat s.mem pa n)

/-- The fault with which the far end or a lost port answered the home's read of a window line (R326, R328). -/
def State.farFault (s : State) (pa : Nat) : Option (Nat × Nat) :=
  if inWindow s.lnkid pa then (SMap.find? s.farCopies (lineOf pa)).bind FarCopy.bad else none

/-- An entry of a table, read at its home (R284). An address outside the physical map gives PROT 18 (R52); a read that its far end refuses or
a port loses gives the fault of a refused or lost load (DESIGN CHOICE, log 47); a poisoned entry gives PIPEERR 6 (R339). -/
def readEntry (s : State) (a : Nat) : Except XErr (BitVec 64) :=
  if !mapped s.lnkid a then .error (.fault 8 18)
  else if let some f := s.farFault a then .error (.fault f.1 f.2)
  else if s.memPoison.contains (a / 4) || s.memPoison.contains (a / 4 + 1) then .error (.fault 17 6)
  else match s.homeNat? a 8 with
    | some v => .ok (BitVec.ofNat 64 v)
    | none => .error (.far a)

/-- A leaf of a 64 KiB page (R285). -/
def blockLeaf (e : BitVec 64) : Bool := pteV e && pteLeaf e && pteC64 e

/-- PPN of an entry at index `j` of a block, as it implies it for the page at index `i`. -/
def impliedAddr (e : BitVec 64) (i j : Nat) : Nat := (pteAddr e + 4096 * i + (2 ^ 52 - 4096 * j)) % 2 ^ 52

/-- The level-0 entry that a page translates through (R285): its own, or where one of the 16 entries of its block has C64 and they disagree, an
unpredictable one of them (R5): which, is a free value (DESIGN CHOICE, log 4). It is given with the PPN that it implies for the page. -/
def blockEntry (s : State) (va a : Nat) : Except XErr (BitVec 64) :=
  match readEntry s a with
  | .error x => .error x
  | .ok e =>
    let i := va / 4096 % 16
    let first := a - 8 * i
    let ppn : BitVec 64 := 0x000FFFFFFFFFF000
    let at_ := fun (j : Nat) => BitVec.ofNat 64 ((s.homeNat? (first + 8 * j) 8).getD 0)
    let agree := fun (j : Nat) => at_ j &&& ~~~ppn == e &&& ~~~ppn && impliedAddr (at_ j) i j == pteAddr e
    if !(List.range 16).any (fun j => blockLeaf (at_ j)) || (List.range 16).all agree then .ok e
    else
      let j := (Sys2Proof.Config.freeBits s.freeCtr (2 ^ 40 + a)).toNat % 16
      match readEntry s (first + 8 * j) with
      | .error x => .error x
      | .ok x => .ok (if blockLeaf x then (x &&& ~~~ppn) ||| BitVec.ofNat 64 (impliedAddr x i j) else x)

/-- The walk from `level` down (R286 rows 2 to 4), reading each entry at its home. A path that ends at an entry with V = 0 gives no page size; as a
distinct page of R211 the model takes 4 KiB there, at whatever level it ends (DESIGN CHOICE, log 62). -/
def walkFrom (s : State) (va table : Nat) : Nat → Except XErr Leaf
  | 0 =>
    let a := table + 8 * (va / 2 ^ 12 % 512)
    match blockEntry s va a with
    | .error x => .error x
    | .ok e =>
      if !pteV e then .error (.page 1 0 4096)
      else if !pteLeaf e then .error (.fault 8 17)
      else if !pteP e then .error (.page 2 (pteColour e) (pageSize 0))
      else .ok ⟨e, a, pageSize 0⟩
  | n + 1 =>
    let a := table + 8 * (va / 2 ^ (12 + 9 * (n + 1)) % 512)
    match readEntry s a with
    | .error x => .error x
    | .ok e =>
      if !pteV e then .error (.page 1 0 4096)
      else if pteLeaf e then
        if 2 < n + 1 then .error (.fault 8 17)
        else if !pteP e then .error (.page 2 (pteColour e) (pageSize (n + 1)))
        else .ok ⟨e, a, pageSize (n + 1)⟩
      else if e &&& ~~~(0x000FFFFFFFFFF001 : BitVec 64) != 0 then .error (.fault 8 17)
      else walkFrom s va (pteAddr e) n

/-- The address is canonical (R286 row 1). -/
def canonical (va : Word) : Bool := (va.extractLsb' 57 7 : BitVec 7) == (if va.getLsbD 56 then 127 else 0)

/-- What an access needs (R286 row 8). -/
structure Need where
  r : Bool
  w : Bool
  x : Bool
  deriving DecidableEq, Repr

/-- A read. -/
def Need.read : Need := ⟨true, false, false⟩
/-- A write. -/
def Need.write : Need := ⟨false, true, false⟩
/-- An atomic: both (R286). -/
def Need.atom : Need := ⟨true, true, false⟩
/-- A fetch for execution. -/
def Need.exec : Need := ⟨false, false, true⟩

/-- A translated access. -/
structure Xl where
  pa : Nat
  colour : Nat
  frz : Bool
  untr : Bool
  deriving DecidableEq, Repr

/-- Rows 5 to 9 of R286 on a resident leaf; `frzCheck` is row 9. -/
def checkLeaf (lnkid : BitVec 8) (va : Word) (sup : Bool) (need : Need) (frzCheck : Bool) (e : BitVec 64) (size : Nat) :
    Except XErr Xl :=
  if pteAddr e % size ≠ 0 then .error (.fault 8 17)
  else if !mapped lnkid (pteAddr e) then .error (.fault 8 18)
  else if !(if sup then pteBit e 7 else pteBit e 6) then .error (.fault 8 19)
  else if need.r && !pteBit e 3 then .error (.fault 8 20)
  else if need.w && !pteBit e 4 then .error (.fault 8 21)
  else if need.x && !pteBit e 5 then .error (.fault 8 22)
  else if need.w && frzCheck && pteFrz e then .error (.fault 9 1)
  else .ok ⟨pteAddr e + va.toNat % size, pteColour e, pteFrz e, pteUntr e⟩

/-- A TLB entry of a context that holds a virtual address. -/
def tlbFind (tlb : List TlbEntry) (ctx va : Nat) : Option TlbEntry :=
  tlb.find? (fun t => t.ctx == ctx && decide (t.base ≤ va) && decide (va < t.base + t.size))

/-- The leaf of an address in a context by a walk now. -/
def walk (s : State) (ctx : Nat) (va : Word) : Except XErr Leaf :=
  if !canonical va then .error (.fault 8 16)
  else walkFrom s (va.toNat % 2 ^ 57) (pteAddr (s.ctx ctx).ptroot) 4

/-- Translation by a walk (R286), without a TLB: for the 9600's own accesses and for range checks. -/
def xlateWalk (s : State) (ctx : Nat) (va : Word) (sup : Bool) (need : Need) (frzCheck : Bool) : Except XErr Xl :=
  match walk s ctx va with
  | .error e => .error e
  | .ok l => checkLeaf s.lnkid va sup need frzCheck l.e l.size

/-- The quad of a core (R1). -/
def quadOf (core : Nat) : Nat := core / 4

/-- The translation that the TLBs of a core hold: its own, else that of its quad (R288). -/
def tlbHeld (s : State) (core ctx va : Nat) : Option TlbEntry :=
  match tlbFind (s.core core).tlb ctx va with
  | some t => some t
  | none => tlbFind (SMap.get s.quadTlb [] (quadOf core)) ctx va

/-- Translation of an access of a core: through its TLBs, else by a walk (R288). -/
def xlate (s : State) (core ctx : Nat) (va : Word) (sup : Bool) (need : Need) (frzCheck : Bool) : Except XErr Xl :=
  if !canonical va then .error (.fault 8 16)
  else match tlbHeld s core ctx (va.toNat % 2 ^ 57) with
    | some t => checkLeaf s.lnkid va sup need frzCheck t.leaf t.size
    | none => xlateWalk s ctx va sup need frzCheck

/-- The engines with a walk-ahead TLB (R253): the tile fetch unit and the copy unit of a core, and a package copy engine. -/
inductive EngineId
  | tile (core : Nat)
  | copy (core : Nat)
  | package (e : Nat)

/-- The walk-ahead TLB of an engine. -/
def State.walkAhead (s : State) : EngineId → List TlbEntry
  | .tile c => (s.core c).ahead
  | .copy c => (s.core c).copyTlb
  | .package e => SMap.get s.engineTlb [] e

/-- Write the walk-ahead TLB of an engine. -/
def State.setWalkAhead (s : State) (w : EngineId) (l : List TlbEntry) : State :=
  match w with
  | .tile c => { s with cores := SMap.ins s.cores c { s.core c with ahead := l } }
  | .copy c => { s with cores := SMap.ins s.cores c { s.core c with copyTlb := l } }
  | .package e => { s with engineTlb := SMap.ins s.engineTlb e l }

/-- Translation of an access of an engine: through its walk-ahead TLB, else by a walk (R253). -/
def xlateAhead (s : State) (w : EngineId) (ctx : Nat) (va : Word) (sup : Bool) (need : Need) (frzCheck : Bool) : Except XErr Xl :=
  if !canonical va then .error (.fault 8 16)
  else match tlbFind (s.walkAhead w) ctx (va.toNat % 2 ^ 57) with
    | some t => checkLeaf s.lnkid va sup need frzCheck t.leaf t.size
    | none => xlateWalk s ctx va sup need frzCheck

/-- The entry that a walk gives for a page. -/
def TlbEntry.of (ctx : Nat) (va : Word) (l : Leaf) : TlbEntry :=
  let b := va.toNat % 2 ^ 57
  ⟨ctx, b - b % l.size, l.size, l.e⟩

/-- A TLB of `n` entries takes an entry, in place of one for the same page; full, it loses its oldest (DESIGN CHOICE, log 6). -/
def tlbAdd (n : Nat) (t : TlbEntry) (l : List TlbEntry) : List TlbEntry :=
  (t :: l.filter (fun x => !(x.ctx == t.ctx && x.base == t.base))).take n

/-- An entry joins the 192-entry TLB of a core and the 4,096-entry TLB of its quad (R288). -/
def tlbInsert (s : State) (core : Nat) (t : TlbEntry) : State :=
  let c := s.core core
  { s with cores := SMap.ins s.cores core { c with tlb := tlbAdd 192 t c.tlb },
           quadTlb := SMap.ins s.quadTlb (quadOf core) (tlbAdd 4096 t (SMap.get s.quadTlb [] (quadOf core))) }

/-- The TLBs of a core after a translation: an entry of the quad, or a walk's, joins them (R288). -/
def tlbFill (s : State) (core ctx : Nat) (va : Word) : State :=
  match tlbFind (s.core core).tlb ctx (va.toNat % 2 ^ 57) with
  | some _ => s
  | none => match tlbFind (SMap.get s.quadTlb [] (quadOf core)) ctx (va.toNat % 2 ^ 57) with
    | some t => { s with cores := SMap.ins s.cores core { s.core core with tlb := tlbAdd 192 t (s.core core).tlb } }
    | none => match walk s ctx va with
      | .error _ => s
      | .ok l => tlbInsert s core (TlbEntry.of ctx va l)

/-- A walk's entry takes the place of what the TLBs of a core and its quad hold for the page (R288). -/
def tlbRenew (s : State) (core ctx : Nat) (va : Word) : State :=
  match walk s ctx va with
  | .error _ => s
  | .ok l => tlbInsert s core (TlbEntry.of ctx va l)

/-- The 64-entry walk-ahead TLB of an engine after a translation (R253). -/
def aheadFill (s : State) (w : EngineId) (ctx : Nat) (va : Word) : State :=
  match tlbFind (s.walkAhead w) ctx (va.toNat % 2 ^ 57), walk s ctx va with
  | none, .ok l => s.setWalkAhead w (tlbAdd 64 (TlbEntry.of ctx va l) (s.walkAhead w))
  | _, _ => s

end Sys2Proof.Machine
end

