-- ==== Sys2Proof/Machine/Ops.lean ====
section
/-! DEFINITION. The named operations on the state: entities, registers, counters and events, L1 and homes, recording, the
passage to the next instruction, faults and their records, trap entry and the return from it. -/

namespace Sys2Proof.Machine

/-- The outcome of the machine. -/
abbrev Out := Host.Outcome State Fault Refusal

/-! ## Entities -/

/-- A group. -/
def State.group? (s : State) (g : Nat) : Option Group := SMap.find? s.groups g
/-- A crew. -/
def State.crew? (s : State) (c : Nat) : Option Crew := SMap.find? s.crews c
/-- A launch. -/
def State.launch? (s : State) (l : Nat) : Option Launch := SMap.find? s.launches l
/-- Write a group. -/
def State.setGroup (s : State) (g : Nat) (v : Group) : State := { s with groups := SMap.ins s.groups g v }
/-- Change a group. -/
def State.modGroup (s : State) (g : Nat) (f : Group → Group) : State := { s with groups := SMap.upd s.groups g f }
/-- Change a crew. -/
def State.modCrew (s : State) (c : Nat) (f : Crew → Crew) : State := { s with crews := SMap.upd s.crews c f }
/-- Change a launch. -/
def State.modLaunch (s : State) (l : Nat) (f : Launch → Launch) : State := { s with launches := SMap.upd s.launches l f }
/-- Write a core. -/
def State.setCore (s : State) (c : Nat) (v : CoreSt) : State := { s with cores := SMap.ins s.cores c v }
/-- Change a core. -/
def State.modCore (s : State) (c : Nat) (f : CoreSt → CoreSt) : State := s.setCore c (f (s.core c))
/-- Write a context. -/
def State.setCtx (s : State) (x : Nat) (v : Ctx) : State := { s with ctxs := SMap.ins s.ctxs x v }
/-- Change a context. -/
def State.modCtx (s : State) (x : Nat) (f : Ctx → Ctx) : State := s.setCtx x (f (s.ctx x))
/-- Change an operation. -/
def State.modOp (s : State) (o : Nat) (f : Op → Op) : State := { s with ops := SMap.upd s.ops o f }
/-- Free bits number `l` at a counter (DESIGN CHOICE, log 4). -/
def freeAt (fr l : Nat) : BitVec 64 := Sys2Proof.Config.freeBits fr l

/-- The machine draws free values: the counter before and the state after. -/
def State.draw (s : State) : Nat × State := (s.freeCtr, { s with freeCtr := s.freeCtr + 1 })

/-- A line of free bits. -/
def freeLine (fr : Nat) : BitVec 1024 :=
  BitVec.ofNat 1024 ((List.range 16).foldl (fun a i => a + (freeAt fr i).toNat * 2 ^ (64 * i)) 0)

/-- A fresh identity. -/
def State.fresh (s : State) : Nat × State := (s.nextId, { s with nextId := s.nextId + 1 })

/-- The crew of a group. -/
def State.crewOf (s : State) (g : Group) : Option Crew := s.crew? g.crew
/-- The context of a group. -/
def State.ctxOf (s : State) (g : Group) : Nat := ((s.crewOf g).map Crew.ctx).getD 0
/-- The launch of a group. -/
def State.launchOf (s : State) (g : Group) : Option Launch := (s.crewOf g).bind (fun c => s.launch? c.launch)

/-- Run the meaning of a core instruction for the group that issues. -/
def withGroup (s : State) (f : Nat → Group → State → Out) : Out :=
  match s.group? s.cur with
  | some g => f s.cur g s
  | none => .fault .noGroup

/-! ## Registers (R166) -/

/-- Lane `l` of `v` register `r`. -/
def Regs.rdV (x : Regs) (r l : Nat) : W32 := SMap.get x.v 0 (64 * r + l)
/-- Write lane `l` of `v` register `r`. -/
def Regs.wrV (x : Regs) (r l : Nat) (v : W32) : Regs := { x with v := SMap.put x.v 0 (64 * r + l) v }
/-- Lane `l` of the pair at `r`, the low word even (R137). -/
def Regs.rdV64 (x : Regs) (r l : Nat) : BitVec 64 := x.rdV (r + 1) l ++ x.rdV r l
/-- Write lane `l` of the pair at `r`. -/
def Regs.wrV64 (x : Regs) (r l : Nat) (v : BitVec 64) : Regs :=
  (x.wrV r l (v.extractLsb' 0 32)).wrV (r + 1) l (v.extractLsb' 32 32)
/-- `s` register `r`. -/
def Regs.rdS (x : Regs) (r : Nat) : Word := SMap.get x.s 0 r
/-- Write `s` register `r`. -/
def Regs.wrS (x : Regs) (r : Nat) (v : Word) : Regs := { x with s := SMap.put x.s 0 r v }
/-- `m` register `r`; `m0` reads as the active mask (R166). -/
def Regs.rdM (x : Regs) (active : Mask) (r : Nat) : Mask := if r = 0 then active else SMap.get x.m 0 r
/-- Write `m` register `r`; `m0` is never written (R166). -/
def Regs.wrM (x : Regs) (r : Nat) (v : Mask) : Regs := if r = 0 then x else { x with m := SMap.put x.m 0 r v }

/-! ## Interrupts, black box, counters -/

/-- EN of a context (R309). -/
def Ctx.en (c : Ctx) : Bool := c.vfcfg.getLsbD 0

/-- An interrupt to the host on a context's virtual function (R332). -/
def raiseInt (s : State) (ctx vec : Nat) : State := { s with interrupts := s.interrupts ++ [(ctx, vec)] }

/-- Microseconds since package reset. -/
def micros (s : State) : Nat := s.time / 84000

/-- An event of the black box (R342): it takes the next number; the ring keeps 4,096 entries. -/
def boxEvent (s : State) (sev src die unit vf : Nat) (addr : Word) (detail : Nat) : State :=
  let e : BoxEntry := ⟨s.eseq, sev, src, die, unit, vf, addr, BitVec.ofNat 32 (micros s), BitVec.ofNat 32 detail⟩
  { s with eseq := s.eseq + 1, box := (s.box ++ [e]).drop (s.box.length + 1 - 4096) }

/-- The event of the black box that says which fault record it led to takes its SEQ (R342). -/
def boxNames (s : State) (entry : Option (BitVec 48)) (seq : BitVec 32) : State :=
  match entry with
  | none => s
  | some n => { s with box := s.box.map (fun e => if e.eseq == n then { e with detail := seq } else e) }

/-- Event codes of the fabric (R317). -/
def fabricCode (c : Nat) : Bool := decide (32 ≤ c ∧ c ≤ 35)

/-- One counter of a context takes `n` events (R316, R318). -/
def bumpCnt (s : State) (ctx k n : Nat) : State :=
  let c := s.ctx ctx
  let v := SMap.get c.cnt 0 k
  let sum := v.toNat + n
  let s1 := s.setCtx ctx { c with cnt := SMap.put c.cnt 0 k (BitVec.ofNat 48 sum) }
  if sum < 2 ^ 48 then s1
  else
    let was := c.cntstat.getLsbD k
    let s2 := s1.modCtx ctx (fun c => { c with cntstat := c.cntstat ||| BitVec.ofNat 4 (2 ^ k) })
    if (SMap.get c.cntcfg 0 k).getLsbD 14 && !was then raiseInt s2 ctx 2 else s2

/-- `n` events of a code for a context (R316, R317); `sup` is the level they are attributed to, `own` whether to an
instruction at all. -/
def countEvent (s : State) (ctx code n : Nat) (sup own : Bool) : State :=
  if !(s.ctx ctx).scheduled || n = 0 then s
  else [0, 1, 2, 3].foldl (fun s k =>
    let cfg := SMap.get (s.ctx ctx).cntcfg 0 k
    if cfg.getLsbD 15 && (cfg.extractLsb' 0 8 : BitVec 8).toNat == code && (!own || !sup || cfg.getLsbD 13)
      && (!fabricCode code || (s.ctx ctx).cntgrant) then bumpCnt s ctx k n else s) s

/-- Add to a usage counter (R313), in its own unit. -/
def addUc (s : State) (ctx k n : Nat) : State :=
  s.modCtx ctx (fun c => { c with uc := SMap.ins c.uc k (SMap.get c.uc 0 k + n) })

/-- Energy of `n` events of a kind, in the coefficients of the band (R314; DESIGN CHOICE, log 10). -/
def charge (s : State) (ctx kind n : Nat) : State := addUc s ctx 11 (n * Sys2Proof.Config.energy kind s.cryo.band)

/-! ## Packets (R322 to R324) -/

/-- Every context counts a fabric event (R317). -/
def countFabric (s : State) (code n : Nat) : State :=
  s.ctxs.foldl (fun s e => countEvent s e.1 code n false false) s

/-- The far end of a window address: a package index, or 16 for the host. -/
def farOf (s : State) (pa : Nat) : Nat := if inHost pa then 16 else (peerOf s.lnkid pa).getD 16

/-- The address at the far end (R322). -/
def farAddr (pa : Nat) : Nat := if inHost pa then pa - 0x800000000000 else (pa - 0xC00000000000) % 0x10000000000

/-- The port to a far end. -/
def State.port (s : State) (far : Nat) : Port := SMap.get s.ports Port.reset far

/-- Change a port. -/
def State.modPort (s : State) (far : Nat) (f : Port → Port) : State := { s with ports := SMap.ins s.ports far (f (s.port far)) }

/-- This package's index in its peer group (R333). -/
def State.pkg (s : State) : Nat := (s.lnkid.extractLsb' 0 4).toNat

/-- Flits of a packet: the header, and its data in flits of 32 bytes. -/
def packetFlits (data : List Byte) : Nat := 1 + (data.length + 31) / 32

/-- Send a packet to a far end under the next LSEQ; a port that is down sends nothing. The flits cross the hub die (R317). -/
def sendPacket (s : State) (far : Nat) (p : OutPacket) : State :=
  let q := s.port far
  if !q.up then s
  else
    let q1 := { q with lseq := (q.lseq + packetFlits p.data) % 65536,
                       unacked := q.unacked ++ [{ p with lseq := q.lseq, src := s.pkg, dst := far }] }
    countFabric (countFabric { s with ports := SMap.ins s.ports far q1 } 33 (packetFlits p.data)) 32 (packetFlits p.data)

/-- A packet with a type, a context, an address and data; LEN counts the data. -/
def OutPacket.of (ty vf addr : Nat) (data : List Byte) : OutPacket :=
  { lseq := 0, ty := ty, vf := vf, src := 0, dst := 0, aseq := 0, aop := 0, typ := 0, ord := 0, len := data.length - 1, code := 0,
    addr := addr, rseq := 0, data := data }

/-- The `n` low bytes of a number. -/
def bytesOf (v : Nat) : Nat → List Byte
  | 0 => []
  | n + 1 => BitVec.ofNat 8 v :: bytesOf (v / 256) n

/-- The number that bytes stand for, little-endian. -/
def natOfBytes : List Byte → Nat
  | [] => 0
  | b :: r => b.toNat + 256 * natOfBytes r

/-- One step of CRC-32 (R323; the polynomial of IEEE 802.3, which the manual does not name: PRESUMED, log 69). -/
def crcBit (c : Nat) : Nat := if c % 2 = 1 then Nat.xor (c / 2) 0xEDB88320 else c / 2

/-- CRC-32 of bytes, from a state. -/
def crcFrom : Nat → List Byte → Nat
  | c, [] => c
  | c, b :: r => crcFrom (crcBit (crcBit (crcBit (crcBit (crcBit (crcBit (crcBit (crcBit (Nat.xor c b.toNat))))))))) r

/-- CRC-32 of bytes. -/
def crc32 (l : List Byte) : BitVec 32 := BitVec.ofNat 32 (Nat.xor (crcFrom 0xFFFFFFFF l) 0xFFFFFFFF)

/-- The header flit of a packet without its CRC: 256 bits (R323). -/
def OutPacket.bits (p : OutPacket) : Nat :=
  p.lseq % 65536 * 2 ^ 240 + p.ty % 16 * 2 ^ 236 + p.vf % 64 * 2 ^ 230 + p.src % 32 * 2 ^ 225 + p.dst % 32 * 2 ^ 220 + p.aseq % 65536 * 2 ^ 204
    + p.aop.toNat * 2 ^ 200 + p.typ.toNat * 2 ^ 196 + p.ord.toNat * 2 ^ 194 + p.len % 256 * 2 ^ 184 + p.code % 16 * 2 ^ 180
    + p.addr % 2 ^ 52 * 2 ^ 128 + p.rseq % 2 ^ 32 * 2 ^ 96

/-- The data flits of a packet: its data, padded with zeros to flits of 32 bytes. -/
def OutPacket.body (p : OutPacket) : List Byte := p.data ++ List.replicate (32 * (packetFlits p.data - 1) - p.data.length) 0

/-- The CRC of a packet: over bits 255:32 of its header and its data flits (R323). -/
def OutPacket.crc (p : OutPacket) : BitVec 32 := crc32 (bytesOf (p.bits / 2 ^ 32) 28 ++ p.body)

/-- The bytes of a packet as its port sends them: the header flit with its CRC, and the data flits (R323). -/
def OutPacket.wire (p : OutPacket) : List Byte := bytesOf (p.bits + p.crc.toNat) 32 ++ p.body

/-- Usage of a link by a context's access (R313, R314): UC8 and UC9 count what is sent, UC7 and UC10 what is received, 32 bytes a
flit. -/
def linkUse (s : State) (ctx far : Nat) (sent : Bool) (flits : Nat) : State :=
  charge (addUc s ctx (if far = 16 then (if sent then 8 else 7) else if sent then 9 else 10) (32 * flits)) ctx 10 flits

/-! ## Window lines at their homes (R322) -/

/-- The homes drop the copies of window lines for which `p` holds, with their tags in the L2 (R312). -/
def dropWhere (s : State) (p : Nat → FarCopy → Bool) : State :=
  let gone := fun (e : Nat × FarCopy) => p e.1 e.2
  { s with farCopies := s.farCopies.filter (fun e => !gone e),
           l2 := s.l2.filter (fun l => !s.farCopies.any (fun e => e.1 == l.1 && gone e)) }

/-- The home drops its copy of a window line. -/
def dropCopy (s : State) (pa : Nat) : State := dropWhere s (fun line _ => line == lineOf pa)

/-- A system acquire discards the homes' copies of window lines (R112); frozen ones stay (R101). -/
def dropCopies (s : State) : State := dropWhere s (fun _ c => !c.frozen)

/-- A home without a copy of a window line asks the far end for it, once; where its port is down the read is lost, and the bytes are free
(R322, R325, R328). `own` says that the read is the context's own access (R313). -/
def missFar (s : State) (ctx pa : Nat) (own : Bool) : State :=
  let line := lineOf pa
  let far := farOf s pa
  if (SMap.find? s.farCopies line).isSome || s.farReads.any (fun e => e.2.line == line) then s
  else if !(s.port far).up then
    let (fr, s1) := s.draw
    { s1 with farCopies := SMap.ins s1.farCopies line ⟨freeLine fr, false, some (18, 0)⟩ }
  else
    let (i, s1) := s.fresh
    let s2 := if own then linkUse s1 ctx far true 1 else s1
    sendPacket { s2 with farReads := SMap.ins s2.farReads i ⟨line, ctx, own, false⟩ } far
      { OutPacket.of 0 ctx (farAddr (128 * line)) [] with len := 127 }

/-- The home drops the copies whose read was refused or lost, once their fault is raised: a later access asks again. -/
def dropBad (s : State) : State := dropWhere s (fun _ c => c.bad.isSome)

/-- A predecessor's STATE is examined when a write changes it (R36): a launch that has met STATE 5 keeps that. -/
def notePreds (s : State) (pa n : Nat) : State :=
  if s.launches.isEmpty then s
  else
    let five := fun (p : Nat) => decide (p < pa + n ∧ pa < p + 8) && ((s.homeNat? p 8).map (· % 16)) == some 5
    { s with launches := s.launches.map (fun e => (e.1, if e.2.preds.any five then { e.2 with met5 := true } else e.2)) }

/-- The word of a predecessor in a window has STATE 5, when this package's own write of `v` there has been performed (R36, R322). -/
def noteFive (s : State) (pa n v : Nat) : State :=
  let five := fun (p : Nat) => decide (pa ≤ p ∧ p < pa + n) && v / 2 ^ (8 * (p - pa)) % 16 == 5
  { s with launches := s.launches.map (fun e => (e.1, if e.2.preds.any five then { e.2 with met5 := true } else e.2)) }

/-- A write to a window passes its home: the copy that the home holds goes, so that nobody reads the bytes before the far end has performed the
write (R106, R113), and a read of the line that is on its way is made again (R322). -/
def passCopy (s : State) (pa : Nat) : State :=
  { dropCopy s pa with
    farReads := s.farReads.map (fun e => if e.2.line == lineOf pa then (e.1, { e.2 with again := true }) else e) }

/-! ## L1 (R55 to R57) -/

/-- Invalidate the L1 lines of a core for which `p` holds. -/
def l1Drop (s : State) (core : Nat) (p : Nat → L1Line → Bool) : State :=
  s.modCore core (fun c => { c with l1 := c.l1.filter (fun e => !p e.1 e.2) })

/-- Invalidate one line. -/
def l1DropLine (s : State) (core line : Nat) : State := l1Drop s core (fun l _ => l == line)

/-- The holders' leases on the lines a core loses end (R57). -/
def dropLeases (s : State) (core : Nat) : State := { s with leases := s.leases.filter (fun e => e.2 != core) }

/-- A grant of colour `c`: the lines tagged `c` are invalidated; frozen lines stay (R56, R81). -/
def l1Grant (s : State) (core c : Nat) : State := l1Drop s core (fun _ l => l.colour == c && !l.frozen)

/-- An acquire at a scope: every valid line without the frozen flag, but none at crew scope on one core (R56). A line under a
lease is current and its lease stays. -/
def l1Acquire (s : State) (core : Nat) (sc : Scope) (pairCrew : Bool) : State :=
  if sc == .cr && !pairCrew then s
  else
    let s1 := l1Drop s core (fun _ l => !l.frozen)
    { s1 with leases := s1.leases.filter (fun e => e.2 != core) }

/-- A store passes through its core's L1: a valid copy without the frozen flag is updated (R55, R100). -/
def l1Update (s : State) (core pa n v : Nat) : State :=
  let c := s.core core
  match SMap.find? c.l1 (lineOf pa) with
  | some l => if l.frozen then s
    else s.setCore core { c with l1 := SMap.ins c.l1 (lineOf pa) { l with data := setLineNat l.data (pa % 128) v n } }
  | none => s

/-- A core holds a valid line. -/
def l1Valid (s : State) (core line : Nat) : Bool := (SMap.find? (s.core core).l1 line).isSome

/-! ## Homes -/

/-- The granule is frozen (R96). -/
def granuleFrozen (s : State) (pa : Nat) : Bool :=
  let e := SMap.get s.freezeTable FreezeEntry.none (granuleOf pa)
  decide (0 < e.count) || e.thawing

/-- A fill from the granule carries the frozen flag: it is frozen, and no thaw has taken its recall number (R101, R103). -/
def servesFrozen (s : State) (pa : Nat) : Bool :=
  let e := SMap.get s.freezeTable FreezeEntry.none (granuleOf pa)
  inHbm pa && decide (0 < e.count) && !e.thawing

/-- The line holds poisoned words (R339). -/
def poisoned (s : State) (pa n : Nat) : Bool := s.memPoison.any (fun w => decide (w * 4 < pa + n ∧ pa < w * 4 + 4))

/-- Recall the lease of a line from every core but `keep` (R57). -/
def recallLease (s : State) (keep : Option Nat) (line : Nat) : State :=
  match SMap.find? s.leases line with
  | none => s
  | some h => if keep == some h then s
    else
      let c := s.core h
      let s1 := { s with leases := SMap.del s.leases line }
      match SMap.find? c.l1 line with
      | some l => s1.setCore h { c with l1 := SMap.ins c.l1 line { l with leased := false } }
      | none => s1

/-- A performed write stamps its tile when the stamp is below the generation (R85). -/
def stampTile (s : State) (pa : Nat) : State :=
  if inHbm pa && decide ((SMap.get s.stamps 0 (tileOf pa)).toNat < s.gen.toNat) then
    { s with stamps := SMap.ins s.stamps (tileOf pa) s.gen }
  else s

/-- The home has to use a poisoned word: the entry of a granule in the freeze table, or, for a write, the stamp of a tile (R339). -/
def tableBad (s : State) (pa n : Nat) (write : Bool) : Bool :=
  inHbm pa && ([pa, pa + n - 1].any (fun a => s.freezePoison.contains (granuleOf a) || write && s.stampPoison.contains (tileOf a)))

/-- Poison markers after a write of `n` bytes whose poisoned words the bits of `bad` name: a word written whole takes the marker of its data, one
written in part keeps its own as well (R339). -/
def markWrite (p : List Nat) (pa n bad : Nat) : List Nat :=
  if p.isEmpty && bad == 0 then []
  else (List.range ((pa + n - 1) / 4 + 1 - pa / 4)).foldl (fun p i =>
    let w := pa / 4 + i
    if bad.testBit i then setIns p w else if pa ≤ 4 * w ∧ 4 * w + 4 ≤ pa + n then setDel p w else p) p

/-- The poisoned words among `n` bytes, as the bits of a number. -/
def marksOf (p : List Nat) (pa n : Nat) : Nat :=
  if p.isEmpty then 0
  else (List.range ((pa + n - 1) / 4 + 1 - pa / 4)).foldl (fun m i => if p.contains (pa / 4 + i) then m + 2 ^ i else m) 0

/-- The storage that holds the newest copy of a word, by its SRC of the black box (R342): an L1 under a lease, the L2 of its home, or HBM. -/
def memSrc (s : State) (pa : Nat) : Nat :=
  if (SMap.find? s.leases (lineOf pa)).isSome then 2
  else if ((SMap.find? s.l2 (lineOf pa)).map L2Line.dirty).getD false then 3 else 4

/-- The storage that gives an access a poisoned value, or 0 (R339, R342). -/
def memBad (s : State) (pa n : Nat) : Nat := if poisoned s pa n then memSrc s pa else 0

/-- Write `n` bytes at their home without a freeze check: memory, poison and the stamps of their tiles. -/
def rawWrite (s : State) (pa n v bad : Nat) : State :=
  notePreds (stampTile (stampTile { s with mem := Memory.writeNat s.mem pa v n, memPoison := markWrite s.memPoison pa n bad } pa)
    (pa + n - 1)) pa n

/-- The 9600's own write to a window: its home forwards it to the far end, whose answer ends it (R322, R325); one whose port is down is
lost. -/
def ownFar (s : State) (owner : FarOwner) (ctx pa n v : Nat) : State :=
  let far := farOf s pa
  if !(s.port far).up then dropCopy s pa
  else
    let (i, s1) := (passCopy s pa).fresh
    sendPacket { s1 with farWrites := SMap.ins s1.farWrites i ⟨owner, 2 ^ 64, ctx, 0, pa, n, v⟩ } far
      (.of 1 ctx (farAddr pa) (bytesOf v n))

/-- A write at the home (R85, R100, R113, R114): whether it is performed, and the state. `keep` is the core whose lease stays;
a write that is no atomic clears the scope records of its lines. A write of the 9600 itself to a window goes to its far end (R322). -/
def homeWrite (s : State) (ctx : Nat) (keep : Option Nat) (atomic : Bool) (pa n v bad : Nat) : Bool × State :=
  if inWindow s.lnkid pa then (true, ownFar s .own ctx pa n v)
  else if granuleFrozen s pa || granuleFrozen s (pa + n - 1) then (false, s)
  else
    let s1 := recallLease (recallLease s keep (lineOf pa)) keep (lineOf (pa + n - 1))
    let s2 := rawWrite s1 pa n v bad
    (true, if atomic then s2 else { s2 with scopes := SMap.del (SMap.del s2.scopes (lineOf pa)) (lineOf (pa + n - 1)) })

/-- The HBM stack of an address is on (R347): all of them are off in OFF and TRIP, and all but those of the service die in WARMSVC. -/
def hbmUp (s : State) (pa : Nat) : Bool :=
  match s.cryo.st with
  | 0 | 7 => false
  | 1 => homeSlice pa / 16 == s.cryo.svcDie
  | _ => true

/-- The bytes of a line at its home. -/
def homeLine (s : State) (line : Nat) : BitVec 1024 := BitVec.ofNat 1024 (Memory.readNat s.mem (128 * line) 128)

/-- TARGET of a context; values above 24,576 act as 0 (R312). -/
def l2Target (s : State) (ctx : Nat) : Nat :=
  let t := (s.ctx ctx).l2quota.toNat
  if 24576 < t then 0 else t

/-- Lines of a slice that carry a context's tag (R312). -/
def l2Occ (s : State) (slice ctx : Nat) : Nat :=
  (s.l2.filter (fun e => homeSlice (128 * e.1) == slice && e.2.owner == ctx)).length

/-- The least recently used line of a list. -/
def l2Oldest (l : SMap L2Line) : Option (Nat × L2Line) :=
  l.foldl (fun a e => match a with
    | none => some e
    | some b => if e.2.used < b.2.used then some e else some b) none

/-- A line leaves the L2: a line newer than HBM is written back (R313). -/
def l2WriteBack (s : State) (l : L2Line) : State := if l.dirty then charge (addUc s l.owner 6 128) l.owner 9 2 else s

/-- A line is pinned (R253). -/
def pinned (s : State) (line : Nat) : Bool := s.pins.any (fun p => p.1 == line)

/-- A slice fills a line for a context at time `t`, and may evict an unpinned line of its set, a window line with the home's copy of it (R312,
R322). Where every line of the set is pinned, nothing is filled. An eviction is attributed to the instruction that causes it where that is one of
the owner's (R316); one that another context's access causes counts whatever SV holds, as an event that no instruction of the owner causes (DESIGN
CHOICE, log 55). -/
def l2Fill (s : State) (t ctx line : Nat) (sup write : Bool) : State :=
  let slice := homeSlice (128 * line)
  let set := s.l2.filter (fun e => homeSlice (128 * e.1) == slice && Sys2Proof.Config.l2Set e.1 == Sys2Proof.Config.l2Set line)
  let fill := fun (s : State) => { s with l2 := SMap.ins s.l2 line ⟨ctx, t, write⟩ }
  if set.length < 16 then fill s
  else
    let free := set.filter (fun e => !pinned s e.1)
    let overQuota := free.filter (fun e => decide (0 < l2Target s e.2.owner ∧ l2Target s e.2.owner < l2Occ s slice e.2.owner))
    match l2Oldest (if overQuota.isEmpty then free else overQuota) with
    | none => s
    | some v =>
      let count := fun (s : State) (code : Nat) => countEvent s v.2.owner code 1 sup (v.2.owner == ctx)
      let s2 := count (l2WriteBack { dropCopy s (128 * v.1) with l2 := SMap.del s.l2 v.1 } v.2) 14
      fill (if overQuota.isEmpty then s2 else count s2 15)

/-- An access of a context touches a line at its slice: a hit, or a miss that fills it from HBM (R312). -/
def l2Serve (s : State) (ctx line : Nat) (sup write : Bool) : State :=
  let (t, s) := s.fresh
  let s := charge s ctx 8 1
  match SMap.find? s.l2 line with
  | some l => { s with l2 := SMap.ins s.l2 line { l with used := t, dirty := l.dirty || write } }
  | none => l2Fill (charge (addUc s ctx 5 128) ctx 9 2) t ctx line sup write

/-- An access of a context to a window line at its home, which holds a copy of it or has none (R312, R322). -/
def l2Window (s : State) (ctx line : Nat) : State :=
  let (t, s) := s.fresh
  let s := charge s ctx 8 1
  match SMap.find? s.l2 line with
  | some l => { s with l2 := SMap.ins s.l2 line { l with used := t } }
  | none => s

/-- An access from a die, 6 being the hub, to the home of a line on another one crosses the hub die: one flit (R317; DESIGN CHOICE, log 55). -/
def hubCross (s : State) (die line : Nat) : State :=
  if dieOfSlice (homeSlice (128 * line)) = die then s else countFabric s 32 1

/-- A request of a context from a die for a line is served at its slice, and counts as a hit or a miss (R317, R320). -/
def l2Touch (s : State) (die ctx line : Nat) (sup write : Bool) : State :=
  countEvent (l2Serve (hubCross s die line) ctx line sup write) ctx (if (SMap.find? s.l2 line).isSome then 12 else 13) 1 sup true

/-! ## The continuity record (R86 to R90) -/

/-- A recorded tile (R88): nothing where a range holds it, else the lowest-numbered adjoining range with room, else a new range.
`none` when no range is free. -/
def addTile (t max : Nat) (l : List (Nat × Nat)) : Option (List (Nat × Nat)) :=
  if l.any (fun r => decide (r.1 ≤ t ∧ t < r.1 + r.2)) then some l
  else match l.findIdx? (fun r => (decide (r.1 = t + 1) || decide (r.1 + r.2 = t)) && decide (r.2 < 2 ^ 24)) with
    | some i => some (l.modify i (fun r => if r.1 = t + 1 then (t, r.2 + 1) else (r.1, r.2 + 1)))
    | none => if l.length < max then some (l ++ [(t, 1)]) else none

/-- Record a tile read or written; once no range of its kind was free, nothing more (R88). Whether a later tile may still extend a range, or take a
free one of the other kind, the manual leaves open: the model records nothing more of either kind (DESIGN CHOICE, log 61). -/
def Recording.tile (r : Recording) (write : Bool) (t : Nat) : Recording :=
  if r.full then r
  else if write then match addTile t 6 r.writes with
    | some l => { r with writes := l }
    | none => { r with ovf := true, full := true }
  else match addTile t 24 r.reads with
    | some l => { r with reads := l }
    | none => { r with ovf := true, full := true }

/-- Set a volatility cause (R89). -/
def Recording.cause (r : Recording) (k : Nat) : Recording := { r with vcause := r.vcause ||| BitVec.ofNat 8 (2 ^ k) }

/-- A crew is volatile from cause `k`. -/
def markVolatile (s : State) (crew k : Nat) : State := s.modCrew crew (fun c => { c with rcd := c.rcd.cause k })

/-- Record an access of a crew to global memory (R86): a window access is volatility cause 6; a read through a frozen mapping
sets FRD; an untracked read records nothing. -/
def record (s : State) (crew : Nat) (write : Bool) (pa : Nat) (frozen untracked : Bool) : State :=
  let window := inWindow s.lnkid pa
  let s1 := if window then markVolatile s crew 6 else s
  if frozen && !write then s1.modCrew crew (fun c => { c with rcd := { c.rcd with frd := true } })
  else if window || (untracked && !write) then s1
  else s1.modCrew crew (fun c => { c with rcd := c.rcd.tile write (tileOf pa) })

/-! ## The program counter (R153) -/

/-- The slot. -/
def pcSlot (pc : Word) : Nat := (pc.extractLsb' 0 3 : BitVec 3).toNat
/-- The line address. -/
def pcLine (pc : Word) : Word := pc &&& ~~~(63 : Word)
/-- Bits 5:3 are zero and the slot is below 5 (R153). -/
def pcOk (pc : Word) : Bool := (pc.extractLsb' 3 3 : BitVec 3) == 0 && decide (pcSlot pc ≤ 4)
/-- The next slot. -/
def pcNext (pc : Word) : Word := if pcSlot pc < 4 then pc + 1 else pcLine pc + 64
/-- The target of a control-transfer field (R153). -/
def pcTarget (pc : Word) (t : BitVec 32) : Word :=
  pcLine pc + ((t.sshiftRight 3).signExtend 64) * 64 + (t.extractLsb' 0 3 : BitVec 3).setWidth 64

/-! ## Latches (R162 to R164) -/

/-- The group shifts its latches and counts the instruction in its window. -/
def Group.shift (g : Group) (r : LatchVal) (blocking : Bool) : Group :=
  { g with latches := (r :: g.latches).take 3, window := if blocking then 0 else g.window + 1 }

/-- The group enters the line of `pc` at its next fetch: a new window opens (R150, R164). -/
def Group.enter (g : Group) (pc : Word) (bt : Bool) : Group :=
  { g with pc := pc, entered := false, needBt := bt, refetched := false, window := 0, latches := [] }

/-- A target was left by a lower member that stands at a group's frame depth and level. -/
def AfterPair.level (p : AfterPair) (g : Group) : Bool := p.depth == g.frames.length && p.sup == g.sup

/-- A target was left for the slot where a group stands. -/
def AfterPair.here (p : AfterPair) (g : Group) : Bool := p.at_ == g.pc && p.level g

/-- The group goes on to the next instruction, or to the target that the lower member of its pair left (R151). -/
def Group.advance (g : Group) : Group :=
  let g1 := { g with issued := false, pair := g.pair.filter (fun p => p.pc != g.pc) }
  match g1.afterPair.find? (fun p => p.here g) with
  | some p =>
    let g2 := { g1 with afterPair := g1.afterPair.filter (fun q => !q.here g) }.enter p.target false
    match p.saved with
    | some x => { g2 with latches := x.1, window := x.2 }
    | none => g2
  | none => if pcSlot g.pc < 4 then { g1 with pc := g.pc + 1 } else g1.enter (pcNext g.pc) false

/-- The group transfers to `t`, with the latches `saved` where it resumes an instruction (R165). From the lower member of a pair it goes
there after the higher member (R151). -/
def Group.gotoWith (g : Group) (t : Word) (saved : Option (List LatchVal × Nat)) : Group :=
  let g1 := { g with issued := false }
  let go := fun (g : Group) =>
    let g2 := { g with afterPair := g.afterPair.filter (fun q => !q.level g) }.enter t false
    match saved with
    | some x => { g2 with latches := x.1, window := x.2 }
    | none => g2
  match g1.pair with
  | some p =>
    if p.pc == g.pc + 1 then { g1 with pc := p.pc, afterPair := ⟨p.pc, g.frames.length, g.sup, t, saved⟩ :: g1.afterPair.filter (fun q => !q.level g) }
    else go { g1 with pair := none }
  | none => go g1

/-- The group transfers to `t`. -/
def Group.goto (g : Group) (t : Word) : Group := g.gotoWith t none

/-- A stream releases the group at a switch point, and its age stamp is now (R305). -/
def releaseStream (s : State) (gid : Nat) : State :=
  match s.group? gid with
  | none => s
  | some g =>
    (s.setGroup gid { g with stamp := s.clock }).modCore g.core (fun c => { c with streams := c.streams.filter (· != gid) })

/-- The instruction of a group completes: its latch result, and the next instruction. A blocking instruction and the entry of a
line are switch points (R163, R305). -/
def finish (s : State) (gid : Nat) (g : Group) (r : LatchVal) (blocking : Bool) : State :=
  let g1 := (g.shift r blocking).advance
  let s1 := s.setGroup gid { g1 with status := .ready, passed := none }
  if blocking || !g1.entered then releaseStream s1 gid else s1

/-- The instruction of a group completes with a transfer. -/
def finishGoto (s : State) (gid : Nat) (g : Group) (t : Word) (blocking : Bool) : State :=
  releaseStream (s.setGroup gid { ((g.shift .none blocking).goto t) with status := .ready }) gid

/-- The group parks at its instruction, which has issued (R31): when it is taken up again it is not issued anew. -/
def park (s : State) (gid : Nat) (g : Group) (why : Park) : State :=
  releaseStream (s.setGroup gid { g with status := .parked why, issued := true }) gid

/-- A group waits with a status, itself or where it took a trap at a stop point (R280, R297). -/
def Group.waits (g : Group) (p : Status → Bool) : Bool := g.places.any (fun x => p x.status) || p g.status

/-- Change the outermost of a list of places, newest first, for which `p` holds. -/
def setPlace (p : Place → Bool) (f : Place → Place) : List Place → List Place
  | [] => []
  | x :: r => if r.any p then x :: setPlace p f r else if p x then f x :: r else x :: r

/-- A wait takes a new status, where it stands: the outermost wait with status `p`. -/
def Group.setWait (g : Group) (p : Status → Bool) (st : Status) : Group :=
  if g.places.any (fun x => p x.status) then
    { g with places := setPlace (fun x => p x.status) (fun x => { x with status := st }) g.places }
  else if p g.status then { g with status := st } else g

/-- The end of a wait for a reason `p`. -/
def Place.wake (x : Place) (p : Park → Bool) : Place :=
  match x.status with
  | .parked why => if p why && x.leaving.isNone then { x with status := .ready } else x
  | _ => x

/-- The end of a wait for a reason `p`, of the group itself and of where it stood. -/
def Group.wake (g : Group) (p : Park → Bool) (clock : Nat) : Group :=
  let g1 := if g.places.isEmpty then g else { g with places := g.places.map (fun x => x.wake p) }
  match g1.status with
  | .parked why => if p why && g1.leaving.isNone then { g1 with status := .ready, stamp := clock } else g1
  | _ => g1

/-- The instruction of the outermost wait with status `p` completes without a latch result; one that stands where a trap was taken completes at
`eret`. -/
def finishAt (s : State) (gid : Nat) (g : Group) (p : Status → Bool) : State :=
  if g.places.any (fun x => p x.status) then
    s.setGroup gid { g with places := setPlace (fun x => p x.status) (fun x => { x with status := .ready, done := true }) g.places }
  else if p g.status then finish s gid g .none true else s

/-- A group parked for a reason `p` becomes ready to take up its instruction. -/
def wakeGroup (s : State) (gid : Nat) (p : Park → Bool) : State := s.modGroup gid (fun g => g.wake p s.clock)

/-- Every group parked for a reason `p` becomes ready to take up its instruction. -/
def wakeAll (s : State) (p : Park → Bool) : State :=
  { s with groups := s.groups.map (fun e => (e.1, e.2.wake p s.clock)) }

/-! ## Counters (R115, R116) -/

/-- The entries of a counter. -/
def Group.ctr (g : Group) (k : Ctr) : List CtrEntry :=
  match k with
  | .lc => g.lc
  | .sc => g.sc
  | .cc => g.cc
  | .xc => g.xc

/-- Write the entries of a counter. -/
def Group.setCtr (g : Group) (k : Ctr) (l : List CtrEntry) : Group :=
  match k with
  | .lc => { g with lc := l }
  | .sc => { g with sc := l }
  | .cc => { g with cc := l }
  | .xc => { g with xc := l }

/-- Entries retire in issue order. -/
def retireFront : List CtrEntry → List CtrEntry
  | [] => []
  | e :: r => if e.complete then retireFront r else e :: r

/-- An operation is complete on a counter. -/
def Group.complete (g : Group) (k : Ctr) (op : Nat) : Group :=
  g.setCtr k (retireFront ((g.ctr k).map (fun e => if e.op = op then { e with complete := true } else e)))

/-- An operation is counted. -/
def Group.count (g : Group) (ks : List Ctr) (op : Nat) : Group :=
  ks.foldl (fun g k => g.setCtr k (g.ctr k ++ [⟨op, false⟩])) g

/-- A counter has room for one more instruction (R115). -/
def Group.room (g : Group) (ks : List Ctr) : Bool := ks.all (fun k => decide ((g.ctr k).length < 255))

/-- Every counter is zero. -/
def Group.drained (g : Group) : Bool := g.lc.isEmpty && g.sc.isEmpty && g.cc.isEmpty && g.xc.isEmpty

/-- Reasons to park that end when an operation of the group is performed or complete. -/
def drainPark (p : Park) : Bool := p == .counters || p == .counterRoom || p == .trigger || p == .drain

/-- The events of a memory instruction with performed lanes: its latency class, and code 9 (R60, R317). -/
def countClass (s : State) (o : Op) : State :=
  match s.group? o.gid with
  | none => s
  | some g =>
    if o.cls = 0 then s
    else
      let s1 := countEvent s (s.ctxOf g) (2 + o.cls) 1 o.sup true
      if o.cls = 3 && o.hits then countEvent s1 (s.ctxOf g) 9 1 o.sup true else s1

/-- An operation of a group is complete on its counters; the group looks again at what it waits for. -/
def completeOp (s : State) (op : Nat) : State :=
  match SMap.find? s.ops op with
  | none => s
  | some o =>
    let s1 := countClass { s with ops := SMap.del s.ops op } o
    wakeGroup (s1.modGroup o.gid (fun g => o.ctrs.foldl (fun g k => g.complete k op) g)) o.gid drainPark

/-- Insert a record among records in ascending lane order. -/
def insertRec (f : FaultInfo) : List FaultInfo → List FaultInfo
  | [] => [f]
  | r :: l => if f.lane < r.lane then f :: r :: l else r :: insertRec f l

/-- A held fault takes one more record of its cause: it keeps that of the lowest lane, but one for each lane of LINKLOST (R100, R328). -/
def HeldFault.join (h : HeldFault) (f : FaultInfo) : HeldFault :=
  if f.cause = 18 then { h with recs := insertRec f h.recs }
  else { h with recs := h.recs.map (fun r => if f.lane < r.lane then f else r) }

/-- Hold a fault for report (R116): faults of one instruction and one cause are held together. -/
def holdFault (s : State) (gid : Nat) (k : Ctr) (op : Nat) (f : FaultInfo) : State :=
  let sup := ((SMap.find? s.ops op).map Op.sup).getD false
  let same := fun (h : HeldFault) => h.op == op && h.ctr == k && h.recs.all (fun r => r.cause == f.cause)
  s.modGroup gid (fun g =>
    if g.heldFaults.any same then { g with heldFaults := g.heldFaults.map (fun h => if same h then h.join f else h) }
    else { g with heldFaults := g.heldFaults ++ [⟨k, op, sup, [f]⟩] })

/-! ## Faults (R275 to R278) -/

/-- A fault of one record. -/
def FaultInfo.of (cause detail : Nat) : FaultInfo := ⟨cause, detail, 0, 0, 0, false, false⟩

/-- Not a fault (its cause is 0, which R272 never writes): the instruction waits for its home to read a window line at the far end (R322). -/
def FaultInfo.far (pa : Nat) : FaultInfo := { FaultInfo.of 0 0 with addr := BitVec.ofNat 64 pa }

/-- SIZE of the fault queue (R275). -/
def fqSize (c : Ctx) : Nat := 2 ^ (c.fqctl.extractLsb' 0 5 : BitVec 5).toNat

/-- Records that the queue has room for. -/
def fqRoom (c : Ctx) : Nat := (c.fqhead + 2 * fqSize c - c.fqtail - 1) % fqSize c

/-- The words of a record (R277). -/
def recordWords (seq : BitVec 32) (deliv : Nat) (pc : Word) (grp : Nat) (crew : BitVec 32) (f : FaultInfo) : List Nat :=
  [seq.toNat * 2 ^ 32 + f.detail % 256 * 2 ^ 16 + deliv * 2 ^ 14 + (if f.report then 2 ^ 13 else 0)
      + (if f.replay then 2 ^ 12 else 0) + f.cause % 256,
   pc.toNat, f.addr.toNat, f.lane % 64 * 2 ^ 58 + grp % 32 * 2 ^ 53 + f.aux.toNat * 2 ^ 32 + crew.toNat]

/-- Write 8-byte words at their home as the 9600's own write for a context: lost where a granule is frozen (R356). -/
def ownWords (s : State) (ctx pa : Nat) : List Nat → State
  | [] => s
  | w :: r => ownWords (homeWrite s ctx none false pa 8 w 0).2 ctx (pa + 8) r

/-- The 9600's own write of words through a translation: lost where the mapping is frozen (R99, R356). -/
def ownThrough (s : State) (ctx : Nat) (x : Xl) (ws : List Nat) : State := if x.frz then s else ownWords s ctx x.pa ws

/-- The first of `n` records from the tail of a ring whose translation has first to read a window line (R322). -/
def ringFar (s : State) (ctx n : Nat) : Option Nat :=
  let c := s.ctx ctx
  (List.range n).findSome? (fun i =>
    match xlateWalk s ctx (c.fqbase + BitVec.ofNat 64 (32 * ((c.fqtail + i) % fqSize c))) true .write false with
    | .error (.far pa) => some pa
    | _ => none)

/-- Write one record at the tail; `none` when its translation fails (R276), which it does through a frozen mapping (R99, R286). A record that lies in
a frozen granule without one is lost in silence (R356). -/
def writeRecord (s : State) (ctx : Nat) (deliv : Nat) (pc : Word) (grp : Nat) (crew : BitVec 32) (sup : Bool) (f : FaultInfo) :
    Option (Word × State) :=
  let c := s.ctx ctx
  let va := c.fqbase + BitVec.ofNat 64 (32 * c.fqtail)
  match xlateWalk s ctx va true .write true with
  | .error _ => none
  | .ok x =>
    let empty := c.fqhead == c.fqtail
    let s1 := ownThrough s ctx x (recordWords c.fqseq deliv pc grp crew f)
    let s2 := s1.modCtx ctx (fun c => { c with fqtail := (c.fqtail + 1) % fqSize c, fqseq := c.fqseq + 1 })
    let s3 := countEvent s2 ctx 17 1 sup (f.cause != 33)
    some (va, if empty && c.fqctl.getLsbD 8 then raiseInt s3 ctx 0 else s3)

/-- Write a run of records: the address of the first. -/
def writeRun (s : State) (ctx : Nat) (deliv : Nat) (pc : Word) (grp : Nat) (crew : BitVec 32) (sup : Bool) :
    List FaultInfo → Option (Word × State)
  | [] => some (0, s)
  | f :: r => match writeRecord s ctx deliv pc grp crew sup f with
    | none => none
    | some (a, s1) => match writeRun s1 ctx deliv pc grp crew sup r with
      | none => none
      | some (_, s2) => some (a, s2)

/-- HANDLER of a group's launch. -/
def handlerOf (s : State) (g : Group) : Word := ((s.launchOf g).map Launch.handler).getD 0

/-- The user fault handler takes a fault of this group (R43). -/
def handlerTakes (s : State) (g : Group) : Bool :=
  handlerOf s g != 0 && g.handler.isNone && decide (g.frames.length < 64) && !g.sup

/-- Faults that go to the supervisor always: PAGE, PIPEERR, LINKLOST, ATOMEMU (R43). -/
def supervisorOnly (cause : Nat) : Bool := cause == 7 || cause == 17 || cause == 18 || cause == 19

/-- The crew of a group is saved. -/
def crewSaved (s : State) (g : Group) : Bool := ((s.crewOf g).map Crew.saved).getD false

/-- Bytes of the L1 that a group on its core takes: its spill area, and its latch save slot while it runs its handler (R49, R165). -/
def groupBytes (g : Group) : Nat := 1280 + (if g.handler.isSome then 24 * g.w + 64 else 0)

/-- Lines that the L1 of a core holds at most: the carve-out and what its groups take come out of 384 KiB (R49). -/
def l1Capacity (s : State) (core : Nat) : Nat :=
  3072 - 512 * (s.core core).carve
    - (((s.groups.filter (fun e => e.2.core == core && !crewSaved s e.2)).map (fun e => groupBytes e.2)).foldl (· + ·) 0 + 127) / 128

/-- The L1 of a core gives up the lines that it has no room for any longer; which, the manual leaves open (R109; DESIGN CHOICE, log 17). A lease on
such a line ends (R57). -/
def l1Trim (s : State) (core : Nat) : State :=
  let c := s.core core
  let n := l1Capacity s core
  if c.l1.length ≤ n then s
  else
    let out := c.l1.drop n
    { s.setCore core { c with l1 := c.l1.take n } with
      leases := s.leases.filter (fun e => !(e.2 == core && (SMap.find? out e.1).isSome)) }

/-- Entry to the user fault handler, as by a call at the faulting instruction (R43, R165). -/
def enterHandler (s : State) (gid : Nat) (g : Group) (recAddr : Word) : State :=
  let f : Frame := ⟨g.pc, g.stack.length, g.active, s.nextId, true⟩
  let g1 := { g with frames := f :: g.frames, handlerLatch := some (g.latches, g.window),
                     handler := some ⟨g.frames.length + 1, recAddr, g.pc⟩, issued := false, pair := none, passed := none,
                     status := .ready }
  l1Trim (releaseStream (s.setGroup gid (g1.enter (handlerOf s g) true)) gid) g.core

/-- Trap entry (R271): `pc` is TPC, `recAddr` TREC, `code` the code of a `trap`. The fault record is written before. -/
def trapEnter (s : State) (gid : Nat) (g : Group) (cause detail code : Nat) (recAddr pc : Word) : State :=
  let g1 := { g with
    tcause := BitVec.ofNat 64 (code * 2 ^ 32 + detail % 256 * 2 ^ 16 + cause % 256), tpc := pc, trec := recAddr,
    tmask := g.active, trapLatch := some (g.latches, g.window), trapE := g.stack.length, trapD := g.frames.length,
    trapRun := (cause, 1), trapAt := pc, active := g.live, sup := true, issued := false, pair := none, status := .ready,
    stopped := false }
  releaseStream (addUc (s.setGroup gid (g1.enter s.tvec true)) (s.ctxOf g) 14 1) gid

/-- A trap taken at a stop point (R280, R282, R297): the group stands where it was, and `eret` returns it there. -/
def standTrap (s : State) (gid : Nat) (g : Group) (cause detail : Nat) (recAddr : Word) : State :=
  let nest : Option TrapSave :=
    if g.sup then some ⟨g.tcause, g.tpc, g.trec, g.tmask, g.trapLatch, g.trapE, g.trapD, g.tfwd, g.trapRun, g.trapAt⟩ else none
  let p : Place := { pc := g.pc, status := g.status, wants := g.wants, rewait := g.rewait, frames := g.frames.length,
                     passed := g.passed, leaving := g.leaving,
                     pair := g.pair, issued := g.issued, done := false, nest := nest, pend := g.pend }
  trapEnter s gid { g with places := p :: g.places, wants := [], rewait := none, passed := none, pend := none, leaving := none, stopped := false,
                           tfwd := false }
    cause detail 0 recAddr g.pc

/-- The group drains its counters and retires (R41, R117, R273, R274). -/
def leave (s : State) (gid : Nat) (g : Group) (why : Leaving) : State :=
  releaseStream (s.setGroup gid { g with leaving := some why, status := .parked .counters, issued := true }) gid

/-- A group whose `exit` was the lower member of a pair, and retired its last lanes, leaves once the higher member has issued (R151, R179). -/
def leaveSpent (s : State) (gid : Nat) : State :=
  match s.group? gid with
  | none => s
  | some g =>
    if g.live == 0 && g.status == .ready && !g.sup && g.leaving.isNone && !g.pair.any (fun p => p.pc == g.pc) then leave s gid g .exit else s

/-- The controller is told of a double fault, and the group retires as `halt` does (R273, R276). -/
def doubleFault (s : State) (gid : Nat) (g : Group) (seq : Nat) : State :=
  let s1 := boxEvent s 5 7 (dieOfCore g.core) g.core (s.ctxOf g) 0 seq
  leave s1 gid g .double

/-- The core loses its copies of the lines of `n` records from an address in the ring (R276). -/
def dropRecords (s : State) (core ctx : Nat) (a : Word) (n : Nat) : State :=
  let c := s.ctx ctx
  let first := ((a - c.fqbase).toNat / 32)
  (List.range n).foldl (fun s i =>
    match xlateWalk s ctx (c.fqbase + BitVec.ofNat 64 (32 * ((first + i) % fqSize c))) true .read false with
    | .ok x => l1DropLine s core (lineOf x.pa)
    | .error _ => s) s

/-- Delivery of a written run of `n` records to its group (R278). -/
def deliver (s : State) (gid : Nat) (deliv : Nat) (pc recAddr : Word) (f : FaultInfo) (n : Nat) (ctx : Nat) : State :=
  match s.group? gid with
  | none => s
  | some g0 =>
    let s1 := dropRecords s g0.core ctx recAddr n
    let g := { g0 with pend := none }
    if f.cause = 36 then doubleFault s1 gid g (((s1.ctx ctx).fqseq - 1).toNat)
    else if deliv = 1 then enterHandler s1 gid g recAddr
    else (trapEnter s1 gid g f.cause f.detail 0 recAddr pc).modGroup gid (fun g => { g with trapRun := (f.cause, n) })

/-- Write a run now or hold it until the ring has room and its tables have been read (R276), and deliver it. -/
def postRun (s : State) (p : PendFault) : State :=
  let c := s.ctx p.ctx
  let far := ringFar s p.ctx p.recs.length
  if fqRoom c < p.recs.length || far.isSome then
    let (i, s1) := (match far with
      | some pa => missFar s p.ctx pa false
      | none => s).fresh
    let s2 := { s1 with pends := SMap.ins s1.pends i p }
    match p.gid with
    | some gid => match s2.group? gid with
      | some g => releaseStream (s2.setGroup gid { g with pend := some i, status := .parked .faultRoom, issued := true }) gid
      | none => s2
    | none => s2
  else
    match writeRun (boxNames s p.entry c.fqseq) p.ctx p.deliv p.pc p.grp p.crewIdx p.sup p.recs with
    | none =>
      -- the translation of the ring fails: no record, a black-box entry, and the group retires (R276)
      match p.gid with
      | some gid => match s.group? gid with
        | some g => doubleFault s gid { g with pend := none } 0
        | none => boxEvent s 5 7 6 0 p.ctx 0 0
      | none => boxEvent s 5 7 6 0 p.ctx 0 0
    | some (a, s1) => match p.gid, p.recs with
      | some gid, f :: _ => deliver s1 gid p.deliv p.pc a f p.recs.length p.ctx
      | _, _ => s1

/-- The linear index of a group's crew as records and `gets` give it: all ones for a spawned crew (R277). -/
def crewIdx (s : State) (g : Group) : BitVec 32 :=
  match s.crewOf g with
  | some c => if c.spawned then 0xFFFFFFFF else BitVec.ofNat 32 c.idx
  | none => 0

/-- The record of a double fault: DETAIL and AUX hold the cause and detail of the fault; the group is not parked (R273, R277). -/
def FaultInfo.double (f : FaultInfo) : FaultInfo :=
  { f with cause := 36, detail := f.cause, aux := BitVec.ofNat 16 (f.cause % 256 * 256 + f.detail % 256), replay := false }

/-- The record that an operation parked for PAGE wrote first, at this instruction (R211). -/
def Group.parkHere (g : Group) : Option ParkOp :=
  g.parks.find? (fun p => p.pc == g.pc && p.depth == g.frames.length && p.sup == g.sup)

/-- The parked instruction at this place is given up: it is complete on its counters (R355). -/
def forsake (s : State) (gid : Nat) (p : ParkOp) : State :=
  let s1 := s.modGroup gid (fun g => { g with parks := g.parks.filter (fun q => q.op != p.op) })
  match SMap.find? s1.ops p.op with
  | some o => if o.left = 0 then completeOp s1 p.op else s1
  | none => s1

/-- An instruction parked for PAGE that raises another fault, or whose line does, is given up (R265, R355). -/
def forsakeHere (s : State) (gid : Nat) (f : FaultInfo) : State :=
  match (s.group? gid).bind Group.parkHere with
  | some p => if f.cause = 0 ∨ f.cause = 7 then s else forsake s gid p
  | none => s

/-- Raise a run of faults of one instruction, precisely, at the group's program counter (R169, R276, R278). The instruction
makes no change. A fault at supervisor level is a double fault (R273). An instruction that has first to read a window line at the far end
parks until its home has it (R322). `level` is the level that its records count at, where that is not the group's (R316). -/
def raiseRunAs (level : Option Bool) (s0 : State) (gid : Nat) (recs : List FaultInfo) : State :=
  let s := match recs with
    | [] => s0
    | f :: _ => forsakeHere s0 gid f
  match s.group? gid with
  | none => s
  | some g =>
    match recs with
    | [] => s
    | f :: _ =>
      if f.cause = 0 then
        let s1 := missFar s (s.ctxOf g) f.addr.toNat false
        -- a read that is lost at once leaves nothing to wait for
        if (SMap.find? s1.farCopies (lineOf f.addr.toNat)).isSome then releaseStream s1 gid
        else releaseStream (s1.setGroup gid { g with status := .parked .walk, issued := g.issued || g.entered }) gid
      else
        let s1 := dropBad (s.setGroup gid { g with pair := none, passed := none })
        let run := fun (recs : List FaultInfo) (deliv : Nat) => postRun s1
          { ctx := s.ctxOf g, gid := some gid, pc := g.pc, recs := recs, grp := g.idx, crewIdx := crewIdx s g, deliv := deliv,
            sup := level.getD g.sup, launch := none, entry := none }
        if g.sup then run [f.double] 0
        else run recs (if handlerTakes s g && !supervisorOnly f.cause then 1 else 0)

/-- Raise a run of faults of the instruction at the program counter. -/
def raiseRun (s : State) (gid : Nat) (recs : List FaultInfo) : State := raiseRunAs none s gid recs

/-- Raise a fault precisely. -/
def raise (s : State) (gid : Nat) (f : FaultInfo) : State := raiseRun s gid [f]

/-- Raise a fault that has only a cause and a detail. -/
def raiseCD (s : State) (gid cause detail : Nat) : State := raise s gid (FaultInfo.of cause detail)

/-- The records of a run: set DELIV to 1 in each, around the ring (R293). -/
def redeliver (s : State) (ctx : Nat) (a : Word) (n : Nat) : State :=
  let c := s.ctx ctx
  let first := ((a - c.fqbase).toNat / 32)
  (List.range n).foldl (fun s i =>
    match xlateWalk s ctx (c.fqbase + BitVec.ofNat 64 (32 * ((first + i) % fqSize c))) true .write false with
    | .ok x => match s.homeNat? x.pa 8 with
      | some w => ownThrough s ctx x [w - w / 2 ^ 14 % 4 * 2 ^ 14 + 2 ^ 14]
      | none => s
    | .error _ => s) s

/-- A wait that a group gives up leaves the green room and the slate (R293). -/
def leaveQueues (s : State) (gid : Nat) : State :=
  { s with green := s.green.filter (fun e => e.gid != gid), backoffs := SMap.del s.backoffs gid,
           slates := (s.slates.map (fun (e : Nat × Slate) => (e.1, { e.2 with queue := e.2.queue.filter (· != gid) }))).filter
             (fun e => e.2.owner.isSome || !e.2.queue.isEmpty) }

/-- The instruction that a trap interrupted can be one parked for PAGE: the entry of `parks` that matches its saved place. -/
def parkAt (g : Group) (pc : Word) : Option ParkOp :=
  g.parks.find? (fun p => p.pc == pc && p.depth == g.frames.length && !p.sup)

/-- The trap state of a routine that a nested trap saved. -/
def Group.unnest (g : Group) (t : TrapSave) : Group :=
  { g with sup := true, tcause := t.tcause, tpc := t.tpc, trec := t.trec, tmask := t.tmask, trapLatch := t.latch, trapE := t.e,
           trapD := t.d, tfwd := t.fwd, trapRun := t.run, trapAt := t.at_ }

/-- The group passes the PAGE fault of its trap to its user fault handler (R293): the instruction is parked no longer, and issues afresh
after the handler's `ret` (R355). -/
def passToHandler (s : State) (ctx gid : Nat) (trec : Word) (n : Nat) : State :=
  match s.group? gid with
  | none => s
  | some g =>
    let s1 := match parkAt g g.pc with
      | some p => forsake s gid p
      | none => s
    let s2 := dropRecords (redeliver (leaveQueues s1 gid) ctx trec n) g.core ctx trec n
    match s2.group? gid with
    | some g1 => enterHandler s2 gid { g1 with places := [], wants := [], rewait := none, subs := [], bars := [] } trec
    | none => s2

/-- `eret` (R273, R293): back to user level at TPC with TMASK and the saved latches; with FWD set after a PAGE, into the user
fault handler; from a trap taken at a stop point, to where the group stood. -/
def eretTo (s : State) (gid : Nat) (g : Group) : State :=
  let saved := g.trapLatch.getD ([], 0)
  let g1 := { g with active := g.tmask &&& g.live, sup := false, trapLatch := none, issued := false, pair := none,
                     -- a routine that moved TPC leaves the pair behind
                     afterPair := g.afterPair.filter (fun q => q.sup || q.depth != g.frames.length || q.at_ == g.tpc), status := .ready, tfwd := false, trapRun := (0, 0),
                     skipped := if g.tpc = g.trapAt then g.skipped
                       else some (g.tpc, g.frames.length, (g.places.head?.bind Place.nest).isSome) }
  let g2 := { (g1.enter g.tpc false) with latches := saved.1, window := saved.2 }
  -- instructions parked elsewhere at this level are given up (R355)
  let s1 := (g2.parks.filter (fun p => !p.sup && p.depth == g2.frames.length && p.pc != g.tpc)).foldl
    (fun s p => forsake s gid p) (s.setGroup gid g2)
  let s2 := releaseStream s1 gid
  match s2.group? gid with
  | none => s2
  | some g3 =>
    let outer := (g.places.head?.bind Place.nest).isSome
    if g.tfwd && g.trapRun.1 == 7 && !outer && handlerTakes s2 g3 then passToHandler s2 (s.ctxOf g) gid g.trec g.trapRun.2
    else match g.places with
      | [] => s2
      | p :: r =>
        let g4 := match p.nest with
          | some t => { g3 with places := r }.unnest t
          | none => { g3 with places := r }
        -- a routine that moved TPC leaves the instruction
        if g.tpc ≠ p.pc then (leaveQueues s2 gid).setGroup gid { g4 with
          passed := none, subs := g4.subs.filter (fun x => x.level != r.length), bars := g4.bars.filter (fun x => x.1 != r.length) }
        else if p.done then finish s2 gid { g4 with pair := p.pair } .none true
        -- an image looks again at the pages that it waits for
        else s2.setGroup gid { g4 with status := if p.status == .parked .image then .ready else p.status, leaving := p.leaving, pair := p.pair, issued := p.issued, wants := p.wants,
                                       rewait := p.rewait, passed := p.passed, pend := p.pend }

end Sys2Proof.Machine
end

