-- ==== Sys2Proof/Machine/Operands.lean ====
section
/-! DEFINITION. Reading operands (R151, R156, R157, R162 to R164), the checks that precede a register instruction (LATCH, R164;
poison, R339; empty ports, R62), and writing its result with its latch result (R158, R162). -/

namespace Sys2Proof.Machine

/-! ## What the higher member of a pair reads (R151) -/

/-- The registers that the instruction at the program counter reads. -/
def Group.src (g : Group) : Regs :=
  match g.pair with
  | some p => if p.pc == g.pc then p.regs else g.regs
  | none => g.regs

/-- The active mask that it reads. -/
def Group.srcActive (g : Group) : Mask :=
  match g.pair with
  | some p => if p.pc == g.pc then p.active &&& ~~~g.dead else g.active
  | none => g.active

/-- It stands in the higher slot of a pair. -/
def Group.pairedBelow (g : Group) : Bool := decide (0 < pcSlot g.pc) && linePair g.line (pcSlot g.pc - 1)

/-- A routine that moved TPC has gone to this instruction, past its partner where it has one (R164, R273). -/
def Group.skippedHere (g : Group) : Bool := g.skipped == some (g.pc, g.frames.length, g.sup)

/-- It issues as the higher member of a pair. -/
def Group.isHigher (g : Group) : Bool :=
  match g.pair with
  | some p => p.pc == g.pc
  | none => false

/-- The effective mask under guard `k` (R156). -/
def Group.eff (g : Group) (k : BitVec 4) : Mask := g.srcActive &&& g.src.rdM g.srcActive k.toNat

/-! ## Latches (R162, R164) -/

/-- The index of a latch. -/
def latchIdx : LatchSel → Nat
  | .b0 => 0
  | .b1 => 1
  | .b2 => 2

/-- The kinds of latch results. -/
inductive LKind | v32 | v64 | s | m
  deriving DecidableEq, Repr

/-- The kind of a latch result. -/
def LatchVal.kind : LatchVal → Option LKind
  | .none => Option.none
  | .vec wide _ _ _ => some (if wide then .v64 else .v32)
  | .s _ => some .s
  | .m _ _ _ => some .m

/-- The latch result named. -/
def Group.latch (g : Group) (k : LatchSel) : LatchVal := g.latches.getD (latchIdx k) .none

/-- A latch may be read as a kind (R164). The member in the higher slot never reads its partner's result, nor does it when it resumes
alone after a fault; one that `eret` goes to past its partner has another instruction before it. -/
def Group.latchOk (g : Group) (k : LatchSel) (need : LKind) : Bool :=
  decide (latchIdx k < g.window) && (g.latch k).kind == some need && !(g.pairedBelow && k == .b0 && !g.skippedHere)

/-- The latch checks of a vector source. -/
def Group.vOk (g : Group) : VSrc × Bool → Bool
  | (.latch k, wide) => g.latchOk k (if wide then .v64 else .v32)
  | _ => true
/-- The latch checks of a scalar source. -/
def Group.sOk (g : Group) : SSrc → Bool
  | .latch k => g.latchOk k .s
  | _ => true
/-- The latch checks of a mask source. -/
def Group.mOk (g : Group) : MSrc → Bool
  | .latch k => g.latchOk k .m
  | _ => true

/-- A lane of a latch result: a free value outside the mask of the instruction that left it. -/
def LatchVal.lane (x : LatchVal) (l : Nat) : BitVec 64 :=
  match x with
  | .vec wide mask vals fr =>
    let v := if mask.getLsbD l then SMap.get vals 0 l else freeAt fr l
    if wide then v else (v.extractLsb' 0 32).setWidth 64
  | _ => 0

/-- The lanes of a mask latch. -/
def LatchVal.mask (x : LatchVal) : Mask :=
  match x with
  | .m mask v fr => (v &&& mask) ||| (freeAt fr 0 &&& ~~~mask)
  | _ => 0

/-! ## Source values -/

/-- A flit's lane (R62). -/
def Flit.lane (f : Flit) (l : Nat) : BitVec 64 :=
  (if f.mask.getLsbD l then SMap.get f.vals 0 l else (freeAt f.fr l).extractLsb' 0 32).setWidth 64

/-- Lane `l` of a vector source; `nth` is which flit of its port a port source takes. -/
def Group.vlane (g : Group) (x : VSrc) (wide : Bool) (nth l : Nat) : BitVec 64 :=
  match x with
  | .reg k => if wide then g.src.rdV64 k.toNat l else (g.src.rdV k.toNat l).setWidth 64
  | .latch k => (g.latch k).lane l
  | .port k => match (SMap.get g.queues [] k.toNat)[nth]? with
    | some f => f.lane l
    | none => 0

/-- A scalar source. -/
def Group.sval (g : Group) : SSrc → Word
  | .reg k => g.src.rdS k.toNat
  | .latch k => match g.latch k with
    | .s v => v
    | _ => 0
  | .imm v => sext32 v

/-- A mask source. -/
def Group.mval (g : Group) : MSrc → Mask
  | .reg k => g.src.rdM g.srcActive k.toNat
  | .latch k => (g.latch k).mask

/-- The ports that a list of sources takes a flit from, in order. -/
def portsOf (l : List (VSrc × Bool)) : List Nat :=
  l.filterMap (fun x => match x.1 with
    | .port k => some k.toNat
    | _ => none)

/-- Which flit of its port source `i` of a list takes. -/
def nthOf (l : List (VSrc × Bool)) (i : Nat) : Nat :=
  match l[i]? with
  | some (.port k, _) => ((portsOf (l.take i)).filter (· == k.toNat)).length
  | _ => 0

/-- Every port named holds a flit for each source that names it. -/
def Group.portsReady (g : Group) (l : List (VSrc × Bool)) : Bool :=
  (portsOf l).all (fun k => decide (((portsOf l).filter (· == k)).length ≤ (SMap.get g.queues [] k).length))

/-- Take a flit from each port of a list. -/
def Group.takeFlits (g : Group) (ports : List Nat) : Group :=
  ports.foldl (fun g k => { g with queues := SMap.put g.queues [] k ((SMap.get g.queues [] k).drop 1) }) g

/-! ## Poison in registers (R339) -/

/-- The markers of the `v` registers that the instruction at the program counter reads (R151). -/
def Group.srcV (g : Group) : List Nat :=
  match g.pair with
  | some p => if p.pc == g.pc then p.vPoison else g.vPoison
  | none => g.vPoison

/-- The markers of the `s` registers that it reads: two 32-bit words each, `2 r` and `2 r + 1` (R339). -/
def Group.srcS (g : Group) : List Nat :=
  match g.pair with
  | some p => if p.pc == g.pc then p.sPoison else g.sPoison
  | none => g.sPoison

/-- The markers of the `m` registers that it reads, of two words each. -/
def Group.srcM (g : Group) : List Nat :=
  match g.pair with
  | some p => if p.pc == g.pc then p.mPoison else g.mPoison
  | none => g.mPoison

/-- The markers of up to two words as a number: bit `i` says that word `i` is poisoned. -/
def wordMarks (lo hi : Bool) : Nat := (if lo then 1 else 0) + (if hi then 2 else 0)

/-- The markers of lane `l` of a vector source. -/
def Group.vWords (g : Group) (x : VSrc × Bool) (l : Nat) : Nat :=
  match x.1 with
  | .reg k => wordMarks (g.srcV.contains (64 * k.toNat + l)) (x.2 && g.srcV.contains (64 * (k.toNat + 1) + l))
  | _ => 0

/-- Lane `l` of a vector source holds a poisoned word. -/
def Group.vBad (g : Group) (x : VSrc × Bool) (l : Nat) : Bool := g.vWords x l != 0

/-- The markers of a scalar source. -/
def Group.sWords (g : Group) : SSrc → Nat
  | .reg k => wordMarks (g.srcS.contains (2 * k.toNat)) (g.srcS.contains (2 * k.toNat + 1))
  | _ => 0

/-- A scalar source is poisoned: an instruction consumes the register whole. -/
def Group.sBad (g : Group) (x : SSrc) : Bool := g.sWords x != 0

/-- A mask source is poisoned. -/
def Group.mBad (g : Group) : MSrc → Bool
  | .reg k => g.srcM.contains (2 * k.toNat) || g.srcM.contains (2 * k.toNat + 1)
  | _ => false

/-- Lanes of a group die: they leave `Live` and `Active` (R172, R339). -/
def Group.kill (g : Group) (m : Mask) : Group :=
  { g with dead := g.dead ||| m, live := g.live &&& ~~~m, active := g.active &&& ~~~m }

/-! ## Batches (R245) -/

/-- The tiles that a matrix operation reads or writes. -/
def MOp.tiles (o : MOp) : List Nat :=
  match o.kind with
  | .sacc => [o.d, o.p]
  | .accz | .accld => if o.mm = 128 then [o.d, o.d + 1] else [o.d]
  | _ => [o.d]

/-- Batches that have retired on `xc` leave the array: their faults are held for report, in the issue order of their batches (DESIGN CHOICE,
log 48: R117 orders held faults by the issue of their instructions, and R247 reports a matrix fault against its batch), and their
operations stay known until an `xwait` (R121, R245, R247, R251). -/
def retireBatches (s : State) (gid : Nat) : State :=
  match s.group? gid with
  | none => s
  | some g =>
    let c := s.core g.core
    let gone := fun (o : MOp) => o.gid == gid && (match o.batch with
      | some b => !g.xc.any (fun e => e.op == b)
      | none => false)
    let out := c.array.ops.filter gone
    if out.isEmpty then s
    else
      let faults := out.filterMap (fun o => match o.fault, o.batch with
        | some f, some b => some (⟨Ctr.xc, b, o.sup, [f]⟩ : HeldFault)
        | _, _ => none)
      let g1 := { g with heldFaults := g.heldFaults ++ faults, unwaited := g.unwaited ++ out }
      let s1 := (s.setCore g.core { c with array := { c.array with ops := c.array.ops.filter (fun o => !gone o) } }).setGroup gid g1
      wakeGroup s1 gid (fun p => drainPark p || p == .arrayRoom || p == .image)

/-- A batch is complete on `xc` when all its operations are; while some are in an array image, none completes (R252). -/
def settleBatches (s : State) (gid : Nat) : State :=
  match s.group? gid with
  | none => s
  | some g =>
    let ops := (s.core g.core).array.ops
    let done := if g.imaged then [] else g.xc.filter (fun e => ops.all (fun o => o.batch != some e.op || o.complete))
    retireBatches (s.setGroup gid (done.foldl (fun g e => g.complete .xc e.op) g)) gid

/-- Close the open batch of a group: it becomes its next batch, counted on `xc`. With no open operation nothing happens. -/
def closeBatch (s : State) (gid : Nat) : State :=
  match s.group? gid with
  | none => s
  | some g =>
    let c := s.core g.core
    let isOpen := fun (o : MOp) => o.gid == gid && o.batch == none
    if !c.array.ops.any isOpen then s
    else
      let (b, s1) := s.fresh
      let ops := c.array.ops.map (fun o => if isOpen o then { o with batch := some b } else o)
      settleBatches ((s1.setCore g.core { c with array := { c.array with ops := ops } }).setGroup gid (g.count [.xc] b)) gid

/-! ## Deaths (R339) -/

/-- Lanes that consumed a poisoned word of a storage, named by its SRC of the black box, die. A group without live lanes is an event of SEV 4,
closes its batch and retires as by `exit` (R179, R339, R342; that DETAIL is then 0: DEDUCED, log 64). -/
def killLanes (s : State) (gid : Nat) (g : Group) (m : Mask) (src : Nat) : State :=
  let g1 := g.kill m
  let s1 := boxEvent (s.setGroup gid g1) 2 src (dieOfCore g.core) g.core (s.ctxOf g) m 0
  if g1.live ≠ 0 then s1
  else
    let s2 := closeBatch (boxEvent s1 4 src (dieOfCore g.core) g.core (s.ctxOf g) 0 0) gid
    match s2.group? gid with
    | some g2 => leave s2 gid g2 .dead
    | none => s2

/-! ## The checks before a register instruction -/

/-- What an instruction reads. A consumed poisoned word kills its lane; `vcarry` and `scarry` are sources whose marker is carried
into the destination instead (R339). `send` is the destination, which may be a port; `cross` gives the
lanes that consume a poisoned word where lanes read other lanes (R201). -/
structure Reads where
  g : BitVec 4 := 0
  vs : List (VSrc × Bool) := []
  ss : List SSrc := []
  ms : List MSrc := []
  vcarry : List (VSrc × Bool) := []
  scarry : List SSrc := []
  send : VDst := .dash
  cross : Option (Group → Mask → Mask) := none

/-- Every latch that the instruction names may be read (R164). -/
def Reads.latchesOk (r : Reads) (g : Group) : Bool :=
  (r.vs ++ r.vcarry).all g.vOk && (r.ss ++ r.scarry).all g.sOk && r.ms.all g.mOk

/-- The lanes that consume a poisoned word: all live ones where the guard, a mask or a scalar is poisoned. -/
def Reads.dying (r : Reads) (g : Group) : Mask :=
  let eff := g.eff r.g
  if eff = 0 then 0
  else if g.mBad (.reg r.g) || r.ms.any g.mBad || r.ss.any g.sBad then g.live
  else if g.srcV.isEmpty then 0
  else match r.cross with
    | some f => f g eff
    | none => maskOf ((lanesOf eff).filter (fun l => r.vs.any (fun x => g.vBad x l)))

/-- A port target may be sent to: EN is set, and PEER only in a quad launch (detail 13). -/
def portAllowed (s : State) (g : Group) (k : Nat) : Bool :=
  let t := SMap.get g.ptgt 0 k
  t.getLsbD 15 && (!t.getLsbD 14 || ((s.launchOf g).map Launch.quad).getD false)

/-- The instruction sends on a port that does not allow it (detail 13); a guarded-off one sends nothing. -/
def Reads.sendBad (r : Reads) (s : State) (g : Group) : Bool :=
  match r.send with
  | .port k => g.eff r.g != 0 && !portAllowed s g k.toNat
  | _ => false

/-- A source holds a poisoned word in an active lane that the guard puts outside the effective mask. -/
def Reads.spared (r : Reads) (g : Group) : Bool :=
  !g.srcV.isEmpty && (lanesOf (g.srcActive &&& ~~~g.eff r.g)).any (fun l => (r.vs ++ r.vcarry).any (fun x => g.vBad x l))

/-- A poisoned word outside the effective mask raises nothing, and is logged as a corrected event without an instruction (R339; that each
instruction that names the register logs it: DESIGN CHOICE, log 64). -/
def Reads.note (r : Reads) (g : Group) (s : State) : State :=
  if r.spared g then boxEvent s 0 1 (dieOfCore g.core) g.core 63 0 0 else s

/-- Run `body` with the group and the effective mask, after the checks of detail 13 and LATCH (R62, R164), the deaths of R339 and the wait for flits
(R62). -/
def withReads (r : Reads) (s : State) (body : Nat → Group → Mask → State → Out) : Out :=
  withGroup s fun gid g s =>
    if r.sendBad s g then .next (raiseCD s gid 1 13)
    else if !r.latchesOk g then .next (raiseCD s gid 3 0)
    else
      let d := r.dying g
      let s := r.note g s
      if d = 0 then
        if g.eff r.g ≠ 0 && !g.portsReady r.vs then .next (park s gid g .portEmpty)
        else body gid g (g.eff r.g) s
      else
        let s1 := killLanes s gid g d 1
        match s1.group? gid with
        | none => .next s1
        | some g1 =>
          if g1.live = 0 then .next s1
          else if g1.eff r.g ≠ 0 && !g1.portsReady r.vs then .next (park s1 gid g1 .portEmpty)
          else body gid g1 (g1.eff r.g) s1

/-! ## Writing results -/

/-- The map of a function's values on lanes. -/
def laneMap (ls : List Nat) (f : Nat → BitVec 64) : SMap (BitVec 64) := ls.map (fun l => (l, f l))

/-- Write lanes of a `v` register, or of a pair; the words written are not poisoned. -/
def Group.writeV (g : Group) (wide : Bool) (r : Nat) (vals : List (Nat × BitVec 64)) : Group :=
  let regs := vals.foldl (fun x e => if wide then x.wrV64 r e.1 e.2 else x.wrV r e.1 (e.2.extractLsb' 0 32)) g.regs
  let keys := vals.map (fun e => 64 * r + e.1)
  let all := if wide then keys ++ keys.map (· + 64) else keys
  { g with regs := regs, vPoison := if g.vPoison.isEmpty then [] else g.vPoison.filter (fun k => !all.contains k) }

/-- The markers of 64-bit registers after a write of register `r`: both its words are clean. -/
def cleanWords (p : List Nat) (r : Nat) : List Nat := p.filter (fun w => w / 2 != r)

/-- Write an `s` register; one that a matrix operation of the group names is noted (R121). -/
def Group.writeS (g : Group) (r : Nat) (v : Word) : Group :=
  { g with regs := g.regs.wrS r v, sPoison := cleanWords g.sPoison r, sHit := if g.opRegs.contains r then setIns g.sHit r else g.sHit }

/-- Write an `m` register. -/
def Group.writeM (g : Group) (r : Nat) (v : Mask) : Group :=
  { g with regs := g.regs.wrM r v, mPoison := cleanWords g.mPoison r }

/-- Finish an instruction that writes a V destination which is no port. `takes` are the ports read. -/
def finishV (s : State) (gid : Nat) (g : Group) (eff : Mask) (d : VDst) (wide : Bool) (takes : List Nat) (f : Nat → BitVec 64) :
    State :=
  let vals := laneMap (lanesOf eff) (fun l => if wide then f l else ((f l).extractLsb' 0 32).setWidth 64)
  let g1 := match d with
    | .reg k => g.writeV wide k.toNat vals
    | _ => g
  if takes.isEmpty then
    let (fr, s1) := s.draw
    finish s1 gid g1 (.vec wide eff (vals.filter (fun e => e.2 ≠ 0)) fr) false
  else finish s gid (if eff = 0 then g1 else g1.takeFlits takes) .none true

/-- Finish an instruction that writes an S destination; with an empty effective mask nothing is written (R156, DEDUCED, log 14). -/
def finishS (s : State) (gid : Nat) (g : Group) (eff : Mask) (d : SDst) (v : Word) : State :=
  if eff = 0 then
    let (fr, s1) := s.draw
    finish s1 gid g (.s (freeAt fr 0)) false
  else
    let g1 := match d with
      | .reg k => g.writeS k.toNat v
      | .dash => g
    finish s gid g1 (.s v) false

/-- Finish an instruction that writes an M destination; `takes` are the ports read. With an empty effective mask nothing is written (R156, R172;
that a `cmp` then leaves `M[d]` as it was, and does not clear it: DEDUCED, log 14). -/
def finishM (s : State) (gid : Nat) (g : Group) (eff : Mask) (d : MDst) (takes : List Nat) (v : Mask) : State :=
  let g1 := match d with
    | .reg k => if eff = 0 then g else g.writeM k.toNat v
    | .dash => g
  if takes.isEmpty then
    let (fr, s1) := s.draw
    finish s1 gid g1 (.m eff v fr) false
  else finish s gid (if eff = 0 then g1 else g1.takeFlits takes) .none true

/-! ## Sending on a port (R61, R62) -/

/-- The resident crew of a quad set with a peer index (R28). -/
def peerCrew (s : State) (c : Crew) (q : Nat) : Option Nat :=
  match s.launch? c.launch with
  | none => none
  | some l => if !l.quad || c.spawned then none
    else (List.find? (fun (e : Nat × Crew) => e.2.launch == c.launch && !e.2.spawned && e.2.idx == c.idx - c.idx % 4 + q) s.crews).map Prod.fst

/-- No crew has this identity: the target of an access to a crew that has retired. -/
def noCrew : Nat := 2 ^ 64

/-- The crew that a port target names. -/
def portCrew (s : State) (g : Group) (k : Nat) : Nat :=
  let t := SMap.get g.ptgt 0 k
  if t.getLsbD 14 then
    match (s.crewOf g).bind (fun c => peerCrew s c (t.extractLsb' 12 2 : BitVec 2).toNat) with
    | some c => c
    | none => noCrew
  else g.crew

/-- Send a flit and park until it is accepted or refused (R62). -/
def sendFlit (s : State) (gid : Nat) (g : Group) (eff : Mask) (k : Nat) (takes : List Nat) (f : Nat → BitVec 64)
    (fpFmt : Nat) (fp : List Nat) : State :=
  let (fr, s1) := s.draw
  let (i, s2) := s1.fresh
  let vals : SMap W32 := ((lanesOf eff).map (fun l => (l, (f l).extractLsb' 0 32))).filter (fun e => e.2 ≠ 0)
  let t := SMap.get g.ptgt 0 k
  let m : FlitMsg := { gid := gid, port := k, tgt := portCrew s g k, grp := (t.extractLsb' 0 5 : BitVec 5).toNat,
                       flit := ⟨eff, vals, fr⟩, takes := takes, fpFmt := fpFmt, fp := fp }
  park { s2 with flits := SMap.ins s2.flits i m } gid g .portRoom

end Sys2Proof.Machine
end

