-- ==== Sys2Proof/Machine/Flags.lean ====
section
/-! DEFINITION. Conditions (R159) and the floating-point exception counters of a context (R145 to R147). The 9600 has no flags
register: comparisons write masks or scalars, and exceptions are counted. -/

namespace Sys2Proof.Machine

/-- A condition on two integers, already read as signed or unsigned (R159, R189). -/
def intCond (cc : Cond) (a b : Int) : Bool :=
  match cc with
  | .eq => decide (a = b)
  | .ne => decide (a ≠ b)
  | .lt => decide (a < b)
  | .le => decide (a ≤ b)
  | .gt => decide (b < a)
  | .ge => decide (b ≤ a)
  | .un => false
  | .ord => true

/-- An operand of a type as an integer. -/
def intOf (t : Fmt) (x : BitVec 64) : Int :=
  match t with
  | .i32 => (x.extractLsb' 0 32 : BitVec 32).toInt
  | .i64 => x.toInt
  | .n32 | .b32 => ((x.extractLsb' 0 32 : BitVec 32).toNat : Int)
  | _ => (x.toNat : Int)

/-- The launch ENTRY of a group passes FPXKSEL (R146). -/
def fpxSelected (s : State) (g : Group) : Bool :=
  let sel := (s.ctx (s.ctxOf g)).fpxksel
  sel == 0 || sel == pcLine (((s.launchOf g).map Launch.entry).getD 0)

/-- Counter `n` takes `k` events; a crossing of THRESH sets CROSS and may interrupt (R146, R147). -/
def bumpFpx (s : State) (ctx n k : Nat) : State :=
  let c := s.ctx ctx
  let old := (SMap.get c.fpxc 0 n).toNat
  let new := Nat.min (old + k) 0xFFFFFFFF
  let th := (c.fpxctl.extractLsb' 32 32 : BitVec 32).toNat
  let cross := decide (th ≠ 0 ∧ old < th ∧ th ≤ new)
  let was := c.fpxstat.getLsbD n
  let s1 := s.setCtx ctx { c with fpxc := SMap.put c.fpxc 0 n (BitVec.ofNat 32 new),
                                  fpxstat := if cross then c.fpxstat ||| BitVec.ofNat 20 (2 ^ n) else c.fpxstat }
  if cross && !was && c.fpxctl.getLsbD n then raiseInt s1 ctx 1 else s1

/-- Count the events of results of a format, each an index 0 to 3 (R145, R146). -/
def countFpx (s : State) (g : Group) (fmt : Nat) (evs : List Nat) : State :=
  if evs.isEmpty || !fpxSelected s g then s
  else [0, 1, 2, 3].foldl (fun s e =>
    let k := (evs.filter (· == e)).length
    if k = 0 then s else bumpFpx s (s.ctxOf g) (4 * fmt + e) k) s

end Sys2Proof.Machine
end

