-- ==== Sys2Proof/Machine/Shared.lean ====
section
/-! DEFINITION. Operations that several families share: fences of local order (R110), draining and releasing colours (R71, R73),
and the checks of a transfer (R152). -/

namespace Sys2Proof.Machine

/-! ## Local order (R110) -/

/-- A group has an access not yet performed among its operations `lo` to `hi - 1`. -/
def pendingIn (s : State) (gid lo hi : Nat) : Bool :=
  s.reqs.any (fun e => e.2.gid == gid && !e.2.performed && decide (lo ≤ e.2.op) && decide (e.2.op < hi))

/-- A copy of a group among those operations is not complete. -/
def copiesIn (s : State) (gid lo hi : Nat) : Bool :=
  s.copies.any (fun e => e.2.gid == gid && decide (lo ≤ e.2.op) && decide (e.2.op < hi))

/-- Every access of the group since operation `lo` comes before every later access (R110). -/
def addFence (s : State) (gid : Nat) (g : Group) (lo : Nat) : Group :=
  if pendingIn s gid lo s.nextId || copiesIn s gid lo s.nextId then { g with fences := g.fences ++ [(lo, s.nextId)] } else g

/-- Stores, atomics and copies of a group that are not performed (R38). -/
def storesPending (s : State) (gid : Nat) : Bool :=
  s.reqs.any (fun e => e.2.gid == gid && !e.2.performed && e.2.kind != .load && e.2.kind != .frzq)
    || s.copies.any (fun e => e.2.gid == gid)

/-! ## Monitors (R68, R71) -/

/-- The key of a monitor. -/
def slateKey (ctx c : Nat) : Nat := 4096 * ctx + c

/-- Accesses, copies and matrix operations of a group to pages of the colours that are not performed or complete (R71). -/
def coloursBusy (s : State) (gid : Nat) (cs : List Nat) : Bool :=
  s.reqs.any (fun e => e.2.gid == gid && !e.2.performed && cs.contains e.2.colour)
    || s.copies.any (fun e => e.2.gid == gid && e.2.colours.any cs.contains)
    || s.cores.any (fun e => e.2.array.ops.any (fun o => o.gid == gid && !o.complete && o.colours.any cs.contains))

/-- Write a slate entry; one without owner and queue is freed (R68). -/
def State.setSlate (s : State) (k : Nat) (sl : Slate) : State :=
  { s with slates := if sl.owner.isNone && sl.queue.isEmpty then SMap.del s.slates k else SMap.ins s.slates k sl }

/-- A monitor loses its owner (R68). -/
def freeSlate (s : State) (ctx c : Nat) : State :=
  match SMap.find? s.slates (slateKey ctx c) with
  | none => s
  | some sl => s.setSlate (slateKey ctx c) { sl with owner := none }

/-- Release colours to their slates (R71). -/
def releaseColours (s : State) (ctx : Nat) (cs : List Nat) : State := cs.foldl (fun s c => freeSlate s ctx c) s

/-- The slate slice of a colour (R68). -/
def slateSlice (ctx c : Nat) : Nat := Nat.xor (c % 4096) (ctx % 64 * 64) % 96

/-- The 64 entries of the slate slice of a monitor are in use by others (R68). -/
def slateFull (s : State) (k : Nat) : Bool :=
  let slice := fun (j : Nat) => slateSlice (j / 4096) (j % 4096)
  decide (64 ≤ (s.slates.filter (fun e => !e.2.backed && slice e.1 == slice k)).length)

/-- A group joins the queue of a monitor (R69, R70). Its entry is allocated in the slice, or, where the slice is full, in the backing area
of the context (R68). -/
def joinSlate (s : State) (ctx c gid : Nat) : State :=
  let k := slateKey ctx c
  let sl := match SMap.find? s.slates k with
    | some sl => sl
    | none => { Slate.free with backed := slateFull s k }
  if sl.queue.contains gid then s else s.setSlate k { sl with queue := sl.queue ++ [gid] }

/-! ## The word at 0x70 of a launch record (R33, R34, R38) -/

/-- The crews that a launch or retake starts. -/
def Launch.toRun (l : Launch) : Nat :=
  match l.rerun with
  | some r => r.length
  | none => l.gx * l.gy * l.gz

/-- The word at 0x70: GEN, REASON and STATE. -/
def Launch.word (l : Launch) : Nat := l.gen.toNat * 2 ^ 32 + l.reject % 256 * 2 ^ 8 + l.state

/-- Write GEN, REASON and STATE. -/
def writeLaunchWord (s : State) (l : Launch) : State := ownWords s l.ctx l.pa [l.word]

/-- A launch takes a new STATE, which the 9600 writes into its record. -/
def setLaunchState (s : State) (lid st : Nat) : State :=
  match s.launch? lid with
  | none => s
  | some l => writeLaunchWord (s.modLaunch lid (fun l => { l with state := st })) { l with state := st }

/-- STATE 3 once every crew has started and has triggered or retired, those of flushed threads included (R38, R39). -/
def checkTriggered (s : State) (lid : Nat) : State :=
  match s.launch? lid with
  | none => s
  | some l =>
    if l.state = 2 ∧ l.begun = l.toRun ∧ s.crews.all (fun e => e.2.launch != lid || e.2.triggered) ∧
        s.flushed.all (fun x => x.launch != lid) then setLaunchState s lid 3
    else s

/-- A crew is triggered (R38). -/
def triggerCrew (s : State) (crew : Nat) : State :=
  match s.crew? crew with
  | none => s
  | some c => checkTriggered (s.modCrew crew (fun c => { c with triggered := true })) c.launch

/-! ## Transfers (R152, R153) -/

/-- The 64 bytes of a fetch line at a physical address, as its home holds them; `none` where the home has to read them at the far end first
(R322). Of a line that is rewritten while a launch runs the old or the new contents may run (R154): the model takes what the home holds
when the line is entered (DESIGN CHOICE, log 49). -/
def lineAt (s : State) (pa : Nat) : Option (BitVec 512) := (s.homeNat? pa 64).map (BitVec.ofNat 512)

/-- The fault of a failed translation; PAGE is replayable (R211). -/
def XErr.info : XErr → FaultInfo
  | .fault c d => FaultInfo.of c d
  | .page d _ _ => { FaultInfo.of 7 d with replay := true }
  | .far pa => FaultInfo.far pa

/-- The fault that a transferring instruction raises for the translation of its target line: ADDR holds the line for PAGE and for PROT (R152). -/
def XErr.targetInfo (e : XErr) (line : Word) : FaultInfo :=
  match e with
  | .page _ _ _ | .fault 8 _ => { e.info with addr := line }
  | _ => e.info

/-- The fault of a fetch: ADDR holds the line for PAGE only (R277). -/
def XErr.fetchInfo (e : XErr) (line : Word) : FaultInfo :=
  match e with
  | .page _ _ _ => { e.info with addr := line }
  | _ => e.info

/-- The checks of a transfer to `t`, in the order of R152: the slot, the translation of the line, BT. -/
def checkTarget (s : State) (g : Group) (t : Word) (needBt : Bool) : Option FaultInfo :=
  if !pcOk t then some (FaultInfo.of 1 9)
  else match xlate s g.core (s.ctxOf g) (pcLine t) g.sup .exec false with
    | .error e => some (e.targetInfo (pcLine t))
    | .ok x => match needBt, s.farFault x.pa, lineAt s x.pa with
      | false, _, _ => none
      | true, some f, _ => some (FaultInfo.of f.1 f.2)
      | true, none, some l => if lineBt l (pcSlot t) then none else some (FaultInfo.of 1 10)
      | true, none, none => some (FaultInfo.far x.pa)

/-- Transfer to `t` after the checks; `g` is the group as the instruction leaves it. -/
def transfer (s : State) (gid : Nat) (g : Group) (t : Word) : Out :=
  match checkTarget s g t true with
  | some f => .next (raise s gid f)
  | none => .next (finishGoto (tlbFill s g.core (s.ctxOf g) (pcLine t)) gid g t false)

end Sys2Proof.Machine
end

