-- ==== Sys2Proof/Machine/Control.lean ====
section
/-! DEFINITION. Class 000: control instructions (R167, R172 to R183). -/

namespace Sys2Proof.Machine

/-! ## The mask stack (R173, R174) -/

/-- FD: the depth below which entries belong to callers; E in a trap routine (R173, R271). -/
def Group.fd (g : Group) : Nat :=
  if g.sup && decide (g.frames.length ≤ g.trapD) then g.trapE else (g.frames.head?.map Frame.depth).getD 0

/-- Remove the lanes of `m` from the top `n` entries. -/
def dropLanes (st : List MaskEntry) (n : Nat) (m : Mask) : List MaskEntry :=
  (st.take n).map (fun e => { e with mask := e.mask &&& ~~~m }) ++ st.drop n

/-- How many entries stand above the highest ITER entry above FD. -/
def Group.iterAt (g : Group) : Option Nat := (g.stack.take (g.stack.length - g.fd)).findIdx? (fun e => e.kind == .iterK)

/-- `if` (R174). -/
def execIf (a : MSrc) (t : BitVec 32) (s : State) : Out :=
  withReads { ms := [a] } s fun gid g _ s =>
    if g.stack.length = 32 then .next (raiseCD s gid 5 1)
    else
      let act := g.active &&& g.mval a
      let g1 := { g with stack := ⟨.ifK, g.active, s.nextId⟩ :: g.stack, active := act }
      if act = 0 then transfer s gid g1 (pcTarget g.pc t) else .next (finish s gid g1 .none false)

/-- `else` (R174). -/
def execElse (t : BitVec 32) (s : State) : Out :=
  withReads {} s fun gid g _ s =>
    match g.stack with
    | e :: r =>
      if g.stack.length ≤ g.fd || e.kind != .ifK then .next (raiseCD s gid 5 2)
      else
        let act := e.mask &&& ~~~g.active &&& g.live
        let g1 := { g with stack := { e with kind := .elseK } :: r, active := act }
        if act = 0 then transfer s gid g1 (pcTarget g.pc t) else .next (finish s gid g1 .none false)
    | [] => .next (raiseCD s gid 5 2)

/-- `endif` (R174): a reconvergence point (R110). -/
def execEndif (s : State) : Out :=
  withReads {} s fun gid g _ s =>
    match g.stack with
    | e :: r =>
      if g.stack.length ≤ g.fd || (e.kind != .ifK && e.kind != .elseK) then .next (raiseCD s gid 5 2)
      else .next (finish s gid (addFence s gid { g with stack := r, active := e.mask &&& g.live } e.since) .none false)
    | [] => .next (raiseCD s gid 5 2)

/-- `loop` (R174). -/
def execLoop (t : BitVec 32) (s : State) : Out :=
  withReads {} s fun gid g _ s =>
    if 30 < g.stack.length then .next (raiseCD s gid 5 1)
    else
      let g1 := { g with stack := ⟨.iterK, g.active, s.nextId⟩ :: ⟨.exitK, g.active, s.nextId⟩ :: g.stack }
      if g.active = 0 then transfer s gid g1 (pcTarget g.pc t) else .next (finish s gid g1 .none false)

/-- What `break` and `cont` share (R174); `brk` says which. -/
def leaveLoop (brk : Bool) (k : BitVec 4) (t : BitVec 32) (s : State) : Out :=
  withReads { g := k } s fun gid g eff s =>
    match g.iterAt with
    | none => .next (raiseCD s gid 5 3)
    | some n =>
      let act := g.active &&& ~~~eff
      let g1 := { g with active := act, stack := dropLanes g.stack (if brk then n + 1 else n) eff }
      if act = 0 && n == 0 then transfer s gid g1 (pcTarget g.pc t) else .next (finish s gid g1 .none false)

/-- `break` (R174). -/
def execBreak (k : BitVec 4) (t : BitVec 32) (s : State) : Out := leaveLoop true k t s

/-- `cont` (R174). -/
def execCont (k : BitVec 4) (t : BitVec 32) (s : State) : Out := leaveLoop false k t s

/-- `endloop` (R174): a reconvergence point at each execution (R110). -/
def execEndloop (t : BitVec 32) (s : State) : Out :=
  withReads {} s fun gid g _ s =>
    match g.stack with
    | e :: e2 :: r =>
      if g.stack.length ≤ g.fd + 1 || e.kind != .iterK || e2.kind != .exitK then .next (raiseCD s gid 5 2)
      else
        let act := e.mask &&& g.live
        if act ≠ 0 then transfer s gid (addFence s gid { g with active := act } e.since) (pcTarget g.pc t)
        else .next (finish s gid (addFence s gid { g with stack := r, active := e2.mask &&& g.live } e.since) .none false)
    | _ => .next (raiseCD s gid 5 2)

/-! ## Branches, calls and returns (R176 to R178) -/

/-- The decision of `bra` and `call`: `none` where the guard holds some, but not all, active lanes. -/
def taken (g : Group) (eff : Mask) : Option Bool :=
  if g.srcActive = 0 ∨ eff = 0 then some false else if eff = g.srcActive then some true else none

/-- `bra` (R176). -/
def execBra (k : BitVec 4) (t : BitVec 32) (s : State) : Out :=
  withReads { g := k } s fun gid g eff s =>
    match taken g eff with
    | none => .next (raiseCD s gid 4 1)
    | some false => .next (finish s gid g .none false)
    | some true => transfer s gid g (pcTarget g.pc t)

/-- `call` (R177). -/
def execCall (k : BitVec 4) (t : BitVec 32) (s : State) : Out :=
  withReads { g := k } s fun gid g eff s =>
    match taken g eff with
    | none => .next (raiseCD s gid 4 2)
    | some false => .next (finish s gid g .none false)
    | some true =>
      if g.frames.length = 64 then .next (raiseCD s gid 5 4)
      else
        let f : Frame := ⟨pcNext g.pc, g.stack.length, g.active, s.nextId, false⟩
        transfer s gid { g with frames := f :: g.frames } (pcTarget g.pc t)

/-- The colours recorded at a frame depth (R71). -/
def Group.coloursAt (g : Group) (d : Nat) : List Nat := (g.held.filter (fun e => e.2 == d)).map Prod.fst

/-- Pop a frame whose drain has ended: release its colours, restore the mask, return (R71, R178). A handler's frame resumes the
faulting instruction with its latches (R165). -/
def popFrame (s : State) (gid : Nat) (g : Group) (f : Frame) : State :=
  let d := g.frames.length
  let s1 := releaseColours s (s.ctxOf g) (g.coloursAt d)
  let g1 := { g with frames := g.frames.tail, stack := g.stack.drop (g.stack.length - f.depth), active := f.mask &&& g.live,
                     held := g.held.filter (fun e => e.2 != d) }
  let g2 := addFence s1 gid g1 f.since
  let s2 := tlbFill s1 g.core (s.ctxOf g) (pcLine f.ret)
  if f.handler then
    let saved := g.handlerLatch.getD ([], 0)
    -- the higher member of a pair still issues before the resumed instruction (R151)
    let g3 := { ((g2.shift .none true).gotoWith f.ret (some saved)) with handlerLatch := none, handler := none, status := .ready }
    releaseStream (s2.setGroup gid g3) gid
  else finishGoto s2 gid g2 f.ret true

/-- `ret` (R178). The return slot is checked before the wait and the release; a handler's frame resumes, so its slot needs no BT (R152). -/
def execRet (k : BitVec 4) (s : State) : Out :=
  withReads { g := k } s fun gid g eff s =>
    match g.frames with
    | [] => .next (raiseCD s gid 5 5)
    | f :: _ =>
      let n := g.stack.length - f.depth
      let act := g.active &&& ~~~eff
      let st := dropLanes g.stack n eff
      if act ≠ 0 || (st.take n).any (fun e => e.mask &&& g.live != 0) then
        .next (finish s gid { g with active := act, stack := st } .none true)
      else match checkTarget s g f.ret (!f.handler) with
        | some x => .next (raise s gid x)
        | none =>
          if coloursBusy s gid (g.coloursAt g.frames.length) then .next (park s gid g .drain)
          else .next (popFrame s gid { g with active := act, stack := st } f)

/-- `exit` (R179): with no live lane left the group closes its batch, drains and retires (R41, R245), from the lower member of a pair after the
higher member (R151). -/
def execExit (k : BitVec 4) (s : State) : Out :=
  withReads { g := k } s fun gid g eff s =>
    if eff = 0 then .next (finish s gid g .none true)
    else
      let g1 := { g with live := g.live &&& ~~~eff, active := g.active &&& ~~~eff }
      if g1.live ≠ 0 then .next (finish s gid g1 .none true)
      else
        let s1 := closeBatch (s.setGroup gid g1) gid
        .next (match s1.group? gid with
          | some g2 => if g2.pair.any (fun p => p.pc == g2.pc + 1) then finish s1 gid g2 .none true else leave s1 gid g2 .exit
          | none => s1)

/-- `trap` (R180, R271): TPC is the slot after it; the latches are saved with the window that its issue reopens. -/
def execTrap (k : BitVec 4) (code : BitVec 16) (s : State) : Out :=
  withReads { g := k } s fun gid g eff s =>
    if eff = 0 then .next (finish s gid g .none true)
    else .next (trapEnter s gid (g.shift .none true) 32 0 code.toNat 0 (pcNext g.pc))

/-! ## Others (R181) -/

/-- `nop`. -/
def execNop (s : State) : Out := withReads {} s fun gid g _ s => .next (finish s gid g .none false)

/-- `trigger` (R38): the group parks until its stores, atomics and copies are performed. -/
def execTrigger (k : BitVec 4) (s : State) : Out :=
  withReads { g := k } s fun gid g eff s =>
    if eff = 0 then .next (finish s gid g .none true)
    else if storesPending s gid then .next (park s gid g .trigger)
    else .next (finish (triggerCrew s g.crew) gid g .none true)

/-- The handler's frame of the group, or one deeper, is current (R167). -/
def Group.inHandler (g : Group) : Option HandlerInfo := g.handler.filter (fun h => decide (h.depth ≤ g.frames.length))

/-- The S values of `gets` by number (R167). -/
def specialS (s : State) (g : Group) (n : Nat) : Word :=
  let c := s.crewOf g
  let l := s.launchOf g
  let spawned := (c.map Crew.spawned).getD false
  let i := (c.map Crew.idx).getD 0
  let gx := (l.map Launch.gx).getD 1
  let gy := (l.map Launch.gy).getD 1
  let lv := fun (f : Launch → Word) => (l.map f).getD 0
  if spawned && decide (5 ≤ n ∧ n ≤ 8) then BitVec.allOnes 64
  else match n with
    | 2 => BitVec.ofNat 64 g.w
    | 3 => if spawned then 0 else BitVec.ofNat 64 g.idx
    | 4 => if spawned then 1 else lv (fun l => BitVec.ofNat 64 l.groups)
    | 5 => BitVec.ofNat 64 i
    | 6 => BitVec.ofNat 64 (i % gx)
    | 7 => BitVec.ofNat 64 (i / gx % gy)
    | 8 => BitVec.ofNat 64 (i / (gx * gy))
    | 9 => BitVec.ofNat 64 gx
    | 10 => BitVec.ofNat 64 gy
    | 11 => lv (fun l => BitVec.ofNat 64 l.gz)
    | 12 => if (l.map Launch.quad).getD false && !spawned then BitVec.ofNat 64 (i % 4) else 0
    | 13 => lv Launch.param
    | 14 => lv (fun l => l.gen.setWidth 64)
    | 15 => BitVec.ofNat 64 g.frames.length
    | 16 => (g.inHandler.map HandlerInfo.recAddr).getD 0
    | 17 => (g.inHandler.map HandlerInfo.pc).getD 0
    | 18 => BitVec.ofNat 64 s.clock
    | _ => BitVec.ofNat 64 ((c.map Crew.scratchBytes).getD 0)

/-- `gets` (R167); the clock marks the crew volatile (R89). -/
def execGets (k : BitVec 4) (d : GDst) (n : BitVec 8) (s : State) : Out :=
  withReads { g := k } s fun gid g eff s =>
    match d with
    | .v d => .next (finishV s gid g eff d false [] (fun l => BitVec.ofNat 64 l))
    | .m d => .next (finishM s gid g eff d [] g.srcActive)
    | .s d =>
      let s1 := if n == 18 && eff != 0 then markVolatile s g.crew 5 else s
      .next (finishS s1 gid g eff d (specialS s g n.toNat))

end Sys2Proof.Machine
end

