-- ==== Sys2Proof/Machine/Scalar.lean ====
section
/-! DEFINITION. Class 001: scalar instructions (R184 to R186). -/

namespace Sys2Proof.Machine

/-- A one-source scalar instruction (R184). -/
def scal1 (o : SOp1) (f : Word → Word) (s : State) : Out :=
  withReads { g := o.g, ss := [o.a] } s fun gid g eff s => .next (finishS s gid g eff o.d (f (g.sval o.a)))

/-- A two-source scalar instruction (R184). -/
def scal2 (o : SOp2) (f : Word → Word → Word) (s : State) : Out :=
  withReads { g := o.g, ss := [o.a, o.b] } s fun gid g eff s => .next (finishS s gid g eff o.d (f (g.sval o.a) (g.sval o.b)))

/-- A three-source scalar instruction (R184). -/
def scal3 (o : SOp3) (f : Word → Word → Word → Word) (s : State) : Out :=
  withReads { g := o.g, ss := [o.a, o.b, o.c] } s fun gid g eff s =>
    .next (finishS s gid g eff o.d (f (g.sval o.a) (g.sval o.b) (g.sval o.c)))

/-- `a < b` as a type reads them. -/
def wordLt (t : Fmt) (a b : Word) : Bool := if t == .i64 then a.slt b else a.ult b

/-- `smulhi`: bits 127:64 of the product. -/
def mulHi64 (t : Fmt) (a b : Word) : Word :=
  if t == .i64 then (a.signExtend 128 * b.signExtend 128).extractLsb' 64 64
  else (a.setWidth 128 * b.setWidth 128).extractLsb' 64 64

/-- A bit field of `a`: `n` bits at `pos`, extended (R186, R189). -/
def bitField (signed : Bool) (w : Nat) (a : BitVec 64) (pos n : Nat) : BitVec w :=
  if n = 0 then 0 else extend signed n w (a.toNat / 2 ^ pos)

/-- `sbfe` (R186): position in 5:0, length in 14:8. -/
def sbfeOf (t : Fmt) (a b : Word) : Word :=
  let pos := (b.extractLsb' 0 6 : BitVec 6).toNat
  let len := Nat.min (b.extractLsb' 8 7 : BitVec 7).toNat 64
  bitField (t == .i64) 64 a pos (Nat.min len (64 - pos))

/-- `sadd`. -/
def execSadd (o : SOp2) (s : State) : Out := scal2 o (fun a b => a + b) s
/-- `ssub`. -/
def execSsub (o : SOp2) (s : State) : Out := scal2 o (fun a b => a - b) s
/-- `smul`. -/
def execSmul (o : SOp2) (s : State) : Out := scal2 o (fun a b => a * b) s
/-- `smad`. -/
def execSmad (o : SOp3) (s : State) : Out := scal3 o (fun a b c => a * b + c) s
/-- `smulhi`. -/
def execSmulhi (o : SOp2) (s : State) : Out := scal2 o (mulHi64 o.ty) s
/-- `smin`. -/
def execSmin (o : SOp2) (s : State) : Out := scal2 o (fun a b => if wordLt o.ty b a then b else a) s
/-- `smax`. -/
def execSmax (o : SOp2) (s : State) : Out := scal2 o (fun a b => if wordLt o.ty a b then b else a) s
/-- `sand`. -/
def execSand (o : SOp2) (s : State) : Out := scal2 o (fun a b => a &&& b) s
/-- `sor`. -/
def execSor (o : SOp2) (s : State) : Out := scal2 o (fun a b => a ||| b) s
/-- `sxor`. -/
def execSxor (o : SOp2) (s : State) : Out := scal2 o (fun a b => a ^^^ b) s
/-- `sshl`: the amount is read unsigned. -/
def execSshl (o : SOp2) (s : State) : Out := scal2 o (fun a b => if 64 ≤ b.toNat then 0 else a <<< b.toNat) s
/-- `sshr`. -/
def execSshr (o : SOp2) (s : State) : Out := scal2 o (fun a b => if 64 ≤ b.toNat then 0 else a >>> b.toNat) s
/-- `ssar`. -/
def execSsar (o : SOp2) (s : State) : Out := scal2 o (fun a b => a.sshiftRight (Nat.min b.toNat 63)) s
/-- `scmp`. -/
def execScmp (o : SOp2) (cc : Cond) (s : State) : Out :=
  scal2 o (fun a b => if intCond cc (intOf o.ty a) (intOf o.ty b) then 1 else 0) s
/-- `ssel`. -/
def execSsel (o : SOp3) (s : State) : Out := scal3 o (fun a b c => if c ≠ 0 then a else b) s
/-- `smov`. -/
def execSmov (o : SOp1) (s : State) : Out := scal1 o (fun a => a) s
/-- `sli` (R186). -/
def execSli (k : BitVec 4) (d : SDst) (ty : Fmt) (v : BitVec 32) (s : State) : Out :=
  withReads { g := k } s fun gid g eff s =>
    .next (finishS s gid g eff d (if ty == .i64 then v.signExtend 64 else v.setWidth 64))
/-- `sli.pc` (R186). -/
def execSliPc (k : BitVec 4) (d : SDst) (v : BitVec 32) (s : State) : Out :=
  withReads { g := k } s fun gid g eff s => .next (finishS s gid g eff d (pcLine g.pc + sext32 v))
/-- `sbfe`. -/
def execSbfe (o : SOp2) (s : State) : Out := scal2 o (sbfeOf o.ty) s
/-- `spopc`. -/
def execSpopc (o : SOp1) (s : State) : Out := scal1 o (fun a => BitVec.ofNat 64 (popCount a 64)) s
/-- `sclz`. -/
def execSclz (o : SOp1) (s : State) : Out := scal1 o (fun a => BitVec.ofNat 64 (leadZeros a 64)) s

end Sys2Proof.Machine
end

