-- ==== Sys2Proof/Machine/IntVec.lean ====
section
/-! DEFINITION. Class 010: integer vector instructions (R187 to R189). -/

namespace Sys2Proof.Machine

/-! ## Shapes -/

/-- Finish a vector instruction that writes `d`, sending on a port where `d` is one (R62, R187). `fpFmt` and `fp` are exception
events, counted when the result is written (R147). -/
def finishVec (s : State) (gid : Nat) (g : Group) (eff : Mask) (d : VDst) (wide : Bool) (vs : List (VSrc × Bool))
    (f : Nat → BitVec 64) (fpFmt : Nat) (fp : List Nat) : Out :=
  let s1 := if eff ≠ 0 && !(portsOf vs).isEmpty then markVolatile s g.crew 3 else s
  match d with
  | .port k =>
    if eff = 0 then .next (finish s gid g .none true)
    else .next (sendFlit s1 gid g eff k.toNat (portsOf vs) f fpFmt fp)
  | _ => .next (finishV (countFpx s1 g fpFmt fp) gid g eff d wide (portsOf vs) f)

/-- A one-source vector instruction. -/
def vec1 (o : VOp1) (f : BitVec 64 → BitVec 64) (s : State) : Out :=
  let vs := [(o.a, o.ty.wide)]
  withReads { g := o.g, vs := vs, send := o.d } s fun gid g eff s =>
    finishVec s gid g eff o.d o.ty.wide vs (fun l => f (g.vlane o.a o.ty.wide 0 l)) 0 []

/-- A two-source vector instruction; `one` says that B is one register under every type. -/
def vec2 (o : VOp2) (one : Bool) (f : BitVec 64 → BitVec 64 → BitVec 64) (s : State) : Out :=
  let vs := [(o.a, o.ty.wide), (o.b, o.ty.wide && !one)]
  withReads { g := o.g, vs := vs, send := o.d } s fun gid g eff s =>
    finishVec s gid g eff o.d o.ty.wide vs
      (fun l => f (g.vlane o.a o.ty.wide 0 l) (g.vlane o.b (o.ty.wide && !one) (nthOf vs 1) l)) 0 []

/-- A three-source vector instruction. -/
def vec3 (o : VOp3) (f : BitVec 64 → BitVec 64 → BitVec 64 → BitVec 64) (s : State) : Out :=
  let vs := [(o.a, o.ty.wide), (o.b, o.ty.wide), (o.c, o.ty.wide)]
  withReads { g := o.g, vs := vs, send := o.d } s fun gid g eff s =>
    finishVec s gid g eff o.d o.ty.wide vs
      (fun l => f (g.vlane o.a o.ty.wide 0 l) (g.vlane o.b o.ty.wide (nthOf vs 1) l) (g.vlane o.c o.ty.wide (nthOf vs 2) l)) 0 []

/-! ## Results by type

Lane values are 64 bits wide; under a 32-bit type the upper half is zero and what is written is the low half. -/

/-- Bits of a type: 64 or 32. -/
def vbits (t : Fmt) : Nat := if t.wide then 64 else 32

/-- `a < b` as a type reads them. -/
def laneLt (t : Fmt) (a b : BitVec 64) : Bool := decide (intOf t a < intOf t b)

/-- The shift amount: 32 bits, unsigned (R189). -/
def amount (b : BitVec 64) : Nat := (b.extractLsb' 0 32 : BitVec 32).toNat

/-- `shl`. -/
def shlOf (t : Fmt) (a b : BitVec 64) : BitVec 64 := if vbits t ≤ amount b then 0 else a <<< amount b
/-- `shr`. -/
def shrOf (t : Fmt) (a b : BitVec 64) : BitVec 64 := if vbits t ≤ amount b then 0 else a >>> amount b
/-- `sar`: arithmetic under every type. -/
def sarOf (t : Fmt) (a b : BitVec 64) : BitVec 64 :=
  if t.wide then a.sshiftRight (Nat.min (amount b) 63)
  else ((a.extractLsb' 0 32 : BitVec 32).sshiftRight (Nat.min (amount b) 31)).setWidth 64
/-- `mulhi`. -/
def mulHi32 (t : Fmt) (a b : BitVec 64) : BitVec 64 :=
  if t == .i32 then (((a.extractLsb' 0 32 : BitVec 32).signExtend 64 * (b.extractLsb' 0 32 : BitVec 32).signExtend 64) >>> 32)
  else ((a.extractLsb' 0 32 : BitVec 32).setWidth 64 * (b.extractLsb' 0 32 : BitVec 32).setWidth 64) >>> 32
/-- `abs`. -/
def absOf (t : Fmt) (a : BitVec 64) : BitVec 64 := if intOf t a < 0 then 0 - a else a
/-- `rot`. -/
def rotOf (a b : BitVec 64) : BitVec 64 :=
  ((a.extractLsb' 0 32 : BitVec 32).rotateLeft (amount b % 32)).setWidth 64
/-- Position and length of a packed control (R189). -/
def ctlField (c : BitVec 64) : Nat × Nat :=
  let pos := (c.extractLsb' 0 5 : BitVec 5).toNat
  (pos, Nat.min (Nat.min (c.extractLsb' 8 6 : BitVec 6).toNat 32) (32 - pos))
/-- `bfe`. -/
def bfeOf (t : Fmt) (a b : BitVec 64) : BitVec 64 :=
  (bitField (t == .i32) 32 (a.extractLsb' 0 32 : BitVec 32).toNat (ctlField b).1 (ctlField b).2).setWidth 64
/-- `bfi`. -/
def bfiOf (a b c : BitVec 64) : BitVec 64 :=
  let m : BitVec 64 := BitVec.ofNat 64 ((2 ^ (ctlField c).2 - 1) * 2 ^ (ctlField c).1)
  (b &&& ~~~m) ||| ((a <<< (ctlField c).1) &&& m)

/-! ## The instructions -/

/-- `add`. -/
def execAdd (o : VOp2) (s : State) : Out := vec2 o false (fun a b => a + b) s
/-- `sub`. -/
def execSub (o : VOp2) (s : State) : Out := vec2 o false (fun a b => a - b) s
/-- `mul`. -/
def execMul (o : VOp2) (s : State) : Out := vec2 o false (fun a b => a * b) s
/-- `mulhi`. -/
def execMulhi (o : VOp2) (s : State) : Out := vec2 o false (mulHi32 o.ty) s
/-- `mad`. -/
def execMad (o : VOp3) (s : State) : Out := vec3 o (fun a b c => a * b + c) s
/-- `min`. -/
def execMin (o : VOp2) (s : State) : Out := vec2 o false (fun a b => if laneLt o.ty b a then b else a) s
/-- `max`. -/
def execMax (o : VOp2) (s : State) : Out := vec2 o false (fun a b => if laneLt o.ty a b then b else a) s
/-- `abs`: the most negative value stays unchanged. -/
def execAbs (o : VOp1) (s : State) : Out := vec1 o (absOf o.ty) s
/-- `neg`. -/
def execNeg (o : VOp1) (s : State) : Out := vec1 o (fun a => 0 - a) s
/-- `and`. -/
def execAnd (o : VOp2) (s : State) : Out := vec2 o false (fun a b => a &&& b) s
/-- `or`. -/
def execOr (o : VOp2) (s : State) : Out := vec2 o false (fun a b => a ||| b) s
/-- `xor`. -/
def execXor (o : VOp2) (s : State) : Out := vec2 o false (fun a b => a ^^^ b) s
/-- `not`. -/
def execNot (o : VOp1) (s : State) : Out := vec1 o (fun a => ~~~a) s
/-- `shl`. -/
def execShl (o : VOp2) (s : State) : Out := vec2 o true (shlOf o.ty) s
/-- `shr`. -/
def execShr (o : VOp2) (s : State) : Out := vec2 o true (shrOf o.ty) s
/-- `sar`. -/
def execSar (o : VOp2) (s : State) : Out := vec2 o true (sarOf o.ty) s
/-- `rot`. -/
def execRot (o : VOp2) (s : State) : Out := vec2 o false rotOf s
/-- `bfe`. -/
def execBfe (o : VOp2) (s : State) : Out := vec2 o false (bfeOf o.ty) s
/-- `bfi`. -/
def execBfi (o : VOp3) (s : State) : Out := vec3 o bfiOf s
/-- `popc`. -/
def execPopc (o : VOp1) (s : State) : Out := vec1 o (fun a => BitVec.ofNat 64 (popCount a 32)) s
/-- `clz`. -/
def execClz (o : VOp1) (s : State) : Out := vec1 o (fun a => BitVec.ofNat 64 (leadZeros a 32)) s
/-- `brev`. -/
def execBrev (o : VOp1) (s : State) : Out := vec1 o (fun a => (revBits (a.extractLsb' 0 32)).setWidth 64) s

/-- A comparison of lanes by `p`: a mask of the effective lanes that meet it; every other bit is 0 (R189, R193). -/
def cmpVec (o : CmpOp) (p : BitVec 64 → BitVec 64 → Bool) (s : State) : Out :=
  let vs := [(o.a, o.ty.wide), (o.b, o.ty.wide)]
  withReads { g := o.g, vs := vs } s fun gid g eff s =>
    let m := maskOf ((lanesOf eff).filter (fun l =>
      p (g.vlane o.a o.ty.wide 0 l) (g.vlane o.b o.ty.wide (nthOf vs 1) l)))
    let s1 := if eff ≠ 0 && !(portsOf vs).isEmpty then markVolatile s g.crew 3 else s
    .next (finishM s1 gid g eff o.d (portsOf vs) m)

/-- `cmp` (R189). -/
def execCmp (o : CmpOp) (s : State) : Out := cmpVec o (fun a b => intCond o.cc (intOf o.ty a) (intOf o.ty b)) s

/-- `sel` (R189). -/
def execSel (o : VOp2) (c : MSrc) (s : State) : Out :=
  let vs := [(o.a, o.ty.wide), (o.b, o.ty.wide)]
  withReads { g := o.g, vs := vs, ms := [c], send := o.d } s fun gid g eff s =>
    finishVec s gid g eff o.d o.ty.wide vs (fun l => if (g.mval c).getLsbD l then g.vlane o.a o.ty.wide 0 l
      else g.vlane o.b o.ty.wide (nthOf vs 1) l) 0 []

/-- `mov`. -/
def execMov (o : VOp1) (s : State) : Out := vec1 o (fun a => a) s

/-- `movi`. -/
def execMovi (k : BitVec 4) (d : VDst) (ty : Fmt) (v : BitVec 32) (s : State) : Out :=
  withReads { g := k, send := d } s fun gid g eff s =>
    finishVec s gid g eff d ty.wide [] (fun _ => if ty == .i64 then v.signExtend 64 else v.setWidth 64) 0 []

/-- `movs`. -/
def execMovs (k : BitVec 4) (d : VDst) (a : SSrc) (ty : Fmt) (s : State) : Out :=
  withReads { g := k, ss := [a], send := d } s fun gid g eff s => finishVec s gid g eff d ty.wide [] (fun _ => g.sval a) 0 []

end Sys2Proof.Machine
end

