-- ==== Sys2Proof/Machine/Trans.lean ====
section
/-! DEFINITION. Roots and transcendental functions of class 011 (R196). Roots are exact up to a sticky bit. The others are
computed in fixed point with 384 fraction bits and a sticky bit, far below any distance at which a result of f32 could be
rounded wrongly (DEDUCED, log 13). -/

namespace Sys2Proof.Machine

/-- The integer square root below `2 ^ (n)`: bits are tried from the top. -/
def isqrtBits (x : Nat) : Nat → Nat → Nat
  | 0, r => r
  | n + 1, r => isqrtBits x n (if (r + 2 ^ n) * (r + 2 ^ n) ≤ x then r + 2 ^ n else r)

/-- The integer square root. -/
def isqrt (x : Nat) : Nat := isqrtBits x (Nat.log2 x / 2 + 1) 0

/-- `k` at exponent `e`, or a value strictly between `k` and `k + 1` there when it is not exact. -/
def sticky (s : Bool) (k : Nat) (exact : Bool) (e : Int) : XVal := .fin s (2 * k + if exact then 0 else 1) (e - 1)

/-- `1 / a` (R196). -/
def rcpX (a : XVal) : XVal :=
  match a with
  | .nan => .nan
  | .inf s => .fin s 0 0
  | .fin s m e => if m = 0 then .inf s else sticky s (2 ^ 128 / m) (2 ^ 128 % m == 0) (-128 - e)

/-- `sqrt a`. -/
def sqrtX (a : XVal) : XVal :=
  match a with
  | .nan => .nan
  | .inf s => if s then .nan else .inf false
  | .fin s m e =>
    if m = 0 then .fin s 0 0 else if s then .nan
    else
      -- an even exponent
      let x := if e % 2 = 0 then m * 2 ^ 128 else m * 2 ^ 129
      let f : Int := if e % 2 = 0 then e - 128 else e - 129
      let r := isqrt x
      sticky false r (r * r == x) (f / 2)

/-- `1 / sqrt a`. -/
def rsqX (a : XVal) : XVal :=
  match a with
  | .nan => .nan
  | .inf s => if s then .nan else .fin false 0 0
  | .fin s m e =>
    if m = 0 then .inf s else if s then .nan
    else
      -- sqrt (2^k / m) at an even exponent
      let k : Nat := if e % 2 = 0 then 256 else 257
      let x := 2 ^ k / m
      let r := isqrt x
      sticky false r (r * r * m == 2 ^ k) ((-e - (k : Int)) / 2)

/-- One, in fixed point. -/
def fxOne : Nat := 2 ^ 384
/-- The natural logarithm of 2, in fixed point. -/
def fxLn2 : Nat :=
  0xb17217f7d1cf79abc9e3b39803f2f6af40f343267298b62d8a0d175b8baafa2be7b876206debac98559552fb4afa1b10
/-- Pi, in fixed point. -/
def fxPi : Nat :=
  0x3243f6a8885a308d313198a2e03707344a4093822299f31d0082efa98ec4e6c89452821e638d01377be5466cf34e90c6c

/-- The sum of `t`, `t x / k`, `t x^2 / (k (k + 1))`, … for `n` terms: the exponential series. -/
def expSeries (x : Nat) : Nat → Nat → Nat → Nat
  | 0, _, _ => 0
  | n + 1, k, t => t + expSeries x n (k + 1) (t * x / fxOne / k)

/-- `t / k - t y / (k + 2) …` as the odd series `sum t y^i / (2 i + 1)`: the inverse hyperbolic tangent over its argument. -/
def oddSeries (y : Nat) : Nat → Nat → Nat → Nat
  | 0, _, _ => 0
  | n + 1, k, t => t / k + oddSeries y n (k + 2) (t * y / fxOne)

/-- The alternating series of sine (`k` starts at 2) and cosine (`k` starts at 1): terms divide by `k (k + 1)`. -/
def altSeries (y : Nat) : Nat → Nat → Int → Int
  | 0, _, _ => 0
  | n + 1, k, t => t + altSeries y n (k + 2) (-(t * y / fxOne / (k * (k + 1) : Nat)))

/-- `2 ^ a`. -/
def ex2X (a : XVal) : XVal :=
  match a with
  | .nan => .nan
  | .inf s => if s then .fin false 0 0 else .inf false
  | .fin s m e =>
    if m = 0 then .fin false 1 0
    else if 8 < (Nat.log2 m : Int) + e then (if s then .fin false 1 (-600) else .fin false 1 600)
    else
      -- a = n + f / 2^384 with 0 ≤ f < 2^384
      let v : Int := if e + 384 ≥ 0 then scaled s m (e + 384) 0 else scaled s m e e / (2 ^ (-(e + 384)).toNat : Nat)
      let n := v / (fxOne : Int)
      let f := (v % (fxOne : Int)).toNat
      if f = 0 then .fin false 1 n
      else sticky false (expSeries (f * fxLn2 / fxOne) 100 1 fxOne) false (n - 384)

/-- `log2 a`. -/
def lg2X (a : XVal) : XVal :=
  match a with
  | .nan => .nan
  | .inf s => if s then .nan else .inf false
  | .fin s m e =>
    if m = 0 then .inf true else if s then .nan
    else
      let b := Nat.log2 m
      if m = 2 ^ b then ofInt ((b : Int) + e)
      else
        -- a = y 2^c with 3/4 ≤ y < 3/2
        let c : Int := if 2 * m < 3 * 2 ^ b then (b : Int) + e else (b : Int) + e + 1
        let y : Nat := (scaled false m (e - c + 384) 0).toNat
        let neg := decide (y < fxOne)
        let d := if neg then fxOne - y else y - fxOne
        let z := d * fxOne / (y + fxOne)
        let ln := 2 * (z * oddSeries (z * z / fxOne) 90 1 fxOne / fxOne)
        let lg : Int := (ln * fxOne / fxLn2 : Nat)
        let r : Int := c * (fxOne : Int) + (if neg then -lg else lg)
        sticky (decide (r < 0)) r.natAbs false (-384)

/-- sin (pi x) for 0 ≤ x ≤ 1/2 in fixed point. -/
def sinFx (x : Nat) : Nat :=
  let t := x * fxPi / fxOne
  (altSeries (t * t / fxOne) 60 2 (t : Int)).toNat

/-- cos (pi x) for 0 ≤ x ≤ 1/2 in fixed point. -/
def cosFx (x : Nat) : Nat :=
  let t := x * fxPi / fxOne
  (altSeries (t * t / fxOne) 60 1 (fxOne : Int)).toNat

/-- sin (pi x) of a phase `x` in half-turns modulo 2, in fixed point, which is not an integer: sign and value. -/
def sinPhase (x : Nat) : XVal :=
  let neg := decide (fxOne ≤ x)
  let y := x % fxOne
  let z := if 2 * y ≤ fxOne then y else fxOne - y
  if 2 * z = fxOne then .fin neg 1 0
  else if 4 * z ≤ fxOne then sticky neg (sinFx z) false (-384)
  else sticky neg (cosFx (fxOne / 2 - z)) false (-384)

/-- `sin (pi a)`. -/
def sinX (a : XVal) : XVal :=
  match a with
  | .nan => .nan
  | .inf _ => .nan
  | .fin s m e =>
    if m = 0 then .fin s 0 0
    else if 0 ≤ e then .fin s 0 0
    else
      let x := (scaled false m (e + 384) 0).toNat % (2 * fxOne)
      if x % fxOne = 0 then .fin s 0 0
      else match sinPhase x with
        | .fin n k f => .fin (n ^^ s) k f
        | y => y

/-- `cos (pi a)`: the sine of a phase half a half-turn on; +0 at a half. -/
def cosX (a : XVal) : XVal :=
  match a with
  | .nan => .nan
  | .inf _ => .nan
  | .fin _ m e =>
    if m = 0 then .fin false 1 0
    else if 0 < e then .fin false 1 0
    else
      let x := ((scaled false m (e + 384) 0).toNat + fxOne / 2) % (2 * fxOne)
      if x % fxOne = 0 then .fin false 0 0 else sinPhase x

end Sys2Proof.Machine
end

