-- ==== Sys2Proof/Machine/FloatVec.lean ====
section
/-! DEFINITION. Class 011: float vector instructions (R190 to R196). -/

namespace Sys2Proof.Machine

/-- A lane value as a float of a format. -/
def laneX (t : Fmt) (a : BitVec 64) : XVal := ofCode t a.toNat

/-- Finish with per-lane results that carry events of format `t` (R145, R190). -/
def finishFp (s : State) (gid : Nat) (g : Group) (eff : Mask) (d : VDst) (vs : List (VSrc × Bool)) (t : Fmt)
    (f : Nat → Nat × List Nat) : Out :=
  let ls := lanesOf eff
  let rs := ls.map (fun l => (l, f l))
  let get := fun l => BitVec.ofNat 64 (((rs.find? (fun r => r.1 == l)).map (fun r => r.2.1)).getD 0)
  finishVec s gid g eff d false vs get (fpxFormat t) (rs.flatMap (fun r => r.2.2))

/-- A one-source float instruction. -/
def flt1 (o : FOp1) (f : XVal → XVal) (s : State) : Out :=
  let vs := [(o.a, false)]
  withReads { g := o.g, vs := vs, send := o.d } s fun gid g eff s =>
    finishFp s gid g eff o.d vs o.ty (fun l =>
      let a := laneX o.ty (g.vlane o.a false 0 l)
      fresult o.ty o.rm [a] (f a))

/-- A two-source float instruction. -/
def flt2 (o : FOp2) (f : XVal → XVal → XVal) (s : State) : Out :=
  let vs := [(o.a, false), (o.b, false)]
  withReads { g := o.g, vs := vs, send := o.d } s fun gid g eff s =>
    finishFp s gid g eff o.d vs o.ty (fun l =>
      let a := laneX o.ty (g.vlane o.a false 0 l)
      let b := laneX o.ty (g.vlane o.b false (nthOf vs 1) l)
      fresult o.ty o.rm [a, b] (f a b))

/-- A three-source float instruction. -/
def flt3 (o : FOp3) (f : XVal → XVal → XVal → XVal) (s : State) : Out :=
  let vs := [(o.a, false), (o.b, false), (o.c, false)]
  withReads { g := o.g, vs := vs, send := o.d } s fun gid g eff s =>
    finishFp s gid g eff o.d vs o.ty (fun l =>
      let a := laneX o.ty (g.vlane o.a false 0 l)
      let b := laneX o.ty (g.vlane o.b false (nthOf vs 1) l)
      let c := laneX o.ty (g.vlane o.c false (nthOf vs 2) l)
      fresult o.ty o.rm [a, b, c] (f a b c))

/-- `fadd` (R191). -/
def execFadd (o : FOp2) (s : State) : Out := flt2 o (fun a b => XVal.add o.rm a b) s
/-- `fsub` (R191). -/
def execFsub (o : FOp2) (s : State) : Out := flt2 o (fun a b => XVal.add o.rm a b.neg) s
/-- `fmul` (R191). -/
def execFmul (o : FOp2) (s : State) : Out := flt2 o (fun a b => XVal.mul a b) s
/-- `ffma` (R191): one rounding. -/
def execFfma (o : FOp3) (s : State) : Out := flt3 o (fun a b c => XVal.add o.rm (XVal.mul a b) c) s
/-- `fmin` (R192). -/
def execFmin (o : VOp2) (s : State) : Out := vec2 o false (fun a b => BitVec.ofNat 64 (fminmax o.ty true a.toNat b.toNat)) s
/-- `fmax` (R192). -/
def execFmax (o : VOp2) (s : State) : Out := vec2 o false (fun a b => BitVec.ofNat 64 (fminmax o.ty false a.toNat b.toNat)) s
/-- `fcmp` (R193). -/
def execFcmp (o : CmpOp) (s : State) : Out := cmpVec o (fun a b => fcond o.ty o.cc a.toNat b.toNat) s
/-- `fclass` (R194). -/
def execFclass (o : VOp1) (s : State) : Out := vec1 o (fun a => BitVec.ofNat 64 (fclassOf o.ty a.toNat)) s
/-- `fround` (R195): counts nothing. -/
def execFround (o : FOp1) (s : State) : Out :=
  vec1 ⟨o.g, o.d, o.a, o.ty⟩ (fun a => BitVec.ofNat 64 (Machine.fround o.ty o.rm a.toNat)) s
/-- `frcp` (R196). -/
def execFrcp (o : FOp1) (s : State) : Out := flt1 o rcpX s
/-- `frsq` (R196). -/
def execFrsq (o : FOp1) (s : State) : Out := flt1 o rsqX s
/-- `fsqrt` (R196). -/
def execFsqrt (o : FOp1) (s : State) : Out := flt1 o sqrtX s
/-- `fex2` (R196). -/
def execFex2 (o : FOp1) (s : State) : Out := flt1 o ex2X s
/-- `flg2` (R196). -/
def execFlg2 (o : FOp1) (s : State) : Out := flt1 o lg2X s
/-- `fsin` (R196). -/
def execFsin (o : FOp1) (s : State) : Out := flt1 o sinX s
/-- `fcos` (R196). -/
def execFcos (o : FOp1) (s : State) : Out := flt1 o cosX s

end Sys2Proof.Machine
end

