-- ==== Sys2Proof/Machine/CrossLane.lean ====
section
/-! DEFINITION. Class 100: conversion, packing and cross-lane instructions (R197 to R206). -/

namespace Sys2Proof.Machine

/-! ## Conversion and packing -/

/-- The integer that a register holds in an integer or bit type. -/
def valInt (t : Fmt) (a : BitVec 64) : Int :=
  let n := 8 * fmtBytes t
  let x := a.toNat % 2 ^ n
  if fmtSigned t && decide (2 ^ (n - 1) ≤ x) then (x : Int) - (2 ^ n : Nat) else x

/-- An integer as a register holds it in an integer or bit type (R137). -/
def intLane (t : Fmt) (v : Int) : BitVec 64 := fmtExtend t 64 (BitVec.ofInt 64 v).toNat

/-- A conversion with its events (R136, R197). A `q4n` value that the target has too few significand bits for is rounded in the instruction's
mode (DESIGN CHOICE, log 60). -/
def cvtOf (toF frm : Fmt) (rm : RMode) (a : BitVec 64) : Nat × List Nat :=
  if frm == .q4n then fresult toF rm [] (ofQ4 a.toNat)
  else if frm.isFloat then
    let x := laneX frm a
    if toF.isFloat then fresult toF rm [x] x else ((intLane toF (toIntType toF rm x)).toNat, [])
  else if toF.isFloat then fresult toF rm [] (ofInt (valInt frm a))
  else ((intLane toF (valInt frm a)).toNat, [])

/-- `cvt` (R197, R198). -/
def execCvt (k : BitVec 4) (d : VDst) (a : VSrc) (toF frm : Fmt) (rm : RMode) (s : State) : Out :=
  let vs := [(a, frm.wide)]
  withReads { g := k, vs := vs } s fun gid g eff s =>
    let rs := (lanesOf eff).map (fun l => (l, cvtOf toF frm rm (g.vlane a frm.wide 0 l)))
    let get := fun l => BitVec.ofNat 64 (((rs.find? (fun r => r.1 == l)).map (fun r => r.2.1)).getD 0)
    finishVec s gid g eff d toF.wide vs get (fpxFormat toF) (rs.flatMap (fun r => r.2.2))

/-- Bits of an element of `pack2` (R199). -/
def packBits (t : Fmt) : Nat := 8 * fmtBytes t

/-- `pack2` (R199). -/
def execPack2 (o : VOp2) (s : State) : Out :=
  let vs := [(o.a, false), (o.b, false)]
  withReads { g := o.g, vs := vs, send := o.d } s fun gid g eff s =>
    finishVec s gid g eff o.d (o.ty == .b32) vs (fun l =>
      let n := packBits o.ty
      let a := g.vlane o.a false 0 l
      let b := g.vlane o.b false (nthOf vs 1) l
      BitVec.ofNat 64 (b.toNat % 2 ^ n * 2 ^ n + a.toNat % 2 ^ n)) 0 []

/-- `unpk2` (R200). -/
def execUnpk2 (o : VOp1) (s : State) : Out :=
  let vs := [(o.a, false)]
  withReads { g := o.g, vs := vs } s fun gid g eff s =>
    finishVec s gid g eff o.d true vs (fun l =>
      let n := packBits o.ty
      let a := (g.vlane o.a false 0 l).toNat
      (fmtExtend o.ty 32 (a / 2 ^ n) : BitVec 32) ++ (fmtExtend o.ty 32 a : BitVec 32)) 0 []

/-! ## `shfl` (R202) -/

/-- The source lane of lane `l` in segments of `seg`; `pick` is lane `l`'s selector. -/
def shflLane (mode : ShflMode) (seg l pick : Nat) : Nat :=
  let i := l % seg
  let base := l - i
  base + (match mode with
    | .pick _ => pick % seg
    | .rot δ => (((i : Int) + δ.toInt) % (seg : Int)).toNat
    | .rev => seg - 1 - i
    | .flip δ => Nat.xor i (δ.toNat % seg)
    | .one δ => δ.toNat % seg
    | .zip => i / 2 + i % 2 * (seg / 2)
    | .unzip => if i < seg / 2 then 2 * i else 2 * (i - seg / 2) + 1)

/-- `shfl`.  A lane that dies in this instruction by consuming a poisoned word (R339) is not live when the others read
it, so they read 0 there: R202 does not say whether Live is taken before or after those deaths (DESIGN CHOICE, log 64). -/
def execShfl (k : BitVec 4) (d : VDst) (a : VSrc) (ty : Fmt) (mode : ShflMode) (seg : BitVec 3) (s : State) : Out :=
  let sel : List (VSrc × Bool) := match mode with
    | .pick b => [(b, false)]
    | _ => []
  let from_ := fun (g : Group) (l : Nat) =>
    shflLane mode (segWidth g.w seg) l (match sel with
      | (b, _) :: _ => amount (g.vlane b false 0 l)
      | [] => 0)
  let cross := fun (g : Group) (eff : Mask) => maskOf ((lanesOf eff).filter (fun l =>
    sel.any (fun x => g.vBad x l) || (g.live.getLsbD (from_ g l) && g.vBad (a, ty.wide) (from_ g l))))
  withReads { g := k, vs := (a, ty.wide) :: sel, cross := some cross } s fun gid g eff s =>
    finishVec s gid g eff d ty.wide [] (fun l =>
      if g.live.getLsbD (from_ g l) then g.vlane a ty.wide 0 (from_ g l) else 0) 0 []

/-! ## `vote` and `match` (R203, R204) -/

/-- `vote`. -/
def execVote (k : BitVec 4) (op : VoteOp) (a : MSrc) (s : State) : Out :=
  withReads { g := k, ms := [a] } s fun gid g eff s =>
    let h := eff &&& g.mval a
    match op with
    | .some d => .next (finishM s gid g eff d [] (if h ≠ 0 then eff else 0))
    | .every d => .next (finishM s gid g eff d [] (if h = eff then eff else 0))
    | .none d => .next (finishM s gid g eff d [] (if h = 0 then eff else 0))
    | .bits d => .next (finishS s gid g eff d h)
    | .count d => .next (finishS s gid g eff d (BitVec.ofNat 64 (popCount h 64)))
    | .first d => .next (finishS s gid g eff d (match lanesOf h with
        | l :: _ => BitVec.ofNat 64 l
        | [] => BitVec.allOnes 64))

/-- Every lane of the effective mask consumes a poisoned word that any of them holds (R201). -/
def allConsume (a : VSrc) (wide : Bool) : Group → Mask → Mask :=
  fun g eff => if (lanesOf eff).any (fun l => g.vBad (a, wide) l) then eff else 0

/-- The lanes whose value equals lane `l`'s. -/
def equalLanes (g : Group) (a : VSrc) (wide : Bool) (eff : Mask) (l : Nat) : Mask :=
  maskOf ((lanesOf eff).filter (fun j => g.vlane a wide 0 j == g.vlane a wide 0 l))

/-- `match`. -/
def execMatch (k : BitVec 4) (op : MatchOp) (a : VSrc) (ty : Fmt) (s : State) : Out :=
  withReads { g := k, vs := [(a, ty.wide)], cross := some (allConsume a ty.wide) } s fun gid g eff s =>
    match op with
    | .mask d => finishVec s gid g eff d true [] (fun l => equalLanes g a ty.wide eff l) 0 []
    | .lead d => .next (finishM s gid g eff d [] (maskOf ((lanesOf eff).filter (fun l =>
        (lanesOf (equalLanes g a ty.wide eff l)).headD l == l))))
    | .cnt d => finishVec s gid g eff d false [] (fun l => BitVec.ofNat 64 (popCount (equalLanes g a ty.wide eff l) 64)) 0 []

/-! ## `redux` and `vscan` (R205, R206) -/

/-- Fold a binary operation over a non-empty list. -/
def foldNe (f : BitVec 64 → BitVec 64 → BitVec 64) : List (BitVec 64) → BitVec 64
  | [] => 0
  | a :: r => r.foldl f a

/-- The order of `argmin` and `argmax`: `a` goes before `b`. -/
def ranksBefore (t : Fmt) (less : Bool) (a b : BitVec 64) : Bool :=
  if t == .f32 then
    if isNaNCode t a.toNat then false
    else if isNaNCode t b.toNat then true
    else
      let c := XVal.cmp true (laneX t a) (laneX t b)
      if less then decide (c < 0) else decide (0 < c)
  else if less then laneLt t a b else laneLt t b a

/-- The lowest lane whose value is least, or greatest. -/
def argBest (t : Fmt) (less : Bool) : List (Nat × BitVec 64) → Nat
  | [] => 0
  | a :: r => (r.foldl (fun m e => if ranksBefore t less e.2 m.2 then e else m) a).1

/-- The least, or greatest, of a non-empty list (R205); a result that is NaN is canonical (R132). -/
def extremeOf (t : Fmt) (less : Bool) (vs : List (BitVec 64)) : BitVec 64 :=
  if t == .f32 then
    let r := foldNe (fun a b => BitVec.ofNat 64 (fminmax t less a.toNat b.toNat)) vs
    if isNaNCode t r.toNat then BitVec.ofNat 64 (canonNaN t) else r
  else foldNe (fun a b => if (if less then laneLt t b a else laneLt t a b) then b else a) vs

/-- The reduction of a non-empty list of lane values, with its events; 32 or 64 bits by the type. -/
def reduceOf (op : RedOp) (t : Fmt) (l : List (Nat × BitVec 64)) : BitVec 64 × List Nat :=
  let vs := l.map Prod.snd
  let fp := t == .f32
  match op with
  | .add => if fp then
      let xs := vs.map (laneX .f32)
      let r := fresult .f32 .rne xs (sumExact xs)
      (BitVec.ofNat 64 r.1, r.2)
    else (vs.foldl (fun a b => a + b) 0, [])
  | .min => (extremeOf t true vs, [])
  | .max => (extremeOf t false vs, [])
  | .and => (foldNe (fun a b => a &&& b) vs, [])
  | .or => (foldNe (fun a b => a ||| b) vs, [])
  | .xor => (foldNe (fun a b => a ^^^ b) vs, [])
  | .argmin => (BitVec.ofNat 64 (argBest t true l), [])
  | .argmax => (BitVec.ofNat 64 (argBest t false l), [])

/-- A reduction as `S[d]` receives it: sign-extended for `i32`, zero-extended for the other 32-bit types. -/
def reduxS (op : RedOp) (t : Fmt) (v : BitVec 64) : Word :=
  if op == .argmin || op == .argmax || t.wide then v
  else if t == .i32 then (v.extractLsb' 0 32 : BitVec 32).signExtend 64
  else (v.extractLsb' 0 32 : BitVec 32).setWidth 64

/-- `redux`. -/
def execRedux (k : BitVec 4) (op : RedOp) (d : SDst) (a : VSrc) (ty : Fmt) (s : State) : Out :=
  withReads { g := k, vs := [(a, ty.wide)], cross := some (allConsume a ty.wide) } s fun gid g eff s =>
    let r := reduceOf op ty ((lanesOf eff).map (fun l => (l, g.vlane a ty.wide 0 l)))
    .next (finishS (countFpx s g 0 r.2) gid g eff d (reduxS op ty r.1))

/-- `Identity(op, t)` (R206). -/
def identityOf (op : RedOp) (t : Fmt) : BitVec 64 :=
  match op with
  | .and => BitVec.allOnes 64
  | .min => match t with
    | .f32 => 0x7F800000
    | .i32 => 0x7FFFFFFF
    | .i64 => 0x7FFFFFFFFFFFFFFF
    | _ => BitVec.allOnes 64
  | .max => match t with
    | .f32 => 0xFF800000
    | .i32 => 0x80000000
    | .i64 => 0x8000000000000000
    | _ => 0
  | _ => 0

/-- The value of lane `l` in a scan. -/
def scanOf (op : RedOp) (excl : Bool) (t : Fmt) (vals : List (Nat × BitVec 64)) (l : Nat) : BitVec 64 × List Nat :=
  let p := vals.filter (fun e => if excl then decide (e.1 < l) else decide (e.1 ≤ l))
  if p.isEmpty then (identityOf op t, []) else reduceOf op t p

/-- Lanes that consume a poisoned word of a scan: those that read it (R201). -/
def scanConsume (a : VSrc) (wide excl : Bool) : Group → Mask → Mask :=
  fun g eff => maskOf ((lanesOf eff).filter (fun l => (lanesOf eff).any (fun k =>
    (if excl then decide (k < l) else decide (k ≤ l)) && g.vBad (a, wide) k)))

/-- `vscan`. -/
def execVscan (k : BitVec 4) (op : RedOp) (excl : Bool) (d : VDst) (a : VSrc) (ty : Fmt) (s : State) : Out :=
  withReads { g := k, vs := [(a, ty.wide)], cross := some (scanConsume a ty.wide excl) } s fun gid g eff s =>
    let vals := (lanesOf eff).map (fun l => (l, g.vlane a ty.wide 0 l))
    let rs := vals.map (fun e => (e.1, scanOf op excl ty vals e.1))
    let get := fun l => ((rs.find? (fun r => r.1 == l)).map (fun r => r.2.1)).getD 0
    finishVec s gid g eff d ty.wide [] get 0 (rs.flatMap (fun r => r.2.2))

end Sys2Proof.Machine
end

