-- ==== Sys2Proof/Machine/Shapes.lean ====
section
/-! DEFINITION. Shape records: their fields and checks (R237 to R239), the elements they name, and writes to operands that are in use
(R121, R254). -/

namespace Sys2Proof.Machine

/-! ## The record (R237) -/

/-- Format of a code (R130). -/
def fmtOfCode (n : Nat) : Fmt :=
  match n with
  | 0 => .n8 | 1 => .n16 | 2 => .n32 | 3 => .n64 | 4 => .i8 | 5 => .i16 | 6 => .i32 | 7 => .i64
  | 8 => .b32 | 9 => .b64 | 10 => .f16 | 11 => .bf16 | 12 => .f32 | 13 => .f8a | 14 => .f8b | _ => .q4n

/-- Bits of a word of a record. -/
def shapeField (r : List (BitVec 64)) (o lo n : Nat) : Nat := (r.getD (o / 8) 0).toNat / 2 ^ lo % 2 ^ n

/-- A signed 32-bit field. -/
def shapeInt (r : List (BitVec 64)) (o lo : Nat) : Int := (BitVec.ofNat 32 (shapeField r o lo 32)).toInt

/-- The record of eight words. -/
def Shape.of (r : List (BitVec 64)) : Shape :=
  { base := shapeField r 0x00 0 64, metaBase := shapeField r 0x08 0 64,
    ext := [shapeField r 0x10 0 16, shapeField r 0x10 16 16, shapeField r 0x10 32 16, shapeField r 0x10 48 16],
    stride := [shapeInt r 0x18 0, shapeInt r 0x18 32, shapeInt r 0x20 0, shapeInt r 0x20 32],
    box := [shapeField r 0x28 0 16, shapeField r 0x28 16 16, shapeField r 0x28 32 16, shapeField r 0x28 48 16],
    mstride := shapeInt r 0x30 32, sparse := shapeField r 0x30 10 2, zfill := shapeField r 0x30 9 1 == 1,
    ndim := shapeField r 0x30 6 2, space := shapeField r 0x30 4 2, fmt := fmtOfCode (shapeField r 0x30 0 4) }

/-- The words of a record (R237), for an array image (R252). -/
def Shape.words (h : Shape) : List Nat :=
  let u := fun (i : Int) => (BitVec.ofInt 32 i).toNat
  let e := fun (l : List Nat) => l.getD 0 0 + l.getD 1 0 * 2 ^ 16 + l.getD 2 0 * 2 ^ 32 + l.getD 3 0 * 2 ^ 48
  [h.base, h.metaBase, e h.ext, u (h.stride.getD 0 0) + u (h.stride.getD 1 0) * 2 ^ 32,
   u (h.stride.getD 2 0) + u (h.stride.getD 3 0) * 2 ^ 32, e h.box,
   u h.mstride * 2 ^ 32 + h.sparse * 2 ^ 10 + (if h.zfill then 2 ^ 9 else 0) + h.ndim * 2 ^ 6 + h.space * 2 ^ 4 + h.fmt.code.toNat, 0]

/-- Extent of dimension `d`. -/
def Shape.e (h : Shape) (d : Nat) : Nat := h.ext.getD d 0
/-- Stride of dimension `d`. -/
def Shape.s (h : Shape) (d : Nat) : Int := h.stride.getD d 0
/-- Box of dimension `d`. -/
def Shape.b (h : Shape) (d : Nat) : Nat := h.box.getD d 0
/-- Bytes of an element; a q4n element is half a byte. -/
def Shape.width (h : Shape) : Nat := fmtBytes h.fmt

/-- An integer is a multiple. -/
def multiple (i : Int) (n : Nat) : Bool := i % (n : Int) == 0

/-- The record is rejected whatever names it (R238); `sparseOk` says that it is the A operand of `mmas`. -/
def shapeBad (r : List (BitVec 64)) (h : Shape) (sparseOk : Bool) : Bool :=
  shapeField r 0x30 12 20 != 0 || shapeField r 0x30 8 1 != 0 || shapeField r 0x38 0 64 != 0 || h.sparse == 3 || h.space == 3
    || [0, 1, 2, 3].any (fun d => if d ≤ h.ndim then h.e d == 0 else h.e d != 0 || h.b d != 0 || h.s d != 0)
    || (if h.fmt == .q4n then h.s 0 != 0 || h.base % 32 != 0 || !multiple (h.s 1) 32 || decide (1 < h.ndim)
        else h.base % h.width != 0 || [0, 1, 2, 3].any (fun d => decide (d ≤ h.ndim) && !multiple (h.s d) h.width))
    || (h.sparse != 0 && (!sparseOk || h.e 0 % 8 != 0 || (h.sparse == 2 && h.metaBase % 2 != 0)))

/-! ## Where elements lie -/

/-- A place: a space with its crew, as `Crew.recent` has it, a byte address, and how many bytes. -/
abbrev Extent := Nat × Nat × Nat

/-- An address modulo 2^64. -/
def wrap64 (i : Int) : Nat := (BitVec.ofInt 64 i).toNat

/-- The byte address of a dense element (R238). -/
def Shape.addr (h : Shape) (c : List Nat) : Nat :=
  if h.fmt == .q4n then wrap64 (h.base + (c.getD 1 0 : Int) * h.s 1 + (c.getD 0 0 / 2 : Nat))
  else wrap64 (h.base + (c.getD 0 0 : Int) * h.s 0 + (c.getD 1 0 : Int) * h.s 1 + (c.getD 2 0 : Int) * h.s 2
    + (c.getD 3 0 : Int) * h.s 3)

/-- An element lies within the extents. -/
def Shape.within (h : Shape) (c : List Nat) : Bool :=
  [0, 1, 2, 3].all (fun d => decide (h.ndim < d) || decide (c.getD d 0 < h.e d))

/-- The space of a place in a record of crew `crew`: the crew whose scratchpad holds it, and the offset; `none` for a `.p` address
whose peer has retired. -/
def placeIn (s : State) (crew : Nat) (space addr : Nat) : Option (Nat × Nat) :=
  match space with
  | 0 => some (0, addr)
  | 1 => some (1 + crew, addr)
  | _ =>
    match s.crew? crew with
    | none => none
    | some c =>
      let q := addr / 2 ^ 19 % 4
      if q = c.idx % 4 then some (1 + crew, addr % 2 ^ 19)
      else (peerCrew s c q).map (fun k => (1 + k, addr % 2 ^ 19))

/-- Kept values per run of a sparse record (R140). -/
def Shape.kept (h : Shape) : Nat := if h.sparse = 2 then 4 else 2

/-- The address of the metadata field of run `g` of row `c1` (R239), and its bytes. -/
def Shape.metaAt (h : Shape) (c1 g : Nat) : Nat × Nat :=
  let n := if h.sparse = 2 then 2 else 1
  (wrap64 (h.metaBase + (c1 : Int) * h.mstride + (g * n : Nat)), n)

/-- The positions of a metadata field, or `none` where it is not well-formed (R140, R141). -/
def metaPositions (kept v : Nat) : Option (List Nat) :=
  let ps := (List.range kept).map (fun r => v / 8 ^ r % 8)
  let rising := (ps.zip (ps.drop 1)).all (fun x => decide (x.1 < x.2))
  if rising && decide (v / 8 ^ kept = 0) then some ps else none

/-- The address of stored element `n` of a row. -/
def Shape.stored (h : Shape) (c1 n : Nat) : Nat := h.addr [n, c1]

/-- Every byte range that a matrix operand of `rows` rows from `c1`, `K` elements from `c0`, may read: elements within the extents,
stored values and metadata of a sparse record. -/
def operandBytes (h : Shape) (c0 c1 k rows : Nat) : List (Nat × Nat) :=
  let e1 := if h.ndim = 0 then 1 else h.e 1
  let w := h.width
  (List.range rows).flatMap (fun i =>
    if e1 ≤ c1 + i then []
    else if h.sparse = 0 then
      ((List.range k).filter (fun j => decide (c0 + j < h.e 0))).map (fun j => (h.addr [c0 + j, c1 + i], w))
    else
      ((List.range ((k + 7) / 8)).filter (fun j => decide (c0 + 8 * j < h.e 0))).flatMap (fun j =>
        let g := c0 / 8 + j
        h.metaAt (c1 + i) g :: (List.range h.kept).map (fun r => (h.stored (c1 + i) (g * h.kept + r), w))))

/-! ## Writes to operands in use (R121, R254) -/

/-- Two places overlap. -/
def overlaps (p q : Extent) : Bool := p.1 == q.1 && decide (p.2.1 < q.2.1 + q.2.2) && decide (q.2.1 < p.2.1 + p.2.2)

/-- Columns of B that a matrix operation of this member reads: a quarter for a joint operation (R248). -/
def MOp.bCols (o : MOp) : Nat := if o.kind == .mmaq then o.nn / 4 else o.nn

/-- The fields of an origin word (R241). -/
def originAK (o : BitVec 64) : Nat := (o.extractLsb' 0 16 : BitVec 16).toNat
/-- AM. -/
def originAM (o : BitVec 64) : Nat := (o.extractLsb' 16 16 : BitVec 16).toNat
/-- BK. -/
def originBK (o : BitVec 64) : Nat := (o.extractLsb' 32 16 : BitVec 16).toNat
/-- BN. -/
def originBN (o : BitVec 64) : Nat := (o.extractLsb' 48 16 : BitVec 16).toNat

/-- The ranges of the operand records of an operation, each with the space of its record. -/
def MOp.operandReads (o : MOp) : List (Nat × Nat × Nat) :=
  let tag := fun (h : Option Shape) (l : Shape → List (Nat × Nat)) => match h with
    | some h => (l h).map (fun x => (h.space, x.1, x.2))
    | none => []
  tag o.a (fun a => operandBytes a (originAK o.origin) (originAM o.origin) (if o.kind == .accld then o.nn else o.kk) o.mm)
    ++ tag o.b (fun b => operandBytes b (originBK o.origin) (originBN o.origin) o.kk o.bCols)

/-- The ranges that a matrix operation reads, each with the space of its record. -/
def MOp.reads (o : MOp) : List (Nat × Nat × Nat) :=
  if o.kind == .sacc then [(1, o.k1, o.mm), (1, o.k2, 4 * o.mm)] else o.operandReads

/-- A matrix operation of crew `crew` reads a place. -/
def MOp.touches (s : State) (crew : Nat) (o : MOp) (p : Extent) : Bool :=
  o.reads.any (fun r => match placeIn s crew r.1 r.2.1 with
    | some (sp, a) => overlaps p (sp, a, r.2.2)
    | none => false)

/-- Box coordinates by linear index, dimension 0 fastest. -/
def boxCoord (h : Shape) (i : Nat) : List Nat :=
  let b := fun d => Nat.max 1 (h.b d)
  [i % b 0, i / b 0 % b 1, i / (b 0 * b 1) % b 2, i / (b 0 * b 1 * b 2) % b 3]

/-- Elements of the box. -/
def boxCount (h : Shape) : Nat := Nat.max 1 (h.b 0) * Nat.max 1 (h.b 1) * Nat.max 1 (h.b 2) * Nat.max 1 (h.b 3)

/-- A copy reads a place. -/
def Copy.touches (s : State) (c : Copy) (p : Extent) : Bool :=
  c.vals.isNone && (List.range (boxCount c.src)).any (fun i =>
    let x := boxCoord c.src i
    c.src.within x && (match placeIn s c.crew c.src.space (c.src.addr x) with
      | some (sp, a) => overlaps p (sp, a, c.src.width)
      | none => false))

/-- The key of a tile element; rows 64 and up of a pair lie in the next tile. -/
def tileKey (t i j : Nat) : Nat := 4096 * (t + i / 64) + 64 * (i % 64) + j

/-- A tile element with a new value and its poison marker. -/
abbrev TileWrite := Nat × W32 × Bool

/-- The region of tile `d` that an operation writes. -/
def MOp.region (o : MOp) : List Nat :=
  (List.range o.mm).flatMap (fun i => (List.range o.nn).map (fun j => tileKey o.d i j))

/-- Free values for the region of an operation (R121, R141, R244, R248; DESIGN CHOICE, log 4). -/
def MOp.freeWrites (o : MOp) (fr : Nat) : List TileWrite := o.region.map (fun k => (k, (freeAt fr k).extractLsb' 0 32, false))

/-- An array takes tile elements. -/
def ArraySt.put (a : ArraySt) (ws : List TileWrite) : ArraySt :=
  { a with tiles := ws.foldl (fun m w => SMap.put m 0 w.1 w.2.1) a.tiles,
           poison := ws.foldl (fun p w => if w.2.2 then setIns p w.1 else if p.isEmpty then p else setDel p w.1) a.poison }

/-- A write by operation `op` of group `gid` is none that `opready` makes visible to the operation (R121, R246). -/
def MOp.exposed (o : MOp) (gid op : Nat) : Bool := gid != o.gid || decide (o.ready ≤ op)

/-- Matrix operations of a core that meet `hit`, or of `waited`, have read what is written now or have not: the incomplete ones are tainted, and the
results of the complete ones become free (R121). -/
def touchOps (s : State) (k : Nat) (hit : MOp → Bool) (waited : List MOp) : State :=
  let x := s.core k
  let ops := x.array.ops.map (fun o => if !o.complete && hit o then { o with tainted := true } else o)
  match (x.array.ops.filter MOp.complete ++ waited).filter hit with
  | [] => s.setCore k { x with array := { x.array with ops := ops } }
  | out =>
    let (fr, s1) := s.draw
    s1.setCore k { x with array := { x.array with ops := ops }.put (out.flatMap (fun (o : MOp) => o.freeWrites fr)) }

/-- A core's array after a write to a place by operation `op` of a group of crew `crew`, which no operation before its `xwait` may see in part
(R121). -/
def noteArray (s : State) (crew : Nat) (p : Extent) (gid op k : Nat) : State :=
  touchOps s k (fun o => o.exposed gid op && o.touches s crew p)
    ((s.groups.filter (fun e => e.2.crew == crew && e.2.core == k)).flatMap (fun e => e.2.unwaited))

/-- `S` registers that matrix operations name have been written before their `xwait` (R121). -/
def noteRegs (s : State) (gid : Nat) : State :=
  match s.group? gid with
  | none => s
  | some g =>
    if g.sHit.isEmpty then s
    else
      let s1 := touchOps s g.core (fun o => o.gid == gid && o.regs.any g.sHit.contains) g.unwaited
      let ops := (s1.core g.core).array.ops.filter (fun o => o.gid == gid) ++ g.unwaited
      s1.modGroup gid (fun g => { g with sHit := [], opRegs := ops.foldl (fun l o => o.regs.foldl setIns l) [] })

/-- An operation of a context reads the `n` bytes at a physical address. -/
def MOp.touchesPa (s : State) (ctx : Nat) (o : MOp) (pa n : Nat) : Bool :=
  o.reads.any (fun r => r.1 == 0 && (match xlateWalk s ctx (BitVec.ofNat 64 r.2.1) o.sup .read false with
    | .ok x => decide (x.pa < pa + n ∧ pa < x.pa + r.2.2)
    | .error _ => false))

/-- The space, in `Crew.recent`, of a write that is none of the crew's own: its address is physical. -/
def physSpace : Nat := 2 ^ 64

/-- A write to global memory that is none of crew `crew`'s, to any other crew: its matrix operations read an operand between the `opready` before
them and the completion of their batch, so before the write or after it (R121). -/
def noteForeign (s : State) (crew pa n : Nat) : State :=
  s.crews.foldl (fun s e =>
    if e.1 == crew || e.2.matrixGroup.isNone then s
    else
      let s1 := s.modCrew e.1 (fun c => { c with recent := (physSpace, pa, n, physSpace, 0) :: c.recent })
      e.2.cores.foldl (fun s k =>
        if (s.core k).array.holder == some e.1 then touchOps s k (fun o => o.touchesPa s e.2.ctx pa n) [] else s) s1) s

/-- Local order puts operation `op` of a group before a copy of that group: it comes before a release that comes before the copy, or before a fence
that holds the copy back (R110, R123). -/
def Copy.ordersAfter (s : State) (c : Copy) (gid op : Nat) : Bool :=
  gid == c.gid && (decide (op < c.after)
    || ((s.group? gid).map (fun g => g.fences.any (fun f => decide (f.1 ≤ op ∧ op < f.2 ∧ f.2 ≤ c.op)))).getD false)

/-- Operation `op` of group `gid` of crew `crew` writes a place: copies of the crew that read it are tainted, but for the copy `self` that writes it
(R254) and for a write that local order puts before the copy (R110, R123, R254), and a crew with a matrix group notes the write until its next
`opready`. Of a matrix operation that no `opready` precedes, the model takes the operand writes performed before the crew has a matrix group as visible,
and gives free values for later ones (R121 and R246 speak of one that precedes; DESIGN CHOICE, log 63). -/
def noteWriteBy (self : Option Nat) (s : State) (crew : Nat) (p : Extent) (gid op : Nat) : State :=
  let s1 :=
    if s.copies.isEmpty then s
    else { s with copies := s.copies.map (fun e =>
      if e.2.crew == crew && self != some e.1 && !e.2.ordersAfter s gid op && e.2.touches s p then (e.1, { e.2 with tainted := true })
      else e) }
  match s1.crew? crew with
  | none => s1
  | some c =>
    if c.matrixGroup.isNone then s1
    else
      let s2 := s1.modCrew crew (fun c => { c with recent := (p.1, p.2.1, p.2.2, gid, op) :: c.recent })
      c.cores.foldl (fun s k => if (s.core k).array.holder == some crew then noteArray s crew p gid op k else s) s2

/-- A group's own access writes a place. -/
def noteWrite (s : State) (crew : Nat) (p : Extent) (gid op : Nat) : State := noteWriteBy none s crew p gid op

end Sys2Proof.Machine
end

