-- ==== Sys2Proof/Machine/MemOps.lean ====
section
/-! DEFINITION. Class 101: loads, stores, prefetch, atomics and counter waits (R208 to R220, R355): the checks of R210 at issue and
the requests that the instruction sends. Requests are performed by events (Home.lean). -/

namespace Sys2Proof.Machine

/-! ## What an instruction asks -/

/-- One lane of a memory instruction; the bits of `bad` name the poisoned words of its data. -/
structure LaneIn where
  lane : Nat
  va : Word
  data : BitVec 64 := 0
  cmp : BitVec 64 := 0
  bad : Nat := 0

/-- What the lanes of a memory instruction share. -/
structure MemIns where
  kind : ReqKind
  sp : Space
  ty : Fmt
  ctrs : List Ctr
  need : Need
  aop : AOp := .add
  ord : Ord := .relaxed
  scope : Scope := .cr
  far : Bool := false
  returning : Bool := false
  uniform : Bool := false
  dst : Dst := .none

/-- Bytes of the access. -/
def MemIns.width (m : MemIns) : Nat := fmtBytes m.ty

/-- It writes memory. -/
def MemIns.writes (m : MemIns) : Bool := m.kind == .store || m.kind == .atom

/-- Reads of the base, the offset and the data (R160, R220). -/
def memReads (g : BitVec 4) (base : SSrc) (off : Option VSrc) (data : List (VSrc × Bool)) : Reads :=
  { g := g, ss := [base], vs := (match off with | some v => [(v, false)] | none => []), vcarry := data }

/-- The effective address of a lane (R209). -/
def laneEa (g : Group) (base : SSrc) (off : Option VSrc) (disp : Word) (width l : Nat) : Word :=
  g.sval base + (match off with
    | some v => (g.vlane v false 0 l).setWidth 64
    | none => BitVec.ofNat 64 (l * width)) + disp

/-! ## The checks of R210 -/

/-- A per-lane fault (R277). -/
def laneFault (cause detail : Nat) (l : LaneIn) : FaultInfo := { FaultInfo.of cause detail with addr := l.va, lane := l.lane }

/-- The launch of a crew is a quad launch, in which the crew has peers (R28). -/
def quadCrew (s : State) (c : Crew) : Bool := ((s.launch? c.launch).map Launch.quad).getD false && !c.spawned

/-- Step 1 (R46, R47): the crew and offset that a scratchpad address names, or the fault. -/
def scratchOf (s : State) (cid : Nat) (c : Crew) (sp : Space) (width : Nat) (l : LaneIn) : Except FaultInfo (Nat × Nat) :=
  match sp with
  | .p =>
    let a := l.va.toNat
    let q := a / 2 ^ 19 % 4
    let o := a % 2 ^ 19
    if a / 2 ^ 21 ≠ 0 || !quadCrew s c || decide (c.scratchBytes < o + width) then .error (laneFault 8 2 l)
    else if q = c.idx % 4 then .ok (cid, o)
    else .ok ((peerCrew s c q).getD noCrew, o)
  | _ => if c.scratchBytes < l.va.toNat + width then .error (laneFault 8 1 l) else .ok (cid, l.va.toNat)

/-- The first fault of a list of results. -/
def firstError {α : Type} : List (Except FaultInfo α) → Option FaultInfo
  | [] => none
  | .error e :: _ => some e
  | .ok _ :: r => firstError r

/-- The results that are no faults. -/
def oks {ε α : Type} (l : List (Except ε α)) : List α :=
  l.filterMap (fun x => match x with
    | .ok a => some a
    | .error _ => none)

/-- Step 2: alignment. -/
def alignFault (width : Nat) (ls : List LaneIn) : Option FaultInfo :=
  (ls.find? (fun l => l.va.toNat % width != 0)).map (laneFault 6 1)

/-- A lane with its translation. -/
abbrev LaneXl := LaneIn × Except XErr Xl

/-- The first lane whose walk has first to read a window line (R322). -/
def farLane (xs : List LaneXl) : Option Nat :=
  xs.findSome? (fun x => match x.2 with
    | .error (.far pa) => some pa
    | _ => none)

/-- Step 3: the lowest lane with a fault other than PAGE. -/
def hardFault (xs : List LaneXl) : Option FaultInfo :=
  xs.findSome? (fun x => match x.2 with
    | .error (.fault c d) => some (laneFault c d x.1)
    | _ => none)

/-- A lane that raises PAGE: the detail, and the colour and the page size of its leaf. -/
structure PageLane where
  lane : LaneIn
  detail : Nat
  colour : Nat
  size : Nat

/-- The lanes that raise PAGE. -/
def pageLanes (xs : List LaneXl) : List PageLane :=
  xs.filterMap (fun x => match x.2 with
    | .error (.page d c n) => some ⟨x.1, d, c, n⟩
    | _ => none)

/-- The lanes that translate. -/
def goodLanes (xs : List LaneXl) : List (LaneIn × Xl) :=
  xs.filterMap (fun x => match x.2 with
    | .ok y => some (x.1, y)
    | .error _ => none)

/-- One record for each distinct page, of the size that its leaf gives it (R285), in the order of the first lane on it (R211). -/
def pageRun (ps : List PageLane) : List FaultInfo :=
  (ps.foldl (fun (acc : List Nat × List FaultInfo) p =>
    let page := p.lane.va.toNat - p.lane.va.toNat % p.size
    if acc.1.contains page then acc
    else (page :: acc.1, acc.2 ++ [{ laneFault 7 p.detail p.lane with replay := true }])) ([], [])).2

/-- The distinct nonzero colours of accesses that are not frozen, ascending (R64, R69). -/
def colourSet (xs : List (LaneIn × Xl)) : List Nat :=
  xs.foldl (fun c x => if x.2.colour ≠ 0 ∧ !x.2.frz then setIns c x.2.colour else c) []

/-- The colours a group holds. -/
def Group.colours (g : Group) : List Nat := g.held.map Prod.fst

/-- Step 4: the fault of colours that break R69, with the offending colour in AUX (R78). -/
def colourFault (g : Group) (xs : List (LaneIn × Xl)) : Option FaultInfo :=
  let h := g.colours
  let n := (colourSet xs).filter (fun c => !h.contains c)
  let low := n.filter (fun c => h.any (fun k => decide (c < k)))
  let at_ := fun (cs : List Nat) => (xs.find? (fun x => cs.contains x.2.colour && !x.2.frz)).map Prod.fst
  if !low.isEmpty then
    (at_ low).map (fun l => { laneFault 11 1 l with aux := BitVec.ofNat 16 (n.headD 0) })
  else if !n.isEmpty && decide (16 < h.length + n.length) then
    let c := n.getD (16 - h.length) 0
    (at_ [c]).map (fun l => { laneFault 12 1 l with aux := BitVec.ofNat 16 c })
  else none

/-- `Includes` of R114: scope `sc` of a party in crew `k` (or outside the package) includes another party. -/
def includes (sc : Scope) (sameCrew samePackage : Bool) : Bool :=
  match sc with
  | .cr => sameCrew
  | .dv => samePackage
  | .sy => true

/-- Step 5 (R114): an atomic of scope `sc` by a crew passes the record of a line. -/
def scopeOk (s : State) (crew : Nat) (sc : Scope) (line : Nat) : Bool :=
  match SMap.find? s.scopes line with
  | none => true
  | some r =>
    let same := !r.outside && r.crew == crew
    includes r.scope same (!r.outside) && includes sc same (!r.outside)

/-- FEATGNT0 grants bit `k` (R334). -/
def granted (s : State) (ctx k : Nat) : Bool := (s.ctx ctx).featgnt0.getLsbD k

/-- The link carries an atomic to a window natively (R330). -/
def linkNative (s : State) (ctx pa : Nat) (op : AOp) (t : Fmt) : Bool :=
  if inHost pa then
    t != .f32 && (op == .add || op == .exch || op == .cas || granted s ctx 0)
  else t != .f32 || granted s ctx 1

/-- ATOMEMU of a lane (R330). -/
def atomEmu (s : State) (ctx : Nat) (m : MemIns) (xs : List (LaneIn × Xl)) : Option FaultInfo :=
  if m.kind != .atom then none
  else
    (xs.find? (fun x => inWindow s.lnkid x.2.pa && !linkNative s ctx x.2.pa m.aop m.ty)).map (fun x =>
      let target := (peerOf s.lnkid x.2.pa).getD 16
      { laneFault 19 (if inHost x.2.pa then 1 else 2) x.1 with
        aux := BitVec.ofNat 16 (m.aop.code.toNat * 2 ^ 12 + m.ty.code.toNat * 2 ^ 8 + target) })

/-! ## Sending requests -/

/-- Requests in flight of a core: one per lane, and one per tile of the operands that its array has still to read (R59). -/
def tableUse (s : State) (core : Nat) : Nat :=
  (s.reqs.filter (fun e => e.2.core == core)).length
    + (((s.core core).array.ops.filter (fun o => !o.complete)).map (fun o =>
        (if o.a.isSome then 1 else 0) + (if o.b.isSome then 1 else 0))).foldl (· + ·) 0

/-- Two accesses to scratchpads or to global memory are in one space. -/
def sameSpace (a b : Space) : Bool := (a == .g) == (b == .g)

/-- An element of an `accst` of the group, before it in program order, writes bytes of the access and has not landed (R108). -/
def accstAhead (s : State) (gid op : Nat) (sp : Space) (tgt pa va width : Nat) : Bool :=
  s.copies.any (fun e => e.2.gid == gid && decide (e.2.op < op) && e.2.vals.isSome
    && e.2.todo.any (fun i =>
      let a := e.2.dst.addr (boxCoord e.2.dst i)
      if sp == .g then e.2.dst.space == 0 && decide (a < va + width ∧ va < a + e.2.dst.width)
      else e.2.dst.space == 1 && e.2.crew == tgt && decide (a < pa + width ∧ pa < a + e.2.dst.width)))

/-- An access before it in program order to the same bytes is not performed (R108). -/
def samePending (s : State) (r : Req) : Bool :=
  s.reqs.any (fun e => e.2.gid == r.gid && decide (e.2.op < r.op) && !e.2.performed && sameSpace e.2.sp r.sp && e.2.tgt == r.tgt
    && decide (e.2.pa < r.pa + r.width) && decide (r.pa < e.2.pa + e.2.width))
    || accstAhead s r.gid r.op r.sp r.tgt r.pa r.va.toNat r.width

/-- A fence of a group still holds later accesses back (R110). -/
def fencesHold (s : State) (gid : Nat) (g : Group) : Bool := g.fences.any (fun f => pendingIn s gid f.1 f.2 || copiesIn s gid f.1 f.2)

/-- A fence of its group holds it back (R110, R112). -/
def fenced (s : State) (r : Req) : Bool :=
  match s.group? r.gid with
  | some g => g.fences.any (fun f => decide (f.2 ≤ r.op) && (pendingIn s r.gid f.1 f.2 || copiesIn s r.gid f.1 f.2))
  | none => false

/-- A release waits for every earlier access of its group, copies included (R112). -/
def releaseHeld (s : State) (r : Req) : Bool :=
  r.kind == .atom && (r.ord == .rel || r.ord == .ar) && (pendingIn s r.gid 0 r.op || copiesIn s r.gid 0 r.op)

/-- A store of the core to bytes of the access has passed through the L1 before it, and is not performed: the coherence order keeps the order in which
the core's groups see them (R108, R109). -/
def passedBefore (s : State) (rid : Nat) (r : Req) : Bool :=
  s.reqs.any (fun e => e.1 != rid && e.2.core == r.core && e.2.kind == .store && e.2.sp == .g && e.2.forwarded && !e.2.performed
    && (!r.forwarded || decide (e.1 < rid)) && decide (e.2.pa < r.pa + r.width ∧ r.pa < e.2.pa + e.2.width))

/-- Local order lets a request be performed (R110). -/
def orderFree (s : State) (r : Req) : Bool := !samePending s r && !fenced s r && !releaseHeld s r

/-- A line is a synchronisation line (R113). -/
def isSync (s : State) (line : Nat) : Bool := s.syncLines.contains line

/-- A request enters the machine; a store passes through its core's L1 at once unless its line is a synchronisation line or local
order holds it back (R109). -/
def addReq (s : State) (r : Req) : State :=
  let (i, s1) := s.fresh
  let through := r.kind == .store && r.sp == .g && !isSync s (lineOf r.pa) && orderFree s r && l1Valid s r.core (lineOf r.pa)
  let s2 := if through then l1Update s1 r.core r.pa r.width r.data.toNat else s1
  { s2 with reqs := SMap.ins s2.reqs i { r with forwarded := through } }

/-- The request of a lane. -/
def mkReq (gid : Nat) (g : Group) (ctx op : Nat) (m : MemIns) (l : LaneIn) (pa tgt colour : Nat) (frz tracked : Bool) : Req :=
  { gid := gid, crew := g.crew, core := g.core, ctx := ctx, op := op, lane := l.lane, kind := m.kind, sp := m.sp, va := l.va,
    pa := pa, tgt := tgt, width := m.width, colour := colour, tracked := tracked, frozen := frz, sup := g.sup, far := m.far,
    data := l.data, cmp := l.cmp, dPoison := l.bad, aop := m.aop, ty := m.ty, ord := m.ord, scope := m.scope, dst := m.dst,
    sent := false, forwarded := false, aseq := 0, performed := false, val := 0, vPoison := 0 }

/-- Record and send one global lane (R58, R86, R89). -/
def sendGlobal (s : State) (gid : Nat) (g : Group) (ctx op : Nat) (m : MemIns) (x : LaneIn × Xl) : State :=
  let s0 := if m.kind == .frzq then markVolatile s g.crew 7 else s
  let s1 := if m.kind == .load || m.returning then record s0 g.crew false x.2.pa x.2.frz x.2.untr else s0
  let s2 := if m.writes then record s1 g.crew true x.2.pa x.2.frz x.2.untr else s1
  let s3 := if m.returning then markVolatile s2 g.crew 0 else s2
  let s4 := if m.far then l1DropLine s3 g.core (lineOf x.2.pa) else s3
  let s5 := if m.kind == .atom then { s4 with lineHolds := SMap.ins s4.lineHolds (lineOf x.2.pa) op } else s4
  addReq s5 (mkReq gid g ctx op m x.1 x.2.pa 0 x.2.colour x.2.frz (!x.2.untr))

/-- The counted operation of an instruction: the one parked for PAGE at this place, or a new one with the group that counts it
(R115, R211). -/
def beginOp (s : State) (gid : Nat) (g : Group) (m : MemIns) (precise : Bool) (n : Nat) : Nat × State :=
  match g.parkHere with
  | some p => (p.op, (s.setGroup gid { g with parks := g.parks.filter (fun q => q.op != p.op) }).modOp p.op
      (fun o => { o with left := o.left + n }))
  | none =>
    let (op, s1) := s.fresh
    let acq := if m.ord == .acq || m.ord == .ar then some m.scope else none
    let g1 := g.count m.ctrs op
    let g1 := if m.ord == .rel || m.ord == .ar then { g1 with lastRelease := op } else g1
    let g2 := if acq.isSome then { g1 with fences := g1.fences ++ [(op, op + 1)] } else g1
    let o : Op := { gid := gid, pc := g.pc, ctrs := m.ctrs, left := n, gone := none, precise := precise, acq := acq, cls := 0,
                    hits := true, sup := g.sup }
    let s2 := s1.setGroup gid g2
    (op, { s2 with ops := SMap.ins s2.ops op o })

/-- Fences whose accesses are performed hold nothing back any longer. -/
def pruneFences (s : State) (gid : Nat) : State :=
  s.modGroup gid (fun g => { g with fences := g.fences.filter (fun f => pendingIn s gid f.1 f.2 || copiesIn s gid f.1 f.2) })

/-- The instruction has sent its requests: the group goes on. -/
def memDone (s : State) (gid : Nat) : State :=
  match s.group? gid with
  | some g => finish s gid g .none true
  | none => s

/-- Scratchpad lanes: absent lines park (R51); an instruction that reaches another crew waits for its replies (R48). -/
def memScratch (s : State) (gid : Nat) (g : Group) (ctx : Nat) (m : MemIns) (ls : List LaneIn) (ts : List (Nat × Nat)) : State :=
  let absent := ts.any (fun t => match s.crew? t.1 with
    | some c => decide (t.2 / 128 ∈ c.absent) || decide ((t.2 + m.width - 1) / 128 ∈ c.absent)
    | none => false)
  if absent then park s gid g .lines
  else
    let precise := ts.any (fun t => t.1 != g.crew)
    let (op, s1) := beginOp s gid g m precise ls.length
    let s2 := (ls.zip ts).foldl (fun s x => addReq s (mkReq gid g ctx op m x.1 x.2.2 x.2.1 0 false false)) s1
    if precise then (match s2.group? gid with
      | some g2 => park s2 gid g2 .reply
      | none => s2)
    else memDone s2 gid

/-- PAGE on some lanes (R211): the other lanes of an uncoloured `ld` or `st` perform; the rest are unfinished, the instruction
stays counted, and a run of records is raised. -/
def memPage (s : State) (gid : Nat) (g : Group) (ctx : Nat) (m : MemIns) (ls : List LaneIn) (good : List (LaneIn × Xl))
    (ps : List PageLane) : State :=
  let coloured := !(colourSet good).isEmpty || ps.any (fun p => p.colour != 0)
  let go := if (m.kind == .load || m.kind == .store) && !m.uniform && !coloured then good else []
  let todo := maskOf ((ls.filter (fun l => !go.any (fun x => x.1.lane == l.lane))).map LaneIn.lane)
  let recs := pageRun ps
  let (op, s1) := beginOp s gid g m false go.length
  let s2 := go.foldl (fun s x => sendGlobal s gid g ctx op m x) s1
  let s3 := s2.modGroup gid (fun g => { g with
    parks := ⟨g.pc, g.frames.length, g.sup, op, todo, 0, recs.length, g.pair.filter (fun p => p.pc == g.pc)⟩ :: g.parks })
  raiseRun s3 gid recs

/-- A write of the group that comes before an atomic in local order, and that may change the scope record of the atomic's line, is not
performed: the check of the record comes after it (R108, R110, R112, R114). -/
def storeAhead (s : State) (gid : Nat) (g : Group) (m : MemIns) (pa : Nat) : Bool :=
  s.reqs.any (fun e => e.2.gid == gid && e.2.sp == .g && !e.2.performed && (e.2.kind == .store || e.2.kind == .atom)
    && lineOf e.2.pa == lineOf pa
    && (m.ord == .rel || m.ord == .ar || decide (e.2.pa < pa + m.width ∧ pa < e.2.pa + e.2.width)
      || g.fences.any (fun f => decide (f.1 ≤ e.2.op ∧ e.2.op < f.2))))

/-- Global lanes that all translate: step 4 of R210 (R69), step 5 (R114), then the colours, and the requests. -/
def memGlobal (s : State) (gid : Nat) (g : Group) (ctx : Nat) (m : MemIns) (good : List (LaneIn × Xl)) : State :=
  -- `frzq` makes no coloured access (R64)
  let tinted := if m.kind == .frzq then [] else good
  match colourFault g tinted with
  | some f => raise s gid f
  | none =>
    if m.kind == .atom && good.any (fun x => (SMap.find? s.lineHolds (lineOf x.2.pa)).isSome) then park s gid g .held
    else if m.kind == .atom && good.any (fun x => storeAhead s gid g m x.2.pa) then park s gid g .counters
    else match (if m.kind == .atom then good.find? (fun x => !scopeOk s g.crew m.scope (lineOf x.2.pa)) else none) with
      | some x => raise s gid (laneFault 14 1 x.1)
      | none => match atomEmu s ctx m good with
        | some f => raise s gid f
        | none =>
          match (colourSet tinted).filter (fun c => !g.colours.contains c) with
          | c :: cs => park (joinSlate s ctx c gid) gid { g with wants := c :: cs } .monitor
          | [] =>
            let (op, s1) := beginOp s gid g m false good.length
            memDone (good.foldl (fun s x => sendGlobal s gid g ctx op m x) s1) gid

/-- A memory instruction with the lanes of its effective mask; of an instruction parked for PAGE only the unfinished lanes are
taken (R211). -/
def memIssue (s : State) (gid : Nat) (g : Group) (m : MemIns) (all : List LaneIn) : State :=
  let parked := g.parkHere
  let ls := match parked with
    | some p => all.filter (fun (l : LaneIn) => p.unfinished.getLsbD l.lane)
    | none => all
  if ls.isEmpty then
    match parked with
    | some p => memDone (forsake s gid p) gid
    | none => finish s gid g .none true
  else if parked.isNone && !g.room m.ctrs then park s gid g .counterRoom
  else
    let ctx := s.ctxOf g
    match m.sp with
    | .g =>
      match alignFault m.width ls with
      | some f => raise s gid f
      | none =>
        let s1 := ls.foldl (fun s (l : LaneIn) => tlbFill s g.core ctx l.va) s
        let xs := ls.map (fun (l : LaneIn) => (l, xlate s1 g.core ctx l.va g.sup m.need true))
        match farLane xs, hardFault xs with
        | some pa, _ => raise s1 gid (FaultInfo.far pa)
        | none, some f => raise s1 gid f
        | none, none =>
          let ps := pageLanes xs
          if ps.isEmpty then memGlobal s1 gid g ctx m (goodLanes xs) else memPage s1 gid g ctx m ls (goodLanes xs) ps
    | sp =>
      match s.crewOf g with
      | none => s
      | some c =>
        let ts := ls.map (scratchOf s g.crew c sp m.width)
        match firstError ts with
        | some f => raise s gid f
        | none => match alignFault m.width ls with
          | some f => raise s gid f
          | none => memScratch s gid g ctx m ls (oks ts)

/-! ## The instructions -/

/-- The lanes of a vector memory instruction. -/
def vecLanes (g : Group) (eff : Mask) (base : SSrc) (off : Option VSrc) (disp : Word) (width : Nat)
    (data cmp : Nat → BitVec 64) (bad : Nat → Nat) : List LaneIn :=
  (lanesOf eff).map (fun l => { lane := l, va := laneEa g base off disp width l, data := data l, cmp := cmp l, bad := bad l })

/-- `ld` (R213). -/
def execLd (k : BitVec 4) (d : BitVec 9) (a : MAddr) (ty : Fmt) (s : State) : Out :=
  withReads (memReads k a.base a.off []) s fun gid g eff s =>
    .next (memIssue s gid g { kind := .load, sp := a.sp, ty := ty, ctrs := [.lc], need := .read, dst := .v d.toNat }
      (vecLanes g eff a.base a.off (sext32 a.disp) (fmtBytes ty) (fun _ => 0) (fun _ => 0) (fun _ => 0)))

/-- `st` (R213). -/
def execSt (k : BitVec 4) (a : MAddr) (c : VSrc) (ty : Fmt) (s : State) : Out :=
  withReads (memReads k a.base a.off [(c, ty.wide)]) s fun gid g eff s =>
    .next (memIssue s gid g { kind := .store, sp := a.sp, ty := ty, ctrs := [.sc], need := .write }
      (vecLanes g eff a.base a.off (sext32 a.disp) (fmtBytes ty) (fun l => g.vlane c ty.wide 0 l) (fun _ => 0)
        (fun l => g.vWords (c, ty.wide) l)))

/-- `sld` (R214). -/
def execSld (k : BitVec 4) (d : BitVec 6) (sp : Space) (a : SSrc) (disp : BitVec 32) (ty : Fmt) (s : State) : Out :=
  withReads { g := k, ss := [a] } s fun gid g eff s =>
    .next (memIssue s gid g { kind := .load, sp := sp, ty := ty, ctrs := [.lc], need := .read, uniform := true, dst := .s d.toNat }
      (if eff = 0 then [] else [{ lane := 0, va := g.sval a + sext32 disp }]))

/-- `sst` (R214). -/
def execSst (k : BitVec 4) (sp : Space) (a : SSrc) (disp : BitVec 32) (c : SSrc) (ty : Fmt) (s : State) : Out :=
  withReads { g := k, ss := [a], scarry := [c] } s fun gid g eff s =>
    .next (memIssue s gid g { kind := .store, sp := sp, ty := ty, ctrs := [.sc], need := .write, uniform := true }
      (if eff = 0 then [] else [{ lane := 0, va := g.sval a + sext32 disp, data := g.sval c, bad := g.sWords c }]))

/-- A fill on its way: the home serves it with its recall sequence number; a fill from a frozen granule carries the frozen flag, whatever the
mapping that asks for it (DEDUCED, log 72), and sets the die's holder bit (R101, R103). It carries the colour of its mapping (R55). -/
def sendFill (s : State) (core pa colour : Nat) : State :=
  let line := lineOf pa
  let sl := homeSlice pa
  let fz := servesFrozen s pa
  let (i, s1) := s.fresh
  let s2 := if fz then
      let e := SMap.get s1.freezeTable FreezeEntry.none (granuleOf pa)
      let e1 := { e with holders := e.holders ||| BitVec.ofNat 22 (2 ^ dieOfCore core) }
      { s1 with freezeTable := SMap.ins s1.freezeTable (granuleOf pa) e1 }
    else s1
  { s2 with fills := SMap.ins s2.fills i ⟨core, line, sl, SMap.get s2.sliceSeq 0 sl, colour, fz⟩ }

/-- A home that a `pref` asks for a window line forwards the miss; the data fills the L1 as a load's does (R215, R322). -/
def prefWindow (s : State) (g : Group) (ctx : Nat) (l : LaneIn) (ty : Fmt) (x : Xl) : State :=
  let (op, s1) := s.fresh
  let m : MemIns := { kind := .pref, sp := .g, ty := ty, ctrs := [], need := .read }
  addReq s1 (mkReq noCrew g ctx op m l x.pa 0 x.colour x.frz (!x.untr))

/-- A lane of a `pref` requests its line, unless it is dropped: its checks under R210 would fail, its page has a colour that the group does not hold
(R64), or another core holds a lease on its line. The lanes translate together, in `s0`. -/
def prefLane (s0 s : State) (g : Group) (ctx : Nat) (ty : Fmt) (l : LaneIn) : State :=
  if l.va.toNat % fmtBytes ty ≠ 0 then s
  else match xlate s0 g.core ctx l.va g.sup .read true with
    | .error _ => s
    | .ok x =>
      let line := lineOf x.pa
      if (x.colour ≠ 0 && !g.colours.contains x.colour) || l1Valid s g.core line
          || (match SMap.find? s.leases line with | some h => h != g.core | none => false) then s
      else if inHbm x.pa then sendFill (l2Touch s (dieOfCore g.core) ctx line g.sup false) g.core x.pa x.colour
      else prefWindow s g ctx l ty x

/-- The lane of a `pref` whose walk has first to read a window line (R322). -/
def prefFar (s : State) (g : Group) (ctx : Nat) (ty : Fmt) (l : LaneIn) : Option Nat :=
  if l.va.toNat % fmtBytes ty ≠ 0 then none
  else match xlate s g.core ctx l.va g.sup .read true with
    | .error (.far pa) => some pa
    | _ => none

/-- `pref` (R215): each lane that passes requests its line; the others are dropped. It does not block. A walk that has first to read a window line
holds it back as it holds back a load (R322). Its access counts in no latency class: R60 counts every global access in one, and R215 lets a `pref` count
and record nothing (DESIGN CHOICE, log 65). -/
def execPref (k : BitVec 4) (a : MAddr) (ty : Fmt) (s : State) : Out :=
  withReads (memReads k a.base a.off []) s fun gid g eff s =>
    let ctx := s.ctxOf g
    let ls := vecLanes g eff a.base a.off (sext32 a.disp) (fmtBytes ty) (fun _ => 0) (fun _ => 0) (fun _ => 0)
    match ls.findSome? (prefFar s g ctx ty) with
    | some pa => .next (raise s gid (FaultInfo.far pa))
    | none => .next (finish (ls.foldl (fun t l => prefLane s t g ctx ty l) s) gid g .none false)

/-- Data of an atomic lane: for `cas` the new value and the compare value (R217). -/
def atomData (g : Group) (op : AOp) (ty : Fmt) (c : VSrc) (l : Nat) : BitVec 64 × BitVec 64 :=
  match op, c with
  | .cas, .reg k =>
    if ty.wide then (g.src.rdV64 (k.toNat + 2) l, g.src.rdV64 k.toNat l)
    else ((g.src.rdV (k.toNat + 1) l).setWidth 64, (g.src.rdV k.toNat l).setWidth 64)
  | _, _ => (g.vlane c ty.wide 0 l, 0)

/-- The poisoned words of an atomic lane's data; a poisoned compare value marks both. -/
def atomBad (g : Group) (op : AOp) (ty : Fmt) (c : VSrc) (l : Nat) : Nat :=
  match op, c with
  | .cas, .reg k => if g.vBad (.reg k, ty.wide) l then 3 else g.vWords (.reg (k + (if ty.wide then 2 else 1)), ty.wide) l
  | _, _ => g.vWords (c, ty.wide) l

/-- What `atom`, `red` and `red.far` share (R216 to R218). -/
def atomIssue (k : BitVec 4) (m : AtomCtl) (c : VSrc) (far returning : Bool) (dst : Dst) (s : State) : Out :=
  withReads (memReads k m.base m.off [(c, m.ty.wide)]) s fun gid g eff s =>
    .next (memIssue s gid g
      { kind := .atom, sp := m.sp, ty := m.ty, ctrs := if returning then [.lc, .sc] else [.sc], need := .atom, aop := m.op,
        ord := m.ord, scope := m.scope, far := far, returning := returning && m.sp == .g, dst := dst }
      (vecLanes g eff m.base m.off (m.disp.signExtend 64) (fmtBytes m.ty) (fun l => (atomData g m.op m.ty c l).1)
        (fun l => (atomData g m.op m.ty c l).2) (fun l => atomBad g m.op m.ty c l)))

/-- `atom`. -/
def execAtom (k : BitVec 4) (d : BitVec 9) (m : AtomCtl) (c : VSrc) (s : State) : Out :=
  atomIssue k m c false true (.v d.toNat) s

/-- `red`. -/
def execRed (k : BitVec 4) (m : AtomCtl) (c : VSrc) (s : State) : Out := atomIssue k m c false false .none s

/-- `red.far` (R58). -/
def execRedFar (k : BitVec 4) (m : AtomCtl) (c : VSrc) (s : State) : Out := atomIssue k m c true false .none s

/-! ## Counter waits (R116, R219) -/

/-- The first held fault of a counter whose instruction it no longer counts. -/
def Group.dueFault (g : Group) (k : Ctr) : Option HeldFault :=
  let due := g.heldFaults.filter (fun h => h.ctr == k && !(g.ctr k).any (fun e => e.op == h.op))
  due.foldl (fun a h => match a with
    | none => some h
    | some b => if h.op < b.op then some h else some b) none

/-- What `waitc` and `xwait` share: park until the counter is at most `n`, then raise held faults one at a time, in issue order,
each counted at the level of its instruction (R316). -/
def waitCounter (k : Ctr) (n : Nat) (s : State) : Out :=
  withReads {} s fun gid g _ s =>
    if n < (g.ctr k).length then .next (park s gid g .counters)
    else
      -- after a wait on `xc` the tiles of the batches that have retired are free to use (R121)
      let g := if k == .xc then { g with unwaited := [] } else g
      match g.dueFault k with
      | some h =>
        let g1 := { g with heldFaults := g.heldFaults.erase h }
        .next (raiseRunAs (some h.sup) (s.setGroup gid g1) gid (h.recs.map (fun r => { r with report := true })))
      | none => .next (finish s gid g .none true)

/-- `waitc` (R219). -/
def execWaitc (k : Ctr) (n : BitVec 8) (s : State) : Out := waitCounter k n.toNat s

end Sys2Proof.Machine
end

