-- ==== Sys2Proof/Machine/Perform.lean ====
section
/-! DEFINITION. What follows when lanes of a memory instruction are performed, rejected, refused or lost (R60, R106, R112, R115,
R116), the effect of an atomic (R217), and the packets of the links (R323, R324). -/

namespace Sys2Proof.Machine

/-! ## Atomics (R217) -/

/-- The result of an atomic: the new value, whether it is written, and the events of an `f32` `add` (R145). -/
def atomicApply (op : AOp) (t : Fmt) (old x cmp : BitVec 64) : BitVec 64 × Bool × List Nat :=
  let m := 2 ^ (8 * fmtBytes t)
  let lo := fun (v : BitVec 64) => v.toNat % m
  let pick := fun (less : Bool) =>
    if t == .f32 then BitVec.ofNat 64 (fminmax .f32 less (lo old) (lo x))
    else if (decide (intOf t x < intOf t old)) == less then x else old
  match op with
  | .add =>
    if t == .f32 then
      let a := ofCode .f32 (lo old)
      let b := ofCode .f32 (lo x)
      let r := fresult .f32 .rne [a, b] (XVal.add .rne a b)
      (BitVec.ofNat 64 r.1, true, r.2)
    else (BitVec.ofNat 64 ((lo old + lo x) % m), true, [])
  | .min => (pick true, true, [])
  | .max => (pick false, true, [])
  | .and => (old &&& x, true, [])
  | .or => (old ||| x, true, [])
  | .xor => (old ^^^ x, true, [])
  | .exch => (x, true, [])
  | .cas => if lo old = lo cmp then (x, true, []) else (old, false, [])

/-! ## Lanes of an operation -/

/-- The operation has an instruction parked for PAGE. -/
def opParked (s : State) (o : Op) (op : Nat) : Bool :=
  match s.group? o.gid with
  | some g => g.parks.any (fun p => p.op == op)
  | none => false

/-- A lane of an operation is performed in a latency class (R60). -/
def classify (s : State) (op cls : Nat) (hit : Bool) : State :=
  s.modOp op (fun o => { o with cls := Nat.max o.cls (cls + 1), hits := o.hits && hit })

/-- A request ends: its lane is complete (R115). -/
def laneDone (s : State) (rid op : Nat) : State :=
  ({ s with reqs := SMap.del s.reqs rid }).modOp op (fun o => { o with left := o.left - 1 })

/-- A crew is on two cores. -/
def pairCrew (s : State) (c : Nat) : Bool := ((s.crew? c).map (fun c => decide (c.cores.length = 2))).getD false

/-- What follows a change of the lanes of an operation: with its last lane its line holds end (R114), an acquire whose lanes are all performed invalidates
the L1 (R112), `sc` sees a returning atomic performed (R115), and a complete operation retires. -/
def settle (s : State) (op : Nat) : State :=
  match SMap.find? s.ops op with
  | none => s
  | some o =>
    match s.group? o.gid with
    | none => s
    | some g =>
      let open_ := s.reqs.filter (fun e => e.2.op == op && !e.2.performed)
      let kept := s.lineHolds.filter (fun h => h.2 != op || !open_.isEmpty)
      let s1 := if kept.length = s.lineHolds.length then s else wakeAll { s with lineHolds := kept } (· == .held)
      let s2 := wakeGroup (pruneFences s1 o.gid) o.gid drainPark
      if !open_.isEmpty || opParked s o op then s2
      else
        let s3 := match o.acq with
          | some sc =>
            let s3 := l1Acquire s2 g.core sc (pairCrew s2 g.crew)
            (if sc == .sy then dropCopies s3 else s3).modOp op (fun o => { o with acq := none })
          | none => s2
        -- its event counts when it is performed (R60, R318)
        let s3 := (countClass s3 o).modOp op (fun o => { o with cls := 0 })
        let waiting := s3.reqs.any (fun e => e.2.op == op && e.2.dst == .none)
        let s4 := if o.ctrs == [.lc, .sc] && !waiting then
            wakeGroup (s3.modGroup o.gid (fun g => g.complete .sc op)) o.gid drainPark
          else s3
        if o.left = 0 && !o.precise then completeOp s4 op else s4

/-- A lane is performed with a value; a lane that writes no register is complete with it. -/
def lanePerformed (s : State) (rid : Nat) (r : Req) (cls : Nat) (hit : Bool) (val : BitVec 64) (bad : Nat) : State :=
  let s1 := classify s r.op cls hit
  let s2 := if r.dst == .none && !((SMap.find? s1.ops r.op).map Op.precise).getD false then laneDone s1 rid r.op
    else { s1 with reqs := SMap.ins s1.reqs rid { r with performed := true, val := val, vPoison := bad } }
  settle s2 r.op

/-- A lane ends with a fault held for report and a free destination (R100, R326, R328; DESIGN CHOICE, log 4). -/
def laneFaulted (s : State) (rid : Nat) (r : Req) (k : Ctr) (f : FaultInfo) : State :=
  let (fr, s1) := (holdFault s r.gid k r.op f).draw
  let s2 := if r.dst == .none then laneDone s1 rid r.op
    else { s1 with reqs := SMap.ins s1.reqs rid { r with performed := true, val := freeAt fr 0, vPoison := 0 } }
  settle s2 r.op

/-- The fault record of a lane of a request. -/
def reqFault (r : Req) (cause detail : Nat) : FaultInfo := { FaultInfo.of cause detail with addr := r.va, lane := r.lane }

/-- The counter on which a request's faults are held (R116). -/
def Req.ctr (r : Req) : Ctr := if r.kind == .load then .lc else .sc

/-! ## L1 room (R49, R55) -/

/-- The L1 holds a line or has room for one; eviction is an event (R55). -/
def l1Room (s : State) (core line : Nat) : Bool :=
  l1Valid s core line || decide ((s.core core).l1.length < l1Capacity s core)

/-- Install a line. -/
def l1Install (s : State) (core line : Nat) (l : L1Line) : State :=
  s.modCore core (fun c => { c with l1 := SMap.ins c.l1 line l })

/-! ## Windows (R322, R325 to R328) -/

/-- The key of a stream. -/
def streamKey (far ctx : Nat) : Nat := 64 * far + ctx

/-- A stream. -/
def State.stream (s : State) (far ctx : Nat) : Stream := SMap.get s.linkStreams Stream.reset (streamKey far ctx)

/-- Change a stream. -/
def State.modStream (s : State) (far ctx : Nat) (f : Stream → Stream) : State :=
  { s with linkStreams := SMap.ins s.linkStreams (streamKey far ctx) (f (s.stream far ctx)) }

/-- A store of this core to the line has passed through the L1 and is not performed (R109). -/
def storePassed (s : State) (core line : Nat) : Bool :=
  s.reqs.any (fun e => e.2.core == core && e.2.kind == .store && e.2.sp == .g && e.2.forwarded && !e.2.performed
    && lineOf e.2.pa == line)

/-- A request lost with its port: LINKLOST, with the ASEQ of an atomic lane in AUX (R328). -/
def linkLost (s : State) (rid : Nat) (r : Req) : State :=
  if r.kind == .pref then { s with reqs := SMap.del s.reqs rid }
  else laneFaulted s rid r r.ctr { reqFault r 18 0 with aux := BitVec.ofNat 16 r.aseq }

/-- A lower lane of the same atomic has not been sent to the same far end (R327). -/
def lowerUnsent (s : State) (r : Req) : Bool :=
  s.reqs.any (fun e => e.2.op == r.op && e.2.lane < r.lane && !e.2.sent && !e.2.performed && inWindow s.lnkid e.2.pa
    && farOf s e.2.pa == farOf s r.pa)

/-- The data of a window line fills the L1 of the core that asked for it, when there is room. -/
def windowFill (s : State) (r : Req) (data : BitVec 1024) (frozen : Bool) : State :=
  let line := lineOf r.pa
  if l1Room s r.core line && !storePassed s r.core line then l1Install s r.core line ⟨data, r.colour, frozen, false⟩ else s

/-- A request of a context from a die reaches the home of a window line, and counts as a hit or a miss of its slice (R312, R317, R320, R322). -/
def windowServe (s : State) (die ctx line : Nat) (sup : Bool) : State :=
  countEvent (l2Window (hubCross s die line) ctx line) ctx (if (SMap.find? s.farCopies line).isSome then 12 else 13) 1 sup true

/-- A lane's request reaches the home of a window line. -/
def windowTouch (s : State) (r : Req) : State := windowServe s (dieOfCore r.core) r.ctx (lineOf r.pa) r.sup

/-- The home serves an access to a window (R106, R322, R325, R327): a load from a valid L1 copy or from the copy that the home holds; all else
is forwarded. A request whose port is down is lost. An atomic makes its line a synchronisation line, and no copy of the line that is older stays
with its core or its home (R108, R113). -/
def windowAccess (s : State) (rid : Nat) (r : Req) : State :=
  let far := farOf s r.pa
  let line := lineOf r.pa
  let go := fun (s : State) (r : Req) (p : OutPacket) =>
    sendPacket (linkUse (windowTouch { s with reqs := SMap.ins s.reqs rid { r with sent := true } } r) r.ctx far true (packetFlits p.data)) far p
  let reads := r.kind == .load || r.kind == .pref
  if r.sent then s
  else
    match reads, SMap.find? (s.core r.core).l1 line, SMap.find? s.farCopies line with
    | true, some l, _ => lanePerformed s rid r 2 true (BitVec.ofNat 64 (lineNat l.data (r.pa % 128) r.width)) 0
    | true, none, some ⟨d, fz, none⟩ =>
      if storePassed s r.core line then s
      else lanePerformed (windowFill (windowTouch s r) r d fz) rid r 5 false (BitVec.ofNat 64 (lineNat d (r.pa % 128) r.width)) 0
    | _, _, _ =>
      if !(s.port far).up then linkLost (dropCopy s r.pa) rid r
      else match r.kind with
        | .load | .pref => go s r { OutPacket.of 0 r.ctx (farAddr (128 * line)) [] with len := 127 }
        | .store => go (passCopy s r.pa) r (.of 1 r.ctx (farAddr r.pa) (bytesOf r.data.toNat r.width))
        | .atom =>
          let st := s.stream far r.ctx
          if 4096 ≤ st.outstanding || lowerUnsent s r then s
          else
            let data := if r.aop == .cas then bytesOf r.cmp.toNat r.width ++ bytesOf r.data.toNat r.width
              else bytesOf r.data.toNat r.width
            let s1 := s.modStream far r.ctx (fun st => { st with nextAseq := (st.nextAseq + 1) % 65536,
                                                                 outstanding := st.outstanding + 1 })
            let s2 := l1DropLine (passCopy s1 r.pa) r.core line
            go { s2 with syncLines := setIns s2.syncLines line } { r with aseq := st.nextAseq }
              { OutPacket.of 2 r.ctx (farAddr r.pa) data with
                aseq := st.nextAseq, aop := r.aop.code, typ := r.ty.code, ord := r.ord.code }
        | .frzq => s

end Sys2Proof.Machine
end

