-- ==== Sys2Proof/Machine/Range.lean ====
section
/-! DEFINITION. What the system instructions share: group-uniform execution with a replayable PAGE (R211, R292), ranges of pages and
the 9600's writes to their entries (R66, R97, R288), shootdowns (R67, R291), the green room (R40), and words of a crew's scratchpad. -/

namespace Sys2Proof.Machine

/-! ## Group-uniform instructions -/

/-- Run `body` for a group-uniform instruction that blocks and leaves no latch result (R156, R212): with an empty effective mask it
does nothing. An earlier PAGE of this instruction is being replayed, so its mark goes. -/
def uniform (r : Reads) (s : State) (body : Nat → Group → State → State) : Out :=
  withReads r s fun gid g eff s =>
    if eff = 0 then .next (finish s gid g .none true)
    else
      let s1 := match g.parkHere with
        | some p => forsake s gid p
        | none => s
      .next (match s1.group? gid with
        | some g1 => body gid g1 s1
        | none => s1)

/-- An instruction that acts whatever the effective mask. -/
def anyMask (r : Reads) (s : State) (body : Nat → Group → State → State) : Out :=
  withReads r s fun gid g _ s =>
    let s1 := match g.parkHere with
      | some p => forsake s gid p
      | none => s
    .next (match s1.group? gid with
      | some g1 => body gid g1 s1
      | none => s1)

/-- Raise a fault of an instruction that counts on no counter; at PAGE it stays parked for its replay (R211). -/
def stopWith (s : State) (gid : Nat) (f : FaultInfo) : State :=
  if f.cause = 7 then
    let (op, s1) := s.fresh
    raise (s1.modGroup gid (fun g => { g with parks := ⟨g.pc, g.frames.length, g.sup, op, 0, 0, 1, g.pair.filter (fun p => p.pc == g.pc)⟩ :: g.parks })) gid f
  else raise s gid f

/-- The fault of a group-uniform access at `va`: ADDR holds it for PAGE only (R277). -/
def XErr.lane0 (e : XErr) (va : Word) : FaultInfo :=
  match e with
  | .page _ _ _ => { e.info with addr := va }
  | _ => e.info

/-- Every earlier access of a group is performed: a release (R112, R119). -/
def quiet (s : State) (gid : Nat) : Bool := !pendingIn s gid 0 s.nextId && !copiesIn s gid 0 s.nextId

/-! ## Ranges of pages -/

/-- The pages of a range with their walks, ascending, up to the first one that raises PAGE or has first to read a window line. -/
def rangePages (s : State) (ctx : Nat) : Nat → Nat → Nat → List (Nat × Except XErr Leaf)
  | 0, _, _ => []
  | fuel + 1, va, left =>
    if left = 0 then []
    else
      let w := walk s ctx (BitVec.ofNat 64 va)
      match w with
      | .error (.page _ _ _) | .error (.far _) => [(va % 2 ^ 64, w)]
      | .error _ => (va % 2 ^ 64, w) :: rangePages s ctx fuel (va + 4096) (left - 4096)
      | .ok l =>
        let n := l.size - va % l.size
        (va % 2 ^ 64, w) :: rangePages s ctx fuel (va + n) (left - n)

/-- The pages of `n` bytes from `a`. -/
def pagesOf (s : State) (ctx : Nat) (a n : Word) : List (Nat × Except XErr Leaf) :=
  rangePages s ctx (n.toNat / 4096) a.toNat n.toNat

/-- Check 2 of R66 and R97: PAGE on the lowest page; or the walk that has first to read a window line. -/
def rangePage (ps : List (Nat × Except XErr Leaf)) : Option FaultInfo :=
  ps.findSome? (fun p => match p.2 with
    | .error (.page d c n) => some ((XErr.page d c n).lane0 (BitVec.ofNat 64 p.1))
    | .error (.far pa) => some (FaultInfo.far pa)
    | _ => none)

/-- Check 3: a page translates as a write at the level, without the frozen check. -/
def rangeProt (s : State) (sup : Bool) (ps : List (Nat × Except XErr Leaf)) : Option FaultInfo :=
  ps.findSome? (fun p => match p.2 with
    | .error (.fault c d) => some (FaultInfo.of c d)
    | .error _ => none
    | .ok l => match checkLeaf s.lnkid (BitVec.ofNat 64 p.1) sup .write false l.e l.size with
      | .error e => some e.info
      | .ok _ => none)

/-- The leaves of pages that are all resident. -/
def rangeLeaves (ps : List (Nat × Except XErr Leaf)) : List (Nat × Leaf) :=
  ps.filterMap (fun p => match p.2 with
    | .ok l => some (p.1, l)
    | .error _ => none)

/-- The 9600's write of a field of a leaf for a context: one read-modify-write at the entry's home (R288). -/
def patchLeaf (s : State) (ctx : Nat) (l : Leaf) (f : BitVec 64 → BitVec 64) : State :=
  match s.homeNat? l.at_ 8 with
  | some e => ownWords s ctx l.at_ [(f (BitVec.ofNat 64 e)).toNat]
  | none => s

/-! ## Shootdowns -/

/-- The physical ranges that a range of pages maps, whether or not all of its pages are resident. -/
def mappedRanges (s : State) (ctx : Nat) : Nat → Nat → Nat → List (Nat × Nat)
  | 0, _, _ => []
  | fuel + 1, va, left =>
    if left = 0 then []
    else match walk s ctx (BitVec.ofNat 64 va) with
      | .error _ => mappedRanges s ctx fuel (va + 4096) (left - 4096)
      | .ok l =>
        let n := Nat.min left (l.size - va % l.size)
        let pa := pteAddr l.e + va % l.size
        (pa, pa + n) :: mappedRanges s ctx fuel (va + n) (left - n)

/-- A shootdown covers a virtual address: a range that passes the top goes on at 0, and a `tlbinv` of length 0 covers every one. -/
def Shoot.covers (sh : Shoot) (va n : Nat) : Bool :=
  let all := sh.hi == sh.lo
  all || decide (sh.lo < va + n ∧ va < sh.hi) || decide (sh.lo < va + n + 2 ^ 64 ∧ va + 2 ^ 64 < sh.hi)

/-- The signed form of a TLB entry's base: entries hold 57 bits. -/
def tlbBase (t : TlbEntry) : Nat := if 2 ^ 56 ≤ t.base then t.base + 2 ^ 64 - 2 ^ 57 else t.base

/-- A shootdown matches a TLB entry. -/
def Shoot.matches (sh : Shoot) (t : TlbEntry) : Bool := t.ctx == sh.ctx && sh.covers (tlbBase t) t.size

/-- The entries of a TLB that a shootdown leaves. -/
def Shoot.keep (sh : Shoot) (l : List TlbEntry) : List TlbEntry := l.filter (fun t => !sh.matches t)

/-- The physical ranges of the TLB entries that a shootdown matches: the mappings as they were. -/
def heldRanges (s : State) (sh : Shoot) : List (Nat × Nat) :=
  let tlbs := s.cores.flatMap (fun e => e.2.tlb ++ e.2.ahead ++ e.2.copyTlb) ++ s.quadTlb.flatMap Prod.snd ++ s.engineTlb.flatMap Prod.snd
  (tlbs.filter sh.matches).map (fun t => (pteAddr t.leaf, pteAddr t.leaf + t.size))

/-- A shootdown is accepted; its group parks. `granules` are those of a thaw that are recalled, `locks` those that a `freeze` or `thaw`
holds until it completes (R97). -/
def beginShoot (s : State) (gid : Nat) (g : Group) (kind : Maint) (a n : Word) (granules locks : List Nat) : State :=
  let (i, s1) := s.fresh
  let sh : Shoot := { ctx := s.ctxOf g, gid := gid, kind := kind, lo := a.toNat, hi := a.toNat + n.toNat, phys := [], waits := [],
                      granules := granules, locks := locks, shot := false }
  let phys := mappedRanges s sh.ctx (n.toNat / 4096) a.toNat n.toNat ++ heldRanges s sh
  park { s1 with shoots := SMap.ins s1.shoots i { sh with phys := phys } } gid g .maintenance

/-- A shootdown takes an L1 line: one of the lines that its range maps; one of length 0 takes every line. -/
def Shoot.hits (sh : Shoot) (line : Nat) : Bool :=
  sh.hi == sh.lo || sh.phys.any (fun p => decide (p.1 < 128 * (line + 1) ∧ 128 * line < p.2))

/-- The L1 lines of the range of a shootdown go, frozen or not, with their leases and the fills on their way, so that none keeps an old colour tag
(R56, R67). -/
def invalidateLines (s : State) (sh : Shoot) : State :=
  { s with cores := s.cores.map (fun (e : Nat × CoreSt) => (e.1, { e.2 with l1 := e.2.l1.filter (fun l => !sh.hits l.1) })),
           leases := s.leases.filter (fun e => !sh.hits e.1), fills := s.fills.filter (fun e => !sh.hits e.2.line) }

/-- The invalidations of a shootdown: the TLB entries of the context on every core and quad and in every engine, the homes' copies of window lines,
which walks read, and the L1 lines of the range (R56, R67, R291). -/
def invalidate (s : State) (sh : Shoot) : State :=
  let s1 := dropWhere s (fun _ _ => true)
  invalidateLines { s1 with
    cores := s1.cores.map (fun (e : Nat × CoreSt) =>
      (e.1, { e.2 with tlb := sh.keep e.2.tlb, ahead := sh.keep e.2.ahead, copyTlb := sh.keep e.2.copyTlb })),
    quadTlb := s1.quadTlb.map (fun e => (e.1, sh.keep e.2)),
    engineTlb := s1.engineTlb.map (fun e => (e.1, sh.keep e.2)) } sh

/-- A byte address of a context lies on a page that is not resident. -/
def pageAway (s : State) (ctx va : Nat) : Bool :=
  match walk s ctx (BitVec.ofNat 64 va) with
  | .error (.page _ _ _) => true
  | _ => false

/-- The global places of the elements that a copy has still to read and write. -/
def Copy.places (c : Copy) : List (Nat × Nat) :=
  c.todo.flatMap (fun i =>
    (if c.dst.space = 0 then [(c.dst.addr (boxCoord c.dst i), c.dst.width)] else [])
      ++ (if c.src.space = 0 && c.vals.isNone && c.src.within (boxCoord c.src i) then [(c.src.addr (boxCoord c.src i), c.src.width)] else []))

/-- A copy is held by a page that is not resident: it has translated nothing there. -/
def Copy.away (s : State) (c : Copy) : Bool := c.places.any (fun p => pageAway s c.ctx p.1)

/-- An operation of the array has started to translate: it is not halted, a joint one has been issued by all four members (R248), and every page
of its operands is resident. -/
def MOp.started (s : State) (ctx : Nat) (arr : ArraySt) (o : MOp) : Bool :=
  let set := fun (gid : Nat) => (s.group? gid).bind (fun g => (s.crewOf g).map (fun c => (c.launch, c.idx / 4)))
  !o.complete && !arr.halted
    && (o.kind != .mmaq || decide (4 ≤ (s.cores.flatMap (fun e => e.2.array.ops.filter (fun x =>
        x.kind == .mmaq && x.joint == o.joint && set x.gid == set o.gid))).length))
    && !o.reads.any (fun r => r.1 = 0 && pageAway s ctx r.2.1)

/-- A write to a window that an engine makes for a group. -/
def FarOwner.engine : FarOwner → Bool
  | .copy _ _ | .image _ => true
  | .own | .launch _ _ => false

/-- The accesses that a shootdown waits for: the requests, copies, matrix operations and window writes of the context to the range that are
not performed (R67, R253). What stands before a page that is not resident has translated nothing, and is not waited for (DESIGN CHOICE,
log 51). -/
def shootWaits (s : State) (sh : Shoot) : List Nat :=
  let stuck := fun (c : Copy) => c.away s || (SMap.get s.engines [] c.unit).any (fun k => match SMap.find? s.copies k with
    | some d => c.unit != 16 && d.away s
    | none => false)
  (s.reqs.filter (fun e => e.2.ctx == sh.ctx && e.2.sp == .g && !e.2.performed && sh.covers e.2.va.toNat e.2.width)).map Prod.fst
    ++ (s.copies.filter (fun e => e.2.ctx == sh.ctx && e.2.places.any (fun p => sh.covers p.1 p.2) && !stuck e.2)).map Prod.fst
    ++ s.cores.flatMap (fun e => (e.2.array.ops.filter (fun o => o.reads.any (fun r => r.1 = 0 && sh.covers r.2.1 r.2.2)
        && ((s.group? o.gid).map (fun g => s.ctxOf g == sh.ctx)).getD false && o.started s sh.ctx e.2.array)).map MOp.id)
    ++ (s.farWrites.filter (fun e => e.2.owner.engine && e.2.ctx == sh.ctx && sh.covers e.2.va.toNat e.2.n)).map Prod.fst

/-- An access that a shootdown waits for is not performed. -/
def stillOut (s : State) (i : Nat) : Bool :=
  ((SMap.find? s.reqs i).map (fun r => !r.performed)).getD false || (SMap.find? s.copies i).isSome || (SMap.find? s.farWrites i).isSome
    || s.cores.any (fun e => e.2.array.ops.any (fun o => o.id == i && !o.complete))

/-- SHOOTDOWN_COMPLETE (R291): first the invalidations, then, when the accesses under old entries are performed and the granules of a
thaw accept writes, the group becomes Ready. Shootdowns of one context complete in order. -/
def execShootdownComplete (i : Nat) (s : State) : Out :=
  .next (match SMap.find? s.shoots i with
    | none => s
    | some sh =>
      if !sh.shot then
        { invalidate s sh with shoots := SMap.ins s.shoots i { sh with shot := true, waits := shootWaits s sh } }
      else if sh.waits.any (stillOut s) || !sh.granules.isEmpty
        || s.shoots.any (fun e => decide (e.1 < i) && e.2.ctx == sh.ctx) then s
      else
        let s0 := { s with shoots := SMap.del s.shoots i }
        -- a line that an access under an old entry brought in since goes too (R67)
        let s1 := wakeAll (invalidateLines s0 sh) (· == .granule)
        match s1.group? sh.gid with
        | some g => finishAt s1 sh.gid g (· == .parked .maintenance)
        | none => s1)

/-! ## The green room (R40) -/

/-- Registrations on a die. -/
def greenUse (s : State) (die : Nat) : Nat := (s.green.filter (fun e => e.die == die)).length

/-- A group registers in the green room of a die, or waits for its back-off. -/
def greenRegister (s : State) (gid die : Nat) (key : WaitKey) : State :=
  if greenUse s die < 4096 then
    { s with green := s.green ++ [⟨die, gid, key⟩], backoffs := SMap.del s.backoffs gid }
  else
    let d := match SMap.find? s.backoffs gid with
      | some b => Nat.min (2 * b.delay) 4096
      | none => 64
    { s with backoffs := SMap.ins s.backoffs gid ⟨d, s.clock + d⟩ }

/-- The instruction of a group waits in the green room (R31, R40). -/
def greenWait (s : State) (gid : Nat) (g : Group) (die : Nat) (key : WaitKey) : State :=
  greenRegister (releaseStream (s.setGroup gid { g with status := .waiting key, issued := true }) gid) gid die key

/-! ## Scratchpad words -/

/-- The words of a scratchpad that are poisoned. -/
def scratchBad (c : Crew) (o n : Nat) : Bool := c.scratchPoison.any (fun w => decide (w * 4 < o + n ∧ o < w * 4 + 4))

/-- The 8-byte word of a scratchpad at an offset. -/
def Crew.word (c : Crew) (o : Nat) : BitVec 64 := BitVec.ofNat 64 (Memory.readNat c.scratch o 8)

/-- Write an 8-byte word. -/
def Crew.setWord (c : Crew) (o : Nat) (v : BitVec 64) : Crew := { c with scratch := Memory.writeNat c.scratch o v.toNat 8 }

end Sys2Proof.Machine
end

