-- ==== Sys2Proof/Machine/Freeze.lean ====
section
/-! DEFINITION. Freezing and thawing (R96 to R105, R226). -/

namespace Sys2Proof.Machine

/-! ## The checks of R97 -/

/-- Check 4: each 64 KiB block of the range maps to one aligned granule. -/
def blocksAligned (ls : List (Nat × Leaf)) : Bool :=
  ls.all (fun p =>
    let pa := pteAddr p.2.e + p.1 % p.2.size
    let block := p.1 - p.1 % 65536
    decide (pa % 65536 = p.1 % 65536)
      && ls.all (fun q => q.1 - q.1 % 65536 != block || granuleOf (pteAddr q.2.e + q.1 % q.2.size) == granuleOf pa || decide (65536 < p.2.size)))

/-- The granules that a list of leaves maps within a range, ascending. -/
def rangeGranules (hi : Nat) (ls : List (Nat × Leaf)) : List Nat :=
  ls.foldl (fun acc p =>
    let pa := pteAddr p.2.e + p.1 % p.2.size
    let n := Nat.min (p.2.size - p.1 % p.2.size) (hi - p.1)
    (List.range ((n + 65535) / 65536)).foldl (fun acc i => setIns acc (granuleOf pa + i)) acc) []

/-- A freeze-table entry. -/
def State.frozenEntry (s : State) (gr : Nat) : FreezeEntry := SMap.get s.freezeTable FreezeEntry.none gr

/-- Write a freeze-table entry. -/
def State.setFrozen (s : State) (gr : Nat) (e : FreezeEntry) : State :=
  { s with freezeTable := SMap.put s.freezeTable FreezeEntry.none gr e }

/-- The first five checks: the fault, or the leaves of the range. -/
def freezeChecks (s : State) (g : Group) (a n : Word) : Except FaultInfo (List (Nat × Leaf)) :=
  if a.toNat % 65536 ≠ 0 || n.toNat % 65536 ≠ 0 || n.toNat = 0 then .error (FaultInfo.of 6 8)
  else
    let ps := pagesOf s (s.ctxOf g) a n
    match rangePage ps with
    | some f => .error f
    | none => match rangeProt s g.sup ps with
      | some f => .error f
      | none =>
        let ls := rangeLeaves ps
        if !blocksAligned ls then .error (FaultInfo.of 6 8)
        else if ls.any (fun p => !inHbm (pteAddr p.2.e)) then .error (FaultInfo.of 8 10)
        else .ok ls

/-- What `freeze` and `thaw` share: the checks, a thaw in progress and the granules that another holds, which they wait for, and check 6. -/
def withGranules (k : BitVec 4) (a n : SSrc) (thawing : Bool) (s : State)
    (body : Nat → Group → List (Nat × Leaf) → List Nat → State → State) : Out :=
  uniform { g := k, ss := [a, n] } s fun gid g s =>
    match freezeChecks s g (g.sval a) (g.sval n) with
    | .error f => stopWith s gid f
    | .ok ls =>
      let gs := rangeGranules ((g.sval a).toNat + (g.sval n).toNat) ls
      -- a poisoned entry of the freeze table (R339)
      if gs.any s.freezePoison.contains then raiseCD s gid 17 6
      else if gs.any (fun x => (s.frozenEntry x).thawing || s.shoots.any (fun e => e.2.locks.contains x)) then park s gid g .granule
      else if gs.any (fun x => (s.frozenEntry x).count == (if thawing then 0 else 255)) then
        raiseCD s gid 8 (if thawing then 9 else 8)
      else body gid g ls gs s

/-- Write FRZ into the leaves where it differs. -/
def patchFrz (s : State) (ctx : Nat) (ls : List (Nat × Leaf)) (v : Bool) : State :=
  ls.foldl (fun s p => if pteFrz p.2.e == v then s
    else patchLeaf s ctx p.2 (fun e => if v then e ||| 0x800 else e &&& ~~~(0x800 : BitVec 64))) s

/-- Recall every lease on the lines of a granule. -/
def recallGranule (s : State) (gr : Nat) : State :=
  (s.leases.filter (fun e => e.1 / 512 == gr)).foldl (fun s e => recallLease s none e.1) s

/-- `freeze` (R98): leases are recalled, the count rises, the attribute is set, and a shootdown follows. -/
def execFreeze (k : BitVec 4) (a n : SSrc) (s : State) : Out :=
  withGranules k a n false s fun gid g ls gs s =>
    let s1 := gs.foldl (fun s x =>
      let e := s.frozenEntry x
      (recallGranule s x).setFrozen x { e with count := e.count + 1 }) s
    -- the attribute is written after the count: an entry that lies in a granule of its own range stays as it was (R356)
    beginShoot (patchFrz s1 (s.ctxOf g) ls true) gid g .freeze (g.sval a) (g.sval n) [] gs

/-- The recall sequence number of a granule home is taken by the eight slices of its stack, whose lines the granule has (R53, R96, R103; DEDUCED,
log 66). -/
def putSeqs (m : SMap (BitVec 32)) (slice : Nat) (q : BitVec 32) : SMap (BitVec 32) :=
  (List.range 8).foldl (fun m i => SMap.put m 0 (slice - slice % 8 + i) q) m

/-- The granule home starts a thaw (R102): it takes the next recall sequence number and recalls every holder; a holder that is a
package is sent a recall flit (R331). -/
def beginThaw (s : State) (gr : Nat) (e : FreezeEntry) : State :=
  let sl := homeSlice (65536 * gr)
  let q := SMap.get s.sliceSeq 0 sl + 1
  let s1 := (s.setFrozen gr { e with count := 0, thawing := true })
  let s2 := { s1 with sliceSeq := putSeqs s1.sliceSeq sl q, thaws := SMap.ins s1.thaws gr (q.toNat, e.holders) }
  (List.range 16).foldl (fun s p =>
    if e.holders.getLsbD (6 + p) then
      if (s.port p).up then sendPacket s p { OutPacket.of 8 0 (65536 * gr) [] with rseq := q.toNat }
      -- a lost package's acknowledgement counts as given (R331)
      else { s with thaws := SMap.upd s.thaws gr (fun t => (t.1, t.2 &&& ~~~(BitVec.ofNat 22 (2 ^ (6 + p))))) }
    else s) s2

/-- `thaw` (R102): the attribute is cleared with a shootdown, the counts fall, and the granules that reach 0 are recalled. -/
def execThaw (k : BitVec 4) (a n : SSrc) (s : State) : Out :=
  withGranules k a n true s fun gid g ls gs s =>
    let s1 := patchFrz s (s.ctxOf g) ls false
    let last := gs.filter (fun x => (s1.frozenEntry x).count == 1)
    let s2 := gs.foldl (fun s x =>
      let e := s.frozenEntry x
      if e.count = 1 then beginThaw s x e else s.setFrozen x { e with count := e.count - 1 }) s1
    beginShoot s2 gid g .thaw (g.sval a) (g.sval n) last gs

/-- `frzq` (R104): a read of the freeze state that counts on `lc` and marks the crew volatile (R89). -/
def execFrzq (k : BitVec 4) (d : BitVec 6) (a : SSrc) (s : State) : Out :=
  withReads { g := k, ss := [a] } s fun gid g eff s =>
    .next (memIssue s gid g
      { kind := .frzq, sp := .g, ty := .n8, ctrs := [.lc], need := .read, uniform := true, dst := .s d.toNat }
      (if eff = 0 then [] else [{ lane := 0, va := g.sval a }]))

/-! ## Recalls of a thaw -/

/-- A holder acknowledges. -/
def ackThaw (s : State) (gr holder : Nat) : State :=
  { s with thaws := SMap.upd s.thaws gr (fun t => (t.1, t.2 &&& ~~~(BitVec.ofNat 22 (2 ^ holder)))) }

/-- The cores of the L1s that a die holds. -/
def coresOfDie (d : Nat) : List Nat := (List.range 64).map (fun i => 64 * d + i)

/-- THAW_RECALL_ARRIVE (R102): a die invalidates every line of the granule in its L1s, records the number, and acknowledges. -/
def execThawRecallArrive (gr holder : Nat) (s : State) : Out :=
  .next (match SMap.find? s.thaws gr with
    | none => s
    | some t =>
      if 6 ≤ holder || !t.2.getLsbD holder then s
      else
        let sl := homeSlice (65536 * gr)
        let s1 := (coresOfDie holder).foldl (fun s c =>
          (l1Drop s c (fun l _ => l / 512 == gr)).modCore c (fun x => { x with
            recallSeq := putSeqs x.recallSeq sl (BitVec.ofNat 32 t.1) })) s
        ackThaw s1 gr holder)

/-- THAW_RECALL_COMPLETE (R102): with every acknowledgement the granule home stamps the tiles, sets the thaw generation, clears the
entry and accepts writes. -/
def execThawRecallComplete (gr : Nat) (s : State) : Out :=
  .next (match SMap.find? s.thaws gr with
    | none => s
    | some t =>
      if t.2 ≠ 0 then s
      else
        let s1 := (List.range 16).foldl (fun s i => { s with stamps := SMap.ins s.stamps (16 * gr + i) s.gen }) { s with
          stampPoison := s.stampPoison.filter (fun t => t / 16 != gr) }
        let s2 := (s1.setFrozen gr FreezeEntry.none)
        let s3 := { s2 with thaws := SMap.del s2.thaws gr, thawGen := s2.gen,
                            shoots := s2.shoots.map (fun e => (e.1, { e.2 with granules := setDel e.2.granules gr })) }
        wakeAll s3 (· == .granule))

end Sys2Proof.Machine
end

