-- ==== Sys2Proof/Machine/Home.lean ====
section
/-! DEFINITION. Events of memory: requests performed at their home, in a scratchpad or under a lease, loads that return, fills,
leases, rejected writes, `.p` accesses and flits (R48, R55 to R58, R62, R100, R103, R106, R113 to R115). -/

namespace Sys2Proof.Machine

/-! ## Requests in HBM -/

/-- The latency class of an access at its home, before the access touches the L2 (R60). -/
def homeClass (s : State) (core pa : Nat) : Nat :=
  if (SMap.find? s.l2 (lineOf pa)).isNone then 4
  else if dieOfSlice (homeSlice pa) = dieOfCore core then 2 else 3

/-- A load: from a valid L1 copy, else at the home after the recall of another core's lease; the miss fills the line (R106,
R109). -/
def performLoad (s : State) (rid : Nat) (r : Req) : State :=
  let line := lineOf r.pa
  match SMap.find? (s.core r.core).l1 line with
  | some l => lanePerformed s rid r 2 true (BitVec.ofNat 64 (lineNat l.data (r.pa % 128) r.width)) (memBad s r.pa r.width)
  | none =>
    if storePassed s r.core line then s
    else
      let s1 := recallLease s (some r.core) line
      let cls := homeClass s1 r.core r.pa
      let s2 := sendFill (l2Touch s1 (dieOfCore r.core) r.ctx line r.sup false) r.core r.pa r.colour
      lanePerformed s2 rid r cls false (BitVec.ofNat 64 (Memory.readNat s2.mem r.pa r.width)) (memBad s r.pa r.width)

/-- A rejected write (R100): the fault is held; a store or reduction goes back to its core first (`writeRejectReturn`). -/
def rejectReq (s : State) (rid : Nat) (r : Req) : State :=
  let s1 := holdFault s r.gid .sc r.op (reqFault r 10 1)
  let (fr, s2) := s1.draw
  settle { s2 with reqs := SMap.ins s2.reqs rid { r with performed := true, val := freeAt fr 0 } } r.op

/-- The core holds the lease of a line with its copy: an access is performed in its L1 (R57). -/
def leaseHeld (s : State) (core line : Nat) : Bool := SMap.find? s.leases line == some core && l1Valid s core line

/-- A store at its home, or under the lease of its core, where it is an L1 hit (R60, R106, R109, R113). -/
def performStore (s : State) (rid : Nat) (r : Req) : State :=
  let line := lineOf r.pa
  let leased := leaseHeld s r.core line
  match homeWrite s r.ctx (some r.core) false r.pa r.width r.data.toNat r.dPoison with
  | (false, s1) => rejectReq s1 rid r
  | (true, s1) =>
    let s1 := noteForeign (if r.forwarded then s1 else l1Update s1 r.core r.pa r.width r.data.toNat) r.crew r.pa r.width
    let s2 := noteWrite s1 r.crew (0, r.va.toNat, r.width) r.gid r.op
    if leased then lanePerformed s2 rid r 2 true 0 0
    else
      let cls := homeClass s2 r.core r.pa
      lanePerformed (l2Touch s2 (dieOfCore r.core) r.ctx line r.sup true) rid r cls false 0 0

/-- The home grants a lease with the line's data (R57): a write for the stamp map. It is not granted on a frozen granule, nor
without room in the L1, nor while a store of the core that has passed through its L1 is on its way to the line (R108); `none` says so. -/
def grantLease (s : State) (core pa colour : Nat) : Option State :=
  let line := lineOf pa
  if storePassed s core line then none
  else if leaseHeld s core line then some s
  else if !l1Room s core line then none
  else
    let s1 := stampTile (recallLease s (some core) line) pa
    let s2 := l1Install s1 core line ⟨homeLine s1 line, colour, false, true⟩
    some { s2 with leases := SMap.ins s2.leases line core }

/-- An atomic makes its line a synchronisation line and sets its scope record (R113, R114). -/
def markAtomic (s : State) (line crew : Nat) (scope : Scope) (outside : Bool) : State :=
  { s with syncLines := setIns s.syncLines line, scopes := SMap.ins s.scopes line ⟨scope, crew, outside⟩ }

/-- The poisoned words of what an atomic writes: those of its data, and all where the old value is poisoned and enters it (R339). -/
def atomMarks (r : Req) (old : Bool) : Nat := if old && r.aop != .exch then 3 else r.dPoison

/-- The exception events of an atomic (R145). -/
def countAtomic (s : State) (gid : Nat) (evs : List Nat) : State :=
  match s.group? gid with
  | some g => countFpx s g 0 evs
  | none => s

/-- The lease that an atomic or reduction asks its home for: the request counts at its slice, and gives the access its latency class; under a lease that
its core holds it is an L1 hit (R57, R60, R313, R317). -/
def askLease (s : State) (r : Req) : Option State :=
  let line := lineOf r.pa
  let held := leaseHeld s r.core line
  (grantLease s r.core r.pa r.colour).map (fun s1 =>
    if held then classify s1 r.op 2 true
    else classify (l2Touch s1 (dieOfCore r.core) r.ctx line r.sup true) r.op (homeClass s r.core r.pa) false)

/-- The line at its home for a `.far` reduction (R58). -/
def farHome (s : State) (r : Req) : State :=
  let line := lineOf r.pa
  classify (l2Touch (recallLease s none line) (dieOfCore r.core) r.ctx line r.sup true) r.op (homeClass s r.core r.pa) false

/-- An atomic or reduction in HBM: under a lease of its core, or at the home for `.far` (R57, R58, R106). -/
def performAtom (s : State) (rid : Nat) (r : Req) : State :=
  let line := lineOf r.pa
  if granuleFrozen s r.pa then rejectReq s rid r
  else
    match (if r.far then some (farHome s r) else askLease s r) with
    | none => s
    | some s1 =>
      let old := BitVec.ofNat 64 (Memory.readNat s1.mem r.pa r.width)
      let bad := memBad s r.pa r.width
      let (new, writes, evs) := atomicApply r.aop r.ty old r.data r.cmp
      let s2 := if writes then rawWrite s1 r.pa r.width new.toNat (atomMarks r (bad != 0)) else s1
      let s3 := if writes && !r.far then l1Update s2 r.core r.pa r.width new.toNat else s2
      let s3 := if writes then noteWrite (noteForeign s3 r.crew r.pa r.width) r.crew (0, r.va.toNat, r.width) r.gid r.op else s3
      let s4 := countAtomic (markAtomic s3 line r.crew r.scope false) r.gid evs
      lanePerformed s4 rid r 2 true old bad

/-- `frzq` reads the freeze table at the granule home (R104); `r.frozen` is the mapping's attribute. -/
def performFrzq (s : State) (rid : Nat) (r : Req) : State :=
  let e := SMap.get s.freezeTable FreezeEntry.none (granuleOf r.pa)
  let hbm := inHbm r.pa
  let v := (if hbm then e.count else 0) + (if r.frozen then 256 else 0) + (if hbm && e.thawing then 512 else 0)
  settle { s with reqs := SMap.ins s.reqs rid { r with performed := true, val := BitVec.ofNat 64 v } } r.op

/-! ## Scratchpads (R46 to R48, R51) -/

/-- A line of the access is absent. -/
def lineAbsent (c : Crew) (o n : Nat) : Bool := c.absent.contains (o / 128) || c.absent.contains ((o + n - 1) / 128)

/-- The latency class of an access to a scratchpad (R60). -/
def scratchClass (c : Crew) (r : Req) : Nat :=
  if r.tgt ≠ r.crew then 1
  else match c.cores with
    | [lo, hi] => if (if r.pa < c.scratchBytes / 2 then lo else hi) = r.core then 0 else 1
    | _ => 0

/-- A lane is performed in the scratchpad of crew `c`. -/
def performScratch (s : State) (rid : Nat) (r : Req) (c : Crew) : State :=
  let old := BitVec.ofNat 64 (Memory.readNat c.scratch r.pa r.width)
  let bad := c.scratchPoison.any (fun w => decide (w * 4 < r.pa + r.width ∧ r.pa < w * 4 + 4))
  let src := if bad then 5 else 0
  let write := fun (s : State) (v : BitVec 64) (p : Nat) => noteWrite (s.modCrew r.tgt (fun c => { c with
    scratch := Memory.writeNat c.scratch r.pa v.toNat r.width,
    scratchPoison := markWrite c.scratchPoison r.pa r.width p })) r.crew (1 + r.tgt, r.pa, r.width) r.gid r.op
  let cls := scratchClass c r
  match r.kind with
  | .store => lanePerformed (write s r.data r.dPoison) rid r cls false 0 0
  | .atom =>
    let (new, writes, evs) := atomicApply r.aop r.ty old r.data r.cmp
    let s1 := if writes then write s new (atomMarks r bad) else s
    lanePerformed (countAtomic s1 r.gid evs) rid r cls false old src
  | _ => lanePerformed s rid r cls false old src

/-! ## Events -/

/-- An access whose home has to use a poisoned word of the freeze table or the stamp map: it is not performed, and its lane ends with PIPEERR 6 (R339). A
load that hits the L1 uses none. -/
def tableFault (s : State) (r : Req) : Bool :=
  tableBad s r.pa r.width (r.kind != .load && r.kind != .frzq) && !(r.kind == .load && l1Valid s r.core (lineOf r.pa))

/-- HOME_ACCESS (R106): a request is performed or rejected, when local order lets it. -/
def execHomeAccess (rid : Nat) (s : State) : Out :=
  .next (match SMap.find? s.reqs rid with
    | none => s
    | some r =>
      if r.performed || !orderFree s r then s
      else if (r.kind == .frzq || r.sp == .g) && tableFault s r then
        laneFaulted s rid r (if r.kind == .frzq then .lc else r.ctr) { reqFault r 17 6 with report := true }
      else match r.kind, r.sp with
        | .frzq, _ => performFrzq s rid r
        | k, .g =>
          if (k == .store || k == .atom) && passedBefore s rid r then s
          else if inWindow s.lnkid r.pa then windowAccess s rid r
          else match k with
            | .load => performLoad s rid r
            | .store => performStore s rid r
            | _ => performAtom s rid r
        | _, _ =>
          if r.tgt ≠ r.crew then s
          else match s.crew? r.tgt with
            | none => s
            | some c => if lineAbsent c r.pa r.width then s else performScratch s rid r c)

/-- The registers of a group after a lane's value returns; a poisoned word kills its lane, or every lane of a uniform load
(R208, R339). -/
def writeReturned (s : State) (gid : Nat) (g : Group) (r : Req) : State :=
  if r.vPoison ≠ 0 then
    killLanes s gid g (match r.dst with
      | .s _ => g.live
      | _ => laneBit r.lane) r.vPoison
  else
    let v : BitVec 64 := if r.kind == .frzq then r.val else fmtExtend r.ty 64 r.val.toNat
    noteRegs (s.setGroup gid (match r.dst with
      | .v d => g.writeV r.ty.wide d [(r.lane, if r.ty.wide then v else (fmtExtend r.ty 32 r.val.toNat : BitVec 32).setWidth 64)]
      | .s d => g.writeS d v
      | .none => g)) gid

/-- LOAD_RETURN (R115): a performed value is written to its destination. -/
def execLoadReturn (rid : Nat) (s : State) : Out :=
  .next (match SMap.find? s.reqs rid with
    | none => s
    | some r =>
      if !r.performed || r.dst == .none || ((SMap.find? s.ops r.op).map Op.precise).getD false then s
      else match s.group? r.gid with
        | none => s
        | some g => settle (laneDone (writeReturned s r.gid g r) rid r.op) r.op)

/-- LEASE_GRANT (R57): the home grants the lease that an atomic asks for. -/
def execLeaseGrant (rid : Nat) (s : State) : Out :=
  .next (match SMap.find? s.reqs rid with
    | none => s
    | some r =>
      if r.performed || r.kind != .atom || r.sp != .g || r.far || !inHbm r.pa || !orderFree s r || granuleFrozen s r.pa then s
      else (askLease s r).getD s)

/-- LEASE_RECALL (R57). -/
def execLeaseRecall (line : Nat) (s : State) : Out := .next (recallLease s none line)

/-- L1_EVICT (R55): a silent eviction; a leased line gives up its lease (R57). A core of 384 or above stands for the homes, which give up
their copy of a window line (DESIGN CHOICE, log 50). -/
def execL1Evict (core line : Nat) (s : State) : Out :=
  .next (
    if 384 ≤ core then dropCopy s (128 * line)
    else if !l1Valid s core line then s
    else
      let s1 := l1DropLine s core line
      if SMap.find? s.leases line == some core then { s1 with leases := SMap.del s1.leases line } else s1)

/-- WRITE_REJECT_RETURN (R100): the core invalidates its copy, and the lane is complete. -/
def execWriteRejectReturn (rid : Nat) (s : State) : Out :=
  .next (match SMap.find? s.reqs rid with
    | none => s
    | some r =>
      if !r.performed || r.dst != .none || r.sp != .g then s
      else settle (laneDone (l1DropLine s r.core (lineOf r.pa)) rid r.op) r.op)

/-- FILL_ARRIVE (R103): a fill whose number is below the recorded one is discarded and requested again; otherwise the line is
installed with the home's data. It waits for room in the L1, and behind a store of its core that is on its way. -/
def execFillArrive (fid : Nat) (s : State) : Out :=
  .next (match SMap.find? s.fills fid with
    | none => s
    | some f =>
      let s0 := { s with fills := SMap.del s.fills fid }
      if f.seq.toNat < (SMap.get (s.core f.core).recallSeq 0 f.slice).toNat then
        sendFill s0 f.core (128 * f.line) f.colour
      else if l1Valid s f.core f.line then s0
      else if !l1Room s f.core f.line || storePassed s f.core f.line then s
      else
        let s1 := recallLease s0 (some f.core) f.line
        l1Install s1 f.core f.line ⟨homeLine s1 f.line, f.colour, f.frozen, false⟩)

/-- PEER_ACCESS_ARRIVE (R48): the target core performs a lane, or replies that the crew has retired. -/
def execPeerAccessArrive (rid : Nat) (s : State) : Out :=
  .next (match SMap.find? s.reqs rid with
    | none => s
    | some r =>
      if r.performed || r.sp != .p || r.tgt = r.crew || !orderFree s r then s
      else match s.crew? r.tgt with
        | some c => if c.saved || lineAbsent c r.pa r.width then s else performScratch s rid r c
        | none =>
          let s1 := s.modOp r.op (fun o => { o with gone := match o.gone with
            | some x => if x.1 < r.lane then some x else some (r.lane, r.va)
            | none => some (r.lane, r.va) })
          settle { s1 with reqs := SMap.ins s1.reqs rid { r with performed := true } } r.op)

/-- PEER_REPLY_RETURN (R48): every lane of a `.p` instruction has its reply. It completes, or raises PEERGONE. -/
def execPeerReplyReturn (gid op : Nat) (s : State) : Out :=
  .next (match SMap.find? s.ops op, s.group? gid with
    | some o, some g =>
      let rs := s.reqs.filter (fun e => e.2.op == op)
      if o.gid ≠ gid || !o.precise || rs.any (fun e => !e.2.performed) || !g.waits (· == .parked .reply) then s
      -- its fault is raised where the group stands, so after a trap that it has taken there
      else if o.gone.isSome && !g.places.isEmpty then s
      else
        let s1 := rs.foldl (fun s e => laneDone s e.1 op) s
        match o.gone with
        | some (l, va) => raise (completeOp s1 op) gid { FaultInfo.of 16 1 with addr := va, lane := l }
        | none =>
          let s2 := completeOp (rs.foldl (fun s e => match s.group? gid with
            | some g => if e.2.dst == .none then s else writeReturned s gid g e.2
            | none => s) s1) op
          match s2.group? gid with
          | some g2 => if g2.leaving.isSome then s2 else finishAt s2 gid g2 (· == .parked .reply)
          | none => s2
    | _, _ => s)

/-- The group of a crew with a number (R24). -/
def groupOfCrew (s : State) (crew grp : Nat) : Option (Nat × Group) :=
  List.find? (fun (e : Nat × Group) => e.2.crew == crew && e.2.idx == grp) s.groups

/-- FLIT_ARRIVE (R62): the flit joins its port when there is room, and its sender completes; a flit to a retired group is refused
with PEERGONE 3. -/
def execFlitArrive (fid : Nat) (s : State) : Out :=
  .next (match SMap.find? s.flits fid with
    | none => s
    | some f => match s.group? f.gid with
      | none => s
      | some g =>
        let s0 := { s with flits := SMap.del s.flits fid }
        if !g.waits (· == .parked .portRoom) then s
        else match groupOfCrew s f.tgt f.grp with
        | none => if !g.places.isEmpty then s else raise s0 f.gid (FaultInfo.of 16 3)
        | some (tid, t) =>
          let q := SMap.get t.queues [] f.port
          if 8 ≤ q.length || ((s.crew? f.tgt).map Crew.saved).getD false then s
          else
            let s1 := s0.setGroup tid { t with queues := SMap.put t.queues [] f.port (q ++ [f.flit]) }
            let s2 := if dieOfCore g.core ≠ dieOfCore t.core then countFabric s1 32 1 else s1
            match s2.group? f.gid with
            | none => s2
            | some g2 =>
              let s3 := finishAt (countFpx s2 g2 f.fpFmt f.fp) f.gid (g2.takeFlits f.takes) (· == .parked .portRoom)
              wakeGroup (leaveSpent s3 f.gid) tid (· == .portEmpty))

end Sys2Proof.Machine
end

