-- ==== Sys2Proof/Machine/Sync.lean ====
section
/-! DEFINITION. Named barriers and barrier objects (R119, R221 to R224). -/

namespace Sys2Proof.Machine

/-! ## Named barriers -/

/-- A group passes a barrier at which it stands below `level` traps taken at stop points: its `bar` completes with a crew-scope acquire (R119, R221);
one below a trap completes at `eret`. -/
def passBar (s : State) (gid : Nat) (pair : Bool) (level : Nat) : State :=
  match s.group? gid with
  | none => s
  | some g =>
    let s1 := l1Acquire s g.core .cr pair
    if level < g.places.length then
      s1.setGroup gid { g with
        places := g.places.modify (g.places.length - 1 - level) (fun x => { x with status := .ready, done := true }) }
    else if g.leaving.isSome then s1
    else finish s1 gid g .none true

/-- The round of a barrier completes when enough groups have arrived and their accesses are performed: every arrived group passes
(R119, R221). -/
def barTest (s : State) (cid id : Nat) : State :=
  match s.crew? cid with
  | none => s
  | some c => match SMap.find? c.bars id with
    | none => s
    | some b =>
      if b.arrived.length < Nat.min b.k c.gids.length || b.arrived.any (fun h => !quiet s h) then s
      else
        let s1 := s.modCrew cid (fun c => { c with bars := SMap.del c.bars id })
        b.arrived.foldl (fun s h => match s.group? h with
          | some g => (g.bars.filter (fun e => e.2 == id)).foldl (fun s e => passBar s h (decide (c.cores.length = 2)) e.1)
              (s.setGroup h { g with bars := g.bars.filter (fun e => e.2 != id) })
          | none => s) s1

/-- `bar` (R221). A group that has arrived stays parked until its round completes. -/
def execBar (id : BitVec 4) (count : BitVec 6) (s : State) : Out :=
  anyMask {} s fun gid g s =>
    match s.crewOf g with
    | none => s
    | some c =>
      let b := SMap.get c.bars ⟨count.toNat, []⟩ id.toNat
      let here := (g.places.length, id.toNat)
      let g1 := { g with bars := here :: g.bars.filter (· != here) }
      let wait := fun (s : State) =>
        let s1 := park s gid g1 (if quiet s gid then .barrier else .counters)
        barTest s1 g.crew id.toNat
      if g.bars.contains here then wait s
      else if c.started < count.toNat then raiseCD s gid 15 2
      else if b.k ≠ count.toNat then raiseCD s gid 15 1
      else wait (s.modCrew g.crew (fun c => { c with bars := SMap.ins c.bars id.toNat { b with arrived := if b.arrived.contains gid then b.arrived else b.arrived ++ [gid] } }))

/-! ## Barrier objects (R222) -/

/-- PHASE. -/
def ctlPhase (ctl : BitVec 64) : Nat := (ctl.extractLsb' 32 12 : BitVec 12).toNat
/-- GOAL. -/
def ctlGoal (ctl : BitVec 64) : Nat := (ctl.extractLsb' 16 16 : BitVec 16).toNat
/-- COUNT. -/
def ctlCount (ctl : BitVec 64) : Nat := (ctl.extractLsb' 0 16 : BitVec 16).toNat
/-- The control word. -/
def mkCtl (phase goal count : Nat) : BitVec 64 := BitVec.ofNat 64 (phase % 4096 * 2 ^ 32 + goal % 65536 * 2 ^ 16 + count % 65536)
/-- Bits 63:44 are zero and GOAL is not. -/
def ctlUsable (ctl : BitVec 64) : Bool := (ctl.extractLsb' 44 20 : BitVec 20) == 0 && ctlGoal ctl != 0

/-- An update of an object: a phase ends when COUNT equals GOAL and BYTES is 0, and the groups in `bwait` test again. -/
def putObject (s : State) (cid o : Nat) (ctl bytes : BitVec 64) : State :=
  let ends := ctlCount ctl == ctlGoal ctl && ctlGoal ctl != 0 && bytes == 0
  let ctl1 := if ends then
      (ctl &&& ~~~(0x00000FFF0000FFFF : BitVec 64)) ||| mkCtl (ctlPhase ctl + 1) 0 0
    else ctl
  let s1 := s.modCrew cid (fun c => (c.setWord o ctl1).setWord (o + 8) bytes)
  if ends then (match s1.crew? cid with
      | some c => c.gids.foldl (fun s h => wakeGroup s h (· == .object)) s1
      | none => s1)
  else s1

/-- Bytes that have landed are taken off an object (R119, R222). -/
def landOnObject (s : State) (cid o n : Nat) : State :=
  match s.crew? cid with
  | some c => putObject s cid o (c.word o) (c.word (o + 8) - BitVec.ofNat 64 n)
  | none => s

/-- The checks of an object that precede its reading: PROT 1, ALIGN 2, an absent line (R223); a poisoned word of it kills every live lane (R339). -/
def withObject (s : State) (gid : Nat) (g : Group) (a : Word) (body : Crew → Nat → State) : State :=
  match s.crewOf g with
  | none => s
  | some c =>
    if c.scratchBytes < a.toNat + 16 then raise s gid { FaultInfo.of 8 1 with addr := a }
    else if a.toNat % 16 ≠ 0 then raise s gid { FaultInfo.of 6 2 with addr := a }
    else if c.absent.contains (a.toNat / 128) then park s gid g .lines
    else if scratchBad c a.toNat 16 then killLanes s gid g g.live 5
    else body c a.toNat

/-- What `arrive` and `arrivex` share: `add` is what `arrivex` adds to BYTES. -/
def arriveAt (gid : Nat) (g : Group) (d : BitVec 6) (a add : Word) (s : State) : State :=
  withObject s gid g a fun c o =>
    if !quiet s gid then park s gid g .counters
    else
      let ctl := c.word o
      if !ctlUsable ctl || decide (ctlGoal ctl ≤ ctlCount ctl) then raiseCD s gid 15 3
      else
        let g1 := g.writeS d.toNat (BitVec.ofNat 64 (ctlCount ctl * 2 ^ 16 + ctlPhase ctl))
        let s1 := putObject s g.crew o (ctl + 1) (c.word (o + 8) + add)
        finish s1 gid g1 .none true

/-- `arrive` (R223). -/
def execArrive (d : BitVec 6) (a : SSrc) (s : State) : Out :=
  anyMask { ss := [a] } s fun gid g s => arriveAt gid g d (g.sval a) 0 s

/-- `arrivex` (R223). -/
def execArrivex (d : BitVec 6) (a b : SSrc) (s : State) : Out :=
  anyMask { ss := [a, b] } s fun gid g s => arriveAt gid g d (g.sval a) (g.sval b) s

/-- Phase `p` has passed at an object in phase `phase` (R224). -/
def phasePassed (phase p : Nat) : Bool :=
  let k := (phase + 4096 - p % 4096) % 4096
  decide (1 ≤ k ∧ k ≤ 2048)

/-- `bwait` (R224): it completes with a crew-scope acquire. -/
def execBwait (a b : SSrc) (s : State) : Out :=
  anyMask { ss := [a, b] } s fun gid g s =>
    withObject s gid g (g.sval a) fun c o =>
      let ctl := c.word o
      if !ctlUsable ctl then raiseCD s gid 15 3
      else if phasePassed (ctlPhase ctl) ((g.sval b).toNat % 4096) then
        finish (l1Acquire s g.core .cr (decide (c.cores.length = 2))) gid g .none true
      else park s gid g .object

end Sys2Proof.Machine
end

