-- ==== Sys2Proof/Machine/Engine.lean ====
section
/-! DEFINITION. What the matrix array, the copy unit and the copy engines share: the checks of R242, elements read and written,
bounce slots (R256, R295), pager requests (R297), and copies (R254, R255). -/

namespace Sys2Proof.Machine

/-! ## Reading records (R240, R242) -/

/-- An access of the group to the bytes of a record, before it in program order, is not performed, or a fence holds it back, or a store of the
core that has passed through its L1 is on its way to the line (R108 to R110). -/
def recordHeld (s : State) (gid : Nat) (g : Group) (va : Word) (pa : Nat) : Bool :=
  s.reqs.any (fun e => e.2.gid == gid && !e.2.performed && e.2.sp == .g && decide (e.2.pa < pa + 64) && decide (pa < e.2.pa + e.2.width))
    || accstAhead s gid s.nextId .g 0 pa va.toNat 64 || fencesHold s gid g
    || (!l1Valid s g.core (lineOf pa) && storePassed s g.core (lineOf pa))

/-- The words of a record as a global load of the core reads them: from a valid L1 copy, else from the home; `none` where the home has to
read them at the far end first (R322). -/
def recordWordsAt (s : State) (core pa : Nat) : Option (List (BitVec 64)) :=
  match SMap.find? (s.core core).l1 (lineOf pa) with
  | some l => some ((List.range 8).map (fun i => BitVec.ofNat 64 (lineNat l.data (pa % 128 + 8 * i) 8)))
  | none => (s.homeNat? pa 64).map (fun v => (List.range 8).map (fun i => BitVec.ofNat 64 (v / 2 ^ (64 * i))))

/-- Record a read of a shape record or an array image: it is in no row of R86 but those of frozen mappings and windows, so no tile (DESIGN
CHOICE, log 54). -/
def recordAny (s : State) (crew : Nat) (x : Xl) : State :=
  if inWindow s.lnkid x.pa || x.frz then record s crew false x.pa x.frz true else s

/-- The record that the group has read is an access of a global load: from a valid L1 copy, or at the home, after the recall of a lease, and the miss
fills the line (R57, R109, R240, R320). -/
def recordFill (s : State) (g : Group) (x : Xl) : State :=
  let line := lineOf x.pa
  let ctx := s.ctxOf g
  if l1Valid s g.core line then s
  else if inHbm x.pa then
    sendFill (l2Touch (recallLease s (some g.core) line) (dieOfCore g.core) ctx line g.sup false) g.core x.pa x.colour
  else
    let s1 := windowServe s (dieOfCore g.core) ctx line g.sup
    match SMap.find? s1.farCopies line with
    | some c => if l1Room s1 g.core line then l1Install s1 g.core line ⟨c.data, x.colour, c.frozen, false⟩ else s1
    | none => s1

/-- What step 3 of R242 finds for the records of an instruction: `dead` is the storage of a poisoned word, which the group consumes (R339). -/
inductive RecRead
  | fault (f : FaultInfo)
  | held
  | dead (src : Nat)
  | ok (rs : List (List (BitVec 64))) (xs : List Xl)

/-- Steps 2 and 3 for the records at a list of addresses. -/
def readShapes (s : State) (gid : Nat) (g : Group) (vas : List Word) : RecRead :=
  if vas.any (fun a => a.toNat % 64 != 0) then .fault (FaultInfo.of 6 3)
  else
    let xs := vas.map (fun a => (a, xlate s g.core (s.ctxOf g) a g.sup .read false))
    let errs := xs.filterMap (fun x => match x.2 with
      | .error e => some (x.1, e)
      | .ok _ => none)
    let page := errs.findSome? (fun x => if x.2.info.cause = 0 || x.2.info.cause = 7 then some (x.2.lane0 x.1) else none)
    match page, errs with
    | some f, _ => .fault f
    | none, (_, e) :: _ => .fault e.info
    | none, [] =>
      let at_ := oks (xs.map Prod.snd)
      let pas := at_.map Xl.pa
      if (vas.zip pas).any (fun x => recordHeld s gid g x.1 x.2) then .held
      else match pas.findSome? s.farFault, pas.find? (fun pa => (recordWordsAt s g.core pa).isNone) with
        | some c, _ => .fault (FaultInfo.of c.1 c.2)
        | none, some pa => .fault (FaultInfo.far pa)
        | none, none => match pas.find? (fun pa => poisoned s pa 64) with
          | some pa => .dead (memSrc s pa)
          | none => .ok (pas.filterMap (recordWordsAt s g.core)) at_

/-- The words that the instruction at this place read when it passed the checks of R242: it waits for the claim or for room, and neither reads
its records nor checks anything again (R240, R242). -/
def Group.passedHere (g : Group) : Option (List (List (BitVec 64))) :=
  match g.passed with
  | some (pc, sup, ws) => if pc == g.pc && sup == g.sup then some ws else none
  | none => none

/-- The instruction has passed the checks of R242 with the words `ws` of its records; the reads of them are made and recorded. -/
def passChecks (s : State) (gid : Nat) (g : Group) (ws : List (List (BitVec 64))) (xs : List Xl) : Group × State :=
  let g1 := { g with passed := some (g.pc, g.sup, ws) }
  (g1, xs.foldl (fun s x => recordFill (recordAny s g.crew x) g x) (s.setGroup gid g1))

/-! ## The checks of operands -/

/-- A byte range of an operand with the space of its record, and whether it is written. -/
structure Span where
  space : Nat
  addr : Nat
  n : Nat
  write : Bool

/-- Step 6: scratchpad ranges. -/
def spanScratch (s : State) (g : Group) (sp : List Span) : Option FaultInfo :=
  match s.crewOf g with
  | none => none
  | some c =>
    sp.findSome? (fun x =>
      if x.space = 1 then (if c.scratchBytes < x.addr + x.n then some (FaultInfo.of 8 1) else none)
      else if x.space = 2 then
        (if x.addr / 2 ^ 21 ≠ 0 || !quadCrew s c || decide (c.scratchBytes < x.addr % 2 ^ 19 + x.n) then some (FaultInfo.of 8 2) else none)
      else none)

/-- The pages of global ranges, ascending, with whether one writes them. -/
def spanPages (sp : List Span) : List (Nat × Bool) :=
  (sp.filter (fun x => x.space = 0)).foldl (fun (m : SMap Bool) x =>
    [x.addr / 4096, (x.addr + x.n - 1) / 4096].foldl (fun m p => SMap.ins m p ((SMap.get m false p) || x.write)) m) []

/-- The colour of a page, resident or not. -/
def pageTint (s : State) (ctx page : Nat) : Nat :=
  match walk s ctx (BitVec.ofNat 64 (page * 4096)) with
  | .ok l => pteColour l.e
  | .error (.page 2 c _) => c
  | _ => 0

/-- Steps 7 and 8 of R242: a page that is not mapped, then permission, then a frozen destination, then a colour that is not held. A
page that is mapped and not resident raises nothing (R256). -/
def spanChecks (s : State) (g : Group) (sp : List Span) : Option FaultInfo :=
  let ctx := s.ctxOf g
  let ps := spanPages sp
  let va := fun (p : Nat) => BitVec.ofNat 64 (p * 4096)
  let unmapped := ps.findSome? (fun p => match walk s ctx (va p.1) with
    | .error (.page 1 c n) => some ((XErr.page 1 c n).lane0 (va p.1))
    | .error (.far pa) => some (FaultInfo.far pa)
    | _ => none)
  let perm := fun (frz : Bool) => ps.findSome? (fun p =>
    match xlateWalk s ctx (va p.1) g.sup (if p.2 then .write else .read) (frz && p.2) with
    | .error (.fault c d) => if (c == 9) == frz then some (FaultInfo.of c d) else none
    | _ => none)
  let frozen := fun (p : Nat) => match walk s ctx (va p) with
    | .ok l => pteFrz l.e
    | .error _ => false
  let colours := ps.foldl (fun acc p => if frozen p.1 || pageTint s ctx p.1 = 0 then acc else setIns acc (pageTint s ctx p.1)) []
  match unmapped with
  | some f => some f
  | none => match perm false with
    | some f => some f
    | none => match perm true with
      | some f => some f
      | none => (colours.find? (fun c => !g.colours.contains c)).map (fun c => { FaultInfo.of 13 1 with aux := BitVec.ofNat 16 c })

/-- The nonzero colours of the pages of an operation, frozen or not, for the release of R71. -/
def spanColours (s : State) (g : Group) (sp : List Span) : List Nat :=
  (spanPages sp).foldl (fun acc p =>
    let c := pageTint s (s.ctxOf g) p.1
    if c = 0 then acc else setIns acc c) []

/-- An accepted operation of an engine: its tiles are recorded (R86), and its pages fill the engine's walk-ahead TLB (R253). A page that is not
resident is recorded when the walk that finds it resident has confirmed the translation. -/
def recordSpans (s : State) (w : EngineId) (g : Group) (sp : List Span) : State :=
  (spanPages sp).foldl (fun s p => match xlateWalk s (s.ctxOf g) (BitVec.ofNat 64 (p.1 * 4096)) g.sup (if p.2 then .write else .read) false with
    | .ok x => record (aheadFill s w (s.ctxOf g) (BitVec.ofNat 64 (p.1 * 4096))) g.crew p.2 x.pa x.frz x.untr
    | .error _ => s) s

/-! ## Elements -/

/-- A read of an engine: the value with the bits of its poisoned words, a page that is not resident, a window line that its home has first to read, a read
of one that was refused or lost, a peer that has retired, or a value that the spec leaves open. -/
inductive ElemRead
  | ok (v bad : Nat)
  | wait (va : Nat)
  | far (pa : Nat)
  | lost (cause detail : Nat)
  | gone
  | open_

/-- The first address of the page of an address: of the size that its leaf gives. -/
def pageBase (va n : Nat) : Nat := va - va % n

/-- Read `n` bytes of an operand of crew `crew` (R244, R253): global memory at the home, never from an L1. -/
def readElem (s : State) (w : EngineId) (ctx crew : Nat) (sup : Bool) (space addr n : Nat) : ElemRead :=
  if space = 0 then
    match xlateAhead s w ctx (BitVec.ofNat 64 addr) sup .read false with
    | .ok x => match s.farFault x.pa, s.homeNat? x.pa n with
      | some f, _ => .lost f.1 f.2
      | none, some v => .ok v (marksOf s.memPoison x.pa n)
      | none, none => .far x.pa
    | .error (.page _ _ z) => .wait (pageBase addr z)
    | .error (.far pa) => .far pa
    | .error (.fault _ _) => .open_
  else match placeIn s crew space addr with
    | none => .gone
    | some (k, o) => match s.crew? (k - 1) with
      | none => .gone
      | some c => .ok (Memory.readNat c.scratch o n) (marksOf c.scratchPoison o n)

/-- The die of the engine of a copy: that of the core, or 6, the hub die, for a package copy engine (R1). -/
def Copy.die (c : Copy) : Nat := if c.unit = 16 then dieOfCore c.core else 6

/-- The copy engine of a unit: a core's copy unit or a package copy engine. -/
def engineOf (unit core : Nat) : EngineId := if unit = 16 then .copy core else .package unit

/-- The engine of a copy. -/
def Copy.engine (c : Copy) : EngineId := engineOf c.unit c.core

/-- The home recalls a lease before an engine reads a global line (R57), and the read is recorded and counted (R86, R320). -/
def engineRead (s : State) (w : EngineId) (die ctx crew : Nat) (sup : Bool) (space addr : Nat) : State :=
  if space ≠ 0 then s
  else match xlateAhead s w ctx (BitVec.ofNat 64 addr) sup .read false with
    | .ok x =>
      let s1 := record s crew false x.pa x.frz x.untr
      if inHbm x.pa then l2Touch (recallLease s1 none (lineOf x.pa)) die ctx (lineOf x.pa) sup false
      else windowServe s1 die ctx (lineOf x.pa) sup
    | .error _ => s

/-! ## Pager requests and bounce slots (R256, R295 to R297) -/

/-- Post a pager request to a group that has none pending. -/
def postPager (s : State) (gid : Nat) (va : Word) : State :=
  s.modGroup gid (fun g => if g.pager.isNone then { g with pager := some va } else g)

/-- An engine operation starts to wait on a page: it asks the pager once (R297). -/
def askPager (s : State) (ctx gid op page : Nat) : State :=
  let waiting := s.asked.filter (fun e => pageAway s e.1 e.2.2)
  if waiting.contains (ctx, op, page) || ((s.group? gid).bind Group.pager).isSome then { s with asked := waiting }
  else postPager { s with asked := (ctx, op, page) :: waiting } gid (BitVec.ofNat 64 page)

/-- The bounce ring of a context is full (R295). -/
def bounceFull (c : Ctx) : Bool := c.bbtail + 1 == c.bbhead

/-- A part of a line that is written: its offset, its length, its value, the bits of its poisoned words. -/
abbrev LinePart := Nat × Nat × Nat × Nat

/-- The 9600's write of the parts of a bounced line through the translation of its slot: lost where the slot is frozen (R356). -/
def bounceData (s : State) (ctx : Nat) (x : Xl) (ps : List LinePart) : State :=
  if x.frz then s else ps.foldl (fun s p => (homeWrite s ctx none false (x.pa + 128 + p.1) p.2.1 p.2.2.1 p.2.2.2).2) s

/-- The translation of the slot at BBTAIL, or the state in which the engine waits: the ring is full, or the slot does not translate. -/
def bounceSlot (s : State) (ctx : Nat) : Except State Xl :=
  let c := s.ctx ctx
  if bounceFull c then .error s
  else match xlateWalk s ctx (c.bbbase + BitVec.ofNat 64 (256 * c.bbtail.toNat)) true .write false with
    | .error (.far pa) => .error (missFar s ctx pa false)
    | .error _ => .error s
    | .ok x => .ok x

/-- Parts of a line bound for a page that is not resident land in the slot at BBTAIL, whose translation is `x`; `page` is the page's address. -/
def bounceLine (s : State) (ctx gid crew core unit line page : Nat) (x : Xl) (ps : List LinePart) : State :=
  let c := s.ctx ctx
  let bm := ps.foldl (fun m p => Nat.lor m ((2 ^ p.2.1 - 1) * 2 ^ p.1)) 0
  let coreId := if unit = 16 then core else 0xFFFF
  let head := [line, coreId * 2 ^ 16 + unit, bm % 2 ^ 64, bm / 2 ^ 64] ++ List.replicate 12 0
  let s1 := (bounceData (ownThrough s ctx x head) ctx x ps).modCtx ctx (fun c => { c with bbtail := c.bbtail + 1 })
  let cont := match (s1.crew? crew).bind (fun c => s1.launch? c.launch) with
    | some l => l.cont != 0
    | none => false
  let s2 := if cont then s1.modCrew crew (fun c => { c with rcd := { c.rcd with ovf := true } }) else s1
  if c.bbhead == c.bbtail || bounceFull (s2.ctx ctx) then postPager s2 gid (BitVec.ofNat 64 page) else s2

/-- The home of a window line that an engine reads has first to ask the far end for it (R322). -/
def engineMiss (s : State) (ctx pa : Nat) : State :=
  if inWindow s.lnkid pa then missFar s ctx pa true else s

/-- An engine's write to a window is forwarded by the home of its line (R106, R322); the far end's answer ends it. -/
def sendFar (s : State) (owner : FarOwner) (die gid ctx va pa n v : Nat) (sup : Bool) : State :=
  let far := farOf s pa
  let data := bytesOf v n
  let (i, s1) := (passCopy (windowServe s die ctx (lineOf pa) sup) pa).fresh
  sendPacket (linkUse { s1 with farWrites := SMap.ins s1.farWrites i ⟨owner, gid, ctx, BitVec.ofNat 64 va, pa, n, v⟩ } ctx far true (packetFlits data))
    far (.of 1 ctx (farAddr pa) data)

/-! ## Copies (R254, R255) -/

/-- Element width, boxes and spaces of two records match (R254); `eng` is an engine's copy. -/
def copyPairBad (a b : Shape) (eng : Bool) : Bool :=
  a.ndim != b.ndim || [0, 1, 2, 3].any (fun d => decide (d ≤ a.ndim) && (a.b d != b.b d || a.b d == 0)) || a.width != b.width
    || a.fmt == .q4n || b.fmt == .q4n
    || (if eng then a.space != 0 || b.space != 0
        else !(a.space == 0 && b.space == 1 || a.space == 1 && b.space == 0 || a.space == 1 && b.space == 1 || a.space == 2 && b.space == 1))

/-- The ranges of a box within the extents. -/
def boxSpans (h : Shape) (write : Bool) : List Span :=
  ((List.range (boxCount h)).filter (fun i => h.within (boxCoord h i))).map (fun i => ⟨h.space, h.addr (boxCoord h i), h.width, write⟩)

/-- The scratchpad lines that ranges in `.l` touch. -/
def spanLines (sp : List Span) : List Nat :=
  (sp.filter (fun x => x.space = 1)).foldl (fun acc x => setIns (setIns acc (x.addr / 128)) ((x.addr + x.n - 1) / 128)) []

/-- A copy is accepted: counted on `cc`, its destination lines are absent, and its elements wait to land. -/
def beginCopy (s : State) (gid : Nat) (g : Group) (unit : Nat) (src dst : Shape) (obj : Option Nat) (sp : List Span) : State :=
  let (op, s1) := (recordSpans s (engineOf unit g.core) g sp).fresh
  let (cid, s2) := s1.fresh
  let n := boxCount src
  let todo := (List.range n).filter (fun i => dst.within (boxCoord dst i))
  let o : Op := { gid := gid, pc := g.pc, ctrs := [.cc], left := todo.length, gone := none, precise := false, acq := none, cls := 0,
                  hits := true, sup := g.sup }
  let c : Copy := { gid := gid, crew := g.crew, core := g.core, ctx := s.ctxOf g, op := op, unit := unit, src := src, dst := dst,
                    srcCrew := g.crew, obj := obj, after := g.lastRelease, todo := todo, sent := [], landed := [], tainted := false, gone := false, stuck := false, sup := g.sup,
                    colours := spanColours s g sp, vals := none, bad := [] }
  let lines := spanLines (boxSpans dst true)
  let s3 := s2.modCrew g.crew (fun k => { k with absent := lines.foldl setIns k.absent })
  let g1 := g.count [.cc] op
  let s4 := { s3 with ops := SMap.ins s3.ops op o }
  if todo.isEmpty then finish (completeOp (s4.setGroup gid g1) op) gid ((g1.complete .cc op)) .none true
  else
    let s5 := { s4 with copies := SMap.ins s4.copies cid c,
                        engines := if unit = 16 then s4.engines else SMap.ins s4.engines unit (SMap.get s4.engines [] unit ++ [cid]) }
    finish s5 gid g1 .none true

/-- A copy that has passed the checks of R242 waits until every scratchpad line that it reads or writes is present (R254), and for room on
`cc` (R115); then its unit accepts it. `ws` are its records, the destination's first, and the offset of its barrier object. -/
def copyAccept (unit : Nat) (ws : List (List (BitVec 64))) (gid : Nat) (g : Group) (s : State) : State :=
  let dst := Shape.of (ws.getD 0 [])
  let src := Shape.of (ws.getD 1 [])
  let sp := boxSpans src false ++ boxSpans dst true
  let absent := ((s.crewOf g).map Crew.absent).getD []
  if (spanLines sp).any absent.contains then park s gid g .copyLines
  else if !g.room [.cc] then park s gid g .counterRoom
  else beginCopy s gid g unit src dst ((ws.getD 2 []).head?.map BitVec.toNat) sp

/-- What `copy`, `copy.bar` and `xcopy` share. -/
def copyIssue (unit : Nat) (k : BitVec 4) (d a : SSrc) (b : Option SSrc) (s : State) : Out :=
  uniform { g := k, ss := [d, a] ++ b.toList } s fun gid g s =>
    match g.passedHere with
    | some ws => copyAccept unit ws gid g s
    | none => match readShapes s gid g [g.sval d, g.sval a] with
      | .fault f => stopWith s gid f
      | .held => park s gid g .counters
      | .dead src => killLanes s gid g g.live src
      | .ok rs xs =>
        let rd := rs.getD 0 []
        let ra := rs.getD 1 []
        let dst := Shape.of rd
        let src := Shape.of ra
        let eng := unit != 16
        if shapeBad rd dst false || shapeBad ra src false || copyPairBad src dst eng then raiseCD s gid 1 17
        else if !src.zfill && (List.range (boxCount src)).any (fun i => !src.within (boxCoord src i)) then raiseCD s gid 8 5
        else
          let sp := boxSpans src false ++ boxSpans dst true
          let obj := b.map (fun b => (g.sval b).toNat)
          let objBad := match obj, s.crewOf g with
            | some o, some c => if c.scratchBytes < o + 16 then some (FaultInfo.of 8 1) else if o % 16 ≠ 0 then some (FaultInfo.of 6 2) else none
            | _, _ => none
          match spanScratch s g sp, objBad with
          | some f, _ => raise s gid f
          | none, some f => raise s gid f
          | none, none => match spanChecks s g sp with
            | some f => stopWith s gid f
            | none =>
              let ws := [rd, ra] ++ (b.map (fun b => [g.sval b])).toList
              let (g1, s1) := passChecks s gid g ws xs
              copyAccept unit ws gid g1 s1

/-- `copy` (R254). -/
def execCopy (k : BitVec 4) (d a : SSrc) (s : State) : Out := copyIssue 16 k d a none s
/-- `copy.bar` (R254). -/
def execCopyBar (k : BitVec 4) (d a b : SSrc) (s : State) : Out := copyIssue 16 k d a (some b) s
/-- `xcopy` (R255). -/
def execXcopy (k : BitVec 4) (d a : SSrc) (e : BitVec 4) (s : State) : Out := copyIssue e.toNat k d a none s

/-- The value of element `i`: of the tile for `accst`, of the source record else. Overlapping source bytes and tainted copies give
free values. -/
def copyValue (s : State) (c : Copy) (i : Nat) : ElemRead :=
  match c.vals with
  | some m => .ok (SMap.get m 0 i).toNat (if c.bad.contains i then 1 else 0)
  | none =>
    let x := boxCoord c.src i
    if !c.src.within x then .ok 0 0
    else
      let place := placeIn s c.crew c.dst.space (c.dst.addr (boxCoord c.dst i))
      let own := match place with
        | some (sp, a) => c.touches s (sp, a, c.dst.width)
        | none => false
      match readElem s c.engine c.ctx c.crew c.sup c.src.space (c.src.addr x) c.src.width with
      | .ok v b => if own || c.tainted then .open_ else .ok v b
      | r => r

/-- The lines of element `i` of a copy's destination that have all their elements: their presence bits are set, and what waits for them goes
on (R51). -/
def setPresent (s : State) (cid : Nat) (c : Copy) (i : Nat) : State :=
  if c.dst.space ≠ 1 || c.vals.isSome then s
  else
    let left := match SMap.find? s.copies cid with
      | some k => k.todo
      | none => []
    let lines := fun (l : List Nat) => spanLines (l.map (fun i => ⟨1, c.dst.addr (boxCoord c.dst i), c.dst.width, true⟩))
    let done := (lines [i]).filter (fun l => !(lines left).contains l)
    let s1 := s.modCrew c.crew (fun k => { k with absent := k.absent.filter (fun l => !done.contains l) })
    wakeAll s1 (fun p => p == .lines || p == .copyLines)

/-- Hold a fault of a copy for report, once for each cause (R116). -/
def holdCopyFault (s : State) (gid : Nat) (k : Ctr) (op : Nat) (f : Nat × Nat) : State :=
  let has := ((s.group? gid).map (fun g => g.heldFaults.any (fun h => h.op == op && h.ctr == k && h.recs.any (fun r => r.cause == f.1)))).getD false
  if has then s else holdFault s gid k op (FaultInfo.of f.1 f.2)

/-- An element has landed, or ends with a fault because its home has rejected it or its far end has not performed it; the copy completes with its
last element (R100, R254, R326, R328). Bytes are taken off the object where the element is performed, and where it is rejected as frozen
(R119, R254). -/
def elementDone (s : State) (cid i : Nat) (fault : Option (Nat × Nat)) : State :=
  match SMap.find? s.copies cid with
  | none => s
  | some c =>
    let k : Ctr := if c.vals.isSome then .sc else .cc
    let s1 := match fault with
      | some f => holdCopyFault s c.gid k c.op f
      | none => s
    let c1 := { c with todo := c.todo.filter (· != i), sent := c.sent.filter (· != i), landed := setIns c.landed i }
    let s2 := { s1 with copies := if c1.todo.isEmpty then SMap.del s1.copies cid else SMap.ins s1.copies cid c1 }
    let s3 := match c.obj with
      | some o => if fault.all (fun f => f.1 == 10) then landOnObject s2 c.crew o c.dst.width else s2
      | none => s2
    let s4 := setPresent s3 cid c i
    let s5 := if fault.isNone && c.vals.isNone then countEvent s4 c.ctx 11 c.dst.width c.sup true else s4
    if !c1.todo.isEmpty then s5
    else
      let s6 := if c.gone then holdFault s5 c.gid k c.op (FaultInfo.of 16 4) else s5
      let s7 := { s6 with engines := if c.unit = 16 then s6.engines else SMap.ins s6.engines c.unit ((SMap.get s6.engines [] c.unit).filter (· != cid)) }
      completeOp (pruneFences s7 c.gid) c.op

/-- The write of a copy's element is a write by an operation, as `opready` sees it: of an `accst`, a store of its group (R246). -/
def Copy.writer (s : State) (c : Copy) : Nat := if c.vals.isSome then c.op else s.nextId

/-- An element of an `accst` waits for earlier accesses of its group to the same bytes (R108). -/
def accstHeld (s : State) (c : Copy) (addr : Nat) : Bool :=
  let n := c.dst.width
  let pa := if c.dst.space = 0 then (match xlateAhead s c.engine c.ctx (BitVec.ofNat 64 addr) c.sup .write false with
    | .ok x => x.pa
    | .error _ => addr) else addr
  s.reqs.any (fun e => e.2.gid == c.gid && decide (e.2.op < c.op) && !e.2.performed && (e.2.sp == .g) == (c.dst.space == 0)
      && (c.dst.space == 0 || e.2.tgt == c.crew) && decide (e.2.pa < pa + n) && decide (pa < e.2.pa + e.2.width))
    || accstAhead s c.gid c.op (if c.dst.space = 0 then .g else .l) c.crew pa addr n

/-- Local order holds the accesses of a copy's element back: a fence, an access (one of an
`accst` too) that a release before the copy orders before it, an absent
line or an earlier access to its bytes (R108, R110, R123). -/
def copyHeld (s : State) (c : Copy) (i : Nat) : Bool :=
  let addr := c.dst.addr (boxCoord c.dst i)
  (match s.group? c.gid with
    | some g => g.fences.any (fun f => decide (f.2 ≤ c.op) && (pendingIn s c.gid f.1 f.2 || copiesIn s c.gid f.1 f.2))
    | none => false)
  || pendingIn s c.gid 0 c.after
  || s.copies.any (fun e => e.2.gid == c.gid && e.2.vals.isSome && decide (e.2.op < c.after))
  || (c.vals.isSome && (accstHeld s c addr || c.dst.space == 1 && (match s.crew? c.crew with
    | some k => k.absent.contains (addr / 128)
    | none => false)))

/-- The value of element `i` of a copy to be written, with the bits of its poisoned words, after the effects of its read; or the state in which it waits. -/
def elemIn (s : State) (cid : Nat) (c : Copy) (i : Nat) : Except State (Nat × Nat × State) :=
  let k : Ctr := if c.vals.isSome then .sc else .cc
  let free := fun (s : State) =>
    let (fr, s1) := s.draw
    Except.ok ((freeAt fr i).toNat, 0, s1)
  let read := fun (_ : Unit) => if c.vals.isNone && c.src.within (boxCoord c.src i) then
      engineRead s c.engine c.die c.ctx c.crew c.sup c.src.space (c.src.addr (boxCoord c.src i)) else s
  match copyValue s c i with
  | .ok v b => .ok (v, b, read ())
  | .open_ => free (read ())
  | .gone => free { s with copies := SMap.ins s.copies cid { c with gone := true } }
  | .lost x d => free (dropBad (holdCopyFault s c.gid k c.op (x, d)))
  | .wait page => .error (askPager s c.ctx c.gid c.op page)
  | .far pa => .error (engineMiss s c.ctx pa)

/-- The elements of a copy that are bound for one line and can be read, with `i` among them: its write bounces as a whole (R295). -/
def bounceElems (s : State) (cid : Nat) (c : Copy) (line page : Nat) : State :=
  let at_ := fun (i : Nat) => c.dst.addr (boxCoord c.dst i)
  let mates := c.todo.filter (fun j => at_ j / 128 == line && !copyHeld s c j)
  match bounceSlot s c.ctx with
  | .error s1 => s1
  | .ok x =>
    let r := mates.foldl (fun (a : State × List (Nat × LinePart)) j => match elemIn a.1 cid c j with
      | .ok (v, b, s1) => (s1, a.2 ++ [(j, (at_ j % 128, c.dst.width, v, b))])
      | .error _ => a) (s, [])
    let s1 := bounceLine r.1 c.ctx c.gid c.crew c.core c.unit (128 * line) page x (r.2.map Prod.snd)
    r.2.foldl (fun s e => elementDone s cid e.1 none) s1

/-- Write an element of a copy: in a scratchpad, at its home after the issuing core's L1 copy is invalidated (R55), through the home of a window
line to its far end, or in the bounce buffer. -/
def writeElem (s : State) (cid : Nat) (c : Copy) (i v bad : Nat) : State :=
  let addr := c.dst.addr (boxCoord c.dst i)
  let n := c.dst.width
  if c.dst.space = 0 then
    match xlateAhead s c.engine c.ctx (BitVec.ofNat 64 addr) c.sup .write false with
    | .ok x =>
      let s1 := record (if c.unit = 16 then l1DropLine s c.core (lineOf x.pa) else s) c.crew true x.pa x.frz x.untr
      if inWindow s.lnkid x.pa then
        if !(s.port (farOf s x.pa)).up then elementDone s1 cid i (some (18, 0))
        else
          let c1 := (SMap.find? s1.copies cid).getD c
          sendFar { s1 with copies := SMap.ins s1.copies cid { c1 with sent := setIns c1.sent i } } (.copy cid i) c.die c.gid c.ctx addr x.pa n v c.sup
      else if tableBad s1 x.pa n true then elementDone s1 cid i (some (17, 6))
      else match homeWrite s1 c.ctx none false x.pa n v bad with
        | (true, s2) =>
          let s3 := noteForeign (l2Touch s2 c.die c.ctx (lineOf x.pa) c.sup true) c.crew x.pa n
          elementDone (noteWriteBy (some cid) s3 c.crew (0, addr, n) c.gid (c.writer s2)) cid i none
        | (false, s2) => elementDone s2 cid i (some (10, 1))
    | .error (.far pa) => engineMiss s c.ctx pa
    | .error _ => elementDone s cid i none
  else match s.crew? c.crew with
    | none => elementDone s cid i none
    | some k =>
      if addr + n ≤ k.scratchBytes then
        elementDone (noteWriteBy (some cid) (s.modCrew c.crew (fun k => { k with
          scratch := Memory.writeNat k.scratch addr v n, scratchPoison := markWrite k.scratchPoison addr n bad })) c.crew
            (1 + c.crew, addr, n) c.gid (c.writer s)) cid i none
      else elementDone s cid i none

/-- The page of a global destination that is not resident. -/
def Copy.awayPage (s : State) (c : Copy) (i : Nat) : Option Nat :=
  let addr := c.dst.addr (boxCoord c.dst i)
  if c.dst.space ≠ 0 then none
  else match xlateAhead s c.engine c.ctx (BitVec.ofNat 64 addr) c.sup .write false with
    | .error (.page _ _ z) => some (pageBase addr z)
    | _ => none

/-- Land element `i` of a copy, when local order lets its accesses be performed (R110, R123) and its unit has not failed at it (R337). -/
def landElement (s : State) (cid : Nat) (c : Copy) (i : Nat) : State :=
  if !c.todo.contains i || c.sent.contains i || c.stuck || copyHeld s c i then s
  else match c.awayPage s i with
    | some page => match elemIn s cid c i with
      | .error s1 => s1
      | .ok _ => bounceElems s cid c (c.dst.addr (boxCoord c.dst i) / 128) page
    | none => match elemIn s cid c i with
      | .error s1 => s1
      | .ok (v, b, s1) => writeElem s1 cid c i v b

/-- COPY_BYTES_LAND (R254): an element of a core's copy unit lands, in any order. -/
def execCopyBytesLand (cid i : Nat) (s : State) : Out :=
  .next (match SMap.find? s.copies cid with
    | some c => if c.unit = 16 then landElement s cid c i else s
    | none => s)

/-- An engine waits: a pager request to a crew that is saved has not been taken (R297). -/
def pagerWaits (s : State) (gid : Nat) : Bool :=
  ((s.group? gid).map (fun g => g.pager.isSome && crewSaved s g)).getD false

/-- ENGINE_COMMAND_PERFORM (R118, R255): an engine performs an element of its oldest command, in an unpredictable order (R254): a free choice
(DESIGN CHOICE, log 4). -/
def execEngineCommandPerform (e : Nat) (s : State) : Out :=
  .next (match SMap.get s.engines [] e with
    | cid :: _ => match SMap.find? s.copies cid with
      | some c =>
        if pagerWaits s c.gid then s
        else match c.todo.filter (fun i => !c.sent.contains i) with
          | [] => s
          | [i] => landElement s cid c i
          | is =>
            let (fr, s1) := s.draw
            landElement s1 cid c (is.getD ((freeAt fr 0).toNat % is.length) 0)
      | none => s
    | [] => s)

end Sys2Proof.Machine
end

