-- ==== Sys2Proof/Machine/Matrix.lean ====
section
/-! DEFINITION. Matrix instructions (R236, R241 to R252): issue, and completion in the array with the sums of R142 to R144. -/

namespace Sys2Proof.Machine

/-! ## The matrix group and the claim (R236) -/

/-- Step 1 of R242: the group becomes the crew's matrix group if there is none; ILLEGAL 18 in another group. -/
def asMatrixGroup (s : State) (gid : Nat) (g : Group) (body : State → State) : State :=
  match s.crewOf g with
  | none => s
  | some c => match c.matrixGroup with
    | some m => if m = gid then body s else raiseCD s gid 1 18
    | none => body (s.modCrew g.crew (fun c => { c with matrixGroup := some gid }))

/-- A crew claims the array of a core that no crew holds: it holds zero, or what the crew's array held when the crew was saved (R236,
R282). -/
def takeArray (s : State) (crew core : Nat) : State :=
  let i := ((s.crew? crew).map (fun c => c.cores.idxOf core)).getD 0
  let kept := (s.crew? crew).bind (fun c => SMap.find? c.arrayKept i)
  let s1 := s.modCore core (fun c => { c with array := { kept.getD ArraySt.idle with holder := some crew } })
  if kept.isNone then s1 else s1.modCrew crew (fun c => { c with arrayKept := SMap.del c.arrayKept i })

/-- The group claims the array of its core, or parks until the crew that holds it retires. -/
def claimArray (s : State) (gid : Nat) (g : Group) (body : State → State) : State :=
  match (s.core g.core).array.holder with
  | some h => if h = g.crew then body s else park s gid g .arrayClaim
  | none => body (takeArray s g.crew g.core)

/-- Matrix operations of a group that have not retired (R245). -/
def arrayUse (s : State) (gid : Nat) (g : Group) : Nat := ((s.core g.core).array.ops.filter (fun o => o.gid == gid)).length

/-- A matrix operation with the fields that most kinds leave zero. -/
def MOp.base (id gid : Nat) (g : Group) (kind : MKindOp) (d : Nat) : MOp :=
  { id := id, gid := gid, kind := kind, d := d, p := 0, a := none, b := none, origin := 0, mm := 0, nn := 0, kk := 0, fa := .f32,
    fb := .f32, negA := false, negB := false, noAcc := false, k1 := 0, k2 := 0, joint := 0, batch := none, complete := false,
    tainted := false, colours := [], ready := g.ready, regs := [], sup := g.sup, stuck := false,
    fault := none }

/-- The operation enters the array; it is tainted where an operand has been written since the last `opready`, but for a store that the
`opready` makes visible (R121, R246). -/
def enqueueOp (s : State) (g : Group) (o : MOp) : State :=
  let recent := ((s.crewOf g).map Crew.recent).getD []
  let o1 := { o with tainted := recent.any (fun p => o.exposed p.2.2.2.1 p.2.2.2.2
    && (if p.1 = physSpace then o.touchesPa s (s.ctxOf g) p.2.1 p.2.2.1 else o.touches s g.crew (p.1, p.2.1, p.2.2.1))) }
  s.modCore g.core (fun c => { c with array := { c.array with ops := c.array.ops ++ [o1] } })

/-- The `s` registers that a list of sources names. -/
def sregsOf (l : List SSrc) : List Nat :=
  l.filterMap (fun x => match x with
    | .reg k => some k.toNat
    | _ => none)

/-- The group watches the registers that an operation names (R121). -/
def Group.watch (g : Group) (o : MOp) : Group := { g with opRegs := o.regs.foldl setIns g.opRegs }

/-- Code of M, N: 16, 32, 64; of `accld` and `accst` also 128. -/
def dimOf (c : BitVec 2) : Nat := 16 * 2 ^ c.toNat

/-- K by the format of A (R243). -/
def kOf (f : Fmt) (c : BitVec 2) : Nat :=
  (match f with
    | .f16 | .bf16 => 16
    | .q4n => 64
    | _ => 32) * 2 ^ c.toNat

/-! ## `mma`, `mmas`, `mmaq` (R244, R248) -/

/-- A record does not meet what the instruction requires: its format, and sparsity where `sparse` says so. -/
def operandBad (r : List (BitVec 64)) (h : Shape) (f : Fmt) (sparse : Bool) : Bool :=
  shapeBad r h sparse || h.fmt != f || (if sparse then h.sparse == 0 else h.sparse != 0)

/-- A K coordinate is not aligned (R241). -/
def kMisaligned (h : Shape) (c0 : Nat) : Bool := (h.fmt == .q4n && c0 % 64 != 0) || (h.sparse != 0 && c0 % 8 != 0)

/-- An operand reaches outside the extents of a record without ZFILL. -/
def reachesOut (h : Shape) (c0 c1 k rows : Nat) : Bool :=
  !h.zfill && (decide (h.e 0 < c0 + k) || decide ((if h.ndim = 0 then 1 else h.e 1) < c1 + rows))

/-- The ranges that an operation reads, as spans. -/
def MOp.spans (o : MOp) : List Span := o.reads.map (fun r => ⟨r.1, r.2.1, r.2.2, false⟩)

/-- An operation that has passed the checks of R242 waits for the claim and for room in the array, and is accepted; its global pages are
recorded (R86). -/
def arrayAccept (s : State) (gid : Nat) (g : Group) (mk : Nat → MOp) : State :=
  claimArray s gid g fun s =>
    if 64 ≤ arrayUse s gid g then park s gid g .arrayRoom
    else
      let (id, s1) := s.fresh
      let o := mk id
      let s2 := recordSpans s1 (.tile g.core) g o.spans
      let s3 := if o.kind == .mmaq then s2.modCrew g.crew (fun c => { c with mmaqCount := c.mmaqCount + 1 }) else s2
      finish (enqueueOp s3 g { o with colours := spanColours s g o.spans }) gid (g.watch o) .none true

/-- The operation of an `mma`, `mmas` or `mmaq` with the words of its records and its origin word. -/
def mmaOp (kind : MKindOp) (m : MmaOp) (s : State) (gid : Nat) (g : Group) (ws : List (List (BitVec 64))) (id : Nat) : MOp :=
  { MOp.base id gid g kind m.d.toNat with
      a := some (Shape.of (ws.getD 0 [])), b := some (Shape.of (ws.getD 1 [])), origin := (ws.getD 2 []).headD 0,
      mm := dimOf m.mc, nn := dimOf m.nc, kk := kOf m.fa m.kc, fa := m.fa, fb := m.fb, negA := m.negA, negB := m.negB, noAcc := m.noAcc,
      joint := ((s.crewOf g).map Crew.mmaqCount).getD 0, regs := sregsOf [m.a, m.b, m.o] }

/-- What the three instructions share. -/
def mmaIssue (kind : MKindOp) (m : MmaOp) (s : State) : Out :=
  uniform { g := m.g, ss := [m.a, m.b, m.o] } s fun gid g s =>
    match g.passedHere with
    | some ws => arrayAccept s gid g (mmaOp kind m s gid g ws)
    | none => asMatrixGroup s gid g fun s =>
      let quad := ((s.crewOf g).map (quadCrew s)).getD false
      if kind == .mmaq && !quad then raiseCD s gid 8 2
      else match readShapes s gid g [g.sval m.a, g.sval m.b] with
        | .fault f => stopWith s gid f
        | .held => park s gid g .counters
        | .dead src => killLanes s gid g g.live src
        | .ok rs xs =>
          let ra := rs.getD 0 []
          let rb := rs.getD 1 []
          let a := Shape.of ra
          let b := Shape.of rb
          if operandBad ra a m.fa (kind == .mmas) || operandBad rb b m.fb false then raiseCD s gid 1 17
          else
            let ws := [ra, rb, [g.sval m.o]]
            let o := mmaOp kind m s gid g ws 0
            let ak := originAK o.origin
            let bk := originBK o.origin
            if kMisaligned a ak || kMisaligned b bk then raiseCD s gid 8 7
            else if reachesOut a ak (originAM o.origin) o.kk o.mm || reachesOut b bk (originBN o.origin) o.kk o.bCols then
              raiseCD s gid 8 5
            else match spanScratch s g o.spans with
              | some f => raise s gid f
              | none => match spanChecks s g o.spans with
                | some f => stopWith s gid f
                | none =>
                  let (g1, s1) := passChecks s gid g ws xs
                  arrayAccept s1 gid g1 (mmaOp kind m s gid g ws)

/-- `mma` (R244). -/
def execMma (m : MmaOp) (s : State) : Out := mmaIssue .mma m s
/-- `mmas` (R244). -/
def execMmas (m : MmaOp) (s : State) : Out := mmaIssue .mmas m s
/-- `mmaq` (R248). -/
def execMmaq (m : MmaOp) (s : State) : Out := mmaIssue .mmaq m s

/-! ## Scales and tile movement (R249, R250) -/

/-- `sacc`, `accz` do not block, leave no latch result, and are passed over by the issue selector while the array is full (R245);
one whose array another crew holds parks. -/
def arrayOp (s : State) (gid : Nat) (g : Group) (o : MOp) : State :=
  claimArray s gid g fun s => finish (enqueueOp s g o) gid (g.watch o) .none false

/-- Run a group-uniform instruction that does not block. -/
def uniformFree (r : Reads) (s : State) (body : Nat → Group → State → State) : Out :=
  withReads r s fun gid g eff s =>
    .next (if eff = 0 then finish s gid g .none false else body gid g s)

/-- `sacc` (R249). -/
def execSacc (k d p : BitVec 4) (c x : SSrc) (t : Fmt) (mc nc : BitVec 2) (noAcc : Bool) (s : State) : Out :=
  uniformFree { g := k, ss := [c, x] } s fun gid g s =>
    asMatrixGroup s gid g fun s =>
      let (id, s1) := s.fresh
      let o : MOp := { MOp.base id gid g .sacc d.toNat with
        p := p.toNat, k1 := (g.sval c).toNat, k2 := (g.sval x).toNat, mm := dimOf mc, nn := dimOf nc, fa := t, noAcc := noAcc,
        regs := sregsOf [c, x] }
      match spanScratch s g o.spans with
      | some f => raise s gid f
      | none => if o.k2 % 4 ≠ 0 then raiseCD s gid 6 1 else arrayOp s1 gid g o

/-- What `accz` and `accz.pair` share: `n` is 64, or 128 for a pair. -/
def acczIssue (k d : BitVec 4) (n : Nat) (s : State) : Out :=
  uniformFree { g := k } s fun gid g s =>
    asMatrixGroup s gid g fun s =>
      let (id, s1) := s.fresh
      arrayOp s1 gid g { MOp.base id gid g .accz d.toNat with mm := n, nn := 64 }

/-- `accz` (R250). -/
def execAccz (k d : BitVec 4) (s : State) : Out := acczIssue k d 64 s
/-- `accz.pair` (R250). -/
def execAcczPair (k d : BitVec 4) (s : State) : Out := acczIssue k d 128 s

/-- The operation of an `accld` with the words of its record and its origin; `srcs` name them. -/
def accldOp (d : BitVec 4) (srcs : List SSrc) (t : Fmt) (mc nc : BitVec 2) (gid : Nat) (g : Group) (ws : List (List (BitVec 64))) (id : Nat) : MOp :=
  { MOp.base id gid g .accld d.toNat with
      a := some (Shape.of (ws.getD 0 [])), origin := (ws.getD 1 []).headD 0 &&& 0xFFFFFFFF, mm := dimOf mc, nn := dimOf nc, fa := t, regs := sregsOf srcs }

/-- `accld` (R250). -/
def execAccld (k d : BitVec 4) (a x : SSrc) (t : Fmt) (mc nc : BitVec 2) (s : State) : Out :=
  uniform { g := k, ss := [a, x] } s fun gid g s =>
    match g.passedHere with
    | some ws => arrayAccept s gid g (accldOp d [a, x] t mc nc gid g ws)
    | none => asMatrixGroup s gid g fun s =>
      match readShapes s gid g [g.sval a] with
      | .fault f => stopWith s gid f
      | .held => park s gid g .counters
      | .dead src => killLanes s gid g g.live src
      | .ok rs xs =>
        let ra := rs.getD 0 []
        let h := Shape.of ra
        if operandBad ra h t false || h.space == 2 then raiseCD s gid 1 17
        else
          let ws := [ra, [g.sval x]]
          let o := accldOp d [a, x] t mc nc gid g ws 0
          if reachesOut h (originAK o.origin) (originAM o.origin) o.nn o.mm then raiseCD s gid 8 5
          else match spanScratch s g o.spans with
            | some f => raise s gid f
            | none => match spanChecks s g o.spans with
              | some f => stopWith s gid f
              | none =>
                let (g1, s1) := passChecks s gid g ws xs
                arrayAccept s1 gid g1 (accldOp d [a, x] t mc nc gid g ws)

/-! ## `accst` (R251) -/

/-- A tile is used by an operation that is open or whose batch no `xwait` has retired (R121, R251). -/
def tileBusy (s : State) (gid : Nat) (g : Group) (ts : List Nat) : Bool :=
  (s.core g.core).array.ops.any (fun o => o.gid == gid && o.tiles.any ts.contains) || g.unwaited.any (fun o => o.tiles.any ts.contains)

/-- The elements of the record that an `accst` of `n` columns writes, by their index in the tile region, and the element of the record that
each goes to. -/
structure AccstBox where
  h : Shape
  ak : Nat
  am : Nat
  m : Nat
  n : Nat

/-- The record's coordinates of region element `e`. -/
def AccstBox.at_ (b : AccstBox) (e : Nat) : List Nat := [b.ak + e % b.n, b.am + e / b.n]

/-- The region elements that lie within the extents. -/
def AccstBox.todo (b : AccstBox) : List Nat :=
  (List.range (b.m * b.n)).filter (fun e => b.h.within (b.at_ e) && (b.h.ndim != 0 || b.am + e / b.n == 0))

/-- The ranges that they write. -/
def AccstBox.spans (b : AccstBox) : List Span := b.todo.map (fun e => ⟨b.h.space, b.h.addr (b.at_ e), b.h.width, true⟩)

/-- The region and record of an `accst` with the words of its record and its origin. -/
def accstBox (mc nc : BitVec 2) (ws : List (List (BitVec 64))) : AccstBox :=
  let x := (ws.getD 1 []).headD 0
  ⟨Shape.of (ws.getD 0 []), originAK x, originAM x, dimOf mc, dimOf nc⟩

/-- An `accst` that has passed the checks of R242 waits for the claim and for room on `sc`; then the tile is read, and its elements land like
those of a copy, counted on `sc`. Reading a tile in use gives free values, and leaves it free (R121, R251). -/
def accstAccept (t : BitVec 4) (ty : Fmt) (b : AccstBox) (s : State) (gid : Nat) (g : Group) : State :=
  claimArray s gid g fun s =>
    if !g.room [.sc] then park s gid g .counterRoom
    else
      let todo := b.todo
      let sp := b.spans
      let (op, s1) := (recordSpans s (.copy g.core) g sp).fresh
      let (cid, s2) := s1.fresh
      let (fr, s3) := s2.draw
      let ts := if b.m = 128 then [t.toNat, t.toNat + 1] else [t.toNat]
      let busy := tileBusy s gid g ts
      let arr := (s.core g.core).array
      let key := fun (e : Nat) => tileKey t.toNat (e / b.n) (e % b.n)
      let elem := fun (e : Nat) => SMap.get arr.tiles 0 (key e)
      let conv := fun (e : Nat) =>
        if ty == .f16 || ty == .bf16 then
          let v := ofCode .f32 (elem e).toNat
          fresult ty .rne [v] v
        else ((elem e).toNat, [])
      let vals : SMap (BitVec 64) := todo.map (fun e => (e, if busy then freeAt fr e else BitVec.ofNat 64 (conv e).1))
      let bad := if busy then [] else todo.filter (fun e => arr.poison.contains (key e))
      let s4 := if busy then s3 else countFpx s3 g (fpxFormat ty) (todo.flatMap (fun e => (conv e).2))
      -- the tile's final values are unpredictable too
      let s5 := if !busy then s4 else
        s4.modCore g.core (fun c => { c with array := { c.array with
          tiles := (List.range (b.m * b.n)).foldl (fun m e => SMap.put m 0 (key e) ((freeAt fr (8192 + e)).extractLsb' 0 32)) c.array.tiles,
          ops := c.array.ops.map (fun o => if o.tiles.any ts.contains then { o with tainted := true } else o) } })
      let o : Op := { gid := gid, pc := g.pc, ctrs := [.sc], left := todo.length, gone := none, precise := false, acq := none,
                      cls := 0, hits := true, sup := g.sup }
      let g1 := g.count [.sc] op
      let s6 := { s5 with ops := SMap.ins s5.ops op o }
      if todo.isEmpty then finish (completeOp (s6.setGroup gid g1) op) gid (g1.complete .sc op) .none true
      else
        -- the record's box becomes the region, so that landing finds each element by its index
        let dst := { b.h with base := b.h.addr [b.ak, b.am], box := [b.n, b.m, 0, 0] }
        let c : Copy := { gid := gid, crew := g.crew, core := g.core, ctx := s.ctxOf g, op := op, unit := 16, src := dst, dst := dst,
                          srcCrew := g.crew, obj := none, after := 0, todo := todo, sent := [], landed := [], tainted := false, gone := false, stuck := false,
                          sup := g.sup, colours := spanColours s g sp, vals := some (vals.filter (fun e => e.2 ≠ 0)), bad := bad }
        finish { s6 with copies := SMap.ins s6.copies cid c } gid g1 .none true

/-- `accst` (R251). -/
def execAccst (k : BitVec 4) (a x : SSrc) (t : BitVec 4) (ty : Fmt) (mc nc : BitVec 2) (s : State) : Out :=
  uniform { g := k, ss := [a, x] } s fun gid g s =>
    match g.passedHere with
    | some ws => accstAccept t ty (accstBox mc nc ws) s gid g
    | none => asMatrixGroup s gid g fun s =>
      match readShapes s gid g [g.sval a] with
      | .fault f => stopWith s gid f
      | .held => park s gid g .counters
      | .dead src => killLanes s gid g g.live src
      | .ok rs xs =>
        let ra := rs.getD 0 []
        let h := Shape.of ra
        if operandBad ra h ty false || h.space == 2 then raiseCD s gid 1 17
        else
          let ws := [ra, [g.sval x]]
          let b := accstBox mc nc ws
          match spanScratch s g b.spans with
          | some f => raise s gid f
          | none => match spanChecks s g b.spans with
            | some f => stopWith s gid f
            | none =>
              let (g1, s1) := passChecks s gid g ws xs
              accstAccept t ty b s1 gid g1

/-! ## Batches and `opready` (R245 to R247) -/

/-- `xbatch` (R245). -/
def execXbatch (s : State) : Out :=
  withReads {} s fun gid g _ s =>
    .next (asMatrixGroup s gid g fun s => claimArray s gid g fun s =>
      let s1 := closeBatch s gid
      match s1.group? gid with
      | some g1 => finish s1 gid g1 .none false
      | none => s1)

/-- `xwait` (R247): `waitc xc, n` by the matrix group. -/
def execXwait (n : BitVec 8) (s : State) : Out :=
  withReads {} s fun gid g _ s0 =>
    match s0.crewOf g with
    | none => .next s0
    | some c =>
      if (c.matrixGroup.getD gid) ≠ gid then .next (raiseCD s0 gid 1 18)
      else
        let s1 := s0.modCrew g.crew (fun c => { c with matrixGroup := some gid })
        match (s1.core g.core).array.holder with
        | some h => if h = g.crew then waitCounter .xc n.toNat s1 else .next (park s1 gid g .arrayClaim)
        | none => waitCounter .xc n.toNat (takeArray s1 g.crew g.core)

/-- `opready` (R246): later operations read their operands after the stores of the group before it. -/
def execOpready (s : State) : Out :=
  withReads {} s fun gid g _ s =>
    .next (asMatrixGroup s gid g fun s => claimArray s gid g fun s =>
      let s1 := s.modCrew g.crew (fun c => { c with recent := [] })
      finish s1 gid { g with ready := s1.nextId } .none false)

/-! ## Completion in the array -/

/-- An operand element: `none` is +0 (outside the extents, or dropped), with its poison marker. -/
abbrev Elem := Option Nat × Bool

/-- What a list of reads gives: values, or why the operation cannot complete as it is. -/
inductive TileRead
  | ok (rows : List (List Elem))
  | wait (va : Nat)
  | far (pa : Nat)
  | lost (cause detail : Nat)
  | gone
  | open_
  | bad

/-- Collect one list of element reads. -/
def collect : List (Except TileRead Elem) → Except TileRead (List Elem)
  | [] => .ok []
  | .error e :: _ => .error e
  | .ok x :: r => match collect r with
    | .ok l => .ok (x :: l)
    | .error e => .error e

/-- Collect rows. -/
def collectRows : List (Except TileRead (List Elem)) → TileRead
  | [] => .ok []
  | .error e :: _ => e
  | .ok x :: r => match collectRows r with
    | .ok l => .ok (x :: l)
    | e => e

/-- A read of an element as operand rows use it; `sel` picks the code out of the bytes read. -/
def elemOf (r : ElemRead) (sel : Nat → Nat) : Except TileRead Elem :=
  match r with
  | .ok v b => .ok (some (sel v), b != 0)
  | .wait va => .error (.wait va)
  | .far pa => .error (.far pa)
  | .lost c d => .error (.lost c d)
  | .gone => .error .gone
  | .open_ => .error .open_

/-- Element (`c0`, `c1`) of an operand record (R238, R239, R241). -/
def operandElem (s : State) (w : EngineId) (ctx crew : Nat) (sup : Bool) (h : Shape) (c0 c1 : Nat) : Except TileRead Elem :=
  let rd := fun (addr n : Nat) => readElem s w ctx crew sup h.space addr n
  let nib := fun (k v : Nat) => if h.fmt == .q4n then v / 16 ^ (k % 2) % 16 else v
  if h.e 0 ≤ c0 || (if h.ndim = 0 then 1 else h.e 1) ≤ c1 then .ok (none, false)
  else if h.sparse = 0 then elemOf (rd (h.addr [c0, c1]) h.width) (nib c0)
  else
    let g := c0 / 8
    let (ma, mn) := h.metaAt c1 g
    match elemOf (rd ma mn) id with
    | .error e => .error e
    | .ok (none, mb) => .ok (none, mb)
    | .ok (some v, mb) => match metaPositions h.kept v with
      | none => .error .bad
      | some ps => match ps.findIdx? (· == c0 % 8) with
        | none => .ok (none, mb)
        | some r =>
          let st := g * h.kept + r
          match elemOf (rd (h.stored c1 st) h.width) (nib st) with
          | .ok (x, b) => .ok (x, b || mb)
          | .error e => .error e

/-- `rows` rows of `k` elements of an operand from (`c0`, `c1`). -/
def operandTile (s : State) (core ctx crew : Nat) (sup : Bool) (h : Shape) (c0 c1 k rows : Nat) : TileRead :=
  collectRows ((List.range rows).map (fun i => collect ((List.range k).map (fun j => operandElem s (.tile core) ctx crew sup h (c0 + j) (c1 + i)))))

/-- The value of an operand element, negated where the operation says so (R138, R143). -/
def elemX (f : Fmt) (neg : Bool) (e : Elem) : XVal :=
  let v := match e.1 with
    | none => XVal.fin false 0 0
    | some c => if f == .q4n then ofQ4 c else ofCode f c
  if neg then v.neg else v

/-- The value of an i8 element; −(−128) is 128 (R244). -/
def elemI (neg : Bool) (e : Elem) : Int :=
  let v : Int := match e.1 with
    | none => 0
    | some c => (BitVec.ofNat 8 c).toInt
  if neg then -v else v

/-- The chunk of an A format (R142). -/
def chunkOf (f : Fmt) : Nat :=
  match f with
  | .f16 | .bf16 => 16
  | .q4n => 64
  | _ => 32

/-- Cut a list into chunks of `n`. -/
def chunks {α : Type} (n : Nat) : Nat → List α → List (List α)
  | 0, _ => []
  | fuel + 1, l => if l.isEmpty then [] else l.take n :: chunks n fuel (l.drop n)

/-- One accumulator element of a float operation (R143): the new value and the events of its two results per chunk (R145). -/
def dotFloat (o : MOp) (acc : W32) (ra rb : List Elem) : W32 × List Nat :=
  let n := chunkOf o.fa
  let as := chunks n (o.kk / n + 1) (ra.map (elemX o.fa o.negA))
  let bs := chunks n (o.kk / n + 1) (rb.map (elemX o.fb o.negB))
  let r := (as.zip bs).foldl (fun (st : Option Nat × List Nat) ch =>
    let sum := sumExact ((ch.1.zip ch.2).map (fun x => XVal.mul x.1 x.2))
    let t := fresult .f32 .rne (ch.1 ++ ch.2) sum
    match st.1 with
    | none => (some t.1, st.2 ++ t.2)
    | some c =>
      let u := fresult .f32 .rne [ofCode .f32 c, ofCode .f32 t.1] (XVal.add .rne (ofCode .f32 c) (ofCode .f32 t.1))
      (some u.1, st.2 ++ t.2 ++ u.2)) (if o.noAcc then none else some acc.toNat, [])
  (BitVec.ofNat 32 (r.1.getD 0), r.2)

/-- One accumulator element of an i8 operation (R144). -/
def dotInt (o : MOp) (acc : W32) (ra rb : List Elem) : W32 :=
  let sum := (ra.zip rb).foldl (fun (a : Int) x => a + elemI o.negA x.1 * elemI o.negB x.2) 0
  BitVec.ofInt 32 ((if o.noAcc then 0 else (acc.toNat : Int)) + sum)

/-- The writes of a product of rows of A and columns of B into tile `d`. -/
def productWrites (o : MOp) (arr : ArraySt) (ra rb : List (List Elem)) : List TileWrite × List Nat :=
  let cells := ra.zipIdx.flatMap (fun a => rb.zipIdx.map (fun b => (a, b)))
  let outs := cells.map (fun c =>
    let key := tileKey o.d c.1.2 c.2.2
    let old := SMap.get arr.tiles 0 key
    let bad := (!o.noAcc && arr.poison.contains key) || c.1.1.any Prod.snd || c.2.1.any Prod.snd
    if o.fa == .i8 then ((key, dotInt o old c.1.1 c.2.1, bad), ([] : List Nat))
    else
      let r := dotFloat o old c.1.1 c.2.1
      ((key, r.1, bad), r.2))
  (outs.map Prod.fst, outs.flatMap Prod.snd)

/-- Chunks of a product, for its energy (R142, R314; DESIGN CHOICE, log 10). -/
def MOp.chunkCount (o : MOp) : Nat :=
  match o.kind with
  | .mma | .mmas | .mmaq => o.kk / chunkOf o.fa
  | _ => 0

/-- An operation of a core writes its tile and completes, with a fault for its batch where it has one; batches may retire (R245). -/
def finishOp (s : State) (core : Nat) (o : MOp) (ws : List TileWrite) (evs : List Nat) (fault : Option FaultInfo) : State :=
  let s1 := match s.group? o.gid with
    | some g => countEvent (charge (countFpx s g 0 evs) (s.ctxOf g) (11 + o.fa.code.toNat) o.chunkCount) (s.ctxOf g) 10 1 o.sup true
    | none => s
  let s2 := s1.modCore core (fun c =>
    let a := c.array.put ws
    { c with array := { a with ops := a.ops.map (fun x => if x.id = o.id then { x with complete := true, fault := fault } else x) } })
  -- the lines that it has consumed are pinned no longer (R253)
  let s3 := { s2 with pins := s2.pins.filter (fun p => p.2 != o.id) }
  wakeGroup (settleBatches s3 o.gid) o.gid (· == .image)

/-- An operation may complete: no earlier one on its tiles is incomplete, the stores before its `opready` are performed, the array is
not halted, the band lets it run, and the array has not failed at it (R236, R245, R246, R280, R337). -/
def opEnabled (s : State) (core : Nat) (o : MOp) : Bool :=
  let arr := (s.core core).array
  !o.complete && !o.stuck && !arr.halted && decide (s.cryo.band ≤ 2)
    && !(arr.ops.takeWhile (fun x => x.id != o.id)).any (fun x => !x.complete && x.tiles.any o.tiles.contains)
    && !s.reqs.any (fun e => e.2.gid == o.gid && !e.2.performed && e.2.kind != .load && e.2.kind != .frzq && decide (e.2.op < o.ready))
    && !s.copies.any (fun e => e.2.gid == o.gid && e.2.vals.isSome && decide (e.2.op < o.ready))

/-- The global lines, by virtual address, of an operand record that an operation reads. -/
def operandLines (rs : List (Nat × Nat × Nat)) : List Nat :=
  (rs.filter (fun r => r.1 = 0)).foldl (fun acc r => setIns (setIns acc (r.2.1 / 128)) ((r.2.1 + r.2.2 - 1) / 128)) []

/-- A line of an operand is read at its home after the recall of a lease, and pinned there; its tile is recorded (R57, R86, R253). It says
whether the slice held it. -/
def fetchOperandLine (core ctx crew : Nat) (o : MOp) (a : Bool × State) (l : Nat) : Bool × State :=
  match xlateAhead a.2 (.tile core) ctx (BitVec.ofNat 64 (128 * l)) o.sup .read false with
  | .error _ => a
  | .ok x =>
    let s1 := record a.2 crew false x.pa x.frz x.untr
    let line := lineOf x.pa
    if !inHbm x.pa then (a.1 && (SMap.find? s1.farCopies line).isSome, l2Window (hubCross s1 (dieOfCore core) line) ctx line)
    else
      let s2 := { s1 with pins := (line, o.id) :: s1.pins }
      (a.1 && (SMap.find? s2.l2 line).isSome, l2Serve (hubCross (recallLease s2 none line) (dieOfCore core) line) ctx line o.sup false)

/-- An operand is one request (R59), which counts once, as a hit where its slices held every line of it (R320; DESIGN CHOICE, log 55). -/
def fetchOperand (s : State) (core ctx crew : Nat) (o : MOp) (rs : List (Nat × Nat × Nat)) : State :=
  match operandLines rs with
  | [] => s
  | ls =>
    let r := ls.foldl (fetchOperandLine core ctx crew o) (true, s)
    countEvent r.2 ctx (if r.1 then 12 else 13) 1 o.sup true

/-- The array reads the global operands of an operation (R253). -/
def fetchOperands (s : State) (core ctx crew : Nat) (o : MOp) : State :=
  fetchOperand (fetchOperand s core ctx crew o { o with b := none }.operandReads) core ctx crew o { o with a := none }.operandReads

/-- An operation ends with free values in its region. -/
def finishFree (s : State) (core : Nat) (o : MOp) (fault : Option FaultInfo) : State :=
  let (fr, s1) := s.draw
  finishOp s1 core o (o.freeWrites fr) [] fault

/-- An operation waits for a page (R256, R297). -/
def awaitPage (s : State) (ctx : Nat) (o : MOp) (page : Nat) : State := askPager s ctx o.gid o.id page

/-- The homes ask for the window lines of an operation's operands that they do not hold (R253, R322). -/
def missOperands (s : State) (core ctx : Nat) (o : MOp) : State :=
  (operandLines o.reads).foldl (fun s l => match xlateAhead s (.tile core) ctx (BitVec.ofNat 64 (128 * l)) o.sup .read false with
    | .ok x => engineMiss s ctx x.pa
    | .error (.far pa) => engineMiss s ctx pa
    | .error _ => s) s

/-- A product with rows of A and columns of B. -/
def finishProduct (s : State) (core ctx crew : Nat) (o : MOp) (a b : TileRead) : State :=
  match a, b with
  | .wait va, _ => awaitPage s ctx o va
  | _, .wait va => awaitPage s ctx o va
  | .far _, _ => missOperands s core ctx o
  | _, .far _ => missOperands s core ctx o
  | .lost c d, _ => dropBad (finishFree s core o (some (FaultInfo.of c d)))
  | _, .lost c d => dropBad (finishFree s core o (some (FaultInfo.of c d)))
  | .gone, _ => finishFree s core o (some (FaultInfo.of 16 2))
  | _, .gone => finishFree s core o (some (FaultInfo.of 16 2))
  | .bad, _ => finishFree s core o (some (FaultInfo.of 1 16))
  | _, .bad => finishFree s core o (some (FaultInfo.of 1 16))
  | .ok ra, .ok rb =>
    if o.tainted then finishFree s core o none
    else
      let s1 := fetchOperands s core ctx crew o
      let w := productWrites o (s1.core core).array ra rb
      finishOp s1 core o w.1 w.2 none
  | _, _ => finishFree s core o none

/-- The B columns that a member supplies. -/
def MOp.bTile (o : MOp) (s : State) (core ctx crew : Nat) : TileRead :=
  match o.b with
  | some b => operandTile s core ctx crew o.sup b (originBK o.origin) (originBN o.origin) o.kk o.bCols
  | none => .open_

/-- The A rows of an operation. -/
def MOp.aTile (o : MOp) (s : State) (core ctx crew : Nat) : TileRead :=
  match o.a with
  | some a => operandTile s core ctx crew o.sup a (originAK o.origin) (originAM o.origin) o.kk o.mm
  | none => .open_

/-- The rows that `accld` loads: `nn` elements of `mm` rows (R241, R250). -/
def MOp.rowsOf (o : MOp) (s : State) (core ctx crew : Nat) : TileRead :=
  match o.a with
  | some a => operandTile s core ctx crew o.sup a (originAK o.origin) (originAM o.origin) o.nn o.mm
  | none => .open_

/-- The members of a joint operation: for each peer index, its crew where it is resident, whether it has issued, and the operation
with its core (R248). -/
def jointMembers (s : State) (c : Crew) (j : Nat) : List (Option (Nat × Crew) × Option (Nat × MOp)) :=
  (List.range 4).map (fun q =>
    match peerCrew s c q with
    | none => (none, none)
    | some id => match s.crew? id with
      | none => (none, none)
      | some k =>
        let ops := k.cores.flatMap (fun x => (s.core x).array.ops.filterMap (fun o =>
          if o.kind == .mmaq && o.joint == j && (s.core x).array.holder == some id then some (x, o) else none))
        (some (id, k), ops.head?))

/-- The parameters that members must agree on. -/
def MOp.params (o : MOp) : Nat × Nat × Nat × Fmt × Fmt × Bool × Bool × Bool := (o.mm, o.nn, o.kk, o.fa, o.fb, o.negA, o.negB, o.noAcc)

/-- Append the columns of the four quarters. -/
def joinQuarters : List TileRead → TileRead
  | [] => .ok []
  | .ok x :: r => match joinQuarters r with
    | .ok l => .ok (x ++ l)
    | e => e
  | e :: _ => e

/-- A read that holds its operation back: at a page, or at a window line. -/
def TileRead.blocks : TileRead → Option (Option Nat)
  | .wait va => some (some va)
  | .far _ => some none
  | _ => none

/-- A joint operation completes in all members at once, when all four have issued; a member that retired without issuing, or members
that disagree, make it fail, in each member in the order of its array (R245, R248). -/
def completeJoint (s : State) (crew : Nat) (o : MOp) : State :=
  match s.crew? crew with
  | none => s
  | some c =>
    let ms := jointMembers s c o.joint
    let issued := ms.filterMap Prod.snd
    let retired := ms.any (fun m => m.1.isNone)
    if retired then issued.foldl (fun s m => if opEnabled s m.1 m.2 then finishFree s m.1 m.2 (some (FaultInfo.of 16 2)) else s) s
    else if issued.length < 4 || !issued.all (fun m => opEnabled s m.1 m.2) then s
    else if issued.any (fun m => m.2.params != o.params) then
      issued.foldl (fun s m => finishFree s m.1 m.2 (some (FaultInfo.of 1 19))) s
    else
      let bs := ms.map (fun m => match m with
        | (some (id, k), some (x, o)) => (x, k.ctx, o, o.bTile s x k.ctx id)
        | _ => (0, 0, o, .open_))
      let bq := joinQuarters (bs.map (fun b => b.2.2.2))
      let taint := issued.any (fun m => m.2.tainted)
      let done := ms.filterMap (fun m => match m with
        | (some (id, k), some (x, p)) => some (x, k.ctx, id, { p with tainted := p.tainted || taint }, p.aTile s x k.ctx id)
        | _ => none)
      -- a page that is not resident, or a window line, holds the whole operation back: its member asks for it
      match bs.findSome? (fun b => b.2.2.2.blocks.map (fun w => (b.1, b.2.1, b.2.2.1, w))),
          done.findSome? (fun d => d.2.2.2.2.blocks.map (fun w => (d.1, d.2.1, d.2.2.2.1, w))) with
      | some (x, ctx, p, w), _ => match w with
        | some va => awaitPage s ctx p va
        | none => missOperands s x ctx p
      | none, some (x, ctx, p, w) => match w with
        | some va => awaitPage s ctx p va
        | none => missOperands s x ctx p
      | none, none => done.foldl (fun s d => finishProduct s d.1 d.2.1 d.2.2.1 d.2.2.2.1 d.2.2.2.2 bq) s

/-- The scales of row `i`: the block scale, or why not (R139, R249). -/
def blockScale (c : Crew) (o : MOp) (i : Nat) : XVal × Bool :=
  let code := Memory.readNat c.scratch (o.k1 + i) 1
  let ss := Memory.readNat c.scratch (o.k2 + 4 * i) 4
  let x := XVal.mul (ofCode .f32 ss) (.fin false (code + 1) (-8))
  (ofCode .f32 (roundTo .f32 .rne x).code, scratchBad c (o.k1 + i) 1 || scratchBad c (o.k2 + 4 * i) 4)

/-- `sacc` on tiles `p` and `d` (R249). -/
def saccWrites (c : Crew) (o : MOp) (arr : ArraySt) : List TileWrite × List Nat :=
  let outs := (List.range o.mm).flatMap (fun i =>
    let bi := blockScale c o i
    (List.range o.nn).map (fun j =>
      let kp := tileKey o.p i j
      let kd := tileKey o.d i j
      let p := SMap.get arr.tiles 0 kp
      let px := if o.fa == .i32 then ofInt p.toInt else ofCode .f32 p.toNat
      let x := XVal.mul bi.1 px
      let old := ofCode .f32 (SMap.get arr.tiles 0 kd).toNat
      let r := if o.noAcc then fresult .f32 .rne [bi.1, px] x else fresult .f32 .rne [bi.1, px, old] (XVal.add .rne old x)
      let bad := bi.2 || arr.poison.contains kp || (!o.noAcc && arr.poison.contains kd)
      ((kd, BitVec.ofNat 32 r.1, bad), r.2)))
  (outs.map Prod.fst, outs.flatMap Prod.snd)

/-- MATRIX_OP_COMPLETE (R245): an operation that may complete writes its tile. Its operands are read at one instant here; what is written between
the `opready` before it and the completion of its batch makes its result free, which covers every instant at which an element may have been read
(R121). -/
def execMatrixOpComplete (core op : Nat) (s : State) : Out :=
  .next (
    let arr := (s.core core).array
    match arr.ops.find? (fun o => o.id == op), arr.holder with
    | some o, some crew =>
      if !opEnabled s core o then s
      else match s.crew? crew with
        | none => s
        | some c =>
          match o.kind with
          | .mma | .mmas => finishProduct s core c.ctx crew o (o.aTile s core c.ctx crew) (o.bTile s core c.ctx crew)
          | .mmaq => completeJoint s crew o
          | .sacc =>
            if o.tainted then finishFree s core o none
            else
              let w := saccWrites c o arr
              finishOp s core o w.1 w.2 none
          | .accz => finishOp s core o (o.region.map (fun k => (k, 0, false))) [] none
          | .accld =>
            match o.rowsOf s core c.ctx crew with
            | .wait va => awaitPage s c.ctx o va
            | .far _ => missOperands s core c.ctx o
            | .lost x d => dropBad (finishFree s core o (some (FaultInfo.of x d)))
            | .ok rows =>
              if o.tainted then finishFree s core o none
              else
                let ws := rows.zipIdx.flatMap (fun r => r.1.zipIdx.map (fun e =>
                  (tileKey o.d r.2 e.2, BitVec.ofNat 32 (e.1.1.getD 0), e.1.2)))
                finishOp (fetchOperands s core c.ctx crew o) core o ws [] none
            | _ => finishFree s core o none
    | _, _ => s)

end Sys2Proof.Machine
end

