-- ==== Sys2Proof/Machine/Image.lean ====
section
/-! DEFINITION. Array images (R252): `accdrain`, `accfill`, and the halt of an array at a chunk boundary (R280). The layout of the
descriptors is the model's own (DESIGN CHOICE, log 40). -/

namespace Sys2Proof.Machine

/-! ## The image -/

/-- Pages of an image. -/
def imagePageCount : Nat := 69

/-- The pages of an image, or the fault of steps 2, 3, 7 and 8 of R242. A page that is mapped and not resident is `none` for
`accdrain`, whose writes bounce (R295). -/
def imageAt (s : State) (g : Group) (va : Word) (write : Bool) : Except FaultInfo (List (Option Xl)) :=
  if va.toNat % 4096 ≠ 0 then .error (FaultInfo.of 6 3)
  else
    let need : Need := if write then .write else .read
    let xs := (List.range imagePageCount).map (fun i =>
      let a := va + BitVec.ofNat 64 (4096 * i)
      (a, xlate s g.core (s.ctxOf g) a g.sup need false))
    let errs := xs.filterMap (fun x => match x.2 with
      | .error (.page 2 c n) => if write then none else some (x.1, XErr.page 2 c n)
      | .error e => some (x.1, e)
      | .ok _ => none)
    let colour := fun (x : Except XErr Xl) => match x with
      | .ok x => if x.frz then 0 else x.colour
      | .error (.page 2 c _) => c
      | .error _ => 0
    match errs.find? (fun x => x.2.info.cause == 0 || x.2.info.cause == 7), errs with
    | some x, _ => .error (x.2.lane0 x.1)
    | none, x :: _ => .error x.2.info
    | none, [] =>
      if write && (oks (xs.map Prod.snd)).any Xl.frz then .error (FaultInfo.of 9 1)
      else match (xs.foldl (fun cs x => if colour x.2 = 0 then cs else setIns cs (colour x.2)) []).find? (fun c => !g.colours.contains c) with
        | some c => .error { FaultInfo.of 13 1 with aux := BitVec.ofNat 16 c }
        | none => .ok (xs.map (fun x => match x.2 with
          | .ok x => some x
          | .error _ => none))

/-- The code of a kind in a descriptor. -/
def MKindOp.code (k : MKindOp) : Nat :=
  match k with
  | .mma => 0 | .mmas => 1 | .mmaq => 2 | .sacc => 3 | .accz => 4 | .accld => 5

/-- The kind of a code. -/
def MKindOp.ofCode (n : Nat) : MKindOp :=
  match n with
  | 0 => .mma | 1 => .mmas | 2 => .mmaq | 3 => .sacc | 4 => .accz | _ => .accld

/-- A flag at a bit. -/
def flagAt (b : Bool) (k : Nat) : Nat := if b then 2 ^ k else 0

/-- The 32 words of a descriptor; `b` is the index of the batch on `xc`, or 65,535 for the open batch. -/
def MOp.words (o : MOp) (b : Nat) : List Nat :=
  let shape := fun (h : Option Shape) => match h with
    | some h => h.words
    | none => List.replicate 8 0
  [o.kind.code + o.d * 2 ^ 4 + o.p * 2 ^ 8 + o.fa.code.toNat * 2 ^ 12 + o.fb.code.toNat * 2 ^ 16 + flagAt o.negA 20 + flagAt o.negB 21
      + flagAt o.noAcc 22 + flagAt o.sup 23 + flagAt o.tainted 24 + flagAt o.a.isSome 25 + flagAt o.b.isSome 26 + b * 2 ^ 32,
   o.mm + o.nn * 2 ^ 16 + o.kk * 2 ^ 32, o.origin.toNat, o.k1, o.k2, o.joint, o.id, (o.regs.map (2 ^ ·)).foldl Nat.lor 0] ++ shape o.a ++ shape o.b
    ++ List.replicate 8 0

/-- A descriptor's operation, its batch index, and the place of the operation in issue order. -/
def MOp.ofWords (g : Group) (gid id : Nat) (w : List (BitVec 64)) : MOp × Nat × Nat :=
  let f := fun (i lo n : Nat) => (w.getD i 0).toNat / 2 ^ lo % 2 ^ n
  let shape := fun (present : Nat) (i : Nat) => if f 0 present 1 = 1 then some (Shape.of ((w.drop i).take 8)) else none
  ({ MOp.base id gid g (MKindOp.ofCode (f 0 0 4)) (f 0 4 4) with
       p := f 0 8 4, a := shape 25 8, b := shape 26 16, origin := w.getD 2 0, mm := f 1 0 16, nn := f 1 16 16, kk := f 1 32 16,
       fa := fmtOfCode (f 0 12 4), fb := fmtOfCode (f 0 16 4), negA := f 0 20 1 == 1, negB := f 0 21 1 == 1, noAcc := f 0 22 1 == 1,
       k1 := f 3 0 64, k2 := f 4 0 64, joint := f 5 0 64, tainted := f 0 24 1 == 1, sup := f 0 23 1 == 1,
       regs := (List.range 64).filter (fun i => (w.getD 7 0).getLsbD i) },
   f 0 32 16, f 6 0 64)

/-- Write 8-byte words into a list of bytes by address. -/
def putWords (m : Memory) (a : Nat) : List Nat → Memory
  | [] => m
  | w :: r => putWords (Memory.writeNat m a w 8) (a + 8) r

/-- The bytes of an image by offset: tiles, header, descriptors. -/
def imageBytes (arr : ArraySt) (nbatch : Nat) (ops : List (MOp × Nat)) : Memory :=
  let tiles := arr.tiles.foldl (fun m e => Memory.writeNat m (4 * e.1) e.2.toNat 4) ([] : Memory)
  let opens := (ops.filter (fun o => o.1.batch.isNone)).length
  let head := 0x9600 * 2 ^ 48 + ops.length * 2 ^ 32 + nbatch * 2 ^ 24 + opens * 2 ^ 16 + flagAt arr.halted 1 + 1
  ops.zipIdx.foldl (fun m o => putWords m (0x40100 + 0x100 * o.2) (o.1.1.words o.1.2)) (putWords tiles 0x40000 [head])

/-- The parts of line `j` of a page's bytes: the whole line, or its words where some of them are poisoned. -/
def imageParts (cells : Memory) (bad : List Nat) (j : Nat) : List LinePart :=
  let words := (List.range 32).map (fun k => 32 * j + k)
  if words.any bad.contains then
    (List.range 32).map (fun k => (4 * k, 4, Memory.readNat cells (128 * j + 4 * k) 4, if bad.contains (32 * j + k) then 1 else 0))
  else [(0, 128, Memory.readNat cells (128 * j) 128, 0)]

/-- Page `i` of an image that is cut into pages: its bytes by offset, and its poisoned words. -/
def imageCut (img : Memory) (bad : List Nat) (i : Nat) : Memory × List Nat :=
  ((img.filter (fun c => decide (4096 * i ≤ c.1 ∧ c.1 < 4096 * (i + 1)))).map (fun c => (c.1 - 4096 * i, c.2)),
   (bad.filter (fun k => k / 1024 == i)).map (· % 1024))

/-- Lines of a page that an image has with `len` bytes there. -/
def imageLineCount (len : Nat) : Nat := (len + 127) / 128

/-- Write the part of an image that lies in its page `i`, which is resident: `len` bytes, at the home or through the home to the far end. -/
def writeImagePage (s : State) (gid : Nat) (g : Group) (va : Nat) (img : Memory) (bad : List Nat) (i : Nat) (x : Xl) (len : Nat) : State :=
  let (cells, poison) := imageCut img bad i
  let lines := List.range (imageLineCount len)
  let pa := x.pa
  let ctx := s.ctxOf g
  let line := fun (l : Nat) => decide (pa / 128 ≤ l ∧ 128 * l < pa + len)
  let s0 := l1Drop (record s g.crew true pa x.frz x.untr) g.core (fun l _ => line l)
  if inHbm pa then
    let s1 := (s0.leases.filter (fun e => line e.1)).foldl (fun s e => recallLease s none e.1) s0
    let s2 := { s1 with
      mem := cells.foldl (fun m c => Memory.setByte m (pa + c.1) c.2) (Memory.drop s1.mem pa (pa + len)),
      memPoison := (poison.map (pa / 4 + ·)).foldl setIns (s1.memPoison.filter (fun w => !decide (pa ≤ 4 * w ∧ 4 * w < pa + len))),
      scopes := s1.scopes.filter (fun e => !line e.1) }
    let s3 := lines.foldl (fun s j => l2Touch s (dieOfCore g.core) ctx (lineOf pa + j) g.sup true) s2
    noteForeign (notePreds (stampTile s3 pa) pa len) g.crew pa len
  else
    lines.foldl (fun s j =>
      if !(s.port (farOf s pa)).up then s
      else sendFar s (.image gid) (dieOfCore g.core) gid ctx (va + 4096 * i + 128 * j) (pa + 128 * j) 128
        (Memory.readNat cells (128 * j) 128) g.sup) s0

/-! ## `accdrain` -/

/-- The image of the array of a group: its operations that leave with it, each with the place of its batch on `xc`, and the bytes. -/
def imageOf (s : State) (gid : Nat) (g : Group) : Memory × Nat :=
  let arr := (s.core g.core).array
  let mine := arr.ops.filter (fun o => o.gid == gid)
  let ops := (if arr.halted then mine.filter (fun o => !o.complete) else []).map (fun o =>
    (o, (o.batch.bind (fun b => g.xc.findIdx? (fun e => e.op == b))).getD 65535))
  (imageBytes arr g.xc.length ops, ops.length)

/-- Bytes of an image with `n` operations. -/
def imageSize (n : Nat) : Nat := 0x40100 + 0x100 * n

/-- Page `i` of an image as the copy unit finds it: resident, not resident with its bytes bound for the bounce buffer (R295), or waiting. -/
def imagePage (s : State) (g : Group) (va : Word) (i : Nat) (write : Bool) : Except XErr Xl :=
  xlateAhead s (.copy g.core) (s.ctxOf g) (va + BitVec.ofNat 64 (4096 * i)) g.sup (if write then .write else .read) false

/-- The lines of an image from line `j` of page `i` on are written in order, as far as the bounce buffer has room: a page that is resident at once,
another line by line (R252, R295). It gives the lines that are written, 32 for each page. -/
def drainFrom (gid : Nat) (va : Word) (img : Memory) (bad : List Nat) (size : Nat) : Nat → Nat → Nat → State → Nat × State
  | 0, i, _, s => (32 * i, s)
  | fuel + 1, i, j, s =>
    match s.group? gid with
    | none => (32 * i + j, s)
    | some g =>
      let len := Nat.min 4096 (size - 4096 * i)
      if size ≤ 4096 * i then (32 * imagePageCount, s)
      else if imageLineCount len ≤ j then drainFrom gid va img bad size fuel (i + 1) 0 s
      else match imagePage s g va i true with
        | .ok x => drainFrom gid va img bad size fuel (i + 1) 0 (writeImagePage s gid g va.toNat img bad i x len)
        | .error (.far pa) => (32 * i + j, missFar s (s.ctxOf g) pa false)
        | .error (.page _ _ _) => match bounceSlot s (s.ctxOf g) with
          | .error s1 => (32 * i + j, s1)
          | .ok x =>
            let (cells, poison) := imageCut img bad i
            let page := va.toNat + 4096 * i
            drainFrom gid va img bad size fuel i (j + 1)
              (bounceLine s (s.ctxOf g) gid g.crew g.core 16 (page + 128 * j) page x (imageParts cells poison j))
        -- a page that maps nothing any longer takes no byte
        | .error (.fault _ _) => drainFrom gid va img bad size fuel (i + 1) 0 s

/-- The array's state of the group is in the image: with a halted array, operations not complete leave it, and the complete ones
of batches that have not retired are kept for the refill. -/
def leaveImage (s : State) (gid : Nat) (g : Group) (va : Word) : State :=
  let arr := (s.core g.core).array
  let mine := arr.ops.filter (fun o => o.gid == gid)
  let s1 := noteWrite s g.crew (0, va.toNat, 4096 * imagePageCount) gid s.nextId
  if !arr.halted then s1
  else
    let s2 := s1.modCore g.core (fun c => { c with array := { c.array with ops := c.array.ops.filter (fun o => o.gid != gid) } })
    s2.modGroup gid (fun g => { g with shelf := mine.filter MOp.complete, imaged := mine.any (fun o => !o.complete) })

/-- Writes of a group's image are on their way to a window. -/
def imageOut (s : State) (gid : Nat) : Bool := s.farWrites.any (fun e => e.2.owner == .image gid)

/-- An image that has been written: the instruction completes when every write of it is performed (R252), or with the fault of a window line
that its far end has refused or a port has lost, which `passed` then holds (R326, R328). -/
def drainDone (s : State) (gid : Nat) : State :=
  match s.group? gid with
  | none => s
  | some g =>
    if imageOut s gid then park s gid g .image
    else match ((g.passedHere.getD []).getD 1 []).head? with
      | some f => raiseCD s gid (f.toNat / 256) (f.toNat % 256)
      | none => finish s gid g .none true

/-- The group keeps how many lines of its image are written. -/
def Group.drainTo (g : Group) (n : Nat) : Group :=
  { g with passed := some (g.pc, g.sup, [BitVec.ofNat 64 n] :: (g.passedHere.getD []).drop 1) }

/-- An `accdrain` that has passed its checks, with `n` lines of its image written, goes on (R252, R295). -/
def drainOn (s : State) (gid : Nat) (g : Group) (va : Word) (n : Nat) : State :=
  if 32 * imagePageCount ≤ n then drainDone s gid
  else claimArray s gid g fun s =>
    let arr := (s.core g.core).array
    let pas := oks ((List.range imagePageCount).map (fun i => imagePage s g va i true))
    if (arr.halt && !arr.halted) || (!arr.halt && arr.ops.any (fun o => o.gid == gid && !o.complete)) then park s gid g .image
    else if n = 0 && pas.any (fun x => inHbm x.pa && granuleFrozen s x.pa) then raiseCD s gid 10 1
    else if n = 0 && pas.any (fun x => inWindow s.lnkid x.pa && !(s.port (farOf s x.pa)).up) then raiseCD s gid 18 0
    else
      let (img, nops) := imageOf s gid g
      let r := drainFrom gid va img arr.poison (imageSize nops) (33 * imagePageCount) (n / 32) (n % 32) s
      match r.2.group? gid with
      | none => r.2
      | some g1 =>
        let s1 := r.2.setGroup gid (g1.drainTo r.1)
        if r.1 < 32 * imagePageCount then park s1 gid (g1.drainTo r.1) .image else drainDone (leaveImage s1 gid (g1.drainTo r.1) va) gid

/-- `accdrain` (R252): it parks until the group's operations are complete, or until a requested halt has taken place. What has passed the checks of
R242 is not checked again. -/
def execAccdrain (k : BitVec 4) (a : SSrc) (s : State) : Out :=
  uniform { g := k, ss := [a] } s fun gid g s =>
    match g.passedHere with
    | some ws => drainOn s gid g (g.sval a) ((ws.getD 0 []).headD 0).toNat
    | none => asMatrixGroup s gid g fun s =>
      match imageAt s g (g.sval a) true with
      | .error f => stopWith s gid f
      | .ok _ =>
        let g1 := g.drainTo 0
        drainOn (s.setGroup gid g1) gid g1 (g.sval a) 0

/-! ## `accfill` -/

/-- Steps 4 to 8 of R242 for a saved operation. -/
def savedFault (s : State) (g : Group) (o : MOp) : Option FaultInfo :=
  let words := fun (h : Shape) => h.words.map (BitVec.ofNat 64)
  let spans := fun (_ : Unit) => match spanScratch s g o.spans with
    | some f => some f
    | none => spanChecks s g o.spans
  match o.kind, o.a, o.b with
  | .accz, _, _ => none
  | .sacc, _, _ => match spanScratch s g o.spans with
    | some f => some f
    | none => if o.k2 % 4 ≠ 0 then some (FaultInfo.of 6 1) else none
  | .accld, some a, _ =>
    if operandBad (words a) a o.fa false || a.space == 2 then some (FaultInfo.of 1 17)
    else if reachesOut a (originAK o.origin) (originAM o.origin) o.nn o.mm then some (FaultInfo.of 8 5)
    else spans ()
  | k, some a, some b =>
    if operandBad (words a) a o.fa (k == .mmas) || operandBad (words b) b o.fb false then some (FaultInfo.of 1 17)
    else if kMisaligned a (originAK o.origin) || kMisaligned b (originBK o.origin) then some (FaultInfo.of 8 7)
    else if reachesOut a (originAK o.origin) (originAM o.origin) o.kk o.mm
      || reachesOut b (originBK o.origin) (originBN o.origin) o.kk o.bCols then some (FaultInfo.of 8 5)
    else spans ()
  | _, _, _ => some (FaultInfo.of 8 6)

/-- The 8-byte words of an image from an offset, as the homes of its pages hold them. -/
def imageWords (s : State) (pas : List Nat) (o n : Nat) : List (BitVec 64) :=
  (List.range n).map (fun i =>
    let a := o + 8 * i
    BitVec.ofNat 64 ((s.homeNat? (pas.getD (a / 4096) 0 + a % 4096) 8).getD 0))

/-- The elements of the tiles in page `i` of an image. -/
def imageTiles (s : State) (i pa : Nat) (m : SMap W32) : SMap W32 :=
  if inWindow s.lnkid pa then
    (List.range 1024).foldl (fun m j => SMap.put m 0 (1024 * i + j) (BitVec.ofNat 32 ((s.homeNat? (pa + 4 * j) 4).getD 0))) m
  else
    (s.mem.filter (fun c => decide (pa ≤ c.1 ∧ c.1 < pa + 4096))).foldl (fun m c =>
      let o := c.1 - pa
      let k := 1024 * i + o / 4
      SMap.put m 0 k (SMap.get m 0 k ||| BitVec.ofNat 32 (c.2.toNat * 2 ^ (8 * (o % 4))))) m

/-- The window lines among the first `n` bytes of an image. -/
def imageLines (s : State) (pas : List Nat) (n : Nat) : List Nat :=
  pas.zipIdx.flatMap (fun p =>
    if inWindow s.lnkid p.1 then (List.range ((Nat.min 4096 (n - 4096 * p.2) + 127) / 128)).map (fun j => p.1 + 128 * j) else [])

/-- The homes ask for the window lines of an image that they lack, and the group parks; or the fault of one whose read was refused or lost. -/
def withImage (s : State) (gid : Nat) (g : Group) (pas : List Nat) (n : Nat) (body : State → State) : State :=
  let lines := imageLines s pas n
  match lines.findSome? s.farFault, lines.filter (fun a => (s.homeNat? a 1).isNone) with
  | some f, _ => raiseCD s gid f.1 f.2
  | none, [] => body s
  | none, ms => park (ms.foldl (fun s a => engineMiss s (s.ctxOf g) a) s) gid g .walk

/-- The poisoned elements of an image's tiles. -/
def imagePoison (s : State) (pas : List Nat) : List Nat :=
  (pas.take 64).zipIdx.flatMap (fun p =>
    (s.memPoison.filter (fun w => decide (p.1 ≤ 4 * w ∧ 4 * w < p.1 + 4096))).map (fun w => 1024 * p.2 + (4 * w - p.1) / 4))

/-- The array takes an image: tiles, saved operations in their order among the complete ones that were kept, and `xc`. -/
def fillImage (s : State) (gid : Nat) (g : Group) (pas : List Nat) (nbatch : Nat) (ops : List (MOp × Nat × Nat)) : State :=
  let same := g.xc.length == nbatch
  let xc := if same then g.xc else (List.range nbatch).map (fun i => (⟨s.nextId + i, false⟩ : CtrEntry))
  let s1 := if same then s else { s with nextId := s.nextId + nbatch }
  let saved := ops.map (fun o => (o.2.2, { o.1 with batch := (xc[o.2.1]?).map CtrEntry.op, colours := spanColours s g o.1.spans }))
  let all := saved.foldl (fun (m : SMap MOp) e => SMap.ins m e.1 e.2) (g.shelf.foldl (fun (m : SMap MOp) o => SMap.ins m o.id o) [])
  let tiles := (pas.take 64).zipIdx.foldl (fun m p => imageTiles s p.2 p.1 m) ([] : SMap W32)
  let bad := (imagePoison s pas).foldl setIns ([] : List Nat)
  let s2 := s1.modCore g.core (fun c => { c with array := { c.array with
    tiles := tiles, poison := bad, ops := c.array.ops ++ all.map Prod.snd } })
  let s3 := settleBatches (s2.setGroup gid { g with xc := xc, shelf := [], imaged := false }) gid
  match s3.group? gid with
  | some g1 => finish s3 gid g1 .none true
  | none => s3

/-- The copy unit reads the first `n` bytes of an image at its homes, after the recall of leases (R57, R253, R320). -/
def readImage (s : State) (g : Group) (xs : List Xl) (n : Nat) : State :=
  xs.zipIdx.foldl (fun s x => (List.range (imageLineCount (Nat.min 4096 (n - 4096 * x.2)))).foldl (fun s j =>
    let line := lineOf x.1.pa + j
    if inHbm x.1.pa then l2Touch (recallLease s none line) (dieOfCore g.core) (s.ctxOf g) line g.sup false
    else windowServe s (dieOfCore g.core) (s.ctxOf g) line g.sup) (recordAny s g.crew x.1)) s

/-- An `accfill` that has passed the checks of its pages: it waits until the group has no operation in the array and for its pages, checks the image,
and takes it (R242, R252). -/
def fillOn (s : State) (gid : Nat) (g : Group) (va : Word) : State :=
  let ps := (List.range imagePageCount).map (fun i => imagePage s g va i false)
  let xs := oks ps
  let pas := xs.map Xl.pa
  let away := ps.zipIdx.find? (fun p => match p.1 with
    | .error _ => true
    | .ok _ => false)
  if arrayUse s gid g ≠ 0 then park s gid g .image
  else match away with
  | some (.error (.far pa), _) => raise s gid (FaultInfo.far pa)
  | some (_, i) =>
    -- a page that is resident no longer: the unit waits for the pager (R256)
    let s1 := askPager s (s.ctxOf g) gid gid (va.toNat + 4096 * i)
    (match s1.group? gid with
      | some g1 => park s1 gid g1 .image
      | none => s1)
  | none =>
    if let some p := (pas.drop 64).find? (fun p => inHbm p && poisoned s p 4096) then killLanes s gid g g.live (memSrc s p)
    else withImage s gid g pas 0x40080 fun s =>
      let head := ((imageWords s pas 0x40000 1).getD 0 0).toNat
      let nops := head / 2 ^ 32 % 2 ^ 8
      let opens := head / 2 ^ 16 % 2 ^ 8
      if head / 2 ^ 48 ≠ 0x9600 ∨ head % 2 = 0 ∨ 64 < nops ∨ nops < opens then raiseCD s gid 8 6
      else withImage s gid g pas (imageSize nops) fun s =>
        let s2 := { s with nextId := s.nextId + nops }
        let ops := (List.range nops).map (fun i => MOp.ofWords g gid (s.nextId + i) (imageWords s pas (0x40100 + 0x100 * i) 32))
        match ops.findSome? (fun o => savedFault s g o.1) with
        | some f => stopWith s gid f
        | none => claimArray (readImage s2 g xs (imageSize nops)) gid g fun s =>
          fillImage s gid g pas (head / 2 ^ 24 % 2 ^ 8) ops

/-- `accfill` (R252). -/
def execAccfill (k : BitVec 4) (a : SSrc) (s : State) : Out :=
  uniform { g := k, ss := [a] } s fun gid g s =>
    if g.passedHere.isSome then fillOn s gid g (g.sval a)
    else asMatrixGroup s gid g fun s =>
      match imageAt s g (g.sval a) false with
      | .error f => stopWith s gid f
      | .ok _ =>
        let g1 := { g with passed := some (g.pc, g.sup, []) }
        fillOn (s.setGroup gid g1) gid g1 (g.sval a)

/-! ## Halting -/

/-- An operation or an earlier one of its array cannot complete: the array has failed at it, or an operand lies on a page that is not resident
(R256, R337). -/
def opBlocked (s : State) (ctx core : Nat) (o : MOp) : Bool :=
  let ops := (s.core core).array.ops
  ((ops.takeWhile (fun x => x.id != o.id)) ++ [o]).any (fun x =>
    !x.complete && (x.stuck || x.reads.any (fun r => r.1 = 0 && pageAway s ctx r.2.1)))

/-- A joint operation is in flight on an array: its four members have issued it, and it is not complete (R248, R280); one that cannot complete is held
back (DEDUCED, log 51). -/
def jointInFlight (s : State) (arr : ArraySt) : Bool :=
  arr.ops.any (fun o => o.kind == .mmaq && !o.complete && (match arr.holder.bind s.crew? with
    | none => false
    | some c =>
      let ms := (jointMembers s c o.joint).filterMap Prod.snd
      ms.length == 4 && ms.all (fun m => !opBlocked s c.ctx m.1 m.2)))

/-- ARRAY_HALT (R280): an array whose halt is requested halts, with no joint operation in flight. -/
def execArrayHalt (core : Nat) (s : State) : Out :=
  .next (
    let c := s.core core
    if !c.array.halt || c.array.halted || jointInFlight s c.array then s
    else
      let s1 := s.setCore core { c with array := { c.array with halted := true } }
      s1.groups.foldl (fun s e => if e.2.core = core then wakeGroup s e.1 (· == .image) else s) s1)

end Sys2Proof.Machine
end

