-- ==== Sys2Proof/Machine/Monitor.lean ====
section
/-! DEFINITION. Implicit monitors: painting, waiting, notification, grants and releases (R63 to R82, R225). -/

namespace Sys2Proof.Machine

/-! ## Painting (R66, R67) -/

/-- Check 1 for a page at the edge of the range: the range covers only a part of it. -/
def partPage (lo hi : Nat) (va : Nat) (w : Except XErr Leaf) : Bool :=
  match w with
  | .ok l => part (if l.size = 4096 && pteC64 l.e then 65536 else l.size)
  -- a leaf that is not resident has its size too (R284)
  | .error (.page _ _ n) => part n
  | .error _ => false
where
  /-- The range covers a part of the page of `n` bytes. -/
  part (n : Nat) : Bool := decide (va - va % n < lo) || decide (hi < va - va % n + n)

/-- The fault of a painted range, by the checks in order; `painting` says that check 4 applies. -/
def paintFault (s : State) (g : Group) (painting : Bool) (a n : Word) : Option FaultInfo :=
  let ctx := s.ctxOf g
  let lo := a.toNat
  let hi := a.toNat + n.toNat
  let last := BitVec.ofNat 64 (hi - 4096)
  if lo % 4096 ≠ 0 || n.toNat % 4096 ≠ 0 || n.toNat = 0 || partPage lo hi lo (walk s ctx a)
    || partPage lo hi (hi - 4096) (walk s ctx last) then some (FaultInfo.of 6 5)
  else if let .error (.far pa) := walk s ctx last then some (FaultInfo.far pa)
  else
    let ps := pagesOf s ctx a n
    match rangePage ps with
    | some f => some f
    | none => match rangeProt s g.sup ps with
      | some f => some f
      | none => if painting && (rangeLeaves ps).any (fun p => pteFrz p.2.e) then some (FaultInfo.of 9 2) else none

/-- Write a colour into every leaf of a range, and begin the shootdown. -/
def paintRange (s : State) (gid : Nat) (g : Group) (a n : Word) (c : BitVec 12) : State :=
  let ls := rangeLeaves (pagesOf s (s.ctxOf g) a n)
  let s1 := ls.foldl (fun s p => patchLeaf s (s.ctxOf g) p.2 (fun e => c ++ (e.extractLsb' 0 52 : BitVec 52))) s
  beginShoot s1 gid g .paint a n [] []

/-- `paint` (R66). -/
def execPaint (k : BitVec 4) (a n : SSrc) (c : BitVec 12) (s : State) : Out :=
  uniform { g := k, ss := [a, n] } s fun gid g s =>
    match paintFault s g true (g.sval a) (g.sval n) with
    | some f => stopWith s gid f
    | none => paintRange s gid g (g.sval a) (g.sval n) c

/-- `unpaint` (R66): to colour 0; a frozen page is allowed. -/
def execUnpaint (k : BitVec 4) (a n : SSrc) (s : State) : Out :=
  uniform { g := k, ss := [a, n] } s fun gid g s =>
    match paintFault s g false (g.sval a) (g.sval n) with
    | some f => stopWith s gid f
    | none => paintRange s gid g (g.sval a) (g.sval n) 0

/-! ## Waiting and notification (R74 to R77) -/

/-- COLOURORDER with the colour named (R78). -/
def orderFault (detail : Nat) (c : BitVec 12) : FaultInfo := { FaultInfo.of 11 detail with aux := c.setWidth 16 }

/-- `mwait` (R74): release, registration and waiting in one step; it ends with the grant that follows a notification. -/
def execMwait (k : BitVec 4) (c : BitVec 12) (s : State) : Out :=
  uniform { g := k } s fun gid g s =>
    let ctx := s.ctxOf g
    match g.held.find? (fun e => e.1 == c.toNat) with
    | none => raise s gid (orderFault 2 c)
    | some e =>
      if g.held.any (fun h => decide (c.toNat < h.1)) then raise s gid (orderFault 3 c)
      else if coloursBusy s gid [c.toNat] then park s gid g .drain
      else
        let g1 := { g with held := g.held.filter (fun h => h.1 != c.toNat), rewait := some e }
        greenWait (freeSlate s ctx c.toNat) gid g1 (dieOfSlice (slateSlice ctx c.toNat)) (.colour ctx c.toNat)

/-- An `mwait` for colour `c`, where it stands, waits for the monitor from now on. -/
def Group.notified (g : Group) (ctx c : Nat) : Group :=
  let p := fun (st : Status) => st == .waiting (.colour ctx c)
  if g.places.any (fun x => p x.status) then
    { g with places := setPlace (fun x => p x.status) (fun x => { x with status := .parked .monitor, wants := [c] }) g.places }
  else if p g.status then { g with status := .parked .monitor, wants := [c] } else g

/-- A group that waits in the green room joins the queue of its monitor (R75). -/
def notifyGroup (s : State) (ctx c gid : Nat) : State := joinSlate (s.modGroup gid (fun g => g.notified ctx c)) ctx c gid

/-- What `mnotify` and `mnotifyall` share: the registered groups to move are the first, or all. -/
def notify (all : Bool) (k : BitVec 4) (c : BitVec 12) (s : State) : Out :=
  uniform { g := k } s fun gid g s =>
    let ctx := s.ctxOf g
    if !g.colours.contains c.toNat then raise s gid (orderFault 2 c)
    else
      let es := s.green.filter (fun e => e.key == .colour ctx c.toNat)
      let take := if all then es else es.take 1
      let s1 := finish s gid g .none true
      let s2 := { s1 with green := s1.green.filter (fun e => !take.contains e) }
      take.foldl (fun s e => notifyGroup s ctx c.toNat e.gid) s2

/-- `mnotify` (R75). -/
def execMnotify (k : BitVec 4) (c : BitVec 12) (s : State) : Out := notify false k c s

/-- `mnotifyall` (R75). -/
def execMnotifyall (k : BitVec 4) (c : BitVec 12) (s : State) : Out := notify true k c s

/-- The word of `mheld`: the colours held are numbered in ascending order (R77). -/
def heldWord (h : List (Nat × Nat)) (i : Nat) : Word :=
  let e := (h.foldl (fun m x => SMap.ins m x.1 x.2) ([] : SMap Nat)).getD i (0, 0)
  BitVec.ofNat 64 (e.2 * 2 ^ 32 + h.length * 2 ^ 16 + e.1)

/-- `mheld` (R77). -/
def execMheld (k : BitVec 4) (d : BitVec 6) (i : BitVec 4) (s : State) : Out :=
  uniform { g := k } s fun gid g s => finish s gid (g.writeS d.toNat (heldWord g.held i.toNat)) .none true

/-! ## Grants and releases -/

/-- A place waits for colour `c` next. -/
def Place.asks (c : Nat) (x : Place) : Bool := x.status == .parked .monitor && x.wants.head? == some c

/-- The instruction of a group waits for colour `c` next. -/
def Group.asksNow (g : Group) (c : Nat) : Bool := g.status == .parked .monitor && g.wants.head? == some c

/-- A group waits for colour `c` next, itself or where it took a trap at a stop point. -/
def Group.asks (g : Group) (c : Nat) : Bool := g.asksNow c || g.places.any (Place.asks c)

/-- A place that waited for colour `c` has it: an `mwait` has completed (R74), an instruction that lacks no colour more is replayed at
`eret` (R69 step 8), and another goes on to its next colour. -/
def Place.granted (c : Nat) (x : Place) : Place :=
  if !x.asks c then x
  else if x.rewait.isSome then { x with wants := [], rewait := none, status := .ready, done := true }
  else if x.wants.tail.isEmpty then { x with wants := [], status := .ready } else { x with wants := x.wants.tail }

/-- The frame depth at which a granted colour is recorded, and the level of the instruction that asked for it: the outermost (R69, R74). -/
def Group.grantAt (g : Group) (c : Nat) : Nat × Bool :=
  match (g.places.filter (Place.asks c)).getLast? with
  | some x => (match x.rewait with | some e => e.2 | none => x.frames, x.nest.isSome)
  | none => (match g.rewait with | some e => e.2 | none => g.frames.length, g.sup)

/-- A grant takes effect on its group (R69 steps 6 to 8, R74, R82): the lines of the colour are invalidated, the colour is held at the frame
depth of the instruction that asked for it, or at the depth it had before `mwait`, and the next colour of the instruction is requested. -/
def takeGrant (s : State) (ctx c gid : Nat) : State :=
  match s.group? gid with
  | none => s
  | some g =>
    let (depth, sup) := g.grantAt c
    let s1 := countEvent (markVolatile (l1Grant s g.core c) g.crew 1) ctx 16 1 sup true
    let g1 := { g with held := g.held ++ [(c, depth)], places := g.places.map (Place.granted c) }
    let s2 := if !g.asksNow c then s1.setGroup gid g1
      else if g.rewait.isSome then finish s1 gid { g1 with wants := [], rewait := none } .none true
      else if g.wants.tail.isEmpty then s1.setGroup gid { g1 with wants := [], status := .ready, stamp := s1.clock }
      else s1.setGroup gid { g1 with wants := g.wants.tail }
    let asks := (g1.places.filter (fun x => x.status == .parked .monitor)).filterMap (fun x => x.wants.head?)
      ++ (if g.asksNow c && g.rewait.isNone then g.wants.tail.head?.toList else [])
    asks.foldl (fun s d => joinSlate s ctx d gid) s2

/-- The backing area takes a slate entry that the slice has no room for (R68): 32 bytes, whose layout the spec does not give (free values;
DESIGN CHOICE, log 52). -/
def backSlate (s : State) (ctx c : Nat) : State :=
  match xlateWalk s ctx ((s.ctx ctx).slatebase + BitVec.ofNat 64 (32 * c)) true .write false with
  | .error _ => s
  | .ok x =>
    let (fr, s1) := s.draw
    ownThrough s1 ctx x ((List.range 4).map (fun i => (freeAt fr i).toNat))

/-- MONITOR_GRANT (R69, R70): a monitor without owner goes to the head of its queue. On a saved group the grant takes effect at
its restore (R79). -/
def execMonitorGrant (ctx c : Nat) (s : State) : Out :=
  .next (
    let k := slateKey ctx c
    let sl := SMap.get s.slates Slate.free k
    match sl.owner, sl.queue with
    | none, h :: r => match s.group? h with
      | none => s.setSlate k { sl with queue := r }
      | some g =>
        if !g.asks c then s
        else
          let s0 := if sl.backed then backSlate s ctx c else s
          let s1 := s0.setSlate k { sl with owner := some h, queue := r }
          if crewSaved s g then s1 else takeGrant s1 ctx c h
    | _, _ => s)

/-- MONITOR_RELEASE (R71): a group whose drain has ended takes up its `ret` or `mwait`, which releases its colours. -/
def execMonitorRelease (gid : Nat) (s : State) : Out := .next (wakeGroup s gid (· == .drain))

/-- The back-off of a group has ended. -/
def backoffDue (s : State) (gid : Nat) : Bool :=
  match SMap.find? s.backoffs gid with
  | some b => decide (b.due ≤ s.clock)
  | none => false

/-- The keys that a group waits for, outermost first. -/
def Group.keys (g : Group) : List WaitKey :=
  ((g.places.map Place.status).reverse ++ [g.status]).filterMap (fun st => match st with
    | .waiting k => some k
    | _ => none)

/-- MWAIT_BACKOFF_EXPIRE (R76): an unregistered `mwait` joins the slate queue as if notified. -/
def execMwaitBackoffExpire (gid : Nat) (s : State) : Out :=
  .next (match ((s.group? gid).map Group.keys).getD [] |>.findSome? (fun k => match k with
      | .colour ctx c => some (ctx, c)
      | .future _ => none) with
    | some (ctx, c) =>
      if backoffDue s gid then notifyGroup { s with backoffs := SMap.del s.backoffs gid } ctx c gid else s
    | none => s)

end Sys2Proof.Machine
end

