-- ==== Sys2Proof/Machine/Tasks.lean ====
section
/-! DEFINITION. Spawn bins, futures and event-counter reads (R39, R40, R227 to R231, R233). -/

namespace Sys2Proof.Machine

/-! ## Spawn bins (R39, R227, R228) -/

/-- Flush bin `i` of a core: its threads form a group that waits for placement. -/
def flushBin (s : State) (core i : Nat) : State :=
  let c := s.core core
  match c.bins[i]? with
  | none => s
  | some b =>
    let ctx := ((s.launch? b.launch).map Launch.ctx).getD 0
    let f : Flushed := ⟨ctx, b.launch, core, b.entry, b.threads.map Prod.snd, s.clock⟩
    { s.setCore core { c with bins := c.bins.eraseIdx i } with flushed := s.flushed ++ [f] }

/-- The context of a launch. -/
def launchCtx (s : State) (launch : Nat) : Option Nat := (s.launch? launch).map Launch.ctx

/-- The bin of a core that holds an entry address of a context, whichever launch spawned its threads (R39, R228). Its group is of the launch that spawned its
first thread; that an address of one context names no bin of another is read from R283 (DEDUCED, log 53). -/
def binIdx (s : State) (bs : List Bin) (launch : Nat) (entry : Word) : Option Nat :=
  bs.findIdx? (fun b => b.entry == entry && launchCtx s b.launch == launchCtx s launch)

/-- The bin whose oldest thread is oldest. -/
def oldestBin (bs : List Bin) : Nat :=
  (bs.zipIdx.foldl (fun (a : Option (Nat × Nat)) e => match a with
    | none => some (e.2, e.1.start)
    | some x => if e.1.start < x.2 then some (e.2, e.1.start) else some x) none).elim 0 Prod.fst

/-- A bin holds as many threads as the group width of its launch. -/
def binFull (s : State) (b : Bin) : Bool := ((s.launch? b.launch).map (fun l => decide (l.w ≤ b.threads.length))).getD true

/-- One thread enters a bin of its core (R39); a bin that is full is flushed. -/
def spawnThread (s : State) (core launch crew : Nat) (entry : Word) (args : List W32) : State :=
  let s0 :=
    let bs := (s.core core).bins
    if (binIdx s bs launch entry).isNone && decide (32 ≤ bs.length) then flushBin s core (oldestBin bs) else s
  let c := s0.core core
  let bins := match binIdx s0 c.bins launch entry with
    | some i => c.bins.modify i (fun b => { b with threads := b.threads ++ [(crew, args)] })
    | none => c.bins ++ [⟨entry, launch, [(crew, args)], s0.clock⟩]
  let s1 := s0.setCore core { c with bins := bins }
  match binIdx s1 bins launch entry with
  | some i => if ((bins[i]?.map (binFull s1)).getD false) then flushBin s1 core i else s1
  | none => s1

/-- `spawn` (R227): a release, then one thread per lane, ascending. -/
def execSpawn (k : BitVec 4) (a : SSrc) (b : VSrc) (s : State) : Out :=
  let vs := match b with
    | .reg r => [(VSrc.reg r, true), (VSrc.reg (r + 2), true)]
    | x => [(x, true)]
  withReads { g := k, ss := [a], vs := vs } s fun gid g eff s =>
    if eff = 0 then .next (finish s gid g .none true)
    else if !quiet s gid then .next (park s gid g .counters)
    else
      let r := match b with
        | .reg r => r.toNat
        | _ => 0
      let launch := ((s.crewOf g).map Crew.launch).getD 0
      let s1 := (lanesOf eff).foldl (fun s l => spawnThread s g.core launch g.crew (g.sval a)
        ((List.range 4).map (fun i => g.src.rdV (r + i) l))) (markVolatile s g.crew 2)
      .next (finish s1 gid g .none true)

/-- `binflush` (R228). -/
def execBinflush (k : BitVec 4) (a : SSrc) (s : State) : Out :=
  uniform { g := k, ss := [a] } s fun gid g s =>
    let launch := ((s.crewOf g).map Crew.launch).getD 0
    let s1 := match binIdx s (s.core g.core).bins launch (g.sval a) with
      | some i => flushBin s g.core i
      | none => s
    finish s1 gid g .none true

/-- SPAWN_BIN_TIMER_EXPIRE (R39). -/
def execSpawnBinTimerExpire (core : Nat) (entry : Word) (s : State) : Out :=
  .next (
    let due := fun (b : Bin) => match s.launch? b.launch with
      | some l => decide (b.start + l.spawnt ≤ s.clock)
      | none => true
    match (s.core core).bins.findIdx? (fun b => b.entry == entry && due b) with
    | some i => flushBin s core i
    | none => s)

/-! ## Futures (R229 to R231) -/

/-- The checks of R229 in order: the fault, or the translation. -/
def futureAt (s : State) (g : Group) (va : Word) (need : Need) : Except FaultInfo Xl :=
  if va.toNat % 8 ≠ 0 then .error { FaultInfo.of 6 1 with addr := va }
  else match xlate s g.core (s.ctxOf g) va g.sup need true with
    | .error e => .error (e.lane0 va)
    | .ok x =>
      if x.colour ≠ 0 then .error { FaultInfo.of 8 3 with addr := va }
      else if !inHbm x.pa then .error { FaultInfo.of 8 4 with addr := va }
      else .ok x

/-- A home step of `fget` or `fput` touches the L2 (R320), at the level of its instruction (R316). It counts in no latency class, which
are those of class 101 only. -/
def futureAccess (s : State) (g : Group) (sup : Bool) (pa : Nat) (write : Bool) : State :=
  l2Touch s (dieOfCore g.core) (s.ctxOf g) (lineOf pa) sup write

/-- `fget` (R230); through a frozen mapping it sets FRD (R86). -/
def execFget (k : BitVec 4) (d : BitVec 6) (a : SSrc) (s : State) : Out :=
  uniform { g := k, ss := [a] } s fun gid g s =>
    let va := g.sval a
    let s := tlbFill s g.core (s.ctxOf g) va
    match futureAt s g va .read with
    | .error f => stopWith s gid f
    | .ok x =>
      let pa := x.pa
      let s0 := if x.frz then record s g.crew false pa true false else s
      let s1 := futureAccess (markVolatile (recallLease s0 none (lineOf pa)) g.crew 4) g g.sup pa false
      let w := BitVec.ofNat 64 (Memory.readNat s1.mem pa 8)
      if memBad s pa 8 ≠ 0 then killLanes s1 gid g g.live (memBad s pa 8)
      else if !w.getLsbD 63 then greenWait s1 gid g (dieOfSlice (homeSlice pa)) (.future pa)
      else
        let s2 := l1Acquire s1 g.core .dv false
        finish { s2 with backoffs := SMap.del s2.backoffs gid } gid (g.writeS d.toNat (w &&& 0x7FFFFFFFFFFFFFFF)) .none true

/-- Every group registered on an address wakes, in order of registration, whatever its context (R40). -/
def wakeFuture (s : State) (pa : Nat) : State :=
  let es := s.green.filter (fun e => e.key == .future pa)
  es.foldl (fun s e => s.modGroup e.gid (fun g => { (g.setWait (· == Status.waiting (.future pa)) .ready) with stamp := s.clock }))
    { s with green := s.green.filter (fun e => e.key != .future pa) }

/-- `fput` (R231): a release, then the write and the wake in one step; a write that the home rejects is FROZENALIAS, precisely. -/
def execFput (k : BitVec 4) (a b : SSrc) (s : State) : Out :=
  uniform { g := k, ss := [a], scarry := [b] } s fun gid g s =>
    let va := g.sval a
    if !quiet s gid then park s gid g .counters
    else
      let s := tlbFill s g.core (s.ctxOf g) va
      match futureAt s g va .write with
      | .error f => stopWith s gid f
      | .ok x =>
        let pa := x.pa
        let v := (g.sval b &&& 0x7FFFFFFFFFFFFFFF) ||| 0x8000000000000000
        if tableBad s pa 8 true then raiseCD s gid 17 6
        else match homeWrite s (s.ctxOf g) (some g.core) false pa 8 v.toNat (g.sWords b) with
        | (false, s1) => raise s1 gid { FaultInfo.of 10 1 with addr := va }
        | (true, s1) =>
          let s2 := l1Update (record s1 g.crew true pa false false) g.core pa 8 v.toNat
          let s2 := noteWrite (noteForeign s2 g.crew pa 8) g.crew (0, va.toNat, 8) gid s2.nextId
          finish (wakeFuture (futureAccess s2 g g.sup pa true) pa) gid g .none true

/-- The level of the instruction with which a group waits for a key, itself or below traps taken at stop points (R316). -/
def Group.waitSup (g : Group) (key : WaitKey) : Bool :=
  match (g.places.filter (fun x => x.status == .waiting key)).getLast? with
  | some x => x.nest.isSome
  | none => g.sup

/-- GREEN_ROOM_BACKOFF_EXPIRE (R40): an unregistered waiter repeats its check at the home; it registers as soon as an entry is free. A poisoned word ends
the wait, and is consumed when `fget` goes on (R339). -/
def execGreenRoomBackoffExpire (gid : Nat) (s : State) : Out :=
  .next (match s.group? gid with
    | none => s
    | some g => match g.keys.findSome? (fun k => match k with
        | .future pa => some pa
        | .colour _ _ => none) with
      | none => s
      | some pa =>
        if !backoffDue s gid then s
        else
          let s1 := futureAccess (recallLease s none (lineOf pa)) g (g.waitSup (.future pa)) pa false
          let w := BitVec.ofNat 64 (Memory.readNat s1.mem pa 8)
          if w.getLsbD 63 || poisoned s1 pa 8 then
            { s1 with backoffs := SMap.del s1.backoffs gid }.setGroup gid
              { (g.setWait (· == Status.waiting (.future pa)) .ready) with stamp := s.clock }
          else greenRegister s1 gid (dieOfSlice (homeSlice pa)) (.future pa))

/-! ## Event counters -/

/-- CNT`k` as it reads: zero while it selects a fabric event that is not granted (R317). -/
def readCnt (c : Ctx) (k : Nat) : Word :=
  let cfg := SMap.get c.cntcfg 0 k
  if fabricCode (cfg.extractLsb' 0 8 : BitVec 8).toNat && !c.cntgrant then 0 else (SMap.get c.cnt 0 k).setWidth 64

/-- `rdcnt` (R233). -/
def execRdcnt (k : BitVec 4) (d : BitVec 6) (n : BitVec 2) (s : State) : Out :=
  uniform { g := k } s fun gid g s =>
    -- it waits for what reconvergence orders before it (R110, R318)
    if fencesHold s gid g then park s gid g .counters
    else finish (markVolatile s g.crew 5) gid (g.writeS d.toNat (readCnt (s.ctx (s.ctxOf g)) n.toNat)) .none true

end Sys2Proof.Machine
end

