-- ==== Sys2Proof/Machine/Launch.lean ====
section
/-! DEFINITION. Launches and retakes: the record and its checks (R33 to R36, R91), acceptance and rejection (R232, R298, R299), the
generation (R84, R95), and the decision of a retake (R92 to R94). -/

namespace Sys2Proof.Machine

/-! ## The generation (R84, R95) -/

/-- The generation advances: every lease is recalled first; past the last value it wraps. -/
def advanceGen (s : State) : State :=
  let s1 := { s with leases := [], cores := s.cores.map (fun (e : Nat × CoreSt) => (e.1, { e.2 with
    l1 := e.2.l1.map (fun (l : Nat × L1Line) => (l.1, { l.2 with leased := false })) })) }
  if s1.gen = 0xFFFFFFFF then { s1 with gen := 1, epoch := s1.epoch + 1, stamps := [], stampPoison := [], thawGen := 0, clearing := true }
  else { s1 with gen := s1.gen + 1 }

/-- STAMP_MAP_CLEARED (R95): the launch that was accepted at the wrap may proceed. -/
def execStampMapCleared (s : State) : Out :=
  .next { s with clearing := false, launches := s.launches.map (fun e => (e.1, { e.2 with clearing := false })) }

/-! ## The record (R33) -/

/-- The words of a record as they were read: 16 words of 8 bytes. -/
abbrev RecWords := List (BitVec 64)

/-- The word at a byte offset. -/
def recWord (r : RecWords) (o : Nat) : BitVec 64 := r.getD (o / 8) 0

/-- Bits `hi:lo` of the word at an offset. -/
def recField (r : RecWords) (o lo n : Nat) : Nat := (recWord r o).toNat / 2 ^ lo % 2 ^ n

/-- The words of the `8 * n` bytes from an address as their homes hold them; `none` where a home has to read them at the far end first
(R322). -/
def homeWords? (s : State) (pa n : Nat) : Option RecWords :=
  (List.range n).mapM (fun i => (s.homeNat? (pa + 8 * i) 8).map (BitVec.ofNat 64))

/-- The words of a record whose two halves lie at `p0` and `p1`. -/
def readRecord (s : State) (p0 p1 : Nat) : RecWords := ((homeWords? s p0 8).getD []) ++ ((homeWords? s p1 8).getD [])

/-- Crews of the grid. -/
def recCrews (r : RecWords) : Nat := recField r 0x08 0 32 * recField r 0x08 32 16 * recField r 0x08 48 16

/-- Groups that a crew puts on its first core. -/
def evenGroups (groups : Nat) (pair : Bool) : Nat := if pair then (groups + 1) / 2 else groups

/-- A crew satisfies R26 on an empty core or pair. -/
def fitsEmpty (groups nregs w : Nat) (pair : Bool) : Bool :=
  let n := evenGroups groups pair
  decide (n ≤ 32 ∧ n * nregs * w * 4 ≤ 524288)

/-- Dies of a context's partition (R309). -/
def diesOf (c : Ctx) : List Nat := (List.range 6).filter (fun d => c.vfcfg.getLsbD (8 + d))

/-- The cores of a context's partition. -/
def coresOf (s : State) (ctx : Nat) : List Nat := (diesOf (s.ctx ctx)).flatMap (fun d => (List.range 64).map (fun i => 64 * d + i))

/-- The cores of a quad. -/
def quadCores (c : Nat) : List Nat := (List.range 4).map (fun i => 4 * (c / 4) + i)

/-- A core is in service; a quad with a core out of service admits no quad set and no pair (R336). -/
def inService (s : State) (whole : Bool) (c : Nat) : Bool :=
  !(s.core c).outOfService && !(whole && (quadCores c).any (fun k => (s.core k).outOfService))

/-- How many crews of one shape an empty core holds at once (R26). -/
def perCore (groups nregs w scratch : Nat) : Nat :=
  if scratch ≠ 0 then 1
  else Nat.min 16 (Nat.min (32 / Nat.max 1 groups) (524288 / Nat.max 1 (groups * nregs * w * 4)))

/-- How many crews of a shape `n` cores hold at once, every core empty. -/
def capacity (n groups nregs w scratch : Nat) (pair : Bool) : Nat :=
  if pair then n / 2 * perCore (evenGroups groups true) nregs w scratch else n * perCore groups nregs w scratch

/-- The pages of the continuity record area. -/
def contPages (s : State) (ctx : Nat) (base : Word) (crews : Nat) : List (Nat × Except XErr Leaf) :=
  let lo := base.toNat - base.toNat % 4096
  let n := base.toNat % 4096 + 256 * crews
  rangePages s ctx ((n + 4095) / 4096) lo ((n + 4095) / 4096 * 4096)

/-- A byte range of HBM lies outside every frozen granule. -/
def unfrozen (s : State) (pa n : Nat) : Bool :=
  !s.freezeTable.any (fun e => decide (granuleOf pa ≤ e.1 ∧ e.1 ≤ granuleOf (pa + n - 1)) && granuleFrozen s (65536 * e.1))

/-- The pages of the continuity record area are mapped, resident, readable and writable by the user, and lie outside any frozen granule
(REASON 13, R90). -/
def contOk (s : State) (ctx : Nat) (base : Word) (crews : Nat) : Bool :=
  (contPages s ctx base crews).all (fun p => match p.2 with
    | .error _ => false
    | .ok l => match checkLeaf s.lnkid (BitVec.ofNat 64 p.1) false ⟨true, true, false⟩ true l.e l.size with
      | .ok x =>
        let lo := Nat.max base.toNat p.1 - p.1
        let hi := Nat.min (l.size - p.1 % l.size) (base.toNat + 256 * crews - p.1)
        unfrozen s (x.pa + lo) (hi - lo)
      | .error _ => false)

/-- The physical address of the word at 0x70 of a predecessor, whose record translates as a readable user address (REASON 12). A word that
lies on a page after that of its record's address translates through its own page, and gives REASON 12 too (DESIGN CHOICE, log 57). -/
def predPa (s : State) (ctx : Nat) (p : Word) : Except XErr Nat :=
  match xlateWalk s ctx p false .read false with
  | .error e => .error e
  | .ok x =>
    if p.toNat % 4096 + 0x70 < 4096 then .ok (x.pa + 0x70)
    else (xlateWalk s ctx (p + 0x70) false .read false).map Xl.pa

/-- The STATE in a predecessor's record, as its home holds it. -/
def predState (s : State) (pa : Nat) : Nat := ((s.homeNat? pa 8).getD 0) % 16

/-- The nonzero PREDs of a record. -/
def recPreds (r : RecWords) : List Word := [recWord r 0x30, recWord r 0x38, recWord r 0x40, recWord r 0x48].filter (· != 0)

/-- REASON 1: a reserved field or a field out of range. -/
def reason1 (r : RecWords) : Bool :=
  let spawnt := recField r 0x10 48 16
  recField r 0x10 40 8 != 0 || recField r 0x10 26 6 != 0 || recField r 0x10 13 5 != 0 || recField r 0x10 0 8 != 0
    || recWord r 0x50 != 0 || recWord r 0x58 != 0 || recWord r 0x60 != 0 || recWord r 0x68 != 0
    || recField r 0x70 16 16 != 0 || recField r 0x70 4 4 != 0 || recWord r 0x78 != 0
    || recField r 0x10 18 2 == 3 || decide (6 ≤ recField r 0x10 32 3) || decide (1 ≤ spawnt ∧ spawnt ≤ 255)
    || recCrews r == 0 || decide (2 ^ 32 - 1 < recCrews r)

/-- The conditions of R35 and R91 by REASON, for a record as read. -/
def reasonHolds (s : State) (ctx : Nat) (retake : Bool) (r : RecWords) (n : Nat) : Bool :=
  let state := recField r 0x70 0 4
  let cont := recWord r 0x28
  let pair := recField r 0x10 37 1 == 1
  let quad := recField r 0x10 36 1 == 1
  let groups := recField r 0x10 8 5 + 1
  let nregs := 8 * (recField r 0x10 20 6 + 1)
  let w := 16 * 2 ^ recField r 0x10 18 2
  let handler := recWord r 0x20
  match n with
  | 1 => reason1 r
  | 2 => recField r 0x00 0 6 != 0 || !pcOk handler || cont.toNat % 256 != 0
  | 3 => (decide (16 < groups) && !pair) || (pair && quad)
  | 4 => !fitsEmpty groups nregs w pair
  | 5 => quad && recCrews r % 4 != 0
  | 6 => recField r 0x10 35 1 == 1
      && (decide (capacity ((coresOf s ctx).filter (inService s (pair || quad))).length groups nregs w (recField r 0x10 32 3) pair < recCrews r)
        || decide ((s.ctx ctx).svcount < recCrews r))
  | 8 => (recPreds r).any (fun p => match predPa s ctx p with
      | .ok a => predState s a == 5
      | .error _ => false)
  | 9 => retake && (state == 0 || state == 5)
  | 10 => retake && cont == 0
  | 12 => (recPreds r).any (fun p => (predPa s ctx p).toOption.isNone)
  | 13 => cont != 0 && !contOk s ctx cont (recCrews r)
  | _ => false

/-- REASON 7, or the lowest that holds (R35). -/
def reasonOf (s : State) (ctx : Nat) (retake : Bool) (r : RecWords) : Option Nat :=
  let state := recField r 0x70 0 4
  if 1 ≤ state ∧ state ≤ 3 then some 7
  else [1, 2, 3, 4, 5, 6, 8, 9, 10, 12, 13].find? (reasonHolds s ctx retake r)

/-- The launch that a record describes. -/
def launchFrom (s : State) (ctx : Nat) (va : Word) (p1 : Nat) (retake : Bool) (issuer : Option Nat) (r : RecWords) : Launch :=
  let spawnt := recField r 0x10 48 16
  { ctx := ctx, recAddr := va, pa := p1 + 0x30, isRetake := retake, entry := recWord r 0x00,
    gx := recField r 0x08 0 32, gy := recField r 0x08 32 16, gz := recField r 0x08 48 16,
    spawnt := if spawnt = 0 then 4096 else spawnt, prio := recField r 0x10 38 2, pair := recField r 0x10 37 1 == 1,
    quad := recField r 0x10 36 1 == 1, coop := recField r 0x10 35 1 == 1, scratch := recField r 0x10 32 3,
    nregs := 8 * (recField r 0x10 20 6 + 1), w := 16 * 2 ^ recField r 0x10 18 2, groups := recField r 0x10 8 5 + 1,
    param := recWord r 0x18, handler := recWord r 0x20, cont := recWord r 0x28,
    preds := (recPreds r).filterMap (fun p => (predPa s ctx p).toOption), met5 := false,
    gen := BitVec.ofNat 32 (recField r 0x70 32 32), state := 0, decided := !retake, rerun := none, begun := 0,
    retired := 0, order := 0, eligibleSince := none, waited := 0, boost := 0, headSince := none, clearing := false, issuer := issuer,
    reject := 0, asker := issuer }

/-! ## Acceptance and rejection -/

/-- Launches and retakes that a context holds with STATE 1 to 3 (R299). -/
def heldLaunches (s : State) (ctx : Nat) : Nat :=
  (s.launches.filter (fun e => e.2.ctx == ctx && decide (1 ≤ e.2.state ∧ e.2.state ≤ 3))).length

/-- A launch is gone, with what is reserved for it; a submission that waits for room among 256 may go on (R299). -/
def dropLaunch (s : State) (lid : Nat) : State :=
  wakeAll { s with launches := SMap.del s.launches lid, reserved := s.reserved.filter (fun r => match r.key with
    | .launch k _ => k != lid
    | .spawn _ => true) } (· == .launch)

/-- The submission of a launch has its answer: its group takes up `launch` or `retake` again, or the mailbox goes on. A launch that is
rejected is gone. -/
def answerLaunch (s : State) (lid : Nat) (l : Launch) (w : Word) : State :=
  let s1 := match l.issuer with
    | some gid => s.modGroup gid (fun g => { g with
        subs := g.subs.map (fun x => if x.launch == lid then { x with answer := some w } else x) })
    | none => s.modCtx l.ctx (fun c => if c.mailBusy == some lid then { c with mailBusy := none } else c)
  let s2 := if l.reject ≠ 0 then dropLaunch s1 lid else s1.modLaunch lid (fun l => { l with issuer := none })
  match l.issuer with
  | some gid => wakeGroup s2 gid (· == .launch)
  | none => s2

/-- The 9600 writes the word at 0x70 of a submission's record and answers the submission with `w`: at once, or, where the record lies in a window, when
its far end has performed the write (R34, R106, R263, R322). -/
def writeAnswer (s : State) (lid : Nat) (l : Launch) (w : Word) : State :=
  if inWindow s.lnkid l.pa && (s.port (farOf s l.pa)).up then ownFar s (.launch lid w) l.ctx l.pa 8 l.word
  else answerLaunch (writeLaunchWord s l) lid l w

/-- The record of a rejection is written: STATE 5 and the answer, but for REASON 7 (R35, R232). -/
def rejectDone (s : State) (lid : Nat) : State :=
  match s.launch? lid with
  | none => s
  | some l =>
    if l.reject = 7 then answerLaunch s lid l (BitVec.ofNat 64 (7 * 256 + 5))
    else
      let l1 := { l with state := 5 }
      writeAnswer (s.modLaunch lid (fun _ => l1)) lid l1 (BitVec.ofNat 64 (l.gen.toNat * 2 ^ 32 + l.reject * 256 + 5))

/-- A launch is rejected: a record of cause 33, and the rest when it is written (R35, R276). Without a translation of the ring the
record is lost. -/
def rejectLaunch (s : State) (lid reason : Nat) : State :=
  match s.launch? lid with
  | none => s
  | some l =>
    let s1 := s.modLaunch lid (fun l => { l with reject := reason })
    let p : PendFault := ⟨l.ctx, none, 0, [{ FaultInfo.of 33 reason with addr := l.recAddr }], 0, 0, 2, false, some lid, none⟩
    let s2 := postRun s1 p
    if s2.pends.any (fun e => e.2.launch == some lid) then s2 else rejectDone s2 lid

/-- A launch is accepted: the generation advances, GEN and STATE 1 are written (R34, R84, R299). -/
def acceptLaunch (s : State) (lid : Nat) : State :=
  let s1 := advanceGen s
  let wrapped := s.gen == 0xFFFFFFFF
  match s1.launch? lid with
  | none => s1
  | some l =>
    let (o, s2) := s1.fresh
    let l1 := { l with gen := s2.gen, state := 1, order := o, clearing := wrapped }
    writeAnswer (s2.modLaunch lid (fun _ => l1)) lid l1 (BitVec.ofNat 64 (l1.gen.toNat * 2 ^ 32 + 1))

/-- The window address that a home has to read at the far end before a record can be read and examined (R322): its halves, what its
predecessors and its continuity area translate through, and the words of its predecessors. -/
def submitFar (s : State) (ctx p0 p1 : Nat) : Option Nat :=
  match homeWords? s p0 8, homeWords? s p1 8 with
  | none, _ => some p0
  | _, none => some p1
  | some a, some b =>
    let r := a ++ b
    let pred := (recPreds r).findSome? (fun p => match predPa s ctx p with
      | .error (.far pa) => some pa
      | .error _ => none
      | .ok pa => if (s.homeNat? pa 8).isNone then some pa else none)
    match pred with
    | some pa => some pa
    | none =>
      if recWord r 0x28 = 0 || reason1 r then none
      else (contPages s ctx (recWord r 0x28) (recCrews r)).findSome? (fun p => match p.2 with
        | .error (.far pa) => some pa
        | _ => none)

/-- The homes give up their copies of a record's lines, so that its next submission reads it afresh (R34). -/
def dropRecord (s : State) (p0 p1 : Nat) : State :=
  if inWindow s.lnkid p0 || inWindow s.lnkid p1 then dropCopy (dropCopy s p0) p1 else s

/-- Submit a record whose halves lie at `p0` and `p1` (R232, R298); there is room for it, and its homes hold what is read. -/
def submit (s0 : State) (ctx : Nat) (va : Word) (p0 p1 : Nat) (retake : Bool) (issuer : Option Nat) : Nat × State :=
  let r := readRecord s0 p0 p1
  let s := dropRecord s0 p0 p1
  let (lid, s1) := s.fresh
  let s2 := { s1 with launches := SMap.ins s1.launches lid (launchFrom s1 ctx va p1 retake issuer r) }
  (lid, match reasonOf s2 ctx retake r with
    | some n => rejectLaunch s2 lid n
    | none => acceptLaunch s2 lid)

/-- The fault with which the far end or a lost port answered the read of a record in a window (R326, R328; DESIGN CHOICE, log 47). -/
def recordFault (s : State) (p0 p1 : Nat) : Option (Nat × Nat) :=
  match s.farFault p0 with
  | some f => some f
  | none => s.farFault p1

/-- The submission of the instruction at which a group stands: the one that it made below as many traps taken at stop points (R232, R280). -/
def Group.subHere (g : Group) : Option Sub := g.subs.find? (fun x => x.level == g.places.length && x.pc == g.pc)

/-- A group takes the answer of its submission into `S[d]`, or waits for it. -/
def takeAnswer (s : State) (gid : Nat) (g : Group) (d : Nat) (x : Sub) : State :=
  match x.answer with
  | some w => finish s gid ({ g with subs := g.subs.filter (fun y => y.launch != x.launch) }.writeS d w) .none true
  | none => park s gid g .launch

/-- What `launch` and `retake` share (R232). -/
def launchIssue (retake : Bool) (k : BitVec 4) (d : BitVec 6) (a : SSrc) (s : State) : Out :=
  uniform { g := k, ss := [a] } s fun gid g s =>
    match g.subHere with
    | some x => takeAnswer s gid g d.toNat x
    | none =>
      let va := g.sval a
      let ctx := s.ctxOf g
      let s := tlbFill (tlbFill s g.core ctx va) g.core ctx (va + 64)
      if va.toNat % 64 ≠ 0 then raise s gid (FaultInfo.of 6 2)
      else match xlate s g.core ctx va g.sup .write true, xlate s g.core ctx (va + 64) g.sup .write true with
        | .error e, _ => stopWith s gid (e.lane0 va)
        | _, .error e => stopWith s gid (e.lane0 (va + 64))
        | .ok x0, .ok x1 =>
          if !quiet s gid then park s gid g .counters
          else if 256 ≤ heldLaunches s ctx then park s gid g .launch
          else if let some f := recordFault s x0.pa x1.pa then raiseCD s gid f.1 f.2
          else if let some pa := submitFar s ctx x0.pa x1.pa then raise s gid (FaultInfo.far pa)
          else
            let g1 := { g with subs := ⟨g.places.length, g.pc, s.nextId, none⟩ :: g.subs }
            let (_, s1) := submit (park s gid g1 .launch) ctx va x0.pa x1.pa retake (some gid)
            match s1.group? gid with
            | some g2 => (g2.subHere.map (takeAnswer s1 gid g2 d.toNat)).getD s1
            | none => s1

/-- `launch` (R232). -/
def execLaunch (k : BitVec 4) (d : BitVec 6) (a : SSrc) (s : State) : Out := launchIssue false k d a s

/-- `retake` (R91, R232). -/
def execRetake (k : BitVec 4) (d : BitVec 6) (a : SSrc) (s : State) : Out := launchIssue true k d a s

/-! ## The mailbox (R298) -/

/-- The write of the word at 0x70 of a launch that answers its submission. -/
def FarOwner.answers (lid : Nat) : FarOwner → Bool
  | .launch l _ => l == lid
  | .copy _ _ | .image _ | .own => false

/-- MAILBOX_ENTRY_TAKE: the next address is submitted, or dropped with a record of REASON 11. An entry whose record lies in a window
whose read is refused or lost is dropped in the same way: the spec names no outcome (DESIGN CHOICE, log 47). With HBM off nothing is taken or written
(R347, R357). -/
def execMailboxEntryTake (ctx : Nat) (s : State) : Out :=
  .next (if s.cryo.st = 0 ∨ s.cryo.st = 7 then s else
    let c := s.ctx ctx
    match c.mailbox, c.mailBusy with
    | va :: r, none =>
      let bad := fun (s : State) =>
        if fqRoom (s.ctx ctx) < 1 then s
        else
          let s1 := s.modCtx ctx (fun c => { c with mailbox := r })
          postRun s1 ⟨ctx, none, 0, [{ FaultInfo.of 33 11 with addr := va }], 0, 0, 2, false, none, none⟩
      let need : Need := ⟨true, true, false⟩
      if va.toNat % 64 ≠ 0 then bad s
      else match xlateWalk s ctx va false need true, xlateWalk s ctx (va + 64) false need true with
        | .error (.far pa), _ | _, .error (.far pa) => missFar s ctx pa false
        | .ok x0, .ok x1 =>
          if 256 ≤ heldLaunches s ctx then s
          else if (recordFault s x0.pa x1.pa).isSome then bad (dropBad s)
          else if let some pa := submitFar s ctx x0.pa x1.pa then missFar s ctx pa false
          else
            let s1 := s.modCtx ctx (fun c => { c with mailbox := r })
            let (lid, s2) := submit s1 ctx va x0.pa x1.pa false none
            -- a submission that waits for the fault queue, or for the far end of its record, holds the next entry back
            if ((s2.launch? lid).map (fun l => l.reject != 0)).getD false || s2.farWrites.any (fun e => e.2.owner.answers lid) then
              s2.modCtx ctx (fun c => { c with mailBusy := some lid })
            else s2
        | _, _ => bad s
    | _, _ => s)

/-! ## Predecessors and the decision of a retake (R36, R92 to R94) -/

/-- What the predecessors of a launch say: satisfied, wait, or rejected. -/
inductive PredView | satisfied | wait | rejected
  deriving DecidableEq, Repr

/-- Examine the predecessors (R36): one that reads STATE 5, or has read it since the acceptance, rejects. -/
def predView (s : State) (l : Launch) : PredView :=
  let st := l.preds.map (predState s)
  if l.met5 || st.any (· == 5) then .rejected
  else if st.all (fun x => x == 0 || x == 3 || x == 4) then .satisfied
  else .wait

/-- The address of the word of a predecessor that its home has to read at the far end first (R322). -/
def predFar (s : State) (l : Launch) : Option Nat := l.preds.find? (fun p => (s.homeNat? p 8).isNone)

/-- A continuity entry as the 9600 reads it: its translation and its words. -/
inductive EntryRead
  | ok (x : Xl) (r : RecWords)
  | lost
  | far (pa : Nat)

/-- The translation of a crew's continuity entry holds poisoned words (R339). -/
def entryPoisoned (s : State) (l : Launch) (k : Nat) : Bool :=
  match xlateWalk s l.ctx (l.cont + BitVec.ofNat 64 (256 * k)) false .read false with
  | .ok x => poisoned s x.pa 256
  | .error _ => false

/-- Read a continuity entry by a user read; `lost` where its translation fails, or the far end refuses the read or a port loses it (R92;
DESIGN CHOICE, log 47), or a word of it is poisoned (R339; log 64). -/
def readContEntry (s : State) (l : Launch) (k : Nat) : EntryRead :=
  match xlateWalk s l.ctx (l.cont + BitVec.ofNat 64 (256 * k)) false .read false with
  | .error (.far pa) => .far pa
  | .error _ => .lost
  | .ok x =>
    if poisoned s x.pa 256 || (s.farFault x.pa).isSome || (s.farFault (x.pa + 128)).isSome then .lost
    else match homeWords? s x.pa 16, homeWords? s (x.pa + 128) 16 with
      | some a, some b => .ok x (a ++ b)
      | none, _ => .far x.pa
      | _, none => .far (x.pa + 128)

/-- A stamp in a range word is above a generation. -/
def rangeNewer (s : State) (w : BitVec 64) (cgen : Nat) : Bool :=
  let first := w.toNat / 2 ^ 24
  let n := w.toNat % 2 ^ 24 + 1
  s.stamps.any (fun e => decide (first ≤ e.1 ∧ e.1 < first + n) && decide (cgen < e.2.toNat))

/-- A stamp of a range is poisoned. -/
def rangePoisoned (s : State) (w : BitVec 64) : Bool :=
  let first := w.toNat / 2 ^ 24
  s.stampPoison.any (fun t => decide (first ≤ t ∧ t < first + (w.toNat % 2 ^ 24 + 1)))

/-- The ranges of an entry that are in use: those read and those written (R87). -/
def entryRanges (r : RecWords) : List (BitVec 64) :=
  (List.range (Nat.min 24 (recField r 0 11 5))).map (fun i => recWord r (0x10 + 8 * i))
    ++ (List.range (Nat.min 6 (recField r 0 8 3))).map (fun i => recWord r (0xD0 + 8 * i))

/-- R92 for one crew; a stamp that is poisoned counts as newer (log 64). -/
def entryReruns (s : State) (r : RecWords) : Bool :=
  let w := recWord r 0
  let cgen := w.toNat / 2 ^ 32
  !w.getLsbD 0 || decide (recField r 0 16 8 ≠ s.epoch.toNat) || w.getLsbD 1 || w.getLsbD 2
    || (w.getLsbD 3 && decide (cgen < s.thawGen.toNat))
    || (entryRanges r).any (fun x => rangeNewer s x cgen || rangePoisoned s x)

/-- Crew `k` is re-run by itself. -/
def crewReruns (s : State) (l : Launch) (k : Nat) : Bool :=
  match readContEntry s l k with
  | .ok _ r => entryReruns s r
  | _ => true

/-- The re-run crews, widened by placement (R93). -/
def rerunSet (s : State) (l : Launch) : List Nat :=
  let n := l.gx * l.gy * l.gz
  let base := (List.range n).filter (crewReruns s l)
  if l.coop then (if base.isEmpty then [] else List.range n)
  else if l.quad then (List.range n).filter (fun k => base.any (fun b => b / 4 == k / 4))
  else base

/-- CGEN, the retake's start generation, and EPOCH of an entry left standing (R94): an ordinary user write. -/
def standEntry (s : State) (l : Launch) (k : Nat) : State :=
  match readContEntry s l k with
  | .ok _ r =>
    match xlateWalk s l.ctx (l.cont + BitVec.ofNat 64 (256 * k)) false .write true with
    | .error _ => s
    | .ok x =>
      let w := recWord r 0
      let v := l.gen.toNat * 2 ^ 32 + w.toNat / 2 ^ 24 % 2 ^ 8 * 2 ^ 24 + s.epoch.toNat * 2 ^ 16 + w.toNat % 2 ^ 16
      ownWords s l.ctx x.pa [v]
  | _ => s

/-- STATE 4 (R42, R84): the generation advances, the state is written, and the launch is complete. Which comes first the manual leaves open:
the model advances first, so that the write of STATE 4 is stamped with the new value (DESIGN CHOICE, log 58). -/
def completeLaunch (s : State) (lid : Nat) : State := dropLaunch (setLaunchState (advanceGen s) lid 4) lid

/-- The window address that a home has to read at the far end before a retake is decided (R322). -/
def decisionFar (s : State) (l : Launch) : Option Nat :=
  match predFar s l with
  | some pa => some pa
  | none => (List.range (l.gx * l.gy * l.gz)).findSome? (fun k => match readContEntry s l k with
    | .far pa => some pa
    | _ => none)

/-- A decision has to use a poisoned word, of a continuity entry or of the stamp map (R339). -/
def decisionPoisoned (s : State) (l : Launch) : Bool :=
  (List.range (l.gx * l.gy * l.gz)).any (fun k => entryPoisoned s l k || (match readContEntry s l k with
    | .ok _ r => (entryRanges r).any (rangePoisoned s)
    | _ => false))

/-- The group that submitted a retake whose decision uses a poisoned word takes PIPEERR 6 at its next stop point (R339). -/
def notePoison (s : State) (l : Launch) : State :=
  match l.asker with
  | some gid => if decisionPoisoned s l then s.modGroup gid (fun g => { g with pipe := g.pipe ++ [(6, none)] }) else s
  | none => s

/-- RETAKE_DECISION (R92 to R94). A rejected predecessor rejects the retake (R36). -/
def execRetakeDecision (lid : Nat) (s : State) : Out :=
  .next (match s.launch? lid with
    | none => s
    | some l =>
      if !l.isRetake || l.decided || l.state ≠ 1 || l.clearing || l.issuer.isSome || l.reject ≠ 0 then s
      else if l.met5 then rejectLaunch s lid 8
      else if let some pa := decisionFar s l then missFar s l.ctx pa false
      else match predView s l with
        | .wait => s
        | .rejected => rejectLaunch s lid 8
        | .satisfied =>
          let rr := rerunSet s l
          let stand := (List.range (l.gx * l.gy * l.gz)).filter (fun k => !rr.contains k)
          let s1 := stand.foldl (fun s k => standEntry s l k) (notePoison s l)
          let s2 := s1.modLaunch lid (fun l => { l with decided := true, rerun := some rr })
          if rr.isEmpty then completeLaunch s2 lid else s2)

end Sys2Proof.Machine
end

