-- ==== Sys2Proof/Machine/Far.lean ====
section
/-! DEFINITION. Events of the host and peer links: packets that arrive for this package's memory, answers to its own requests, the
link level, recalls of frozen replicas across packages, ports that go down and come up, and interrupts (R322 to R332). -/

namespace Sys2Proof.Machine

/-! ## Acceptance (R324) -/

/-- The header and data of a packet that arrives are counted; its flits cross the hub die (R317). -/
def flitsIn (s : State) (data : List Byte) : State := countFabric (countFabric s 34 (packetFlits data)) 32 (packetFlits data)

/-- A port from which a packet can arrive. -/
def portOpen (s : State) (far : Nat) : Bool := decide (far ≤ 16) && (s.port far).up

/-- A link ack (TYPE 6) or link nack (TYPE 7) leaves, naming a flit. It has no LSEQ of its own, and counts as a flit (R317). -/
def linkAnswer (s : State) (far ty lseq : Nat) : State :=
  countFabric (countFabric (s.modPort far (fun q => { q with answer := some (ty, lseq) })) 33 1) 32 1

/-- A packet arrives on a port (R324): it is accepted, and acknowledged, when its first flit carries the next expected LSEQ, its CRC is good, and there is
room for it; otherwise a link nack names the expected one. `p` holds the fields of its header and its data. -/
def accept (s : State) (far : Nat) (a : Arrival) (p : OutPacket) (body : State → State) : State :=
  if !portOpen s far then s
  else
    let q := s.port far
    if a.room && a.crc == { p with lseq := a.lseq }.crc && a.lseq == q.expect && decide (p.data.length ≤ 128) then
      let n := packetFlits p.data
      let s1 := s.modPort far (fun q => { q with expect := (q.expect + n) % 65536 })
      body (flitsIn (linkAnswer s1 far 6 ((q.expect + n - 1) % 65536)) p.data)
    else linkAnswer s far 7 q.expect

/-- A packet of a TYPE from a far end to this package, for a context, about an address of the sender's choice (R323). -/
def comesFrom (s : State) (far ty vf addr : Nat) (data : List Byte) : OutPacket :=
  { OutPacket.of ty vf addr data with src := far, dst := s.pkg }

/-! ## Packets that reach this package as a far end -/

/-- The region of an address belongs to a context (R290). -/
def ownedBy (s : State) (pa vf : Nat) : Bool := SMap.find? s.owners (pa / 0x200000) == some vf

/-- An access of a packet may be performed at its address (R322): in HBM, and for the host in a region of the packet's VF. Where
the HBM is off (R347) nothing is there, and the access is refused as one to an address that holds nothing (R326; DEDUCED, log 68). -/
def farAllowed (s : State) (p : Packet) (n : Nat) : Bool :=
  let last := p.addr + n - 1
  inHbm p.addr && inHbm last && hbmUp s p.addr && hbmUp s last && (p.src != 16 || ownedBy s p.addr p.vf && ownedBy s last p.vf)

/-- An answer to a packet. -/
def answer (s : State) (p : Packet) (ty code : Nat) (data : List Byte) : State :=
  sendPacket s p.src { OutPacket.of ty p.vf p.addr data with aseq := p.aseq, code := code }

/-- The header and data of a packet of a TYPE. -/
def packetOf (p : Packet) (ty : Nat) : OutPacket :=
  { lseq := p.link.lseq, ty := ty, vf := p.vf, src := p.src, dst := p.dst, aseq := p.aseq, aop := p.aop, typ := p.ty, ord := p.ord, len := p.len,
    code := 0, addr := p.addr, rseq := 0, data := p.data }

/-- A packet that this package is the destination of; a packet for another destination goes no further (DESIGN CHOICE, log 31). -/
def acceptHere (s : State) (p : Packet) (ty : Nat) (body : State → State) : State :=
  accept s p.src p.link (packetOf p ty) (fun s => if p.dst = s.pkg then body s else s)

/-- A read from a peer of a granule that is frozen is a frozen fill when the context has PFRZREP. -/
def peerFrozen (s : State) (p : Packet) : Bool := decide (p.src ≤ 15) && servesFrozen s p.addr && granted s p.vf 2

/-- A frozen fill to a peer sets the package's holder bit (R101, R331). -/
def peerHolder (s : State) (p : Packet) : State :=
  let e := s.frozenEntry (granuleOf p.addr)
  if peerFrozen s p then s.setFrozen (granuleOf p.addr) { e with holders := e.holders ||| BitVec.ofNat 22 (2 ^ (6 + p.src)) } else s

/-- LINK_READ (R325): performed at the home, never from an L1. The data carries the recall sequence number of its slice in RSEQ, and CODE 1
where it is a frozen fill (R103, R331; DESIGN CHOICE, log 31). -/
def execLinkRead (p : Packet) (s : State) : Out :=
  .next (acceptHere s p 0 fun s =>
    let n := p.len % 128 + 1
    if !farAllowed s p n then answer s p 11 3 []
    else
      let s1 := recallLease (recallLease s none (lineOf p.addr)) none (lineOf (p.addr + n - 1))
      let data := Memory.bytes s1.mem p.addr n
      sendPacket (peerHolder s1 p) p.src { OutPacket.of 3 p.vf p.addr data with
        aseq := p.aseq, code := if peerFrozen s1 p then 1 else 0, rseq := (SMap.get s1.sliceSeq 0 (homeSlice p.addr)).toNat })

/-- LINK_WRITE (R325, R326): performed and acknowledged, or refused when its granule is frozen. -/
def execLinkWrite (p : Packet) (s : State) : Out :=
  .next (acceptHere s p 1 fun s =>
    let n := p.data.length
    if !farAllowed s p n then answer s p 11 3 []
    else match homeWrite s p.vf none false p.addr n (natOfBytes p.data) 0 with
      | (true, s1) => answer (noteForeign s1 noCrew p.addr n) p 4 0 []
      | (false, s1) => answer s1 p 11 1 [])

/-- A journal keeps the 4,096 numbers up to the highest received (R327). -/
def Stream.journalize (st : Stream) (aseq : Nat) (old : Option Word) : Stream :=
  let high := match st.highest with
    | some h => if (aseq + 65536 - h) % 65536 < 32768 then aseq else h
    | none => aseq
  let kept := (SMap.ins st.journal aseq old).filter (fun e => decide ((high + 65536 - e.1) % 65536 < 4096))
  { st with highest := some high, journal := kept }

/-- LINK_ATOMIC (R114, R325 to R327): checked with system scope, performed at its home, journalled and answered. It waits while the home holds
the line for an atomic of this package. -/
def execLinkAtomic (p : Packet) (s : State) : Out :=
  .next (
    let line := lineOf p.addr
    if (SMap.find? s.lineHolds line).isSome then s
    else acceptHere s p 2 fun s =>
      let t := Fmt.ofCode p.ty
      let n := fmtBytes t
      let journal := fun (s : State) (old : Option Word) => s.modStream p.src p.vf (fun st => st.journalize p.aseq old)
      let refuse := fun (code : Nat) => answer (journal s none) p 11 code []
      let outsideOk := match SMap.find? s.scopes line with
        | some r => includes r.scope false false
        | none => true
      let op := AOp.ofCode p.aop
      if 8 ≤ p.aop.toNat || !farAllowed s p n then refuse 3
      else if granuleFrozen s p.addr then refuse 1
      else if !outsideOk then refuse 2
      else
        let s1 := recallLease s none line
        let old := BitVec.ofNat 64 (Memory.readNat s1.mem p.addr n)
        let cmp := BitVec.ofNat 64 (natOfBytes (p.data.take n))
        let x := BitVec.ofNat 64 (natOfBytes (if op == .cas then p.data.drop n else p.data))
        let (new, writes, _) := atomicApply op t old x cmp
        let s2 := if writes then noteForeign (rawWrite s1 p.addr n new.toNat (if poisoned s1 p.addr n && op != .exch then 3 else 0)) noCrew p.addr n else s1
        let s3 := { s2 with syncLines := setIns s2.syncLines line, scopes := SMap.ins s2.scopes line ⟨.sy, 0, true⟩ }
        answer (journal s3 (some old)) p 5 0 (bytesOf old.toNat n))

/-! ## Answers to this package's own requests -/

/-- A request that was sent over a link and has no answer. -/
def sentReq (s : State) (rid : Nat) : Option Req :=
  (SMap.find? s.reqs rid).filter (fun r => r.sent && !r.performed && inWindow s.lnkid r.pa)

/-- The fault of a refusal (R326). -/
def refuseFault (code : Nat) : Nat × Nat := if code = 1 then (10, 1) else if code = 2 then (14, 2) else (8, 18)

/-- The recorded recall number of the home slice of a window address at its package (R103, R331); the host has none. -/
def recordedSeq (s : State) (pa : Nat) : Nat :=
  if inHost pa then 0 else (SMap.get s.farRecall 0 (96 * farOf s pa + homeSlice (farAddr pa))).toNat

/-- The home has its copy of a window line, or the fault of its read; what waits for it goes on (R322). -/
def landFar (s : State) (i line : Nat) (c : FarCopy) : State :=
  wakeAll { s with farReads := SMap.del s.farReads i, farCopies := SMap.ins s.farCopies line c } (· == .walk)

/-- The data that the far end gives a home for a context takes a place in the home's slice (R312). -/
def landData (s : State) (i line ctx : Nat) (c : FarCopy) : State :=
  let (t, s1) := s.fresh
  landFar (l2Fill s1 t ctx line false false) i line c

/-- A read of a window line that this package's home has made is answered; its copy carries the frozen flag where PFRZREP is granted (R101, R331). -/
def farData (s : State) (i : Nat) (x : FarRead) (rseq : Nat) (frozen : Bool) (data : List Byte) : State :=
  let far := farOf s (128 * x.line)
  let s1 := if x.own then linkUse s x.ctx far false (packetFlits data) else s
  if x.again || decide (rseq < recordedSeq s (128 * x.line)) then
    sendPacket { s1 with farReads := SMap.ins s1.farReads i { x with again := false } } far
      { OutPacket.of 0 x.ctx (farAddr (128 * x.line)) [] with len := 127 }
  else landData s1 i x.line x.ctx ⟨BitVec.ofNat 1024 (natOfBytes data), frozen && granted s1 x.ctx 2, none⟩

/-- The packet of read data for the line of a window address. -/
def readData (s : State) (x : ReadAnswer) (ctx pa : Nat) (data : List Byte) : OutPacket :=
  { comesFrom s (farOf s pa) 3 ctx (farAddr (128 * lineOf pa)) data with code := if x.frozen then 1 else 0, rseq := x.rseq }

/-- LINK_READ_DATA (R103, R325, R331): the data of a line that a core or a home has asked for. A fill whose number is below the recorded one
is discarded, and asked for again; else the line fills the L1 of the core when there is room, with the frozen flag where PFRZREP is
granted. -/
def execLinkReadData (x : ReadAnswer) (data : List Byte) (s : State) : Out :=
  .next (
    if data.length ≠ 128 then s
    else match sentReq s x.req, SMap.find? s.farReads x.req with
      | some r, _ =>
        if r.kind != .load && r.kind != .pref then s
        else accept s (farOf s r.pa) x.link (readData s x r.ctx r.pa data) fun s =>
          let s0 := linkUse s r.ctx (farOf s r.pa) false (packetFlits data)
          if x.rseq < recordedSeq s r.pa then { s0 with reqs := SMap.ins s0.reqs x.req { r with sent := false } }
          else
            let v := natOfBytes data
            let s1 := windowFill s0 r (BitVec.ofNat 1024 v) (x.frozen && granted s0 r.ctx 2)
            lanePerformed s1 x.req r 5 false (BitVec.ofNat 64 (v / 2 ^ (8 * (r.pa % 128)) % 2 ^ (8 * r.width))) 0
      | none, some f => accept s (farOf s (128 * f.line)) x.link (readData s x f.ctx (128 * f.line) data) fun s => farData s x.req f x.rseq x.frozen data
      | none, none => s)

/-- A group's written image has a fault: `accdrain` raises it when its other writes are done (R326, R328). -/
def Group.spoil (g : Group) (f : Nat × Nat) : Group :=
  let p := fun (x : Option (Word × Bool × List (List (BitVec 64)))) => x.map (fun y => (y.1, y.2.1, y.2.2.take 1 ++ [[BitVec.ofNat 64 (f.1 * 256 + f.2)]]))
  { g with passed := p g.passed, places := g.places.map (fun x => { x with passed := p x.passed }) }

/-- A write of this package to a window has been performed at its far end: the scope record of its line goes (R114), the home's copy is older and goes
(R106), and a predecessor's word has its STATE (R36). -/
def farPerformed (s : State) (pa n v : Nat) : State :=
  noteFive (passCopy { s with scopes := SMap.del (SMap.del s.scopes (lineOf pa)) (lineOf (pa + n - 1)) } pa) pa n v

/-- A write of an engine or of the 9600 itself to a window has its answer (R106, R115): performed, or with the fault that it ends with; one of the 9600's
own is lost in silence (R356). -/
def farWriteDone (s : State) (i : Nat) (w : FarWrite) (fault : Option (Nat × Nat)) : State :=
  let s0 := { s with farWrites := SMap.del s.farWrites i }
  let s1 := if fault.isNone then farPerformed s0 w.pa w.n w.v else s0
  match w.owner with
  | .own => s1
  | .launch lid a => match s1.launch? lid with
    | some l => answerLaunch s1 lid l a
    | none => s1
  | .image gid =>
    let s2 := match fault with
      | some f => s1.modGroup gid (fun g => g.spoil f)
      | none => s1
    if imageOut s2 gid then s2 else wakeGroup s2 gid (· == .image)
  | .copy cid e => match SMap.find? s1.copies cid with
    | none => s1
    | some c =>
      let s2 := if c.unit = 16 then l1DropLine s1 c.core (lineOf w.pa) else s1
      let s3 := if fault.isNone then noteWriteBy (some cid) (noteForeign s2 c.crew w.pa w.n) c.crew (0, w.va.toNat, w.n) c.gid (c.writer s2) else s2
      elementDone s3 cid e fault

/-- A store to a window is performed: the core's L1 takes it where it has not passed through (R109, R113). -/
def storePerformed (s : State) (r : Req) : State :=
  let s1 := farPerformed s r.pa r.width r.data.toNat
  let s2 := if r.forwarded then s1 else l1Update s1 r.core r.pa r.width r.data.toNat
  noteWrite (noteForeign s2 r.crew r.pa r.width) r.crew (0, r.va.toNat, r.width) r.gid r.op

/-- LINK_WRITE_ACK (R325): a store is performed, and clears the scope record of its line (R114); or an engine's write is. -/
def execLinkWriteAck (x : Answer) (s : State) : Out :=
  .next (match sentReq s x.req, SMap.find? s.farWrites x.req with
    | some r, _ =>
      if r.kind != .store then s
      else accept s (farOf s r.pa) x.link (comesFrom s (farOf s r.pa) 4 r.ctx (farAddr r.pa) []) fun s =>
        let s1 := linkUse s r.ctx (farOf s r.pa) false 1
        lanePerformed (storePerformed s1 r) x.req r 5 false 0 0
    | none, some w => accept s (farOf s w.pa) x.link (comesFrom s (farOf s w.pa) 4 w.ctx (farAddr w.pa) []) fun s =>
      farWriteDone (linkUse s w.ctx (farOf s w.pa) false 1) x.req w none
    | none, none => s)

/-- An atomic of a stream has its answer: the old value, or a refusal (R327). -/
def streamAnswer (s : State) (r : Req) (old : Option Word) : State :=
  if r.kind == .atom then s.modStream (farOf s r.pa) r.ctx (fun st => { st with
    outstanding := st.outstanding - 1,
    answered := (SMap.ins st.answered r.aseq old).filter (fun e => decide ((st.nextAseq + 65536 - e.1) % 65536 ≤ 4096)) }) else s

/-- LINK_ATOMIC_RESULT (R327): the atomic is performed: its line has its scope record (R114), no older copy of it stays with its core or its
home (R108), and an `f32` add counts its events (R145). -/
def execLinkAtomicResult (x : Answer) (old : Word) (s : State) : Out :=
  .next (match sentReq s x.req with
    | none => s
    | some r =>
      if r.kind != .atom then s
      else accept s (farOf s r.pa) x.link { comesFrom s (farOf s r.pa) 5 r.ctx (farAddr r.pa) (bytesOf old.toNat r.width) with aseq := r.aseq } fun s =>
        let s1 := streamAnswer (linkUse s r.ctx (farOf s r.pa) false (packetFlits (bytesOf old.toNat r.width))) r (some old)
        let v := BitVec.ofNat 64 (old.toNat % 2 ^ (8 * r.width))
        let (_, writes, evs) := atomicApply r.aop r.ty v r.data r.cmp
        let s2 := l1DropLine (dropCopy s1 r.pa) r.core (lineOf r.pa)
        let s3 := if writes then noteWrite (noteForeign s2 r.crew r.pa r.width) r.crew (0, r.va.toNat, r.width) r.gid r.op else s2
        lanePerformed (countAtomic (markAtomic s3 (lineOf r.pa) r.crew r.scope false) r.gid evs) x.req r 5 false v 0)

/-- The packet of a refusal. -/
def refusal (s : State) (code ctx pa aseq : Nat) : OutPacket :=
  { comesFrom s (farOf s pa) 11 ctx (farAddr pa) [] with code := code, aseq := aseq }

/-- LINK_REFUSE (R326): the lane's fault is held for report; a refused write leaves the L1 as a rejected one does (R100). The read or write of a
home or an engine ends with the fault too. -/
def execLinkRefuse (x : Answer) (code : Nat) (s : State) : Out :=
  .next (
    if code < 1 || 3 < code then s
    else match sentReq s x.req, SMap.find? s.farReads x.req, SMap.find? s.farWrites x.req with
      | some r, _, _ => accept s (farOf s r.pa) x.link (refusal s code r.ctx r.pa r.aseq) fun s =>
        let s1 := streamAnswer (linkUse s r.ctx (farOf s r.pa) false 1) r none
        let s2 := dropCopy (if r.kind == .store then l1DropLine s1 r.core (lineOf r.pa) else s1) r.pa
        if r.kind == .pref then { s2 with reqs := SMap.del s2.reqs x.req }
        else laneFaulted s2 x.req r r.ctr { reqFault r (refuseFault code).1 (refuseFault code).2 with report := true }
      | none, some f, _ => accept s (farOf s (128 * f.line)) x.link (refusal s code f.ctx (128 * f.line) 0) fun s =>
        let (fr, s1) := (if f.own then linkUse s f.ctx (farOf s (128 * f.line)) false 1 else s).draw
        landFar s1 x.req f.line ⟨freeLine fr, false, some (refuseFault code)⟩
      | none, none, some w => accept s (farOf s w.pa) x.link (refusal s code w.ctx w.pa 0) fun s =>
        farWriteDone (dropCopy (linkUse s w.ctx (farOf s w.pa) false 1) w.pa) x.req w (some (refuseFault code))
      | none, none, none => s)

/-! ## The link level (R324) -/

/-- Flit `a` is not after flit `b`, modulo 65,536. -/
def seqLe (a b : Nat) : Bool := decide ((b + 65536 - a) % 65536 < 32768)

/-- The last flit of a packet. -/
def OutPacket.last (p : OutPacket) : Nat := (p.lseq + packetFlits p.data - 1) % 65536

/-- LINK_ACK: the flits up to the number have been accepted. -/
def execLinkAck (port lseq : Nat) (s : State) : Out :=
  .next (if !portOpen s port then s
    else (flitsIn s []).modPort port (fun q => { q with unacked := q.unacked.filter (fun p => !seqLe p.last (lseq % 65536)) }))

/-- LINK_NACK: the flits from the expected number are sent again, and counted (R317); the port counts the nacks of one flit. -/
def execLinkNack (port lseq : Nat) (s : State) : Out :=
  .next (if !portOpen s port then s
    else
      let q := s.port port
      let l := lseq % 65536
      let again := ((q.unacked.filter (fun p => seqLe l p.last)).map (fun p =>
        if seqLe l p.lseq then packetFlits p.data else (p.last + 65536 - l) % 65536 + 1)).sum
      let n := if q.nacks ≠ 0 ∧ q.nackAt = l then q.nacks + 1 else 1
      countFabric ((flitsIn s []).modPort port (fun q => { q with nacks := n, nackAt := l })) 35 again)

/-- 1 ms of time. -/
def oneMs : Nat := 84000000

/-- The failed retrains of a port within 1 ms. -/
def recentFailures (s : State) (q : Port) : List Nat := q.retrains.filter (fun t => decide (s.time < t + oneMs))

/-- LINK_RETRAIN: after 16 nacks of one flit the port retrains; its failures count for 1 ms, whatever succeeds between them. -/
def execLinkRetrain (port : Nat) (ok : Bool) (s : State) : Out :=
  .next (
    let q := s.port port
    if !portOpen s port || q.nacks < 16 then s
    else
      let s1 := boxEvent s 3 9 6 port 63 0 (if ok then 1 else 0)
      s1.modPort port (fun q => if ok then { q with nacks := 0 } else { q with retrains := recentFailures s q ++ [s.time] }))

/-- Every enabled context is sent an interrupt (R332, R357). -/
def raiseAll (s : State) (vec : Nat) : State :=
  s.ctxs.foldl (fun s e => if (s.ctx e.1).en then raiseInt s e.1 vec else s) s

/-- The L1s of the cores and the homes lose their copies of lines of a package, of those with the frozen flag or of all, for which `p` holds (R102,
R331). -/
def dropReplicas (s : State) (pkg : Nat) (all : Bool) (p : Nat → Bool) : State :=
  let gone := fun (l : Nat) (frozen : Bool) => (frozen || all) && peerOf s.lnkid (128 * l) == some pkg && p l
  s.cores.foldl (fun s e => l1Drop s e.1 (fun l x => gone l x.frozen)) (dropWhere s (fun l x => gone l x.frozen))

/-- PORT_DOWN (R324, R328, R331): flits without acknowledgement are discarded, requests of cores, homes and engines without an answer are
lost, frozen replicas go, and the lost package's recall acks count as given. -/
def execPortDown (port : Nat) (s : State) : Out :=
  .next (
    let q := s.port port
    if !portOpen s port || (recentFailures s q).length < 3 then s
    else
      let s1 := s.modPort port (fun q => { q with up := false, unacked := [], nacks := 0, retrains := [] })
      let s2 := raiseAll (boxEvent s1 3 9 6 port 63 0 2) 3
      let s3 := s2.reqs.foldl (fun s e =>
        if e.2.sent && !e.2.performed && inWindow s.lnkid e.2.pa && farOf s e.2.pa == port then linkLost s e.1 e.2 else s) s2
      let s3 := s3.farReads.foldl (fun s e =>
        if farOf s (128 * e.2.line) == port then
          let (fr, s1) := s.draw
          landFar s1 e.1 e.2.line ⟨freeLine fr, false, some (18, 0)⟩
        else s) s3
      let s3 := s3.farWrites.foldl (fun s e => if farOf s e.2.pa == port then farWriteDone s e.1 e.2 (some (18, 0)) else s) s3
      let s4 := { s3 with linkStreams := s3.linkStreams.map (fun e =>
        if e.1 / 64 = port then (e.1, { e.2 with outstanding := 0 }) else e) }
      if port = 16 then s4
      else
        let bit := ~~~(BitVec.ofNat 22 (2 ^ (6 + port)))
        let s5 := dropReplicas s4 port false (fun _ => true)
        { s5 with
          farRecall := (List.range 96).foldl (fun m i => SMap.ins m (96 * port + i) 0xFFFFFFFF) s5.farRecall,
          freezeTable := s5.freezeTable.map (fun e => (e.1, { e.2 with holders := e.2.holders &&& bit })),
          thaws := s5.thaws.map (fun e => (e.1, (e.2.1, e.2.2 &&& bit))) })

/-- The far ends that a package can have: the host, and the other packages of its group (R322). -/
def farEnd (s : State) (far : Nat) : Bool :=
  far == 16 || decide (far ≤ (s.lnkid.extractLsb' 4 4).toNat) && far != (s.lnkid.extractLsb' 0 4).toNat

/-- Peer ports that are up: the package has 12 (R1). -/
def peersUp (s : State) : Nat := (s.ports.filter (fun e => decide (e.1 < 16) && e.2.up)).length

/-- PORT_UP (R324): a port starts afresh at LSEQ 0. With it the recall numbers that its loss had set to all ones start afresh: no fill from
before can arrive any more (R331; DESIGN CHOICE, log 56). -/
def execPortUp (port : Nat) (s : State) : Out :=
  .next (if !farEnd s port || (s.port port).up || (port != 16 && decide (12 ≤ peersUp s)) then s
    else { s with ports := SMap.ins s.ports port { Port.reset with up := true },
                  farRecall := s.farRecall.filter (fun e => port == 16 || e.1 / 96 != port) })

/-! ## Recalls across packages (R102, R103, R331) -/

/-- LINK_RECALL: a peer's granule home recalls what this package holds of a granule: every line of it goes from the L1s and the homes, and the number is
recorded for the eight slices of the granule's stack (R102, R103, R331; DEDUCED, log 66). -/
def execLinkRecall (x : FromPeer) (slice granule rseq : Nat) (s : State) : Out :=
  .next (if 15 < x.pkg then s
    else accept s x.pkg x.link { comesFrom s x.pkg 8 0 (65536 * granule) [] with rseq := rseq } fun s =>
      let base := (0xC00000000000 + x.pkg * 0x10000000000) / 65536
      let s2 := dropReplicas s x.pkg true (fun l => l / 512 == base + granule)
      let s3 := { s2 with farRecall := putSeqs s2.farRecall (96 * x.pkg + slice % 96) (BitVec.ofNat 32 rseq) }
      sendPacket s3 x.pkg { OutPacket.of 9 0 (65536 * granule) [] with rseq := rseq })

/-- LINK_RECALL_ACK: a peer acknowledges a recall. -/
def execLinkRecallAck (x : FromPeer) (granule rseq : Nat) (s : State) : Out :=
  .next (if 15 < x.pkg then s
    else accept s x.pkg x.link { comesFrom s x.pkg 9 0 (65536 * granule) [] with rseq := rseq } fun s => match SMap.find? s.thaws granule with
      | some t => if t.1 = rseq then ackThaw s granule (6 + x.pkg) else s
      | none => s)

/-! ## Interrupts (R332) -/

/-- LINK_INTERRUPT: the oldest interrupt leaves for the host. One that is raised while the host port is down stays queued, and leaves when the port is up:
the spec does not say (DESIGN CHOICE, log 67). -/
def execLinkInterrupt (s : State) : Out :=
  .next (match s.interrupts with
    | [] => s
    | (vf, vec) :: r =>
      if !(s.port 16).up then s
      else sendPacket { s with interrupts := r } 16 { OutPacket.of 10 vf 0 [] with code := vec })

/-! ## Snapshots of the usage counters (R313, R315) -/

/-- A usage counter as it reads: those of time in microseconds (R313). -/
def ucRead (m : SMap Nat) (k : Nat) : Nat := (if k ≤ 4 then SMap.get m 0 k / 84000 else SMap.get m 0 k) % 2 ^ 48

/-- LINES of L2OCC: the lines of every slice that carry a context's tag (R312). -/
def l2Lines (s : State) (ctx : Nat) : Nat := (s.l2.filter (fun e => e.2.owner == ctx)).length

/-- The samples of UC12 that are due are taken, one for each millisecond (R313). -/
def dueSamples (s : State) : State :=
  let n := s.time / oneMs - s.uc12At
  if n = 0 then s else s.ctxs.foldl (fun s e => addUc s e.1 12 (n * l2Lines s e.1)) { s with uc12At := s.time / oneMs }

/-- An entry of the black box as the management controller reads it, in its 32 bytes (R342). -/
def BoxEntry.bytes (e : BoxEntry) : List Byte :=
  bytesOf (e.eseq.toNat * 2 ^ 16 + e.sev % 256 * 2 ^ 8 + e.src % 256) 8
    ++ bytesOf (e.die % 65536 * 2 ^ 48 + e.unit % 65536 * 2 ^ 32 + e.vf % 64 * 2 ^ 26) 8
    ++ bytesOf e.addr.toNat 8 ++ bytesOf (e.time.toNat * 2 ^ 32 + e.detail.toNat) 8

/-- UC0_SNAPSHOT (R315): a read over the management port. A read of UC0 takes every usage counter of the context, with the samples of UC12 that are due,
and the time, in nanoseconds, in one step; a read of UC1 to UC15 returns what the last one took. A read of the black box gives an entry, oldest first
(R342), one of the certificate its bytes (R354): both change nothing. -/
def execUc0Snapshot (r : PortRead) (s : State) : Out :=
  .next (match r with
    | .uc ctx k =>
      if 64 ≤ ctx || 16 ≤ k then s
      else
        let s1 := if k = 0 then (dueSamples s).modCtx ctx (fun c => { c with ucSnap := c.uc, uctime := s.time / 84 }) else s
        { s1 with mgmtRead := some (BitVec.ofNat 64 (ucRead (s1.ctx ctx).ucSnap k)) }
    | .box i => { s with mgmtBytes := ((s.box[i]?).map BoxEntry.bytes).getD [] }
    | .certificate => { s with mgmtBytes := Sys2Proof.Config.certificate })

/-- UC12_SAMPLE (R313): once for each millisecond. -/
def execUc12Sample (s : State) : Out := .next (dueSamples s)

end Sys2Proof.Machine
end

