-- ==== Sys2Proof/Machine/Place.lean ====
section
/-! DEFINITION. Placement: what fits where (R26, R28, R50), the order of units (R301, R302), reservation and backfill (R303), and the
start of crews (R30, R34, R37, R39). -/

namespace Sys2Proof.Machine

/-! ## Whether contexts run -/

/-- Contexts run only in COLD and RETREAT (R347), not in band 4 (R2), and not while a warm reset's bring-up has its steps from 3 on to do (R352). -/
def State.running (s : State) : Bool := (s.cryo.st == 4 || s.cryo.st == 5) && decide (s.cryo.band < 4) && s.cryo.step != 3

/-- A launch or retake is eligible (R301). -/
def eligible (s : State) (l : Launch) : Bool :=
  (l.state == 1 || l.state == 2) && l.decided && !l.clearing && l.reject == 0 && l.begun < l.toRun
    && (l.state == 2 || (predFar s l).isNone && predView s l == .satisfied)

/-- A context has work (R311). -/
def hasWork (s : State) (ctx : Nat) : Bool :=
  s.crews.any (fun e => e.2.ctx == ctx) || s.launches.any (fun e => e.2.ctx == ctx && eligible s e.2)
    || s.flushed.any (fun f => f.ctx == ctx)

/-! ## Units (R301) -/

/-- A placement unit: the linear indices of its crews, how many groups each puts on its first and on its second core, their shape, and the
flushing core of a spawned one. -/
structure PUnit where
  ctx : Nat
  crews : List Nat
  pair : Bool
  quad : Bool
  needs : List (Nat × Nat)
  nregs : Nat
  w : Nat
  scratch : Nat
  home : Option Nat

/-- The `i`-th crew that a launch or retake starts. -/
def Launch.nthCrew (l : Launch) (i : Nat) : Option Nat :=
  match l.rerun with
  | some r => r[i]?
  | none => if i < l.toRun then some i else none

/-- The lowest-numbered unit of a launch that has not started. -/
def Launch.unit (l : Launch) : PUnit :=
  let n := if l.coop then l.toRun - l.begun else if l.quad then 4 else 1
  let need := if l.pair then ((l.groups + 1) / 2, l.groups / 2) else (l.groups, 0)
  { ctx := l.ctx, crews := (List.range n).filterMap (fun i => l.nthCrew (l.begun + i)), pair := l.pair, quad := l.quad,
    needs := List.replicate n need, nregs := l.nregs, w := l.w, scratch := l.scratch, home := none }

/-- The unit of a flushed group (R39). -/
def Flushed.unit (s : State) (f : Flushed) : PUnit :=
  let l := s.launch? f.launch
  { ctx := f.ctx, crews := [0xFFFFFFFF], pair := false, quad := false, needs := [(1, 0)], nregs := (l.map Launch.nregs).getD 8,
    w := (l.map Launch.w).getD 16, scratch := 0, home := some f.core }

/-! ## What fits (R26, R50) -/

/-- What a core holds: groups, bytes of registers, crews, and whether one has scratchpad. -/
structure Load where
  groups : Nat
  bytes : Nat
  crews : Nat
  scratch : Bool

/-- The load of a core: resident crews only. A retired group holds nothing; its crew keeps its slot (R41). -/
def coreLoad (s : State) (c : Nat) : Load :=
  let gs := s.groups.filter (fun e => e.2.core == c && !crewSaved s e.2)
  let ks := s.crews.filter (fun e => !e.2.saved && e.2.cores.contains c)
  ⟨gs.length, gs.foldl (fun n e => n + e.2.nregs * e.2.w * 4) 0, ks.length, ks.any (fun e => e.2.scratchBytes != 0)⟩

/-- The parts of a crew: its cores and how many of its groups each takes. -/
def PUnit.parts (u : PUnit) (need : Nat × Nat) (base : Nat) : List (Nat × Nat) :=
  if u.pair then [(base, need.1), (base + 1, need.2)] else [(base, need.1)]

/-- The cores of a unit. -/
def PUnit.cores (u : PUnit) (bases : List Nat) : List Nat := bases.flatMap (fun b => if u.pair then [b, b + 1] else [b])

/-- One crew more on its cores, above loads already planned. -/
def fitCrew (s : State) (u : PUnit) (m : SMap Load) (need : Nat × Nat) (base : Nat) : Option (SMap Load) :=
  (u.parts need base).foldl (fun (m : Option (SMap Load)) p => match m with
    | none => none
    | some m =>
      let l := match SMap.find? m p.1 with
        | some l => l
        | none => coreLoad s p.1
      let l1 : Load := ⟨l.groups + p.2, l.bytes + p.2 * u.nregs * u.w * 4, l.crews + 1, l.scratch || u.scratch != 0⟩
      if l1.groups ≤ 32 ∧ l1.bytes ≤ 524288 ∧ l1.crews ≤ 16 ∧ !(l.scratch && u.scratch != 0) then some (SMap.ins m p.1 l1) else none)
    (some m)

/-- Crews more, each on its cores. -/
def fitCrews (s : State) (u : PUnit) (m : SMap Load) (l : List ((Nat × Nat) × Nat)) : Option (SMap Load) :=
  l.foldl (fun (m : Option (SMap Load)) x => m.bind (fun m => fitCrew s u m x.1 x.2)) (some m)

/-- A core admits crews of a context: it lies on its dies, and its quad has no failing core (R309, R336). -/
def coreOpen (s : State) (ctx : Nat) (whole : Bool) (c : Nat) : Bool :=
  (diesOf (s.ctx ctx)).contains (dieOfCore c) && !(quadCores c).any (fun k => (s.core k).failing) && inService s whole c

/-- The first cores of a list of crews have the form that R28 asks. -/
def basesOk (u : PUnit) (bases : List Nat) : Bool :=
  bases.length == u.crews.length
    && (!u.pair || bases.all (fun b => b % 2 == 0))
    && (!u.quad || (bases.zip u.crews).all (fun b => b.1 % 4 == b.2 % 4
        && (bases.zip u.crews).all (fun x => x.2 / 4 != b.2 / 4 || x.1 / 4 == b.1 / 4)))

/-- A unit fits on the cores given. -/
def unitFits (s : State) (u : PUnit) (bases : List Nat) : Bool :=
  basesOk u bases && (u.cores bases).all (coreOpen s u.ctx (u.pair || u.quad)) && (fitCrews s u [] (u.needs.zip bases)).isSome

/-- A crew of a unit that has no place yet: its index and its needs. -/
abbrev Unplaced := Nat × (Nat × Nat)

/-- The crews that are placed together at one base: a quad set, or one crew. -/
def PUnit.set (u : PUnit) (todo : List Unplaced) : List Unplaced :=
  if u.quad then todo.takeWhile (fun x => x.1 / 4 == (todo.headD (0, (0, 0))).1 / 4) else todo.take 1

/-- The loads, the first cores and the crews left after as many sets as fit at one base. -/
def packAt (s : State) (u : PUnit) (base : Nat) : Nat → SMap Load × List Nat × List Unplaced → SMap Load × List Nat × List Unplaced
  | 0, a => a
  | n + 1, (m, bs, todo) =>
    let set := u.set todo
    let at_ := set.map (fun x => (x.2, if u.quad then base + x.1 % 4 else base))
    if set.isEmpty then (m, bs, todo)
    else match fitCrews s u m at_ with
      | none => (m, bs, todo)
      | some m1 => packAt s u base n (m1, bs ++ at_.map Prod.snd, todo.drop set.length)

/-- The first cores of the crews of a unit where it fits on cores for which `ok` holds, lowest cores first. -/
def findPlace (s : State) (u : PUnit) (ok : Nat → Bool) : Option (List Nat) :=
  let bases := (coresOf s u.ctx).filter (fun c =>
    (if u.quad then c % 4 == 0 else !u.pair || c % 2 == 0) && (if u.quad then quadCores c else u.cores [c]).all (fun k =>
      ok k && coreOpen s u.ctx (u.pair || u.quad) k))
  let r := bases.foldl (fun a b => if a.2.2.isEmpty then a else packAt s u b a.2.2.length a) (([] : SMap Load), ([] : List Nat), u.crews.zip u.needs)
  if r.2.2.isEmpty then some r.2.1 else none

/-- Resident and saved crews of a context (R281). -/
def crewCount (s : State) (ctx : Nat) : Nat := (s.crews.filter (fun e => e.2.ctx == ctx)).length

/-- A save slot remains for every crew of a unit (R281). -/
def slotsOk (s : State) (u : PUnit) : Bool := decide (crewCount s u.ctx + u.crews.length ≤ (s.ctx u.ctx).svcount)

/-- A context places units: it is scheduled, no switch from or to it is in progress (R311), and contexts run. -/
def placing (s : State) (ctx : Nat) : Bool :=
  let c := s.ctx ctx
  s.running && c.en && c.scheduled && !c.switching && !c.restoring

/-- The core that a flushed group goes to: the flushing core, else the next one of its die, in ascending order and from the die's last core on
to its first (DESIGN CHOICE, log 24), that allows it (R39). -/
def spawnCore (s : State) (u : PUnit) (ok : Nat → Bool) : Option Nat :=
  match u.home with
  | none => none
  | some h =>
    let d := dieOfCore h
    ((List.range 64).map (fun i => 64 * d + (h % 64 + i) % 64)).find? (fun c => ok c && unitFits s u [c])

/-- What is reserved for a unit. -/
def reservedFor (s : State) (k : UnitKey) : Option (List Nat) := (s.reserved.find? (fun r => r.key == k)).map Reservation.cores

/-- A unit may be placed on a core: it is reserved for no other unit, and where something is reserved for the unit, it is that (R303). -/
def mayUse (s : State) (k : UnitKey) (c : Nat) : Bool :=
  s.reserved.all (fun r => if r.key == k then r.cores.contains c else !r.cores.contains c)

/-- A unit fits on cores that it may be placed on. -/
def unitCanFit (s : State) (k : UnitKey) (u : PUnit) : Bool :=
  match u.home with
  | some _ => (spawnCore s u (mayUse s k)).isSome
  | none => (findPlace s u (mayUse s k)).isSome

/-! ## The order of units (R301, R302) -/

/-- The ageing step in cycles (R302). -/
def ageStep (c : Ctx) : Nat := 2 ^ ((c.schedctl.extractLsb' 4 4 : BitVec 4).toNat + 10)

/-- Effective priority (R302): one more for each ageing step, those that no PRIORITY_AGEING has taken yet included. -/
def Launch.effPrio (s : State) (l : Launch) : Nat :=
  let steps := match l.eligibleSince with
    | some t => (s.clock - t) / ageStep (s.ctx l.ctx)
    | none => 0
  Nat.min 3 (l.prio + l.boost + steps)

/-- A launch goes before another. -/
def Launch.before (s : State) (a b : Launch) : Bool :=
  decide (b.effPrio s < a.effPrio s) || (a.effPrio s == b.effPrio s && decide (a.order < b.order))

/-- The eligible launches of a context. -/
def queueOf (s : State) (ctx : Nat) : List (Nat × Launch) := s.launches.filter (fun e => e.2.ctx == ctx && eligible s e.2)

/-- The name of the next unit of a launch. -/
def Launch.key (l : Launch) (lid : Nat) : UnitKey := .launch lid l.begun

/-- The flushed groups among a list as units of a context. -/
def flushedUnits (s : State) (ctx : Nat) (fs : List Flushed) : List (UnitKey × PUnit) :=
  (fs.filter (fun f => f.ctx == ctx)).map (fun f => (.spawn f, f.unit s))

/-- The units before a launch: flushed groups, and launches that go before it. -/
def unitsBefore (s : State) (l : Launch) : List (UnitKey × PUnit) :=
  flushedUnits s l.ctx s.flushed ++ ((queueOf s l.ctx).filter (fun e => e.2.before s l)).map (fun e => (e.2.key e.1, e.2.unit))

/-- The head unit of a context with the cycle from which its wait counts: a flushed group from its flush, the unit of a launch from when it became head,
also while its context is not scheduled. From when HEADWAIT counts the manual leaves open (R303; DESIGN CHOICE, log 70). -/
def headOf (s : State) (ctx : Nat) : Option (UnitKey × PUnit × Option Nat) :=
  match s.flushed.find? (fun f => f.ctx == ctx) with
  | some f => some (.spawn f, f.unit s, some f.since)
  | none =>
    let q := queueOf s ctx
    (q.find? (fun e => !q.any (fun x => x.2.before s e.2))).map (fun e => (e.2.key e.1, e.2.unit, e.2.headSince))

/-- HEADWAIT in cycles (R300, R303). -/
def headWait (c : Ctx) : Nat := 256 * Nat.max 1 (c.schedctl.extractLsb' 16 16 : BitVec 16).toNat

/-- What each cycle of the band clock does to the launches: an eligible one ages, and the head waits. The cycles of a launch that stops being
eligible count on when it is eligible again (R302). -/
def tickLaunches (s : State) : State :=
  if s.launches.isEmpty then s
  else
    { s with launches := s.launches.map (fun e =>
        if !eligible s e.2 then (e.1, match e.2.eligibleSince with
          | some t => { e.2 with eligibleSince := none, waited := s.clock - t, headSince := none }
          | none => { e.2 with headSince := none })
        else
          let head := s.flushed.all (fun f => f.ctx != e.2.ctx) && !(queueOf s e.2.ctx).any (fun x => x.2.before s e.2)
          (e.1, { e.2 with eligibleSince := some (e.2.eligibleSince.getD (s.clock - e.2.waited)),
                           waited := 0, headSince := if head then some (e.2.headSince.getD s.clock) else none })) }

/-- PRIORITY_AGEING (R302): one step of waiting eligible and unplaced raises the effective priority by one. -/
def execPriorityAgeing (lid : Nat) (s : State) : Out :=
  .next (match s.launch? lid with
    | none => s
    | some l => match l.eligibleSince with
      | some t =>
        let step := ageStep (s.ctx l.ctx)
        if eligible s l && decide (t + step ≤ s.clock) then
          s.modLaunch lid (fun l => { l with boost := Nat.min 3 (l.boost + 1), eligibleSince := some (t + step) })
        else s
      | none => s)

/-- Cores on which a head unit fits when they are free, and which it may use. -/
def reservable (s : State) (k : UnitKey) (u : PUnit) : Option (List Nat) :=
  match u.home with
  | some _ => (spawnCore { s with groups := [], crews := [] } u (mayUse s k)).map (fun c => [c])
  | none => findPlace { s with groups := [], crews := [] } u (mayUse s k)

/-- The head unit has waited HEADWAIT, and a placement has still to be reserved for it: until then no other unit is placed (R303). -/
def headDue (s : State) (ctx : Nat) (k : UnitKey) : Bool :=
  match headOf s ctx with
  | some (h, u, some t) => h != k && (reservedFor s h).isNone && decide (t + headWait (s.ctx ctx) ≤ s.clock) && (reservable s h u).isSome
  | _ => false

/-- HEAD_RESERVATION (R303): a head unit that has waited HEADWAIT and does not fit reserves a placement: cores on which it fits when they
are free, and which no other unit has reserved. -/
def execHeadReservation (ctx : Nat) (bases : List Nat) (s : State) : Out :=
  .next (match headOf s ctx with
    | some (k, u, some t) =>
      let cores := u.cores bases
      let there := match u.home with
        | some h => bases.all (fun b => dieOfCore b == dieOfCore h)
        | none => true
      if placing s ctx && (reservedFor s k).isNone && decide (t + headWait (s.ctx ctx) ≤ s.clock) && !unitCanFit s k u
        && unitFits { s with groups := [], crews := [] } u bases && there && cores.all (mayUse s k) then
        { s with reserved := s.reserved ++ [⟨ctx, k, cores⟩] }
      else s
    | _ => s)

/-! ## The start of crews -/

/-- A group at its start (R30); `live` are its lanes. -/
def newGroup (crew idx core w nregs : Nat) (live : Mask) (regs : Regs) (pc : Word) (clock : Nat) : Group :=
  { crew := crew, idx := idx, core := core, slot := 0, w := w, nregs := nregs, regs := regs, active := live, live := live, dead := 0, pc := pc,
    line := 0, entered := false, needBt := true, refetched := false, latches := [], window := 0, handlerLatch := none,
    trapLatch := none, skipped := none, stack := [], frames := [], handler := none, held := [], wants := [], rewait := none, passed := none, subs := [], bars := [], lc := [], sc := [], cc := [],
    xc := [], heldFaults := [], fences := [], lastRelease := 0, ptgt := [], queues := [], status := .ready, stamp := clock, issued := false,
    pair := none, afterPair := [], sup := false, tcause := 0, tpc := 0, trec := 0, tmask := 0, sscr := [],
    tfwd := false, trapAt := 0, trapE := 0, trapD := 0, trapRun := (0, 0), parks := [], pend := none, leaving := none, stopped := false, pager := none, pipe := [],
    places := [], shelf := [], imaged := false, ready := 0, opRegs := [], sHit := [], unwaited := [], vPoison := [], sPoison := [], mPoison := [] }

/-- The carve-out of a core becomes a crew's SCRATCH: every lease is returned and every L1 line invalidated (R50). -/
def setCarve (s : State) (core scratch : Nat) : State :=
  if scratch = 0 ∨ (s.core core).carve = scratch then s
  else (dropLeases s core).modCore core (fun c => { c with carve := scratch, l1 := [] })

/-- A group takes the lowest group slot that no other group of its core has (R305; which slot, the manual leaves open: DESIGN CHOICE, log 24). -/
def seat (s : State) (gid : Nat) : State :=
  match s.group? gid with
  | none => s
  | some g =>
    let used := (s.groups.filter (fun e => e.1 != gid && e.2.core == g.core && !crewSaved s e.2)).map (fun e => e.2.slot)
    s.setGroup gid { g with slot := ((List.range 32).find? (fun k => !used.contains k)).getD 0 }

/-- The groups of a crew start: numbers `i` on, the first `first` of them on the even core. -/
def startGroups (s : State) (cid : Nat) (l : Launch) (live : Mask) (regs : Regs) (pc : Word) (base first n : Nat) : State :=
  (List.range n).foldl (fun s i =>
    let (gid, s1) := s.fresh
    let g := newGroup cid i (if i < first then base else base + 1) l.w l.nregs live regs pc s.clock
    seat ((s1.setGroup gid g).modCrew cid (fun c => { c with gids := c.gids ++ [gid] })) gid) s

/-- A crew starts (R30, R313): with an acquire on its cores, at which the homes' copies of window lines go too (R112, R120). -/
def startCrew (s : State) (ctx lid : Nat) (l : Launch) (idx : Nat) (spawned : Bool) (pair : Bool) (scratch groups base : Nat)
    (live : Mask) (regs : Regs) (pc : Word) : State :=
  let cores := if pair then [base, base + 1] else [base]
  let (cid, s1) := s.fresh
  let c : Crew :=
    { ctx := ctx, launch := lid, idx := idx, spawned := spawned, cores := cores, started := groups, gids := [],
      scratchBytes := scratch * 65536 * (if pair then 2 else 1), scratch := [], absent := [], scratchPoison := [], bars := [],
      triggered := false, rcd := .empty, matrixGroup := none, mmaqCount := 0, recent := [], preempt := false, saved := false,
      slot := 0, hasImage := false, since := s.time, migrating := false, arrayKept := [] }
  let s2 := cores.foldl (fun s k => l1Acquire (setCarve s k scratch) k .sy pair) (dropCopies { s1 with crews := SMap.ins s1.crews cid c })
  let s3 := startGroups s2 cid l live regs pc base (if pair then (groups + 1) / 2 else groups) groups
  addUc s3 ctx 13 1

/-- The crews of a launch's unit start on their cores. -/
def placeLaunch (s : State) (lid : Nat) (l : Launch) (bases : List Nat) : State :=
  let u := l.unit
  let s1 := (u.crews.zip bases).foldl (fun s p =>
    startCrew s l.ctx lid l p.1 false l.pair l.scratch l.groups p.2 (fullMask l.w) .zero l.entry) s
  let s2 := s1.modLaunch lid (fun l => { l with begun := l.begun + u.crews.length, boost := 0, eligibleSince := some s.clock, waited := 0,
                                                headSince := none })
  let s3 := if l.state = 1 then setLaunchState s2 lid 2 else s2
  checkTriggered s3 lid

/-- The registers of a flushed group: `v0` to `v3` hold each thread's arguments (R39). -/
def threadRegs (ts : List (List W32)) : Regs :=
  ts.zipIdx.foldl (fun r t => t.1.zipIdx.foldl (fun r a => r.wrV a.2 t.2 a.1) r) .zero

/-- The reservation of a unit ends. -/
def endReservation (s : State) (k : UnitKey) : State := { s with reserved := s.reserved.filter (fun r => r.key != k) }

/-- A unit that goes before others fits now. -/
def anyFits (s : State) (us : List (UnitKey × PUnit)) : Bool := us.any (fun x => slotsOk s x.2 && unitCanFit s x.1 x.2)

/-- CREW_PLACE (R303): the next unit in order, or by backfill one before which none fits, on cores that fit and that it may use. `spawned` says
that `id` counts in the list of flushed groups; else it is a launch. A launch whose predecessor is rejected is rejected instead (R36). -/
def execCrewPlace (spawned : Bool) (id : Nat) (bases : List Nat) (s : State) : Out :=
  .next (
    if spawned then
      match s.flushed[id]? with
      | none => s
      | some f =>
        let u := f.unit s
        let k := UnitKey.spawn f
        match s.launch? f.launch, spawnCore s u (mayUse s k) with
        | some l, some c =>
          if !placing s f.ctx || !slotsOk s u || headDue s f.ctx k || bases != [c] || anyFits s (flushedUnits s f.ctx (s.flushed.take id)) then s
          else
            startCrew { endReservation s k with flushed := s.flushed.eraseIdx id } f.ctx f.launch l 0xFFFFFFFF true false 0 1 c
              (fullMask f.threads.length) (threadRegs f.threads) f.entry
        | _, _ => s
    else
      match s.launch? id with
      | none => s
      | some l =>
        if l.state = 1 && l.issuer.isNone && l.reject = 0 && !l.clearing && predView s l == .rejected then rejectLaunch s id 8
        else if l.state = 1 && l.reject = 0 && (predFar s l).isSome then missFar s l.ctx ((predFar s l).getD 0) false
        else
          let u := l.unit
          if !placing s l.ctx || !eligible s l || !slotsOk s u || headDue s l.ctx (l.key id) || !unitFits s u bases || !(u.cores bases).all (mayUse s (l.key id))
            || anyFits s (unitsBefore s l) then s
          else placeLaunch (endReservation s (l.key id)) id l bases)

end Sys2Proof.Machine
end

