-- ==== Sys2Proof/Machine/Retire.lean ====
section
/-! DEFINITION. Retirement: groups, crews and launches (R41, R42, R73, R90, R117, R236), world switches (R311), the early trigger (R38),
and fault records that waited for room (R276). -/

namespace Sys2Proof.Machine

/-! ## World switches (R311) -/

/-- The other contexts of a context's partition, in ascending order after it. -/
def partners (s : State) (ctx : Nat) : List Nat :=
  (List.range 64).map (fun i => (ctx + i) % 64) |>.filter (fun x =>
    (s.ctx x).en && diesOf (s.ctx x) == diesOf (s.ctx ctx) && x != ctx)

/-- The context becomes the scheduled one of its partition. Its saved crews are restored first, and its quantum starts when they are (R311
step 5). -/
def schedule (s : State) (ctx : Nat) : State :=
  s.modCtx ctx (fun c => { c with
    scheduled := true, part := c.vfcfg.extractLsb' 8 6,
    restoring := s.crews.any (fun e => e.2.ctx == ctx && e.2.saved), quantumStart := s.time })

/-- The dies of the partition on which a context is scheduled. -/
def Ctx.partDies (c : Ctx) : List Nat := (List.range 6).filter c.part.getLsbD

/-- A partition is in use: a context is scheduled on one of its dies, or another context has a crew there. -/
def partitionBusy (s : State) (ctx : Nat) : Bool :=
  let ds := diesOf (s.ctx ctx)
  s.ctxs.any (fun e => e.2.scheduled && e.2.partDies.any ds.contains)
    || s.crews.any (fun e => e.2.ctx != ctx && !e.2.saved && e.2.cores.any (fun k => ds.contains (dieOfCore k)))

/-- Enabled contexts with one of the dies `ds` in their partitions, in ascending order after a context, and that one last. -/
def successors (s : State) (ctx : Nat) (ds : List Nat) : List Nat :=
  ((List.range 64).map (fun i => (ctx + 1 + i) % 64)).filter (fun x => (s.ctx x).en && (diesOf (s.ctx x)).any ds.contains)

/-- Every partition with one of the dies `ds` that is not in use schedules the first of its contexts with work after `ctx`, else the first enabled
one. -/
def pickNext (s : State) (ctx : Nat) (ds : List Nat) : State :=
  let all := successors s ctx ds
  if !s.running then s
  else (all.filter (hasWork s) ++ all).foldl (fun s x => if partitionBusy s x then s else schedule s x) s

/-- Steps 3 to 5: with every crew saved, the L1s of the partition that the context leaves are invalidated and the next context is scheduled. -/
def endSwitch (s : State) (ctx : Nat) : State :=
  if !(s.ctx ctx).switching || s.crews.any (fun e => e.2.ctx == ctx && !e.2.saved) then s
  else
    let ds := (s.ctx ctx).partDies
    let s1 := (ds.flatMap (fun d => (List.range 64).map (64 * d + ·))).foldl (fun s c =>
      if (SMap.find? s.cores c).isNone then s else (dropLeases s c).modCore c (fun k => { k with l1 := [] })) s
    pickNext (s1.modCtx ctx (fun c => { c with scheduled := false, switching := false })) ctx ds

/-- Flush every bin of a context on the cores of its partition. -/
def flushBins (s : State) (ctx : Nat) : State :=
  s.cores.foldl (fun s e => e.2.bins.foldl (fun s b =>
    if ((s.launch? b.launch).map Launch.ctx).getD 64 = ctx then
      match binIdx s (s.core e.1).bins b.launch b.entry with
      | some i => flushBin s e.1 i
      | none => s
    else s) s) s

/-- Step 1: the context places nothing more, its reservation ends, its bins are flushed; requests are then posted to its crews. -/
def beginSwitch (s : State) (ctx : Nat) : State :=
  if (s.ctx ctx).switching || !(s.ctx ctx).scheduled then s
  else
    let s1 := flushBins { s with reserved := s.reserved.filter (fun r => r.ctx != ctx) } ctx
    endSwitch (s1.modCtx ctx (fun c => { c with switching := true, restoring := false })) ctx

/-- A scheduled context without work gives way to another one of its partition that has work. -/
def maybeSwitch (s : State) (ctx : Nat) : State :=
  if (s.ctx ctx).scheduled && !hasWork s ctx && (partners s ctx).any (hasWork s) then beginSwitch s ctx else s

/-! ## Crews and launches -/

/-- The range word of a first tile and a count (R87). -/
def rangeWord (r : Nat × Nat) : Nat := r.1 % 2 ^ 40 * 2 ^ 24 + (r.2 - 1) % 2 ^ 24

/-- The 32 words of a continuity entry (R87, R90). -/
def entryWords (s : State) (l : Launch) (r : Recording) : List Nat :=
  let rd := r.reads.map rangeWord
  let wr := r.writes.map rangeWord
  [s.gen.toNat * 2 ^ 32 + r.vcause.toNat * 2 ^ 24 + s.epoch.toNat * 2 ^ 16 + r.reads.length * 2 ^ 11 + r.writes.length * 2 ^ 8
      + flagAt r.frd 3 + flagAt (r.vcause != 0) 2 + flagAt r.ovf 1 + flagAt (!r.broken) 0,
   l.gen.toNat * 2 ^ 32] ++ rd ++ List.replicate (24 - rd.length) 0 ++ wr ++ List.replicate (6 - wr.length) 0

/-- The translation of a crew's entry, as a user write; `none` for a crew that keeps none (R90). -/
def entryAt (s : State) (c : Crew) (l : Launch) : Option (Except XErr Xl) :=
  if l.cont = 0 || c.spawned then none
  else some (xlateWalk s c.ctx (l.cont + BitVec.ofNat 64 (256 * c.idx)) false .write true)

/-- A crew's entry is written at its home, which forwards it where it lies in a window (R322); one that fails translation is not made
(R90). -/
def writeEntry (s : State) (c : Crew) (l : Launch) : State :=
  match entryAt s c l with
  | some (.ok x) => ownWords s c.ctx x.pa (entryWords s l c.rcd)
  | _ => s

/-- The window line that a home has to read before the entry of a crew can be translated (R322). -/
def entryFar (s : State) (cid : Nat) : Option Nat :=
  match (s.crew? cid).bind (fun c => (s.launch? c.launch).bind (entryAt s c)) with
  | some (.error (.far pa)) => some pa
  | _ => none

/-- The claim of a crew on an array ends (R236, R270). -/
def endClaim (s : State) (crew : Nat) (core : Nat) : State :=
  if (s.core core).array.holder = some crew then wakeAll (s.modCore core (fun c => { c with array := ArraySt.idle })) (· == .arrayClaim)
  else s

/-- A grid with every crew retired, flushed ones included: bins that remain are flushed at once, and with none left the launch is
complete (R39, R42). -/
def checkComplete (s : State) (lid : Nat) : State :=
  match s.launch? lid with
  | none => s
  | some l =>
    if l.begun < l.toRun || l.state < 2 || s.crews.any (fun e => e.2.launch == lid) || s.flushed.any (fun f => f.launch == lid) then s
    else
      let s1 := s.cores.foldl (fun s e => e.2.bins.foldl (fun s b =>
        if b.launch = lid then match binIdx s (s.core e.1).bins lid b.entry with
          | some i => flushBin s e.1 i
          | none => s
        else s) s) s
      if s1.flushed.any (fun f => f.launch == lid) then s1 else completeLaunch s1 lid

/-- A crew retires with its last group (R41). -/
def crewRetire (s : State) (cid : Nat) : State :=
  match s.crew? cid with
  | none => s
  | some c =>
    let s1 := match s.launch? c.launch with
      | some l => writeEntry s c l
      | none => s
    let s2 := c.cores.foldl (fun s k => endClaim s cid k) s1
    let s3 := { s2 with crews := SMap.del s2.crews cid }
    let s4 := s3.modLaunch c.launch (fun l => { l with retired := l.retired + 1 })
    let s5 := checkComplete (checkTriggered s4 c.launch) c.launch
    maybeSwitch (endSwitch s5 c.ctx) c.ctx

/-! ## Groups -/

/-- Records of faults that the drain retired (R117): each run when the ring has room for it. Whether all are written. -/
def recordHeldFaults (gid : Nat) : Nat → State → Bool × State
  | 0, s => (true, s)
  | n + 1, s =>
    match s.group? gid with
    | none => (true, s)
    | some g =>
      match g.heldFaults.foldl (fun (a : Option HeldFault) h => match a with
          | none => some h
          | some x => if h.op < x.op then some h else a) none with
      | none => (true, s)
      | some h =>
        let ctx := s.ctxOf g
        if fqRoom (s.ctx ctx) < h.recs.length then (false, s)
        else if let some pa := ringFar s ctx h.recs.length then (false, missFar s ctx pa false)
        else
          let recs := h.recs.map (fun r => { r with report := true })
          let s1 := s.setGroup gid { g with heldFaults := g.heldFaults.erase h }
          recordHeldFaults gid n (postRun s1 ⟨ctx, none, g.pc, recs, g.idx, crewIdx s g, 2, h.sup, none, none⟩)

/-- Every trace of a group in green rooms and slates goes; the monitors that it owns are released (R73). -/
def forgetGroup (s : State) (gid : Nat) : State :=
  { s with green := s.green.filter (fun e => e.gid != gid), backoffs := SMap.del s.backoffs gid, idles := SMap.del s.idles gid,
           slates := (s.slates.map (fun (e : Nat × Slate) =>
             (e.1, { e.2 with owner := if e.2.owner == some gid then none else e.2.owner, queue := e.2.queue.filter (· != gid) }))).filter
               (fun e => e.2.owner.isSome || !e.2.queue.isEmpty) }

/-- The instructions that a group has parked for PAGE are given up when it retires (R355). -/
def forsakeAll (s : State) (gid : Nat) : State :=
  match s.group? gid with
  | none => s
  | some g => g.parks.foldl (fun s p => forsake s gid p) s

/-- The group is gone; the last one of a crew takes the crew with it (R41). -/
def retireGroup (s : State) (gid : Nat) (g : Group) (why : Leaving) : State :=
  let s1 := forgetGroup (releaseStream s gid) gid
  let s2 := { s1 with groups := SMap.del s1.groups gid }
  let s3 := s2.modCrew g.crew (fun c => { c with
    gids := c.gids.filter (· != gid), matrixGroup := if c.matrixGroup == some gid then none else c.matrixGroup,
    rcd := if why == .exit then c.rcd else { c.rcd with broken := true } })
  match s3.crew? g.crew with
  | none => s3
  | some c =>
    if c.gids.isEmpty then crewRetire s3 g.crew
    else c.bars.foldl (fun s b => barTest s g.crew b.1) s3

/-- GROUP_RETIRE (R41, R274): a group that leaves, with its counters at zero and its colours idle. Its held faults are recorded first,
when the queue has room for them. -/
def execGroupRetire (gid : Nat) (s0 : State) : Out :=
  .next (match (s0.group? gid).bind Group.leaving with
    | none => s0
    | some why =>
      let s := forsakeAll s0 gid
      match s.group? gid with
      | none => s
      | some g0 =>
        if g0.stopped || !g0.drained || coloursBusy s gid g0.colours then s
        else match (if ((s.crewOf g0).map Crew.gids) == some [gid] then entryFar s g0.crew else none) with
          | some pa => missFar s (s.ctxOf g0) pa false
          | none =>
            let r := recordHeldFaults gid (g0.heldFaults.length + 1) s
            if !r.1 then r.2
            else match r.2.group? gid with
              | none => r.2
              | some g => retireGroup r.2 gid g why)

/-- TRIGGER_COMPLETE (R38): the stores, atomics and copies of a group parked in `trigger` are performed. -/
def execTriggerComplete (gid : Nat) (s : State) : Out :=
  .next (match s.group? gid with
    | none => s
    | some g =>
      if !g.waits (· == .parked .trigger) || storesPending s gid then s
      else
        let s1 := triggerCrew s g.crew
        match s1.group? gid with
        | some g1 => finishAt s1 gid g1 (· == .parked .trigger)
        | none => s1)

/-- FAULT_RECORD_WRITE (R276): a run that waited is written once the ring has room for it, and is delivered. While its group is in a trap that it took
at the stop point where the run waits, it waits on (R280, R282); one whose instruction such a routine has left is written, and delivered to nobody. -/
def execFaultRecordWrite (id : Nat) (s : State) : Out :=
  .next (match SMap.find? s.pends id with
    | none => s
    | some p0 =>
      let g := p0.gid.bind s.group?
      let p := if g.all (fun g => g.pend == some id) then p0 else { p0 with gid := none }
      if fqRoom (s.ctx p.ctx) < p.recs.length || g.any (fun g => g.places.any (fun x => x.pend == some id)) then s
      else if let some pa := ringFar s p.ctx p.recs.length then missFar s p.ctx pa false
      else
        let s1 := postRun { s with pends := SMap.del s.pends id } p
        match p.launch with
        | some lid => rejectDone s1 lid
        | none => s1)

end Sys2Proof.Machine
end

