-- ==== Sys2Proof/Machine/Preempt.lean ====
section
/-! DEFINITION. Pre-emption, saves and restores (R279 to R282), migration (R307), quanta (R311), and traps taken at stop points (R297,
R337). -/

namespace Sys2Proof.Machine

/-! ## Stop points (R279) -/

/-- A group is held by no issue stream: it is at a switch point. -/
def unheld (s : State) (gid : Nat) (g : Group) : Bool := !(s.core g.core).streams.contains gid

/-- A group stands at a stop point: at user level, parked, waiting, or at a switch point. -/
def atStop (s : State) (gid : Nat) (g : Group) : Bool := !g.sup && (g.status != .ready || unheld s gid g)

/-- A group stops for a pending request, if it stands at a stop point; one parked in `idle` completes it and stops (R274). -/
def tryStop (s : State) (gid : Nat) : State :=
  match s.group? gid with
  | none => s
  | some g =>
    if g.stopped || !((s.crewOf g).map Crew.preempt).getD false then s
    else if g.status == .parked .idle then
      let s1 := finish { s with idles := SMap.del s.idles gid } gid g .none true
      s1.modGroup gid (fun g => { g with stopped := true })
    else if atStop s gid g then s.setGroup gid { g with stopped := true }
    else s

/-- A trap with a fault record at a stop point (R297, R337); the ring has room and its tables have been read. `entry` is the black-box event that the
record answers (R342). -/
def stopTrap (s : State) (gid : Nat) (g : Group) (f : FaultInfo) (entry : Option (BitVec 48)) : State :=
  let ctx := s.ctxOf g
  match writeRun (boxNames s entry (s.ctx ctx).fqseq) ctx 0 g.pc g.idx (crewIdx s g) g.sup [f] with
  | none => doubleFault s gid g 0
  | some (a, s1) =>
    let s2 := dropRecords s1 g.core ctx a 1
    match s2.group? gid with
    | some g1 => standTrap s2 gid g1 f.cause f.detail a
    | none => s2

/-- A group may take a trap where it stands: it is not stopped, its crew is on its core, and no fault of its own waits for the ring. -/
def mayTrap (s : State) (g : Group) : Bool := !g.stopped && !crewSaved s g && g.pend.isNone

/-- A group takes a trap at a stop point, for which it does not stop (R279, R337). -/
def trapPoint (s : State) (gid : Nat) (g : Group) : Bool := atStop s gid g && mayTrap s g

/-- A wait that an engine operation can hold up, or a group in the green room or at a slate: there a pager request is taken at any level (R297). -/
def Status.engineWait : Status → Bool
  | .waiting _ => true
  | .parked why => why == .counters || why == .drain || why == .trigger
  | .ready => false

/-- A group takes a pager request at a stop point, or where it stands (R297). -/
def pagerPoint (s : State) (gid : Nat) (g : Group) : Bool := (atStop s gid g || g.status.engineWait) && mayTrap s g

/-- A group takes a trap with a record, when the ring has room for it; `g1` is the group without the request. -/
def takeStop (s : State) (gid : Nat) (g g1 : Group) (f : FaultInfo) (entry : Option (BitVec 48)) : State :=
  let ctx := s.ctxOf g
  if fqRoom (s.ctx ctx) < 1 then s
  else match ringFar s ctx 1 with
    | some pa => missFar s ctx pa false
    | none => stopTrap (s.setGroup gid g1) gid g1 f entry

/-- PAGER_REQUEST (R297): a group takes the request that is posted to it. One in `idle`, a stop point of its routine, completes it first (R274,
R279). -/
def execPagerRequest (gid : Nat) (va : Word) (s : State) : Out :=
  .next (match s.group? gid with
    | none => s
    | some g0 =>
      let s1 := if g0.status == .parked .idle && g0.pager == some va && mayTrap s g0 then
          finish { s with idles := SMap.del s.idles gid } gid g0 .none true
        else s
      match s1.group? gid with
      | none => s1
      | some g =>
        if g.pager == some va && (pagerPoint s1 gid g || g0.status == .parked .idle && mayTrap s g0) then
          takeStop s1 gid g { g with pager := none } { FaultInfo.of 7 3 with addr := va } none
        else s1)

/-- The oldest PIPEERR of a group's engines, or of the words that the 9600 reads for it, is taken at a stop point (R337, R339). -/
def takePipe (s : State) (gid : Nat) : State :=
  match s.group? gid with
  | none => s
  | some g => match g.pipe with
    | [] => s
    | (d, entry) :: r => if trapPoint s gid g then takeStop s gid g { g with pipe := r } (FaultInfo.of 17 d) entry else s

/-! ## Units of pre-emption -/

/-- The crews that are pre-empted and restored together: a quad set, the crews of a cooperative grid, or the crew itself (R29, R37,
R279). -/
def together (s : State) (cid : Nat) : List Nat :=
  match s.crew? cid with
  | none => []
  | some c => match s.launch? c.launch with
    | none => [cid]
    | some l =>
      if c.spawned || !(l.coop || l.quad) then [cid]
      else (s.crews.filter (fun e => e.2.launch == c.launch && !e.2.spawned && (l.coop || e.2.idx / 4 == c.idx / 4))).map Prod.fst

/-- A reason to pre-empt a crew: a world switch, the replacement of a core of its quad, its migration, or ASCENT (R281). -/
def preemptReason (s : State) (c : Crew) : Bool :=
  (s.ctx c.ctx).switching || c.migrating || s.cryo.st == 6
    || c.cores.any (fun k => (quadCores k).any (fun x => (s.core x).failing))

/-- A group stands in its RESTORE routine, or in a trap above it. -/
def Group.inRestore (g : Group) : Bool :=
  (g.sup && g.trapRun.1 == 35) || g.places.any (fun x => x.nest.any (fun t => t.run.1 == 35))

/-- A group of a crew stands in its RESTORE routine. -/
def Crew.inRestore (s : State) (c : Crew) : Bool := c.gids.any (fun gid => ((s.group? gid).map Group.inRestore).getD false)

/-- A crew uses its slot: it is pre-empted or saved, or its RESTORE routine may still read the image there. -/
def Crew.usesSlot (s : State) (c : Crew) : Bool := c.preempt || c.saved || c.inRestore s

/-- The save slot of a crew that is asked to stop (R281): one that it uses stays its own, else the lowest that no other crew of the context uses. Since
each crew uses one at most, and the context has no more than SVCOUNT crews, it lies below SVCOUNT. -/
def freeSlot (s : State) (c : Crew) : Nat :=
  if c.usesSlot s then c.slot
  else
    let used := (s.crews.filter (fun e => e.2.ctx == c.ctx && e.2.usesSlot s)).map (fun e => e.2.slot)
    ((List.range (used.length + 1)).find? (fun k => !used.contains k)).getD 0

/-- Post a request to a crew; groups at a stop point stop. -/
def postRequest (s : State) (cid : Nat) : State :=
  match s.crew? cid with
  | none => s
  | some c =>
    if c.preempt || c.saved then s
    else
      let s1 := s.modCrew cid (fun c => { c with preempt := true, slot := freeSlot s c })
      c.gids.foldl tryStop s1

/-- PREEMPT_REQUEST (R279). -/
def execPreemptRequest (cid : Nat) (s : State) : Out :=
  .next (
    let us := together s cid
    if us.any (fun k => ((s.crew? k).map (preemptReason s)).getD false) then us.foldl postRequest s else s)

/-! ## Save (R280) -/

/-- The address of the image area of a save slot (R281). -/
def imageArea (s : State) (c : Crew) : Word :=
  (s.ctx c.ctx).svbase + BitVec.ofNat 64 (0x300000 * c.slot + 0x2B0000)

/-- Every access that the groups of a crew have sent is performed and its data written, its copy unit and its images are done, and no peer has
an access on its way to it (R48, R122, R280 step 1). A copy at which the unit has failed stays queued, and goes on after the restore (R337, log 59). -/
def crewQuiet (s : State) (cid : Nat) : Bool :=
  let mine := fun (gid : Nat) => ((s.group? gid).map (fun g => g.crew == cid)).getD false
  !s.reqs.any (fun e => e.2.crew == cid || (e.2.sp == .p && e.2.tgt == cid)) && !s.copies.any (fun e => e.2.crew == cid && e.2.unit == 16 && !e.2.stuck)
    && !s.farWrites.any (fun e => match e.2.owner with
      | .image gid => mine gid
      | .copy _ _ | .own | .launch _ _ => false)

/-- Every group of a crew has stopped, and the crew is quiet. -/
def crewStopped (s : State) (cid : Nat) (c : Crew) : Bool :=
  c.gids.all (fun g => ((s.group? g).map Group.stopped).getD true) && crewQuiet s cid

/-- The matrix group of a crew, where it holds the array of its core and has not written its image (R280 step 2). -/
def imageDue (s : State) (cid : Nat) (c : Crew) : Option (Nat × Group) :=
  (c.matrixGroup.bind (fun m => (s.group? m).map (fun g => (m, g)))).filter (fun x =>
    (s.core x.2.core).array.holder == some cid && !c.hasImage)

/-- A crew has done all that comes before step 4 of R280, or is saved. -/
def saveReady (s : State) (cid : Nat) : Bool :=
  match s.crew? cid with
  | none => true
  | some c => c.saved || (c.preempt && crewStopped s cid c && (imageDue s cid c).isNone)

/-- The 4 KiB pages of a save slot that a crew's state takes: header, group records, `v` registers, scratchpad and presence bits (R281). -/
def slotPages (s : State) (c : Crew) : List Nat :=
  [0] ++ c.gids.flatMap (fun gid => match s.group? gid with
      | some g => (List.range 4).map (fun i => 1 + 4 * g.idx + i)
      | none => [])
    ++ (List.range 256).map (0x100 + ·) ++ (List.range ((c.scratchBytes + 4095) / 4096)).map (0x200 + ·) ++ [0x2A0]

/-- The address of a page of a crew's save slot. -/
def slotVa (s : State) (c : Crew) (page : Nat) : Word := (s.ctx c.ctx).svbase + BitVec.ofNat 64 (0x300000 * c.slot + 4096 * page)

/-- What a 32-bit word of a save slot holds, as far as a poisoned word has to find it again (R339, R340). Where in the parts of R281 each register
lies only the 9600 knows: DESIGN CHOICE, log 9. -/
inductive SlotWord
  | v (idx key : Nat)
  | s (idx word : Nat)
  | m (idx word : Nat)
  | group (idx : Nat)
  | scratch (word : Nat)
  | crew
  deriving DecidableEq, Repr

/-- Word `i` of a page of a save slot, of a crew whose groups have `nregs` registers of `w` lanes. -/
def slotHolds (nregs w page i : Nat) : SlotWord :=
  if page = 0 ∨ 0x2A0 ≤ page then .crew
  else if 0x200 ≤ page then .scratch ((page - 0x200) * 1024 + i)
  else if 0x100 ≤ page then
    let k := (page - 0x100) * 1024 + i
    .v (k / (nregs * w)) (64 * (k / w % nregs) + k % w)
  else
    let idx := (page - 1) / 4
    let k := (page - 1) % 4 * 1024 + i
    if k < 128 then .s idx k else if k < 160 then .m idx (k - 128) else .group idx

/-- The groups of a crew by number. -/
def crewGroups (s : State) (c : Crew) : List (Nat × Group) := c.gids.filterMap (fun gid => (s.group? gid).map (fun g => (gid, g)))

/-- The shape of a crew's groups: registers and lanes. -/
def crewShape (s : State) (c : Crew) : Nat × Nat := ((crewGroups s c).head?.map (fun e => (e.2.nregs, e.2.w))).getD (8, 16)

/-- A word of a save slot holds a poisoned word of the crew. -/
def slotPoisoned (s : State) (c : Crew) : SlotWord → Bool
  | .v idx k => (crewGroups s c).any (fun e => e.2.idx == idx && e.2.vPoison.contains k)
  | .s idx k => (crewGroups s c).any (fun e => e.2.idx == idx && e.2.sPoison.contains k)
  | .m idx k => (crewGroups s c).any (fun e => e.2.idx == idx && e.2.mPoison.contains k)
  | .scratch k => c.scratchPoison.contains k
  | .group _ | .crew => false

/-- A crew without a poisoned word. -/
def crewClean (s : State) (c : Crew) : Bool :=
  c.scratchPoison.isEmpty && (crewGroups s c).all (fun e => e.2.vPoison.isEmpty && e.2.sPoison.isEmpty && e.2.mPoison.isEmpty)

/-- The poisoned words of a page of a save slot as it is written. -/
def slotMarks (s : State) (c : Crew) (page : Nat) : List Nat :=
  if crewClean s c then []
  else (List.range 1024).filter (fun i => slotPoisoned s c (slotHolds (crewShape s c).1 (crewShape s c).2 page i))

/-- The 9600 writes a page of a save slot, which it found by the tables of `s0`, as they stood when the save began. What its bytes are only the 9600
knows (R281): free values (DESIGN CHOICE, log 9), with the markers of the words that they hold (R340). A slot that is frozen loses them (R356). -/
def writeSlotPage (s0 s : State) (c : Crew) (page : Nat) : State :=
  match xlateWalk s0 c.ctx (slotVa s0 c page) true .write false with
  | .error _ => s
  | .ok x =>
    let (fr, s1) := s.draw
    let s2 := ownThrough s1 c.ctx x ((List.range 512).map (fun i => (freeAt fr i).toNat))
    if x.frz || !inHbm x.pa || granuleFrozen s x.pa then s2
    else { s2 with memPoison := ((slotMarks s c page).map (x.pa / 4 + ·)).foldl setIns s2.memPoison }

/-- A poisoned word of a save slot comes back: to the register or the scratchpad word that it held, whose next reader consumes it (R340), or as PIPEERR 6
of the groups whose state it held (R339). -/
def restoreWord (s : State) (cid : Nat) (c : Crew) (x : SlotWord) : State :=
  let on := fun (p : Group → Bool) (f : Group → Group) => c.gids.foldl (fun s gid => s.modGroup gid (fun g => if p g then f g else g)) s
  match x with
  | .v idx k => on (fun g => g.idx == idx) (fun g => { g with vPoison := setIns g.vPoison k })
  | .s idx k => on (fun g => g.idx == idx) (fun g => { g with sPoison := setIns g.sPoison k })
  | .m idx k => on (fun g => g.idx == idx) (fun g => { g with mPoison := setIns g.mPoison k })
  | .scratch k => s.modCrew cid (fun c => { c with scratchPoison := setIns c.scratchPoison k })
  | .group idx => on (fun g => g.idx == idx) (fun g => { g with pipe := g.pipe ++ [(6, none)] })
  | .crew => on (fun _ => true) (fun g => { g with pipe := g.pipe ++ [(6, none)] })

/-- The poisoned words of a crew's save slot come back with it. -/
def restorePoison (s : State) (cid : Nat) (c : Crew) : State :=
  if s.memPoison.isEmpty then s
  else (slotPages s c).foldl (fun s page => match xlateWalk s c.ctx (slotVa s c page) true .read false with
    | .error _ => s
    | .ok x =>
      (s.memPoison.filter (fun k => decide (x.pa ≤ 4 * k ∧ 4 * k < x.pa + 4096))).foldl (fun s k =>
        restoreWord s cid c (slotHolds (crewShape s c).1 (crewShape s c).2 page ((4 * k - x.pa) / 4))) s) s

/-- The window line that a home has to read before a save slot can be translated (R322). -/
def slotFar (s : State) (c : Crew) : Option Nat :=
  (slotPages s c).findSome? (fun p => match xlateWalk s c.ctx (slotVa s c p) true .write false with
    | .error (.far pa) => some pa
    | _ => none)

/-- The arrays that a crew holds and whose matrix group has retired, by the place of their core: their tiles stay for the next matrix group
(R236). -/
def keptArrays (s : State) (cid : Nat) (c : Crew) : SMap ArraySt :=
  let group := (c.matrixGroup.bind s.group?).map Group.core
  c.cores.zipIdx.filterMap (fun k =>
    let a := (s.core k.1).array
    if a.holder == some cid && group != some k.1 then some (k.2, { a with holder := none }) else none)

/-- Step 4: the rest of the crew's state is written to its slot, and its resources and its claim on an array are free. The crew stays in State
marked saved, which is what a restore reloads (DESIGN CHOICE, log 9). -/
def saveCrew (s0 s : State) (cid : Nat) (c : Crew) : State :=
  let kept := keptArrays s cid c
  let s1 := ((slotPages s0 c).foldl (fun s p => writeSlotPage s0 s c p) s).modCrew cid (fun c => { c with
    saved := true, preempt := false, since := s.time - c.since, arrayKept := kept.foldl (fun m e => SMap.ins m e.1 e.2) c.arrayKept })
  let s2 := c.cores.foldl (fun s k => endClaim s cid k) s1
  endSwitch (addUc s2 c.ctx 15 1) c.ctx

/-- The crews that are saved with a crew: those that belong with it and are not saved yet. -/
def toSave (s : State) (cid : Nat) : List (Nat × Crew) :=
  (together s cid).filterMap (fun k => ((s.crew? k).filter (fun c => !c.saved)).map (fun c => (k, c)))

/-- CREW_SAVE (R280): with every group stopped and the crew quiet, its matrix group is entered at PREEMPT if it holds an array; when the crews
that belong with it have come as far, all of them are saved. -/
def execCrewSave (cid : Nat) (s : State) : Out :=
  .next (match s.crew? cid with
    | none => s
    | some c =>
      if !c.preempt || c.saved || !crewStopped s cid c then s
      else match imageDue s cid c with
        | some (m, g) => standTrap (s.modCrew cid (fun c => { c with hasImage := true })) m g 34 0 (imageArea s c)
        | none =>
          if !(together s cid).all (saveReady s) then s
          else match (toSave s cid).findSome? (fun e => slotFar s e.2) with
            | some pa => missFar s c.ctx pa false
            | none => (toSave s cid).foldl (fun t e => saveCrew s t e.1 e.2) s)

/-! ## Restore (R282) -/

/-- The shape of saved crews for placement: the groups that they still have (R41). -/
def crewUnit (s : State) (cs : List Crew) : PUnit :=
  match cs with
  | [] => ⟨0, [], false, false, [], 8, 16, 0, none⟩
  | c :: _ =>
    let l := s.launch? c.launch
    let need := fun (c : Crew) =>
      let on := fun (i : Nat) => (c.gids.filter (fun gid => ((s.group? gid).map Group.core) == c.cores[i]?)).length
      (on 0, if c.cores.length = 2 then on 1 else 0)
    { ctx := c.ctx, crews := cs.map Crew.idx, pair := decide (c.cores.length = 2), quad := (l.map Launch.quad).getD false && !c.spawned,
      needs := cs.map need, nregs := (l.map Launch.nregs).getD 8, w := (l.map Launch.w).getD 16,
      scratch := if c.spawned then 0 else (l.map Launch.scratch).getD 0, home := none }

/-- Grants that reached the groups of a crew while it was saved take effect (R79). -/
def lateGrants (s : State) (cid : Nat) : State :=
  s.slates.foldl (fun s e => match e.2.owner with
    | some gid => match s.group? gid with
      | some g => if g.crew == cid && g.asks (e.1 % 4096) && !g.colours.contains (e.1 % 4096) then
          takeGrant s (e.1 / 4096) (e.1 % 4096) gid
        else s
      | none => s
    | none => s) s

/-- The arrays that a crew keeps are its own again on cores where no other crew has claimed them (R236); on another core its next matrix group
waits for the claim. -/
def reclaimArrays (s : State) (cid : Nat) (cores : List Nat) : State :=
  cores.zipIdx.foldl (fun s k =>
    let kept := ((s.crew? cid).map (fun c => (SMap.find? c.arrayKept k.2).isSome)).getD false
    if kept && (s.core k.1).array.holder.isNone then takeArray s cid k.1 else s) s

/-- A crew with an image is entered at RESTORE in its matrix group; its slot stays in use while the routine may read it (R281, R282). -/
def enterRestore (s : State) (cid : Nat) (c : Crew) : State :=
  match c.matrixGroup.bind (fun m => (s.group? m).map (fun g => (m, g))) with
  | some (m, g) =>
    if c.hasImage then standTrap (s.modCrew cid (fun c => { c with hasImage := false })) m g 35 0 (imageArea s c) else s
  | none => s

/-- A copy of a crew on the core that takes the place of its own: one at which its unit had failed goes on from its progress (R337). -/
def Copy.moved (c : Copy) (old : List Nat) (base : Nat) : Copy :=
  { c with core := if c.core == old.getD 1 0 && old.length == 2 then base + 1 else base, stuck := false }

/-- Bring one crew back on a core or pair: grants that reached its groups take effect, each group enters its line again (R150), the copies that it has
queued go on there, and on other cores than before its stale lines are left behind (R79, R108, R122; DEDUCED, log 41). -/
def restoreCrew (s : State) (cid base : Nat) : State :=
  match s.crew? cid with
  | none => s
  | some c =>
    let pair := decide (c.cores.length = 2)
    let cores := if pair then [base, base + 1] else [base]
    let same := cores == c.cores
    let scratch := ((s.launch? c.launch).map Launch.scratch).getD 0
    let s1 := cores.foldl (fun s k =>
      let s1 := if c.scratchBytes = 0 then s else setCarve s k scratch
      if same then s1 else l1Acquire s1 k .sy pair) s
    let s2 := s1.modCrew cid (fun c => { c with
      cores := cores, saved := false, preempt := false, since := if same && !c.migrating then s.time - c.since else s.time,
      migrating := false })
    let s3 := c.gids.foldl (fun s gid => s.modGroup gid (fun g => { g with
      core := if pair && g.core == c.cores.getD 1 0 then base + 1 else base, stopped := false, stamp := s.clock, entered := false })) s2
    let s3 := restorePoison (c.gids.foldl seat s3) cid c
    let s3 := { s3 with copies := s3.copies.map (fun e => if e.2.crew == cid && e.2.unit == 16 then (e.1, e.2.moved c.cores base) else e) }
    enterRestore (addUc (lateGrants (reclaimArrays s3 cid cores) cid) c.ctx 13 1) cid c

/-- Step 5 of a world switch ends: no crew is left that can be restored, and the quantum starts (R311). -/
def endRestoring (s : State) (ctx : Nat) : State :=
  s.modCtx ctx (fun c => if c.restoring then { c with restoring := false, quantumStart := s.time } else c)

/-- CREW_RESTORE (R282): a saved crew, with the crews that belong with it, returns on the cores given, in the placement of R29. It may take cores that
are reserved for a head unit: whether a restore is something new that is placed there the manual leaves open (R303; DESIGN CHOICE, log 70). -/
def execCrewRestore (cid : Nat) (bases : List Nat) (s : State) : Out :=
  .next (
    let us := together s cid
    let cs := us.filterMap s.crew?
    match cs with
    | [] => s
    | c :: _ =>
      let x := s.ctx c.ctx
      let u := crewUnit s cs
      let cool := !cs.any Crew.migrating || (u.cores bases).all (fun k => (s.core k).hotSince.isNone)
      if !s.running || !x.scheduled || x.switching || !cs.all Crew.saved || !unitFits s u bases || !cool then s
      else
        let s1 := (us.zip bases).foldl (fun s p => restoreCrew s p.1 p.2) s
        if s1.crews.any (fun e => e.2.ctx == c.ctx && e.2.saved) then s1 else endRestoring s1 c.ctx)

/-! ## Migration and quanta -/

/-- Ticks of 1/84 ns in half a millisecond. -/
def halfMs : Nat := 42000000

/-- A crew may be migrated (R307). -/
def mayMigrate (s : State) (c : Crew) : Bool :=
  let minres := Nat.max 4 (s.migctl.extractLsb' 0 8 : BitVec 8).toNat
  !c.saved && !c.preempt && (s.ctx c.ctx).schedctl.getLsbD 0 && !((s.launch? c.launch).map Launch.coop).getD false
    && decide (c.since + minres * halfMs ≤ s.time)
    && c.cores.all (fun k => match (s.core k).hotSince with
      | some t => decide (t + 2 * halfMs ≤ s.time)
      | none => false)

/-- CREW_MIGRATE (R307): a crew on hot cores is to be pre-empted and restored elsewhere, with its set. -/
def execCrewMigrate (cid : Nat) (s : State) : Out :=
  .next (
    let us := together s cid
    if !us.isEmpty && us.all (fun k => ((s.crew? k).map (mayMigrate s)).getD false) then
      us.foldl (fun s k => s.modCrew k (fun c => { c with migrating := true })) s
    else s)

/-- The quantum of a context in ticks (R309). -/
def quantumTicks (c : Ctx) : Nat := 8400000 * Nat.max 1 (c.vfcfg.extractLsb' 32 8 : BitVec 8).toNat

/-- A saved crew of a context can be restored now. -/
def restorable (s : State) (ctx : Nat) : Bool :=
  s.crews.any (fun e => e.2.ctx == ctx && e.2.saved && (
    let cs := (together s e.1).filterMap s.crew?
    cs.all Crew.saved && (findPlace s (crewUnit s cs) (fun _ => true)).isSome))

/-- QUANTUM_EXPIRE (R311): the quantum has run out. Another context of the partition with work is switched in; without one a new
quantum starts. A scheduled context without work gives way at once. -/
def execQuantumExpire (ctx : Nat) (s : State) : Out :=
  .next (
    let c := s.ctx ctx
    let others := (partners s ctx).any (hasWork s)
    if !c.scheduled || c.switching then s
    else if c.restoring then (if restorable s ctx then s else endRestoring s ctx)
    else if others && !hasWork s ctx then beginSwitch s ctx
    else if s.time < c.quantumStart + quantumTicks c then s
    else if others then beginSwitch s ctx
    else s.modCtx ctx (fun c => { c with quantumStart := s.time }))

end Sys2Proof.Machine
end

