-- ==== Sys2Proof/Machine/Reliab.lean ====
section
/-! DEFINITION. Events of reliability: checker and scoreboard mismatches, uncorrectable storage errors, replacement of cores, and HBM
repair (R335 to R341). -/

namespace Sys2Proof.Machine

/-- The context that an event on a core concerns: that of the group, or none. -/
def noContext : Nat := 63

/-- The core's unit has failed a second execution (R343). -/
def suspect (s : State) (core unit : Nat) : State :=
  s.modCore core (fun c => { c with suspect := c.suspect ||| BitVec.ofNat 5 (2 ^ (unit - 1)) })

/-- The group has work in the matrix array, or in the copy unit of its core: a `copy` or an `accst` (R55, R295). -/
def unitBusy (s : State) (gid : Nat) (g : Group) (unit : Nat) : Bool :=
  if unit = 4 then (s.core g.core).array.ops.any (fun o => o.gid == gid && !o.complete)
  else s.copies.any (fun e => e.2.gid == gid && e.2.unit == 16)

/-- The group is about to execute an instruction that has not issued. -/
def atInstruction (g : Group) : Bool :=
  g.status == .ready && g.pend.isNone && g.leaving.isNone && !g.stopped && g.entered && !g.issued

/-- The oldest incomplete operation of a group stays queued in an array or a copy unit that has failed at it, until the crew is restored elsewhere
(R337). -/
def failOp (s : State) (gid core unit : Nat) : State :=
  if unit = 4 then
    match ((s.core core).array.ops.find? (fun o => o.gid == gid && !o.complete)).map MOp.id with
    | none => s
    | some i => s.modCore core (fun c => { c with array := { c.array with
        ops := c.array.ops.map (fun o => if o.id = i then { o with stuck := true } else o) } })
  else
    match List.find? (fun (e : Nat × Copy) => e.2.gid == gid && e.2.unit == 16 && !e.2.stuck) s.copies with
    | none => s
    | some e => { s with copies := SMap.upd s.copies e.1 (fun c => { c with stuck := true }) }

/-- The black-box event `entry` names the record of a fault that its group has just raised, now or when that is written (R342). -/
def nameRecord (s0 s : State) (gid ctx : Nat) (entry : BitVec 48) : State :=
  match (s.group? gid).bind Group.pend with
  | some id => { s with pends := SMap.upd s.pends id (fun p => { p with entry := some entry }) }
  | none => if (s.ctx ctx).fqseq == (s0.ctx ctx).fqseq then s else boxNames s (some entry) (s0.ctx ctx).fqseq

/-- CHECKER_MISMATCH (R337). Units 1 to 3 fail an instruction of a group; units 4 and 5 a chunk or a line of its work. A vector lane that fails a second
time is switched to its spare, where that is free, before the third execution. -/
def execCheckerMismatch (gid unit datapath : Nat) (out : CheckerOutcome) (s : State) : Out :=
  .next (match s.group? gid with
    | none => s
    | some g =>
      let ctx := s.ctxOf g
      let log := fun (s : State) (sev detail : Nat) => boxEvent s sev 7 (dieOfCore g.core) g.core ctx 0 detail
      let lane := 4 * g.core + datapath % 4
      let spare := unit = 1 ∧ !s.lanesSpared.contains lane
      let swap := fun (s : State) => if spare then log { s with lanesSpared := setIns s.lanesSpared lane } 3 unit else s
      if unit < 1 || 5 < unit || (if unit < 4 then !atInstruction g else !unitBusy s gid g unit) then s
      else match out with
        | .second => log s 0 unit
        | .third =>
          if spare then suspect (swap s) g.core unit
          else if unit < 4 then s
          else log (suspect s g.core unit) 0 unit
        | .fails =>
          let s1 := suspect (swap s) g.core unit
          let s2 := log s1 4 0
          if unit < 4 then nameRecord s2 (raiseCD s2 gid 17 unit) gid ctx s1.eseq
          else takePipe (failOp (s2.modGroup gid (fun g => { g with pipe := g.pipe ++ [(unit, some s1.eseq)] })) gid g.core unit) gid)

/-- SCOREBOARD_MISMATCH (R338): instructions that have not read their sources issue again; only timing and a corrected event. -/
def execScoreboardMismatch (core : Nat) (s : State) : Out := .next (boxEvent s 0 8 (dieOfCore core) core noContext 0 0)

/-- An uncorrectable error in a register of a group: the word is poisoned. In lane `l`, where that one is dead or inactive, it is logged as
a corrected event (log 32). -/
def poisonReg (s : State) (gid : Nat) (l : Option Nat) (f : Group → Group) : State :=
  match s.group? gid with
  | none => s
  | some g => boxEvent (s.setGroup gid (f g)) (if l.all (g.active.getLsbD ·) then 1 else 0) 1 (dieOfCore g.core) g.core (s.ctxOf g) 0 0

/-- An event of a storage that holds an address: UNIT is the core of an L1, the slice of an L2, or the stack (R342). -/
def memEvent (s : State) (sev src core pa : Nat) : State :=
  let slice := homeSlice pa
  let die := if src = 2 then dieOfCore core else dieOfSlice slice
  boxEvent s sev src die (if src = 2 then core else if src = 3 then slice else slice / 8) noContext (BitVec.ofNat 64 (pa - pa % 4)) 0

/-- The word of memory at an address is poisoned. -/
def poisonWord (s : State) (pa src core : Nat) : State := memEvent { s with memPoison := setIns s.memPoison (pa / 4) } 1 src core pa

/-- SOFT_ERROR (R339), and storage that fails for good and whose spare lane or way takes over (R335). -/
def execSoftError (site : ErrSite) (s : State) : Out :=
  .next (match site with
    | .vreg gid r l => poisonReg s gid (some l) (fun g => { g with vPoison := setIns g.vPoison (64 * r + l) })
    | .sreg gid r w => poisonReg s gid none (fun g => { g with sPoison := setIns g.sPoison (2 * r + w % 2) })
    | .mreg gid r w => poisonReg s gid none (fun g => if r = 0 then g else { g with mPoison := setIns g.mPoison (2 * r + w % 2) })
    | .acc core tile e =>
      boxEvent (s.modCore core (fun c => { c with array := { c.array with poison := setIns c.array.poison (4096 * tile + e) } }))
        1 6 (dieOfCore core) core noContext 0 0
    | .scratch crew o => match s.crew? crew with
      | none => s
      | some c =>
        let core := c.cores.headD 0
        boxEvent (s.modCrew crew (fun c => { c with scratchPoison := setIns c.scratchPoison (o / 4) })) 1 5 (dieOfCore core) core c.ctx 0 0
    | .l1 core pa => match SMap.find? (s.core core).l1 (lineOf pa) with
      | none => s
      | some l =>
        if l.leased then poisonWord s pa 2 core
        else
          let s1 := sendFill (l1DropLine s core (lineOf pa)) core pa l.colour
          memEvent s1 0 2 core pa
    | .l2Clean pa =>
      memEvent s 0 3 0 pa
    | .mem pa =>
      if !inHbm pa then s
      else poisonWord s pa (if ((SMap.find? s.l2 (lineOf pa)).map L2Line.dirty).getD false then 3 else 4) 0
    -- the word of a tile in the stamp map lies on the tile's stack, the entry of a granule at its home (R83, R96)
    | .stamp t => if inHbm (4096 * t) then memEvent { s with stampPoison := setIns s.stampPoison t } 1 4 0 (4096 * t) else s
    | .freeze gr => if inHbm (65536 * gr) then memEvent { s with freezePoison := setIns s.freezePoison gr } 1 4 0 (65536 * gr) else s
    | .lane core k =>
      let lane := 4 * core + k % 4
      if 384 ≤ core || s.lanesSpared.contains lane then s
      else boxEvent { s with lanesSpared := setIns s.lanesSpared lane } 3 1 (dieOfCore core) core noContext 0 0
    -- the lines of the way have been written back or refetched: nothing else is seen (R335)
    | .way slice set =>
      if 96 ≤ slice || 1536 ≤ set || s.waySpares.contains (slice, set) then s
      else boxEvent { s with waySpares := s.waySpares ++ [(slice, set)] } 3 3 (dieOfSlice slice) slice noContext 0 0)

/-- No resident crew has a core of the quad (R336). -/
def quadEmpty (s : State) (core : Nat) : Bool :=
  !s.crews.any (fun e => !e.2.saved && e.2.cores.any (fun c => c / 4 == core / 4))

/-- The core that the spare becomes: caches empty; threads in spawn bins stay (R7). -/
def CoreSt.spare (c : CoreSt) : CoreSt := { CoreSt.reset with bins := c.bins, recallSeq := c.recallSeq }

/-- Reservations of cores of a quad end: nothing new is placed there (R303, R336). -/
def endReserved (s : State) (core : Nat) : State :=
  { s with reserved := s.reserved.filter (fun r => !r.cores.any (fun c => c / 4 == core / 4)) }

/-- CORE_REPLACE (R336): the core is marked failing; with its quad empty, a spare of its die takes its place, or it stays out of
service. -/
def execCoreReplace (core : Nat) (s : State) : Out :=
  .next (
    let c := s.core core
    if 384 ≤ core || c.outOfService then s
    else if !c.failing then endReserved (s.modCore core (fun c => { c with failing := true })) core
    else if !quadEmpty s core then s
    else
      let die := dieOfCore core
      let s1 := dropLeases { s with fills := s.fills.filter (fun e => e.2.core != core), lanesSpared := s.lanesSpared.filter (· / 4 != core) } core
      match [0, 1, 2, 3].find? (fun i => !s.spares.getLsbD (4 * die + i)) with
      | some i =>
        boxEvent { s1.setCore core c.spare with spares := s1.spares ||| BitVec.ofNat 24 (2 ^ (4 * die + i)) } 3 7 die core noContext 0 i
      | none => boxEvent (s1.setCore core { c.spare with outOfService := true }) 3 7 die core noContext 0 4)

/-- HBM_PIN_SWAP (R341): a spare pin takes over during a pause. -/
def execHbmPinSwap (stack : Nat) (s : State) : Out :=
  .next (if 12 ≤ stack then s
    else boxEvent { s with pinSpares := s.pinSpares ++ [stack] } 3 4 (stack / 2) stack noContext 0 0)

/-- SOFT_POST_PACKAGE_REPAIR (R341): a failing row is remapped, its data copied first; SOFTPPR records it. -/
def execSoftPostPackageRepair (stack : Nat) (s : State) : Out :=
  .next (if 12 ≤ stack then s
    else boxEvent { s with softppr := s.softppr ||| BitVec.ofNat 12 (2 ^ stack) } 3 4 (stack / 2) stack noContext 0 1)

end Sys2Proof.Machine
end

