-- ==== Sys2Proof/Machine/Cryo.lean ====
section
/-! DEFINITION. Events of the management controller: sensor readings, bands, the cool-down and warm-up machine, its commands, resets and
bring-up, firmware updates and attestation (R344 to R354, R357). Temperatures are in units of 0.25 K. -/

namespace Sys2Proof.Machine

/-! ## Readings and limits -/

/-- One second of time. -/
def oneSecond : Nat := 84000000000

/-- BANDHI.HI*k* in effect (R351). -/
def Cryo.hi (c : Cryo) (k : Nat) : Nat :=
  match k with
  | 0 => c.lim.hi0
  | 1 => c.lim.hi1
  | 2 => c.lim.hi2
  | _ => c.lim.hi3

/-- The lowest band whose limit TMAX keeps (R344). -/
def Cryo.rawBand (c : Cryo) : Nat :=
  if c.tmax ≤ c.hi 0 then 0 else if c.tmax ≤ c.hi 1 then 1 else if c.tmax ≤ c.hi 2 then 2 else if c.tmax ≤ c.hi 3 then 3 else 4

/-- The gradient. -/
def Cryo.gradient (c : Cryo) : Nat := c.tmax - c.tmin

/-- The change of TMAX over the most recent readings of a span of time. -/
def Cryo.change (c : Cryo) (now span : Nat) : Int :=
  match c.readings.find? (fun r => decide (now ≤ r.time + span)) with
  | some r => (c.tmax : Int) - (r.tmax : Int)
  | none => 0

/-- The timing set of a band: 0 A, 1 B, 2 C, 3 D. -/
def setOfBand (b : Nat) : Nat := Nat.min b 3

/-- A reading joins the record of the last 60 s; RATE is in 0.01 K per minute over 10 s (R351). -/
def Cryo.read (c : Cryo) (now tmax tmin : Nat) : Cryo :=
  let c1 := { c with tmax := tmax, tmin := tmin,
                     readings := c.readings.filter (fun (r : Reading) => decide (now ≤ r.time + 60 * oneSecond)) ++ [(⟨now, tmax, tmin⟩ : Reading)] }
  { c1 with rate := 150 * c1.change now (10 * oneSecond) }

/-- Outside the limits of R349: 1.5 K per minute over 60 s, and a gradient of 10 K. -/
def Cryo.steep (c : Cryo) (now : Nat) : Bool :=
  decide (6 < (c.change now (60 * oneSecond)).natAbs) || decide (40 < c.gradient)

/-- COOLHOLD, which DESCENT and ASCENT assert, and the time since which the package is back within both limits, in whatever state (R349). -/
def Cryo.coolholdAt (c : Cryo) (now : Nat) : Cryo :=
  if c.steep now then
    if c.st = 2 ∨ c.st = 6 ∨ c.coolhold then { c with coolhold := true, withinSince := none } else c
  else if c.coolhold && c.withinSince.isNone then { c with withinSince := some now }
  else c

/-- What takes the package to TRIP (R348). -/
def Cryo.trips (c : Cryo) : Bool :=
  c.st != 0 && c.st != 7 && (decide (c.tmin < c.lim.tripLo) || decide (c.lim.tripHi < c.tmax)
    || (c.st == 2 || c.st == 6) && (decide (300 < c.rate.natAbs) || decide (60 < c.gradient)))

/-! ## Losses -/

/-- A core without crews, caches and bins. -/
def CoreSt.lost (c : CoreSt) : CoreSt := { CoreSt.reset with suspect := c.suspect, failing := c.failing, outOfService := c.outOfService }

/-- What is lost with the core rails and HBM off: crews, launches, everything in flight, and everything held in HBM, the region owners
included (R349, R357). -/
def loseAll (s : State) : State :=
  { s with
    issueNow := [], groups := [], crews := [], launches := [], flushed := [], cores := s.cores.map (fun e => (e.1, e.2.lost)),
    ctxs := s.ctxs.map (fun e => (e.1, { e.2 with scheduled := false, switching := false, restoring := false, mailBusy := none })),
    reqs := [], ops := [], copies := [], engines := [], shoots := [], fills := [], flits := [], pends := [], farCopies := [],
    farReads := [], farWrites := [], asked := [], pins := [], quadTlb := [], engineTlb := [], idles := [], mem := [],
    memPoison := [], stampPoison := [], freezePoison := [], stamps := [], freezeTable := [], sliceSeq := [], clearing := false, owners := [], leases := [],
    syncLines := [], scopes := [], lineHolds := [], l2 := [], thaws := [], slates := [], green := [], backoffs := [],
    linkStreams := s.linkStreams.map (fun e => (e.1, { e.2 with outstanding := 0 })), reserved := [] }

/-- What a context's registers keep in TRIP (R357). -/
def Ctx.tripped (c : Ctx) : Ctx :=
  { Ctx.reset with vfcfg := c.vfcfg, l2quota := c.l2quota, cntgrant := c.cntgrant, featoff0 := c.featoff0, featoff1 := c.featoff1,
                   uc := c.uc, ucSnap := c.ucSnap }

/-! ## States (R347, R348) -/

/-- Write the controller. -/
def State.modCryo (s : State) (f : Cryo → Cryo) : State := { s with cryo := f s.cryo }

/-- Enter OFF: rails off. The band goes on following TMAX (R344). -/
def enterOff (s : State) : State :=
  (loseAll s).modCryo (fun c => { c with st := 0, wantBand := c.rawBand, refon := false, holdSince := none })

/-- Enter TRIP (R357). -/
def enterTrip (s : State) : State :=
  let s1 := raiseAll (boxEvent s 4 10 6 0 noContext 0 0) 4
  let s2 := loseAll s1
  let s3 := { s2 with ctxs := s2.ctxs.map (fun (e : Nat × Ctx) => (e.1, e.2.tripped)) }
  s3.modCryo (fun c => { c with st := 7, wantBand := c.rawBand, refon := false, holdSince := none })

/-- Enter ASCENT (R349): refresh on, placement stops, and no context is scheduled; every crew is pre-empted. -/
def enterAscent (s : State) (band : Nat) : State :=
  let s1 := s.modCryo (fun c => { c with st := 6, wantBand := band, refon := true, holdSince := none })
  let s2 := { s1 with
    ctxs := s1.ctxs.map (fun (e : Nat × Ctx) => (e.1, { e.2 with scheduled := false, switching := false, restoring := false })),
    reserved := [] }
  s2.crews.foldl (fun s e => postRequest s e.1) s2

/-- Every partition that is not in use schedules a context. -/
def scheduleAll (s : State) : State := s.ctxs.foldl (fun s e => pickNext s e.1 (diesOf e.2)) s

/-- Enter COLD: refresh is off, and every partition schedules a context. -/
def enterCold (s : State) : State :=
  scheduleAll (s.modCryo (fun c => { c with st := 4, wantBand := 0, holdSince := none, refon := c.band != 0 }))

/-- A hold for the next cooler band runs while TMAX is 3 K or more below its limit (R350). -/
def Cryo.holdAt (c : Cryo) (now : Nat) : Cryo :=
  if 0 < c.wantBand ∧ c.tmax + 12 ≤ c.hi (c.wantBand - 1) then { c with holdSince := some (c.holdSince.getD now) }
  else { c with holdSince := none }

/-- What a reading does to the state (R348, R350). -/
def stateReading (s : State) : State :=
  let c := s.cryo
  if c.trips then enterTrip s
  else match c.st with
    | 2 => if c.tmax ≤ c.hi 0 then s.modCryo (fun c => { c with st := 3, wantBand := 0, holdSince := some s.time })
      else s.modCryo (fun c => { c with wantBand := c.rawBand })
    | 3 => s.modCryo (fun c => { c with wantBand := c.rawBand,
                                        holdSince := if c.hi 0 < c.tmax then none else some (c.holdSince.getD s.time) })
    | 4 => if c.hi 0 < c.tmax then
        s.modCryo (fun c => { c with st := 5, wantBand := Nat.min 3 (Nat.max 1 c.rawBand), holdSince := none })
      else s
    | 5 =>
      if c.hi 3 < c.tmax then enterAscent s 4
      else if c.wantBand < c.rawBand then
        s.modCryo (fun c => ({ c with wantBand := c.rawBand, holdSince := none }).holdAt s.time)
      else s.modCryo (fun c => c.holdAt s.time)
    | 6 => if 960 ≤ c.tmin then enterOff s else s.modCryo (fun c => { c with wantBand := c.rawBand })
    | _ => s.modCryo (fun c => { c with wantBand := c.rawBand })

/-- DELTA of MIGCTL (R300). -/
def delta (s : State) : Nat := (s.migctl.extractLsb' 8 8 : BitVec 8).toNat

/-- A core is hot when its sensor reads more than DELTA above the mean of its die's sensors (R300). `ts` are the readings of the cores. -/
def isHot (s : State) (ts : List (Nat × Nat)) (core t : Nat) : Bool :=
  let die := ts.filter (fun e => dieOfCore e.1 == dieOfCore core)
  decide ((die.map Prod.snd).sum + delta s * die.length < t * die.length)

/-- The cores that the sensors show hot; one that is not listed reads the mean of its die (R307). -/
def noteHot (s : State) (ts : List (Nat × Nat)) : State :=
  let hot := (ts.filter (fun e => decide (e.1 < 384) && isHot s ts e.1 e.2)).map Prod.fst
  let cold := s.cores.map (fun e => if hot.contains e.1 then e else (e.1, { e.2 with hotSince := none }))
  hot.foldl (fun s c => s.modCore c (fun k => { k with hotSince := some (k.hotSince.getD s.time) })) { s with cores := cold }

/-- SENSOR_READING (R344): the readings of the sensors of the cores, of the hub die and of the HBM stacks. TMAX is the highest, TMIN the
lowest. With it the limits that BANDHI and TRIPLIM hold take effect (R351). -/
def execSensorReading (ts : List (Nat × Nat)) (hub hbm : List Nat) (s : State) : Out :=
  .next (match ts.map Prod.snd ++ hub ++ hbm with
    | [] => s
    | t :: r => stateReading ((noteHot s ts).modCryo (fun c =>
        ({ c with lim := c.reg }.read s.time (r.foldl Nat.max t) (r.foldl Nat.min t)).coolholdAt s.time)))

/-- What a band change waits for: before the arrays turn off, every joint operation in flight (R346); before band 4, the save of every crew, since
no context runs there (R2, R349). -/
def bandWaits (s : State) (band : Nat) : Bool :=
  (decide (s.cryo.band ≤ 2 ∧ 2 < band) && s.cores.any (fun e => jointInFlight s e.2.array))
    || (decide (3 < band) && s.crews.any (fun e => !e.2.saved))

/-- BAND_CHANGE (R346): the clock, the timing set and refresh take the new band; with HBM off there is no refresh (R347). -/
def execBandChange (s : State) : Out :=
  .next (
    let c := s.cryo
    if c.wantBand = c.band || bandWaits s c.wantBand then s
    else
      let s1 := boxEvent s 0 10 6 0 noContext 0 (c.st * 256 + c.band * 16 + c.wantBand)
      s1.modCryo (fun c => { c with band := c.wantBand, tset := setOfBand c.wantBand, refon := c.st != 4 && c.st != 0 && c.st != 7 }))

/-- SCRUB_SWEEP (R345): with refresh off every row is read and rewritten; a word that cannot be corrected is poisoned. -/
def execScrubSweep (bad : List Nat) (s : State) : Out :=
  .next (
    if s.cryo.st ≠ 4 then s
    else (bad.filter inHbm).foldl (fun s pa => poisonWord s pa 4 0) (s.modCryo (fun c => { c with scrubbed := c.scrubbed + 1 })))

/-- Bring-up step 4 (R352): the stamp map and the freeze table are clear, the generation is 1. -/
def bringUpMemory (s : State) : State :=
  { s with stamps := [], freezeTable := [], stampPoison := [], freezePoison := [], gen := 1, epoch := 0, thawGen := 0, clearing := false }

/-- A failing step of bring-up writes an entry (R352). -/
def bringUpFails (s : State) (step : Nat) : State := boxEvent s 4 10 6 0 noContext 0 step

/-! ## Signed images (R353) -/

/-- A field of `n` bytes of an image. -/
def imgBytes (b : List Byte) (o n : Nat) : List Byte := (b.drop o).take n

/-- A field of an image as a number, little-endian. -/
def imgNat (b : List Byte) (o n : Nat) : Nat := natOfBytes (imgBytes b o n)

/-- SVN of an image. -/
def imgSvn (b : List Byte) : BitVec 32 := BitVec.ofNat 32 (imgNat b 0x008 4)

/-- The body of an image: LEN bytes from 0x400. -/
def imgBody (b : List Byte) : List Byte := imgBytes b 0x400 (imgNat b 0x00C 4)

/-- An image is accepted for a kind with a fused minimum (R353). -/
def imageAccepted (b : List Byte) (kind : Nat) (min : BitVec 32) : Bool :=
  let modulus := imgBytes b 0x080 384
  b.length == 0x400 + imgNat b 0x00C 4 && imgNat b 0x00C 4 % 64 == 0
    && imgNat b 0x000 4 == 0x96000B07 && imgNat b 0x004 4 == kind
    && imgNat b 0x034 76 == 0 && imgNat b 0x380 128 == 0
    && decide (imgNat b 0x030 4 ≤ 3)
    && Sys2Proof.Config.sha256 modulus == Sys2Proof.Config.keyHash (imgNat b 0x030 4)
    && !Sys2Proof.Config.keyRevoked (imgNat b 0x030 4)
    && Sys2Proof.Config.rsaVerify modulus (imgBytes b 0x200 384) (imgBytes b 0x000 0x200)
    && (Sys2Proof.Config.sha256 (imgBody b)).toNat == imgNat b 0x010 32
    && decide (min.toNat ≤ (imgSvn b).toNat)

/-! ## Bring-up (R352) -/

/-- Step 3: the repair list puts spares in use, beside those that are, and a soft repair is made hard (R335, R341). -/
def applyRepairs (s : State) (b : BringUp) : State :=
  { s with spares := s.spares ||| b.spares, lanesSpared := b.lanes.foldl setIns s.lanesSpared,
           waySpares := b.ways.foldl (fun l w => if l.contains w then l else l ++ [w]) s.waySpares, softppr := 0 }

/-- Steps 3 to 6, each of which may fail: repairs, reserved memory, calibration, and the supervisor image with TVEC, verified for KIND 2. -/
def bringUp (s : State) (b : BringUp) : Except Nat State :=
  let fused := s.cryo.minSup
  if 3 ≤ b.fails ∧ b.fails ≤ 5 then .error b.fails
  else if !imageAccepted b.supervisor 2 fused then .error 6
  else .ok ((bringUpMemory { applyRepairs s b with tvec := b.tvec &&& ~~~(56 : Word) }).modCryo (fun c =>
    { c with svnSup := imgSvn b.supervisor, supDigest := Sys2Proof.Config.sha256 (imgBody b.supervisor), step := 7 }))

/-- SOAK_TIMER_EXPIRE (R348, R352): after 600 s of SOAK, steps 3 to 7; after a warm reset in COLD or RETREAT the same steps in that state. A step that
fails leaves the package where it is. -/
def execSoakTimerExpire (b : BringUp) (s : State) : Out :=
  .next (
    let soak := s.cryo.st == 3 && (s.cryo.holdSince.map (fun t => decide (t + 600 * oneSecond ≤ s.time))).getD false
    let again := (s.cryo.st == 4 || s.cryo.st == 5) && s.cryo.step == 3
    if !soak && !again then s
    else match bringUp s b with
      | .error k => bringUpFails s k
      | .ok s1 => if soak then enterCold s1 else scheduleAll s1)

/-- RETREAT_HOLD_EXPIRE (R348, R350): after 60 s the band goes down by one; from band 1 the package returns to COLD. -/
def execRetreatHoldExpire (s : State) : Out :=
  .next (match s.cryo.holdSince with
    | none => s
    | some t =>
      let c := s.cryo
      if c.st ≠ 5 || c.wantBand = 0 || s.time < t + 60 * oneSecond then s
      else if c.wantBand = 1 then enterCold s
      else s.modCryo (fun c => ({ c with wantBand := c.wantBand - 1, holdSince := none }).holdAt s.time))

/-- COOLHOLD_RELEASE (R349). -/
def execCoolholdRelease (s : State) : Out :=
  .next (match s.cryo.withinSince with
    | none => s
    | some t => if !s.cryo.coolhold || s.time < t + 60 * oneSecond then s
      else s.modCryo (fun c => { c with coolhold := false, withinSince := none }))

/-! ## Commands (R348, R351) -/

/-- The state after an allowed command; `none` where the command is not allowed. -/
def commanded (s : State) (cmd die : Nat) : Option State :=
  let c := s.cryo
  match cmd with
  | 1 => if (c.st = 0 ∧ 0 < c.step) ∨ c.st = 1 then
      some (s.modCryo (fun c => { c with st := 2, wantBand := c.rawBand, refon := true, holdSince := none }))
    else none
  | 2 => if c.st = 2 ∨ c.st = 3 ∨ c.st = 4 ∨ c.st = 5 then some (enterAscent s (if c.st = 5 then c.wantBand else c.rawBand)) else none
  | 3 => if c.st = 0 ∧ 0 < c.step ∧ 960 ≤ c.tmin ∧ c.tmax ≤ c.lim.tripHi then
      some (s.modCryo (fun c => { c with st := 1, svcDie := die, refon := true }))
    else none
  | 4 => if c.st = 1 then some (enterOff s) else none
  | 5 => if c.st = 7 ∧ c.lim.tripLo ≤ c.tmin ∧ c.tmax ≤ c.lim.tripHi then some (s.modCryo (fun c => { c with st := 0 })) else none
  | _ => none

/-- A command: one that is not allowed is ignored and sets REFUSED; code 0 is none. -/
def command (s : State) (cmd die : Nat) : State :=
  if cmd = 0 then s
  else match commanded s cmd die with
    | some s1 => s1
    | none => s.modCryo (fun c => { c with refused := true })

/-- A write of CRYOCMD. -/
def cryocmdWrite (s : State) (v : Word) : State := command s (v.toNat % 8) (v.toNat / 256 % 16)

/-- CMD_COOL (R348). -/
def execCmdCool (s : State) : Out := .next (command s 1 0)
/-- CMD_WARM (R348). -/
def execCmdWarm (s : State) : Out := .next (command s 2 0)
/-- CMD_SERVICE (R348). -/
def execCmdService (die : BitVec 4) (s : State) : Out := .next (command s 3 die.toNat)
/-- CMD_OFF (R348). -/
def execCmdOff (s : State) : Out := .next (command s 4 0)
/-- CMD_CLEAR (R348). -/
def execCmdClear (s : State) : Out := .next (command s 5 0)

/-- CMD_INVALID (R351): a code of 6 or 7, or a command that the state does not allow, is ignored and sets REFUSED. -/
def execCmdInvalid (v : Word) (s : State) : Out :=
  .next (
    let cmd := v.toNat % 8
    if cmd = 0 || (commanded s cmd (v.toNat / 256 % 16)).isSome then s else cryocmdWrite s v)

/-! ## Power, resets, images (R352 to R354) -/

/-- A flash bank after the boot ROM or an update has seen it. -/
def Cryo.bank (c : Cryo) (k : Nat) : List Byte := (if k = 0 then c.bank0 else c.bank1).getD []

/-- The firmware of a bank boots: a minimum that is to be raised to its version is raised. -/
def booted (c : Cryo) (bank : Nat) : Cryo :=
  let v := imgSvn (c.bank bank)
  { c with running := bank, step := 1, svnMc := v, minMc := if c.raising = some v then v else c.minMc,
           raising := if c.raising = some v then none else c.raising }

/-- POWER_UP (R352): the boot ROM verifies the firmware in flash bank 0, and falls back to bank 1. `f0` and `f1` are what the banks were made with, for one
that no update has written (DESIGN CHOICE, log 17). -/
def execPowerUp (f0 f1 : List Byte) (s : State) : Out :=
  .next (
    if s.cryo.step ≠ 0 || s.cryo.st ≠ 0 then s
    else
      let s1 := s.modCryo (fun c => { c with bank0 := some (c.bank0.getD f0), bank1 := some (c.bank1.getD f1) })
      if imageAccepted (s1.cryo.bank 0) 1 s1.cryo.minMc then s1.modCryo (fun c => booted c 0)
      else if imageAccepted (s1.cryo.bank 1) 1 s1.cryo.minMc then s1.modCryo (fun c => booted c 1)
      else bringUpFails s1 1)

/-- What lies outside the package or in flash and fuses, and the model's own fields, that a reset leaves. -/
def resetKeeps (s : State) : State :=
  { State.reset with agenda := s.agenda, autoTurn := s.autoTurn, freeCtr := s.freeCtr, nextId := s.nextId }

/-- WARM_RESET (R352): bring-up restarts at step 3 in the current state; the black box and SOFTPPR stay, until step 3 makes the soft repairs hard, and so
do spares in use (R335), HBM, and the usage counters (R313). -/
def execWarmReset (s : State) : Out :=
  .next { resetKeeps s with
    clock := s.clock, time := s.time, mem := s.mem, memPoison := s.memPoison, owners := s.owners, box := s.box, eseq := s.eseq,
    softppr := s.softppr, spares := s.spares, lanesSpared := s.lanesSpared, pinSpares := s.pinSpares, waySpares := s.waySpares,
    ctxs := s.ctxs.map (fun e => (e.1, { Ctx.reset with uc := e.2.uc, ucSnap := e.2.ucSnap, uctime := e.2.uctime })),
    cores := (s.cores.filter (fun e => e.2.outOfService)).map (fun e => (e.1, { CoreSt.reset with outOfService := true })),
    cryo := { s.cryo with reg := .reset, lim := .reset, refused := false, step := Nat.min s.cryo.step 3 } }

/-- COLD_RESET (R352): bring-up restarts at power-up; flash and fuses stay. -/
def execColdReset (s : State) : Out :=
  .next { resetKeeps s with
    cryo := { Cryo.reset with bank0 := s.cryo.bank0, bank1 := s.cryo.bank1, minMc := s.cryo.minMc,
                              minSup := s.cryo.minSup, raising := s.cryo.raising, reports := s.cryo.reports } }

/-- FIRMWARE_UPDATE (R353): accepted only in WARMSVC, verified in full, and written to the bank that is not running. -/
def execFirmwareUpdate (img : SignedImage) (s : State) : Out :=
  .next (
    let c := s.cryo
    if c.st ≠ 1 || !imageAccepted img.bytes 1 c.minMc then s
    else
      s.modCryo (fun c => { c with bank0 := if c.running = 0 then c.bank0 else some img.bytes,
                                   bank1 := if c.running = 0 then some img.bytes else c.bank1,
                                   raising := if img.raisesMin then some (imgSvn img.bytes) else c.raising }))

/-- The bytes of a list of numbers, four each. -/
def bytesOfList (l : List Nat) : List Byte := l.flatMap (fun n => bytesOf n 4)

/-- The repair list: spare cores, lanes, pins and L2 ways in use, and rows (R335, R341). -/
def repairList (s : State) : List Byte :=
  bytesOf s.spares.toNat 3 ++ bytesOf s.softppr.toNat 2 ++ bytesOfList s.lanesSpared ++ bytesOfList s.pinSpares
    ++ bytesOfList (s.waySpares.map (fun w => 65536 * w.1 + w.2))

/-- BANDHI. -/
def Cryo.bandhi (c : Cryo) : Nat := c.reg.hi3 * 2 ^ 48 + c.reg.hi2 * 2 ^ 32 + c.reg.hi1 * 2 ^ 16 + c.reg.hi0
/-- TRIPLIM. -/
def Cryo.triplim (c : Cryo) : Nat := c.reg.tripHi * 2 ^ 16 + c.reg.tripLo

/-- The body of a report (R354). -/
def reportBody (s : State) (nonce : BitVec 256) : List Byte :=
  let c := s.cryo
  bytesOf nonce.toNat 32 ++ bytesOf (Sys2Proof.Config.sha256 (imgBody (c.bank c.running))).toNat 32 ++ bytesOf c.supDigest.toNat 32 ++ bytesOf c.svnMc.toNat 4
    ++ bytesOf c.svnSup.toNat 4 ++ bytesOf (Sys2Proof.Config.sha256 (repairList s)).toNat 32 ++ bytesOf c.bandhi 8
    ++ bytesOf c.triplim 8 ++ bytesOf c.st 4

/-- ATTESTATION_REPORT (R354): the signed report goes out over the management port. -/
def execAttestationReport (nonce : BitVec 256) (s : State) : Out :=
  .next (s.modCryo (fun c => { c with reports := c.reports ++ [reportBody s nonce ++ Sys2Proof.Config.attestSign (reportBody s nonce)] }))

end Sys2Proof.Machine
end

