-- ==== Sys2Proof/Machine/System.lean ====
section
/-! DEFINITION. System registers: their numbers, access and fields, reads and writes (R146, R268 to R270, R275, R281, R287, R290, R300,
R309 to R318, R329, R333, R334, R343, R351); the privileged instructions (R171, R273, R274); and the events of register writes. -/

namespace Sys2Proof.Machine

/-! ## The register table (R269) -/

/-- Access of a level to a register. -/
inductive Acc | none | ro | rw | wo | w1c
  deriving DecidableEq, Repr

/-- What holds a register. -/
inductive Held | group | context | core | package
  deriving DecidableEq, Repr

/-- A row of the register table: what holds it, the access of user, supervisor and machine level, and the bits that are not
reserved. -/
structure RegRow where
  held : Held
  user : Acc
  sup : Acc
  mach : Acc
  bits : Word
  deriving DecidableEq, Repr

/-- Bits `hi` to `lo`. -/
def bitsOf (hi lo : Nat) : Word := BitVec.ofNat 64 (2 ^ (hi + 1) - 2 ^ lo)

/-- The row of an assigned number (R269). -/
def regRow (n : Nat) : RegRow :=
  if n ≤ 0x003 then ⟨.group, .rw, .rw, .none, bitsOf 15 12 ||| bitsOf 4 0⟩
  else if n ≤ 0x023 then ⟨.context, .ro, .rw, .rw, bitsOf 31 0⟩
  else match n with
    | 0x024 => ⟨.context, .ro, .rw, .rw, bitsOf 63 32 ||| bitsOf 19 0⟩
    | 0x025 => ⟨.context, .ro, .rw, .rw, bitsOf 63 6⟩
    | 0x026 => ⟨.context, .ro, .w1c, .rw, bitsOf 19 0⟩
    | 0x040 => ⟨.group, .ro, .ro, .none, bitsOf 1 0⟩
    | 0x041 => ⟨.group, .none, .rw, .none, bitsOf 47 32 ||| bitsOf 23 16 ||| bitsOf 7 0⟩
    | 0x042 => ⟨.group, .none, .rw, .none, bitsOf 63 0⟩
    | 0x043 => ⟨.group, .none, .ro, .none, bitsOf 63 0⟩
    | 0x044 => ⟨.group, .none, .rw, .none, bitsOf 63 0⟩
    | 0x045 | 0x046 | 0x047 | 0x048 => ⟨.group, .none, .rw, .none, bitsOf 63 0⟩
    | 0x050 => ⟨.package, .none, .ro, .rw, bitsOf 63 6 ||| bitsOf 2 0⟩
    | 0x058 => ⟨.core, .none, .rw, .ro, bitsOf 1 0⟩
    | 0x060 => ⟨.context, .none, .rw, .rw, bitsOf 63 12⟩
    | 0x061 => ⟨.context, .none, .rw, .rw, bitsOf 8 8 ||| bitsOf 4 0⟩
    | 0x062 => ⟨.context, .none, .rw, .rw, bitsOf 19 0⟩
    | 0x063 => ⟨.context, .none, .ro, .ro, bitsOf 19 0⟩
    | 0x064 => ⟨.context, .none, .ro, .ro, bitsOf 31 0⟩
    | 0x070 => ⟨.context, .none, .rw, .rw, bitsOf 63 12⟩
    | 0x071 => ⟨.context, .none, .rw, .rw, bitsOf 12 0⟩
    | 0x072 => ⟨.context, .none, .rw, .rw, bitsOf 63 17⟩
    | 0x080 => ⟨.context, .none, .rw, .rw, bitsOf 51 12⟩
    | 0x081 => ⟨.context, .none, .rw, .rw, bitsOf 0 0⟩
    | 0x082 => ⟨.context, .none, .rw, .rw, bitsOf 63 24⟩
    | 0x083 => ⟨.context, .none, .rw, .rw, bitsOf 15 0⟩
    | 0x084 => ⟨.context, .none, .ro, .ro, bitsOf 15 0⟩
    | 0x085 => ⟨.group, .none, .rw, .none, bitsOf 0 0⟩
    | 0x086 => ⟨.package, .none, .ro, .rw, bitsOf 18 0⟩
    | 0x087 => ⟨.package, .none, .ro, .rw, bitsOf 7 7 ||| bitsOf 5 0⟩
    | 0x0C0 => ⟨.context, .none, .wo, .wo, bitsOf 63 6⟩
    | 0x0C1 => ⟨.context, .none, .w1c, .w1c, bitsOf 8 8 ||| bitsOf 4 0⟩
    | 0x0C2 => ⟨.context, .none, .rw, .rw, bitsOf 31 16 ||| bitsOf 7 4 ||| bitsOf 0 0⟩
    | 0x0C3 => ⟨.context, .none, .ro, .ro, bitsOf 63 0⟩
    | 0x0C4 => ⟨.package, .none, .ro, .rw, bitsOf 15 0⟩
    | 0x0D0 => ⟨.context, .none, .ro, .rw, bitsOf 39 32 ||| bitsOf 13 8 ||| bitsOf 0 0⟩
    | 0x0D1 => ⟨.context, .none, .ro, .rw, bitsOf 14 0⟩
    | 0x0D2 => ⟨.context, .none, .ro, .ro, bitsOf 21 0⟩
    | 0x0D8 | 0x0D9 | 0x0DA | 0x0DB => ⟨.context, .rw, .rw, .rw, bitsOf 15 13 ||| bitsOf 7 0⟩
    | 0x0DC | 0x0DD | 0x0DE | 0x0DF => ⟨.context, .rw, .rw, .rw, bitsOf 47 0⟩
    | 0x0E0 => ⟨.context, .w1c, .w1c, .w1c, bitsOf 3 0⟩
    | 0x0E1 => ⟨.context, .ro, .ro, .rw, bitsOf 0 0⟩
    | 0x0E2 => ⟨.context, .none, .none, .ro, bitsOf 63 0⟩
    | 0x100 => ⟨.package, .none, .ro, .rw, bitsOf 7 0⟩
    | 0x101 => ⟨.package, .none, .ro, .ro, bitsOf 16 0⟩
    | 0x102 => ⟨.package, .none, .ro, .rw, bitsOf 63 15⟩
    -- FEATOFF: bits 127:3 are offered as 0 (R334)
    | 0x104 => ⟨.context, .none, .ro, .rw, bitsOf 2 0⟩
    | 0x105 => ⟨.context, .none, .ro, .rw, 0⟩
    | 0x106 | 0x107 => ⟨.context, .none, .rw, .rw, bitsOf 63 0⟩
    | 0x108 => ⟨.context, .none, .wo, .wo, bitsOf 20 0⟩
    | 0x109 => ⟨.context, .none, .ro, .ro, bitsOf 2 0⟩
    | 0x10A => ⟨.context, .none, .ro, .ro, bitsOf 63 0⟩
    | 0x140 => ⟨.package, .none, .ro, .rw, bitsOf 47 24 ||| bitsOf 11 0⟩
    | 0x141 => ⟨.group, .ro, .ro, .none, bitsOf 63 0⟩
    | 0x142 => ⟨.package, .none, .ro, .ro, bitsOf 47 0⟩
    | 0x143 => ⟨.core, .none, .w1c, .w1c, bitsOf 4 0⟩
    | 0x180 => ⟨.package, .none, .ro, .w1c, bitsOf 47 32 ||| bitsOf 27 24 ||| bitsOf 18 16 ||| bitsOf 10 8 ||| bitsOf 1 0⟩
    | 0x181 => ⟨.package, .none, .ro, .ro, bitsOf 63 48 ||| bitsOf 23 0⟩
    | 0x182 => ⟨.package, .none, .ro, .rw, bitsOf 63 0⟩
    | 0x183 => ⟨.package, .none, .ro, .rw, bitsOf 31 0⟩
    | 0x184 => ⟨.package, .none, .none, .wo, bitsOf 11 8 ||| bitsOf 2 0⟩
    | 0x185 => ⟨.package, .none, .ro, .ro, bitsOf 63 0⟩
    -- UC0 to UC15
    | _ => ⟨.context, .none, .ro, .rw, bitsOf 47 0⟩

/-- The access of a group's level. -/
def RegRow.acc (r : RegRow) (sup : Bool) : Acc := if sup then r.sup else r.user

/-- `srd` is allowed. -/
def Acc.readable (a : Acc) : Bool := a != .none

/-- `swr` is allowed. -/
def Acc.writable (a : Acc) : Bool := a == .rw || a == .wo || a == .w1c

/-- Values that a register's map refuses at `swr`: FQCTL.SIZE outside 7 to 20, and an event code that is not listed (R275, R317). -/
def mapRefuses (n : Nat) (v : Word) : Bool :=
  if n = 0x061 then decide (v.toNat % 32 < 7 ∨ 20 < v.toNat % 32)
  else if 0x0D8 ≤ n ∧ n ≤ 0x0DB then
    let e := v.toNat % 256
    !(decide (e ≤ 17) || decide (32 ≤ e ∧ e ≤ 35))
  else false

/-! ## Reads -/

/-- TIMER of CRYOSTAT: seconds on the soak timer or the retreat timer. -/
def Cryo.timer (c : Cryo) (now : Nat) : Nat := ((c.holdSince.map (fun t => (now - t) / oneSecond)).getD 0) % 65536

/-- CRYOSTAT (R351). -/
def cryostat (s : State) : Nat :=
  let c := s.cryo
  c.timer s.time * 2 ^ 32 + c.st % 16 * 2 ^ 24 + c.band % 8 * 2 ^ 16 + flagAt c.refused 10 + flagAt c.coolhold 9 + flagAt c.refon 8 + c.tset % 4

/-- TEMPSTAT (R351); RATE saturates at 16 bits. -/
def tempstat (c : Cryo) : Nat :=
  let r : Int := max (-32768) (min 32767 c.rate)
  (r % 65536).toNat * 2 ^ 48 + c.tmax % 4096 * 2 ^ 12 + c.tmin % 4096

/-- LQSTAT: launches and retakes of each PRIO with STATE 1 to 3 (R300). -/
def lqstat (s : State) (ctx : Nat) : Nat :=
  [0, 1, 2, 3].foldl (fun a p =>
    a + (s.launches.filter (fun e => e.2.ctx == ctx && e.2.prio == p && decide (1 ≤ e.2.state ∧ e.2.state ≤ 3))).length % 65536 * 2 ^ (16 * p)) 0

/-- LNKSTAT (R333). -/
def lnkstat (s : State) : Nat := (List.range 17).foldl (fun a p => a + flagAt (s.port p).up p) 0

/-- A register held per group. -/
def readGroup (g : Group) (n : Nat) : Word :=
  if n ≤ 3 then SMap.get g.ptgt 0 n
  else match n with
    | 0x040 => if g.sup then 1 else 0
    | 0x041 => g.tcause
    | 0x042 => g.tpc
    | 0x043 => g.trec
    | 0x044 => g.tmask
    | 0x085 => if g.tfwd then 1 else 0
    | 0x141 => g.dead
    | _ => SMap.get g.sscr 0 (n - 0x045)

/-- A register held per context. -/
def readContext (s : State) (ctx n : Nat) : Word :=
  let c := s.ctx ctx
  if 0x010 ≤ n ∧ n ≤ 0x023 then (SMap.get c.fpxc 0 (n - 0x010)).setWidth 64
  else if 0x0F0 ≤ n ∧ n ≤ 0x0FF then BitVec.ofNat 64 (ucRead c.uc (n - 0x0F0))
  else match n with
    | 0x024 => c.fpxctl
    | 0x025 => c.fpxksel
    | 0x026 => c.fpxstat.setWidth 64
    | 0x060 => c.fqbase
    | 0x061 => c.fqctl
    | 0x062 => BitVec.ofNat 64 c.fqhead
    | 0x063 => BitVec.ofNat 64 c.fqtail
    | 0x064 => c.fqseq.setWidth 64
    | 0x070 => c.svbase
    | 0x071 => BitVec.ofNat 64 c.svcount
    | 0x072 => c.slatebase
    | 0x080 => c.ptroot
    | 0x081 => if c.xlctl then 1 else 0
    | 0x082 => c.bbbase
    | 0x083 => c.bbhead.setWidth 64
    | 0x084 => c.bbtail.setWidth 64
    | 0x0C1 => BitVec.ofNat 64 (flagAt c.lost 8 + c.mailbox.length % 32)
    | 0x0C2 => c.schedctl
    | 0x0C3 => BitVec.ofNat 64 (lqstat s ctx)
    | 0x0D0 => c.vfcfg
    | 0x0D1 => c.l2quota.setWidth 64
    | 0x0D2 => BitVec.ofNat 64 (l2Lines s ctx)
    | 0x0D8 | 0x0D9 | 0x0DA | 0x0DB => SMap.get c.cntcfg 0 (n - 0x0D8)
    | 0x0DC | 0x0DD | 0x0DE | 0x0DF => readCnt c (n - 0x0DC)
    | 0x0E0 => c.cntstat.setWidth 64
    | 0x0E1 => if c.cntgrant then 1 else 0
    | 0x0E2 => BitVec.ofNat 64 c.uctime
    | 0x104 => c.featoff0
    | 0x105 => c.featoff1
    | 0x106 => c.featgnt0
    | 0x107 => c.featgnt1
    | 0x109 => c.jqres.setWidth 64
    | 0x10A => c.jqval
    -- LMBOX and JQCMD are write-only (R300)
    | _ => 0

/-- A register held per core or package; `core` is the core of the group. -/
def readPackage (s : State) (core n : Nat) : Word :=
  match n with
  | 0x050 => s.tvec
  | 0x058 => BitVec.ofNat 64 (flagAt (s.core core).array.halted 1 + flagAt (s.core core).array.halt 0)
  | 0x086 => s.rgnidx.setWidth 64
  | 0x087 => match SMap.find? s.owners s.rgnidx.toNat with
    | some v => BitVec.ofNat 64 (0x80 + v % 64)
    | none => 0
  | 0x0C4 => s.migctl
  | 0x100 => s.lnkid.setWidth 64
  | 0x101 => BitVec.ofNat 64 (lnkstat s)
  | 0x102 => s.lktbase
  | 0x140 => BitVec.ofNat 64 (s.spares.toNat * 2 ^ 24 + s.softppr.toNat)
  | 0x142 => s.eseq.setWidth 64
  | 0x143 => (s.core core).suspect.setWidth 64
  | 0x180 => BitVec.ofNat 64 (cryostat s)
  | 0x181 => BitVec.ofNat 64 (tempstat s.cryo)
  | 0x182 => BitVec.ofNat 64 s.cryo.bandhi
  | 0x183 => BitVec.ofNat 64 s.cryo.triplim
  | 0x185 => s.cryo.svnSup ++ s.cryo.svnMc
  | _ => 0

/-- What `srd` returns to a group; a write-only register reads as zero (R300). -/
def readReg (s : State) (g : Group) (n : Nat) : Word :=
  match (regRow n).held with
  | .group => readGroup g n
  | .context => readContext s (s.ctxOf g) n
  | .core | .package => readPackage s g.core n

/-! ## Writes with effects of their own -/

/-- The mailbox takes an address (R298, R300). -/
def lmboxPut (s : State) (ctx : Nat) (v : Word) : State :=
  s.modCtx ctx (fun c => if c.mailbox.length < 16 then { c with mailbox := c.mailbox ++ [v] } else { c with lost := true })

/-- SVCOUNT (R281): above 6,144 acts as 6,144; below the number of crews the write is refused. -/
def svcountPut (s : State) (ctx : Nat) (v : Word) : State :=
  let n := Nat.min v.toNat 6144
  if n < crewCount s ctx then s else s.modCtx ctx (fun c => { c with svcount := n })

/-- ARRCTL (R270, R280): HALT requests a halt; clearing it lets the array go on. -/
def arrctlPut (s : State) (core : Nat) (v : Word) : State :=
  let h := v.getLsbD 0
  s.modCore core (fun c => { c with array := { c.array with halt := h, halted := c.array.halted && h } })

/-- The sets of dies that a partition can be (R309). -/
def diesAllowed (d : Nat) : Bool := [1, 2, 4, 8, 16, 32, 3, 12, 48, 7, 56, 63].contains d

/-- DIES of a VFCFG value. -/
def diesField (v : Word) : Nat := (v.extractLsb' 8 6 : BitVec 6).toNat

/-- DIES keep R309: an allowed set, equal to or disjoint from that of each other enabled context. -/
def diesOk (s : State) (ctx : Nat) (v : Word) : Bool :=
  let d := diesField v
  diesAllowed d && s.ctxs.all (fun e => e.1 == ctx || !e.2.en || diesField e.2.vfcfg == d || Nat.land (diesField e.2.vfcfg) d == 0)

/-- VFCFG (R310): while EN is 1 only EN changes, and EN is set only with DIES that keep R309. Clearing EN switches the context out;
setting it lets it be scheduled. -/
def vfcfgPut (s : State) (ctx : Nat) (v : Word) : State :=
  let old := (s.ctx ctx).vfcfg
  let was := old.getLsbD 0
  let en := v.getLsbD 0
  if was && (v ^^^ old) &&& ~~~(1 : Word) != 0 then s
  else if en && !diesOk s ctx v then s
  else
    let s1 := s.modCtx ctx (fun c => { c with vfcfg := v })
    if was && !en then beginSwitch s1 ctx else if !was && en then pickNext s1 ctx (diesOf (s1.ctx ctx)) else s1

/-- CNTGRANT (R317, R319): with FABVIS cleared a fabric counter becomes zero at once. -/
def cntgrantPut (s : State) (ctx : Nat) (v : Word) : State :=
  s.modCtx ctx (fun c =>
    let g := v.getLsbD 0
    { c with cntgrant := g,
             cnt := if g then c.cnt else c.cnt.filter (fun e => !fabricCode ((SMap.get c.cntcfg 0 e.1).extractLsb' 0 8 : BitVec 8).toNat) })

/-- CNT`k`: a write is ignored while the counter selects a fabric event that is not granted (R317). -/
def cntPut (s : State) (ctx k : Nat) (v : Word) : State :=
  s.modCtx ctx (fun c =>
    if fabricCode ((SMap.get c.cntcfg 0 k).extractLsb' 0 8 : BitVec 8).toNat && !c.cntgrant then c
    else { c with cnt := SMap.put c.cnt 0 k (v.setWidth 48) })

/-- JQCMD (R329): a query of a far journal starts, or is answered at once. -/
def jqcmdPut (s : State) (ctx : Nat) (v : Word) : State :=
  let t := (v.extractLsb' 16 5 : BitVec 5).toNat
  if !farEnd s t then s.modCtx ctx (fun c => { c with jqcmd := none, jqres := 5 })
  else if !(s.port t).up then s.modCtx ctx (fun c => { c with jqcmd := none, jqres := 4 })
  else s.modCtx ctx (fun c => { c with jqcmd := some v, jqres := 0 })

/-- FEATGNT`k` (R334): the value ANDed with the offer; refused while the context has a launch in STATE 1 to 3 or a crew. -/
def featgntPut (s : State) (ctx k : Nat) (v : Word) : State :=
  if s.launches.any (fun e => e.2.ctx == ctx && decide (1 ≤ e.2.state ∧ e.2.state ≤ 3)) || crewCount s ctx != 0 then s
  else s.modCtx ctx (fun c => if k = 0 then { c with featgnt0 := v &&& c.featoff0 } else { c with featgnt1 := v &&& c.featoff1 })

/-- RGNOWN (R290): the owner of region RGNIDX, at all eight slices of its stack at once. -/
def rgnownPut (s : State) (v : Word) : State :=
  let r := s.rgnidx.toNat
  if 294911 < r then s
  else { s with owners := if v.getLsbD 7 then SMap.ins s.owners r (v.toNat % 64) else SMap.del s.owners r }

/-- Sixteen bits of a word. -/
def half (v : Word) (k : Nat) : Nat := v.toNat / 2 ^ (16 * k) % 65536

/-- BANDHI (R351): each limit can only be narrowed; a write that leaves them not ascending, or HI0 below 75 K, is refused. The limits take effect at the
next reading. -/
def bandhiPut (s : State) (v : Word) : State :=
  let h0 := Nat.min (half v 0) 344
  let h1 := Nat.min (half v 1) 440
  let h2 := Nat.min (half v 2) 640
  let h3 := Nat.min (half v 3) 960
  if h0 < h1 ∧ h1 < h2 ∧ h2 < h3 ∧ 300 ≤ h0 then
    s.modCryo (fun c => { c with reg := { c.reg with hi0 := h0, hi1 := h1, hi2 := h2, hi3 := h3 } }) else s

/-- TRIPLIM (R351), which takes effect at the next reading. -/
def triplimPut (s : State) (v : Word) : State :=
  let lo := Nat.max (half v 0) 280
  let hi := Nat.min (half v 1) 1280
  if lo < hi then s.modCryo (fun c => { c with reg := { c.reg with tripLo := lo, tripHi := hi } }) else s

/-! ## Writes -/

/-- A write of a register held per group. -/
def writeGroup (s : State) (gid n : Nat) (v : Word) : State :=
  s.modGroup gid (fun g =>
    if n ≤ 3 then { g with ptgt := SMap.put g.ptgt 0 n v }
    else match n with
      | 0x041 => { g with tcause := v }
      | 0x042 => { g with tpc := v }
      | 0x044 => { g with tmask := v &&& fullMask g.w }
      | 0x085 => { g with tfwd := v.getLsbD 0 }
      | _ => { g with sscr := SMap.put g.sscr 0 (n - 0x045) v })

/-- A write of a register held per context, its reserved bits zero; `mach` is machine level. -/
def writeContext (s : State) (ctx n : Nat) (v : Word) (mach : Bool) : State :=
  let upd := fun (f : Ctx → Ctx) => s.modCtx ctx f
  if 0x010 ≤ n ∧ n ≤ 0x023 then upd (fun c => { c with fpxc := SMap.put c.fpxc 0 (n - 0x010) (v.setWidth 32) })
  else if 0x0F0 ≤ n ∧ n ≤ 0x0FF then
    let k := n - 0x0F0
    upd (fun c => { c with uc := SMap.ins c.uc k (if k ≤ 4 then 84000 * v.toNat else v.toNat) })
  else match n with
    | 0x024 => upd (fun c => { c with fpxctl := v })
    | 0x025 => upd (fun c => { c with fpxksel := v })
    | 0x026 => upd (fun c => { c with fpxstat := if mach then v.setWidth 20 else c.fpxstat &&& ~~~(v.setWidth 20) })
    | 0x060 => upd (fun c => { c with fqbase := v })
    | 0x061 => upd (fun c => { c with fqctl := v })
    | 0x062 => upd (fun c => { c with fqhead := v.toNat })
    | 0x070 => upd (fun c => { c with svbase := v })
    | 0x071 => svcountPut s ctx v
    | 0x072 => upd (fun c => { c with slatebase := v })
    | 0x080 => upd (fun c => { c with ptroot := v })
    | 0x081 => upd (fun c => { c with xlctl := v.getLsbD 0 })
    | 0x082 => upd (fun c => { c with bbbase := v })
    | 0x083 => wakeAll (upd (fun c => { c with bbhead := v.setWidth 16 })) (· == .image)
    | 0x0C0 => lmboxPut s ctx v
    | 0x0C1 => upd (fun c => { c with lost := c.lost && !v.getLsbD 8 })
    | 0x0C2 => upd (fun c => { c with schedctl := v })
    | 0x0D0 => vfcfgPut s ctx v
    | 0x0D1 => upd (fun c => { c with l2quota := v.setWidth 15 })
    | 0x0D8 | 0x0D9 | 0x0DA | 0x0DB => upd (fun c => { c with cntcfg := SMap.put c.cntcfg 0 (n - 0x0D8) v })
    | 0x0DC | 0x0DD | 0x0DE | 0x0DF => cntPut s ctx (n - 0x0DC) v
    | 0x0E0 => upd (fun c => { c with cntstat := c.cntstat &&& ~~~(v.setWidth 4) })
    | 0x0E1 => cntgrantPut s ctx v
    | 0x104 => upd (fun c => { c with featoff0 := v })
    | 0x105 => upd (fun c => { c with featoff1 := v })
    | 0x106 => featgntPut s ctx 0 v
    | 0x107 => featgntPut s ctx 1 v
    | 0x108 => jqcmdPut s ctx v
    | _ => s

/-- A write of a register held per core or package. -/
def writePackage (s : State) (core n : Nat) (v : Word) : State :=
  match n with
  | 0x050 => { s with tvec := v }
  | 0x058 => arrctlPut s core v
  | 0x086 => { s with rgnidx := v.setWidth 19 }
  | 0x087 => rgnownPut s v
  | 0x0C4 => { s with migctl := v }
  | 0x100 => { s with lnkid := v.setWidth 8 }
  | 0x102 => { s with lktbase := v }
  | 0x140 => { s with spares := v.extractLsb' 24 24, softppr := v.setWidth 12 }
  | 0x143 => s.modCore core (fun c => { c with suspect := c.suspect &&& ~~~(v.setWidth 5) })
  | 0x180 => s.modCryo (fun c => { c with refused := c.refused && !v.getLsbD 10 })
  | 0x182 => bandhiPut s v
  | 0x183 => triplimPut s v
  | 0x184 => cryocmdWrite s v
  | _ => s

/-- What `swr` of a group writes. -/
def writeReg (s : State) (gid : Nat) (g : Group) (n : Nat) (v : Word) : State :=
  match (regRow n).held with
  | .group => writeGroup s gid n v
  | .context => writeContext s (s.ctxOf g) n v false
  | .core | .package => writePackage s g.core n v

/-! ## `srd` and `swr` (R268) -/

/-- `srd`. -/
def execSrd (k : BitVec 4) (d : SDst) (num : BitVec 12) (s : State) : Out :=
  withGroup s fun gid g s =>
    if !((regRow num.toNat).acc g.sup).readable then .next (raiseCD s gid 8 13)
    else withReads { g := k } s fun gid g eff s =>
      -- a counter is read behind what reconvergence orders before it (R110, R318)
      .next (if decide (0x0DC ≤ num.toNat ∧ num.toNat ≤ 0x0DF) && fencesHold s gid g then park s gid g .counters
        else finishS s gid g eff d (readReg s g num.toNat))

/-- The fault of `swr` of a value: ILLEGAL 2 before PROT 13. -/
def swrFault (g : Group) (n : Nat) (v : Word) : Option (Nat × Nat) :=
  let r := regRow n
  if v &&& ~~~r.bits != 0 || mapRefuses n v then some (1, 2)
  else if !(r.acc g.sup).writable then some (8, 13)
  else none

/-- `swr`. The value of a latch that may not be read is not looked at. Its value is checked even when its effective mask is empty, which then
writes nothing (DESIGN CHOICE, log 18). -/
def execSwr (k : BitVec 4) (a : SSrc) (num : BitVec 12) (s : State) : Out :=
  withGroup s fun gid g s =>
    let n := num.toNat
    let f := if g.sOk a then swrFault g n (g.sval a)
      else if !((regRow n).acc g.sup).writable then some (8, 13) else none
    match f with
    | some (c, d) => .next (raiseCD s gid c d)
    | none => withReads { g := k, ss := [a] } s fun gid g eff s =>
      let s1 := if eff = 0 then s else writeReg s gid g n (g.sval a)
      .next (match s1.group? gid with
        | some g1 => finish s1 gid g1 .none false
        | none => s1)

/-! ## Privileged instructions (R171, R273, R274) -/

/-- PROT 12 at user level. -/
def privileged (s : State) (body : State → Out) : Out :=
  withGroup s fun gid g s => if g.sup then body s else .next (raiseCD s gid 8 12)

/-- What may happen at a stop point: the group stops for a pending request (R279), or takes a PIPEERR of its engines (R337). -/
def stopPoint (s : State) (gid : Nat) : State := takePipe (tryStop s gid) gid

/-- `eret` (R273). -/
def execEret (s : State) : Out :=
  privileged s fun s => withGroup s fun gid g s =>
    .next (
      if g.stack.length ≠ g.trapE ∨ g.frames.length ≠ g.trapD then raiseCD s gid 5 6
      else
        let s1 := eretTo s gid g
        match s1.group? gid with
        | some g1 =>
          if ((s1.crewOf g1).map Crew.preempt).getD false then s1.setGroup gid { g1 with stopped := true }
          else takePipe s1 gid
        | none => s1)

/-- `tlbinv` (R274): a shootdown of TLB entries; a length of 0 is every address. -/
def execTlbinv (a n : SSrc) (s : State) : Out :=
  privileged s fun s => anyMask { ss := [a, n] } s fun gid g s =>
    if (g.sval a).toNat % 4096 ≠ 0 || (g.sval n).toNat % 4096 ≠ 0 then raiseCD s gid 6 4
    else if !quiet s gid then park s gid g .counters
    else beginShoot s gid g .tlbinv (g.sval a) (g.sval n) [] []

/-- `idle` (R274): parked for `n` cycles of the band clock, or until a pre-emption request; `idle` is a stop point. -/
def execIdle (n : BitVec 16) (s : State) : Out :=
  privileged s fun s => withGroup s fun gid g s =>
    .next (stopPoint (park { s with idles := SMap.ins s.idles gid (s.clock + n.toNat) } gid g .idle) gid)

/-- `halt` (R274): the group retires; an instruction parked for PAGE is given up. -/
def execHalt (s : State) : Out :=
  privileged s fun s => withGroup s fun gid _ s =>
    .next (
      let s1 := forsakeAll s gid
      match s1.group? gid with
      | some g => leave s1 gid g .halt
      | none => s1)

/-- IDLE_EXPIRE (R274): the cycles of an `idle` have run out. -/
def execIdleExpire (gid : Nat) (s : State) : Out :=
  .next (match s.group? gid, SMap.find? s.idles gid with
    | some g, some due =>
      if g.status != .parked .idle || s.clock < due then s
      else finish { s with idles := SMap.del s.idles gid } gid g .none true
    | _, _ => s)

/-! ## Events of register writes -/

/-- JQCMD_WRITE (R329). -/
def execJqcmdWrite (ctx : Nat) (v : Word) (s : State) : Out := .next (if 64 ≤ ctx then s else jqcmdPut s ctx (v &&& bitsOf 20 0))

/-- What the far end's journal says of a number of a stream (R327, R329), as far as the answers that the stream has had tell: above all numbers sent, it was
never performed; 4,096 or more below one answered, it is older than the journal; else an answer says which it is. What else only the far end
knows, `asked` and `old` say. -/
def journalResult (s : State) (ctx far a : Nat) (asked : BitVec 3) (old : Word) : BitVec 3 × Word :=
  match SMap.find? s.linkStreams (streamKey far ctx) with
  | none => (2, old)
  | some st =>
    let behind := fun (e : Nat) => (e + 65536 - a) % 65536
    let d := behind (st.nextAseq + 65535)
    if 32768 ≤ d then (2, old)
    else if st.answered.any (fun e => decide (4096 ≤ behind e.1 ∧ behind e.1 < 32768)) || (asked == 3 && decide (4096 ≤ d)) then (3, old)
    else match SMap.find? st.answered a with
      | some (some v) => (1, v)
      | some none => (2, old)
      | none => (if asked = 2 then 2 else 1, old)

/-- JOURNAL_QUERY_COMPLETE (R329): the far end's answer, or RESULT 4 when its port has gone down. -/
def execJournalQueryComplete (ctx : Nat) (asked : BitVec 3) (old : Word) (s : State) : Out :=
  .next (match (s.ctx ctx).jqcmd with
    | none => s
    | some v =>
      let far := (v.extractLsb' 16 5 : BitVec 5).toNat
      if 64 ≤ ctx then s
      else
        let r := if (s.port far).up then journalResult s ctx far (v.toNat % 65536) asked old else (4, old)
        s.modCtx ctx (fun c => { c with jqcmd := none, jqres := r.1, jqval := if r.1 = 1 then r.2 else c.jqval }))

/-- FEATGNT_WRITE (R334). -/
def execFeatgntWrite (ctx k : Nat) (v : Word) (s : State) : Out := .next (if 64 ≤ ctx || 1 < k then s else featgntPut s ctx k v)

/-- RGNOWN_WRITE (R290). -/
def execRgnownWrite (v : Word) (s : State) : Out := .next (rgnownPut s v)

/-- VFCFG_WRITE (R310). -/
def execVfcfgWrite (ctx : Nat) (v : Word) (s : State) : Out := .next (if 64 ≤ ctx then s else vfcfgPut s ctx (v &&& (regRow 0x0D0).bits))

/-- SVCOUNT_WRITE (R281). -/
def execSvcountWrite (ctx : Nat) (v : Word) (s : State) : Out := .next (if 64 ≤ ctx then s else svcountPut s ctx (v &&& bitsOf 12 0))

/-- ARRCTL_WRITE (R270, R280). -/
def execArrctlWrite (core : Nat) (v : Word) (s : State) : Out := .next (if 384 ≤ core then s else arrctlPut s core v)

/-- BANDHI_WRITE (R351). -/
def execBandhiWrite (v : Word) (s : State) : Out := .next (bandhiPut s v)

/-- TRIPLIM_WRITE (R351). -/
def execTriplimWrite (v : Word) (s : State) : Out := .next (triplimPut s (v &&& bitsOf 31 0))

/-- A write over the register window or the management port, its reserved bits dropped, but for those of LMBOX, which reach the mailbox
(R298); a value that the map refuses is ignored. -/
def portWrite (s : State) (ctx n : Nat) (v : Word) (mach : Bool) : State :=
  let r := regRow n
  let w := if n = 0x0C0 then v else v &&& r.bits
  if mapRefuses n w then s
  else match r.held with
    | .group => s
    | .context => if 64 ≤ ctx then s else writeContext s ctx n w mach
    | .core => if 384 ≤ ctx then s else writePackage s ctx n w
    | .package => writePackage s 0 n w

/-- REGISTER_WRITE (R268, R269): a write over the management port at machine level; for a register held per core, `ctx` is the core. -/
def execRegisterWrite (ctx : Nat) (num : BitVec 12) (v : Word) (s : State) : Out :=
  .next (
    let n := num.toNat
    if !srAssigned num || !(regRow n).mach.writable then s else portWrite s ctx n v true)

/-- The offset of a register of a context in the host's BAR (R332). -/
def barOffset (ctx n : Nat) : Nat := 0x10000 * ctx + 8 * n

/-- A write of the host to a register travels on the stream of its data writes, and is acknowledged (R325, R332; DESIGN CHOICE, log 71). Registers
that are not held per context, and writes that the supervisor may not make, are ignored; nonzero reserved bits are dropped (log 37). -/
def barWrite (s : State) (ctx n : Nat) (x : Arrival) (v : Word) : State :=
  accept s 16 x (comesFrom s 16 1 ctx (barOffset ctx n) (bytesOf v.toNat 8)) fun s =>
    let r := regRow n
    let s1 := if srAssigned (BitVec.ofNat 12 n) && r.held == .context && decide (ctx < 64) && r.sup.writable then portWrite s ctx n v false else s
    sendPacket s1 16 (OutPacket.of 4 ctx (barOffset ctx n) [])

/-- A read of the host of a register, behind its earlier writes (R325, R332; DESIGN CHOICE, log 71). -/
def barGet (s : State) (ctx n : Nat) (x : Arrival) : State :=
  accept s 16 x { comesFrom s 16 0 ctx (barOffset ctx n) [] with len := 7 } fun s =>
    let r := regRow n
    let v := if srAssigned (BitVec.ofNat 12 n) && r.held == .context && decide (ctx < 64) && r.sup.readable then readContext s ctx n else 0
    sendPacket { s with barRead := some v } 16 (OutPacket.of 3 ctx (barOffset ctx n) (bytesOf v.toNat 8))

/-- LMBOX_WRITE (R298, R300, R325): a write of LMBOX by the host, performed after all its earlier data writes. Bits 5:0 reach the mailbox too, whose
entry is then rejected. -/
def execLmboxWrite (ctx : Nat) (x : Posted) (s : State) : Out := .next (barWrite s ctx 0x0C0 x.link x.v)

/-- HOST_BAR_ACCESS (R332): the host reads or writes a register of a context with the supervisor's access; other registers read as
zero, and writes to them are ignored. -/
def execHostBarAccess (ctx : Nat) (num : BitVec 12) (x : BarAccess) (s : State) : Out :=
  .next (match x.v with
    | none => barGet s ctx num.toNat x.link
    | some v => barWrite s ctx num.toNat x.link v)

end Sys2Proof.Machine
end

