-- ==== Sys2Proof/Machine/Issue.lean ====
section
/-! DEFINITION. Fetch and issue: the entry of a line with its checks (R150 to R153), the issue streams of a core in one cycle of the
band clock (R305), pairs (R151), and the walk that fills a TLB (R288). -/

namespace Sys2Proof.Machine

/-! ## The checks of a line (R150) -/

/-- The class of a slot: the high three bits of its opcode (R170). -/
def slotClass (line : BitVec 512) (i : Nat) : Nat := (Fields.ofWord (slotWord line i)).opc.toNat / 128

/-- A class whose instructions may be paired with one of 000, 001 or 101. -/
def vectorClass (c : Nat) : Bool := c == 2 || c == 3 || c == 4

/-- Registers that a V destination writes: keys 1024 and up. -/
def vKeys (d : VDst) (wide : Bool) : List Nat :=
  match d with
  | .reg k => if wide then [1024 + k.toNat, 1025 + k.toNat] else [1024 + k.toNat]
  | _ => []
/-- Registers that an S destination writes: keys 512 and up. -/
def sKeys : SDst → List Nat
  | .reg k => [512 + k.toNat]
  | .dash => []
/-- Registers that an M destination writes. -/
def mKeys : MDst → List Nat
  | .reg k => [k.toNat]
  | .dash => []

/-- The registers that an instruction which may stand in a pair writes back, by key. -/
def pairDests (i : Instr) : List Nat :=
  match i with
  | .gets _ d _ => match d with
    | .v x => vKeys x false
    | .s x => sKeys x
    | .m x => mKeys x
  | .sadd o | .ssub o | .smul o | .smulhi o | .smin o | .smax o | .sand o | .sor o | .sxor o | .sshl o | .sshr o | .ssar o
  | .scmp o _ | .sbfe o => sKeys o.d
  | .smad o | .ssel o => sKeys o.d
  | .smov o | .spopc o | .sclz o => sKeys o.d
  | .sli _ d _ _ | .sliPc _ d _ => sKeys d
  | .add o | .sub o | .mul o | .mulhi o | .min o | .max o | .and o | .or o | .xor o | .shl o | .shr o | .sar o | .rot o | .bfe o
  | .sel o _ | .fmin o | .fmax o => vKeys o.d o.ty.wide
  | .pack2 o => vKeys o.d (o.ty == .b32)
  | .mad o | .bfi o => vKeys o.d o.ty.wide
  | .abs o | .neg o | .not o | .popc o | .clz o | .brev o | .mov o | .fclass o => vKeys o.d o.ty.wide
  | .unpk2 o => vKeys o.d true
  | .cmp o | .fcmp o => mKeys o.d
  | .movi _ d ty _ | .movs _ d _ ty => vKeys d ty.wide
  | .fadd o | .fsub o | .fmul o => vKeys o.d false
  | .ffma o => vKeys o.d false
  | .fround o | .frcp o | .frsq o | .fsqrt o | .fex2 o | .flg2 o | .fsin o | .fcos o => vKeys o.d false
  | .cvt _ d _ toF _ _ => vKeys d toF.wide
  | .shfl _ d _ ty _ _ => vKeys d ty.wide
  | .vote _ op _ => match op with
    | .some d | .every d | .none d => mKeys d
    | .bits d | .count d | .first d => sKeys d
  | .matchv _ op _ _ => match op with
    | .mask d => vKeys d true
    | .lead d => mKeys d
    | .cnt d => vKeys d false
  | .redux _ _ d _ _ => sKeys d
  | .vscan _ _ _ d _ ty => vKeys d ty.wide
  | .ld _ d _ ty => vKeys (.reg d) ty.wide
  | .sld _ d _ _ _ _ => sKeys (.reg d)
  | .atom _ d m _ => vKeys (.reg d) m.ty.wide
  | _ => []

/-- The registers that a slot writes back; a slot that does not decode writes none. -/
def slotDests (n w : Nat) (line : BitVec 512) (i : Nat) : List Nat :=
  match decode n w (slotWord line i) with
  | .ok x => pairDests x
  | .error _ => []

/-- Details 3 to 6 of the pairs of a line. -/
def pairFault (n w : Nat) (line : BitVec 512) : Option Nat :=
  let ps := [0, 1, 2, 3].filter (linePair line)
  if ps.any (fun j => linePair line (j + 1)) then some 3
  else if ps.any (fun j => !(vectorClass (slotClass line j) && [0, 1, 5].contains (slotClass line (j + 1))
      || vectorClass (slotClass line (j + 1)) && [0, 1, 5].contains (slotClass line j))) then some 4
  else if ps.any (fun j => (slotDests n w line j).any (slotDests n w line (j + 1)).contains) then some 5
  else if ps.any (fun j => lineBt line (j + 1)) then some 6
  else none

/-- Every slot passes its parity. -/
def parityOk (line : BitVec 512) : Bool := [0, 1, 2, 3, 4].all (slotParityOk line)

/-! ## Line entry -/

/-- A group that may fetch or issue: it is Ready, has not stopped, and its crew is on its core. -/
def mayRun (s : State) (g : Group) : Bool := g.status == .ready && !g.stopped && !crewSaved s g && g.pend.isNone && g.leaving.isNone

/-- A group that may fetch or be selected: contexts run in COLD and RETREAT; in ASCENT only a crew that is being pre-empted comes to its stop points
(R347, R349). -/
def maySelect (s : State) (g : Group) : Bool :=
  mayRun s g && (s.running || s.cryo.st == 6 && ((s.crewOf g).map Crew.preempt).getD false)

/-- The group enters the line at its program counter (R150): the form of the program counter, the translation for execution, the line
word in the order of its details, and the BT bit where the entry asks for it (R152). A line in a window is first read at its far end (R322;
a read that is refused or lost: DESIGN CHOICE, log 47). `err` are the bits that arrive wrong. -/
def enterLine (s : State) (gid : Nat) (g : Group) (err : BitVec 512) : State :=
  let ctx := s.ctxOf g
  if !pcOk g.pc then raiseCD s gid 1 9
  else match xlate s g.core ctx (pcLine g.pc) g.sup .exec false with
    | .error e => raise s gid (e.fetchInfo (pcLine g.pc))
    | .ok x => match s.farFault x.pa, lineAt s x.pa with
    | some f, _ => raiseCD s gid f.1 f.2
    | none, none => raise s gid (FaultInfo.far x.pa)
    | none, some l =>
      let s1 := tlbFill s g.core ctx (pcLine g.pc)
      let line := l ^^^ err
      if (lineWord line).extractLsb' 0 18 != (0 : BitVec 18) then raiseCD s1 gid 2 1
      else if !parityOk line then
        if g.refetched then raiseCD s1 gid 2 2
        else boxEvent (s1.setGroup gid { g with refetched := true }) 0 2 (dieOfCore g.core) g.core ctx (BitVec.ofNat 64 x.pa) 0
      else match pairFault g.nregs g.w line with
        | some d => raiseCD s1 gid 2 d
        | none =>
          if g.needBt && !lineBt line (pcSlot g.pc) then raiseCD s1 gid 1 10
          else s1.setGroup gid { g with line := line, entered := true, needBt := false, refetched := false }

/-- What LINE_FETCH and LINE_REFETCH share. -/
def fetchLine (again : Bool) (gid : Nat) (err : BitVec 512) (s : State) : State :=
  match s.group? gid with
  | none => s
  | some g =>
    -- a posted pager request is taken before the line is entered (R297)
    if g.entered || g.refetched != again || !maySelect s g || (g.pager.isSome && !g.sup) then s else enterLine s gid g err

/-- LINE_FETCH (R150). -/
def execLineFetch (gid : Nat) (err : BitVec 512) (s : State) : Out := .next (fetchLine false gid err s)

/-- LINE_REFETCH (R150): a line whose parity failed is fetched once more. -/
def execLineRefetch (gid : Nat) (err : BitVec 512) (s : State) : Out := .next (fetchLine true gid err s)

/-- TLB_WALK_COMPLETE (R288): a walk's entry takes the place of what the TLBs of a core and its quad hold for the page (log 6). -/
def execTlbWalkComplete (core ctx : Nat) (va : Word) (s : State) : Out :=
  .next (if 384 ≤ core || 64 ≤ ctx || !canonical va then s else tlbRenew s core ctx va)

/-! ## What an instruction takes (R305) -/

/-- What is taken of a core's resources in a cycle. -/
structure Use where
  paths : Nat
  scalar : Nat
  control : Nat
  memory : Nat
  engine : Nat
  deriving DecidableEq, Repr

/-- Two uses together. -/
def Use.add (a b : Use) : Use := ⟨a.paths + b.paths, a.scalar + b.scalar, a.control + b.control, a.memory + b.memory, a.engine + b.engine⟩

/-- Nothing. -/
def Use.none : Use := ⟨0, 0, 0, 0, 0⟩

/-- A use fits a core. -/
def Use.fits (u : Use) : Bool := decide (u.paths ≤ 4 ∧ u.scalar ≤ 1 ∧ u.control ≤ 1 ∧ u.memory ≤ 1 ∧ u.engine ≤ 1)

/-- A slot holds a `gets`, which takes the scalar unit. -/
def isGets (line : BitVec 512) (n w i : Nat) : Bool :=
  match decode n w (slotWord line i) with
  | .ok (.gets _ _ _) => true
  | _ => false

/-- What the instruction in a slot takes. -/
def slotUse (g : Group) (i : Nat) : Use :=
  let c := slotClass g.line i
  if vectorClass c then ⟨g.w / 16, 0, 0, 0, 0⟩
  else if c = 1 then ⟨0, 1, 0, 0, 0⟩
  else if c = 0 then (if isGets g.line g.nregs g.w i then ⟨0, 1, 0, 0, 0⟩ else ⟨0, 0, 1, 0, 0⟩)
  else if c = 5 then ⟨0, 0, 0, 1, 0⟩
  else ⟨0, 0, 0, 0, 1⟩

/-- The slots that a group issues together: its next one, and the higher member of a pair that it begins. -/
def Group.nextSlots (g : Group) : List Nat :=
  let i := pcSlot g.pc
  if linePair g.line i && !g.isHigher then [i, i + 1] else [i]

/-- The instruction of a slot. -/
def Group.instrAt (g : Group) (i : Nat) : Except Nat Instr := decode g.nregs g.w (slotWord g.line i)

/-- The counters on which an instruction counts with the lanes that it has now (R115). -/
def ctrsOf (g : Group) (i : Instr) : List Ctr :=
  let on := fun (k : BitVec 4) (l : List Ctr) => if g.eff k = 0 then [] else l
  match i with
  | .ld k _ _ _ | .sld k _ _ _ _ _ | .frzq k _ _ => on k [.lc]
  | .st k _ _ _ | .sst k _ _ _ _ _ | .red k _ _ | .redFar k _ _ | .accst k _ _ _ _ _ _ => on k [.sc]
  | .atom k _ _ _ => on k [.lc, .sc]
  | .copy k _ _ | .copyBar k _ _ _ | .xcopy k _ _ _ => on k [.cc]
  | _ => []

/-- An instruction that the selector passes over: a memory instruction whose requests do not fit (R59), and `sacc` and `accz` while the
array holds 64 operations of the group (R245). -/
def passedOver (s : State) (gid : Nat) (g : Group) (i : Nat) : Bool :=
  let fits := fun (n : Nat) => decide (8192 < tableUse s g.core + n)
  match g.instrAt i with
  | .ok (.ld k _ _ _) | .ok (.st k _ _ _) | .ok (.atom k _ _ _) | .ok (.red k _ _) | .ok (.redFar k _ _) =>
    fits (popCount (g.eff k) 64)
  | .ok (.sld k _ _ _ _ _) | .ok (.sst k _ _ _ _ _) => fits (if g.eff k = 0 then 0 else 1)
  | .ok (.sacc _ _ _ _ _ _ _ _ _) | .ok (.accz _ _) | .ok (.acczPair _ _) => decide (64 ≤ arrayUse s gid g)
  | _ => false

/-- The next instruction, or a member of the next pair, would carry a counter past 255: it does not issue, and its group parks (R115, R305). -/
def Group.overfull (g : Group) : Bool :=
  g.entered && g.parkHere.isNone && g.nextSlots.any (fun i => match g.instrAt i with
    | .ok x => !g.room (ctrsOf g x)
    | .error _ => false)

/-! ## A cycle (R305) -/

/-- Ticks of 1/84 ns in a cycle of the band clock (R2). -/
def cycleTicks (band : Nat) : Nat :=
  match band with
  | 0 => 60
  | 1 => 70
  | 2 => 105
  | 3 => 210
  | _ => 336

/-- The groups of a core, by slot. -/
def groupsOf (s : State) (core : Nat) : List (Nat × Group) := s.groups.filter (fun e => e.2.core == core && !crewSaved s e.2)

/-- One group goes before another: an earlier stamp, then the pointer over the 32 slots (R305). -/
def before (ptr : Nat) (a b : Nat × Group) : Bool :=
  let turn := fun (x : Nat × Group) => (x.2.slot + 32 - ptr) % 32
  decide (a.2.stamp < b.2.stamp) || (a.2.stamp == b.2.stamp && decide (turn a < turn b))

/-- Insert a group into a list in the order of `before`. -/
def insertBefore (ptr : Nat) (x : Nat × Group) : List (Nat × Group) → List (Nat × Group)
  | [] => [x]
  | y :: r => if before ptr x y then x :: y :: r else y :: insertBefore ptr x r

/-- Groups in the order in which they are served. -/
def inOrder (ptr : Nat) (l : List (Nat × Group)) : List (Nat × Group) := l.foldl (fun a x => insertBefore ptr x a) []

/-- The streams of a core are served in order: each issues its group's next instruction or pair when nothing that it takes is taken, and the
instruction is not held (R305, R306). -/
def serve (s : State) : List (Nat × Group) → Use → List Nat
  | [], _ => []
  | (gid, g) :: r, u =>
    let slots := g.nextSlots
    let u1 := slots.foldl (fun u i => u.add (slotUse g i)) u
    if !g.entered || !u1.fits || g.overfull || slots.any (passedOver s gid g) then serve s r u
    else gid :: serve s r u1

/-- Free streams select; then the streams issue. Equal stamps are broken by a pointer over the 32 group slots, which stands at the cycle modulo 32. A group whose instruction would carry a counter past 255 parks without issuing it (R115). -/
def issueCore (s : State) (core : Nat) : State :=
  let c := s.core core
  let ptr := s.clock % 32
  let ready := (groupsOf s core).filter (fun e => maySelect s e.2)
  let kept := ready.filter (fun e => c.streams.contains e.1)
  let free := inOrder ptr (ready.filter (fun e => !c.streams.contains e.1 && !(e.2.pager.isSome && !e.2.entered && !e.2.sup)))
  let held := kept ++ free.take (4 - kept.length)
  let out := serve s (inOrder ptr held) Use.none
  let s1 := s.setCore core { c with streams := held.map Prod.fst }
  let s2 := (held.filter (fun e => e.2.overfull)).foldl (fun s e =>
    releaseStream (s.setGroup e.1 { e.2 with status := .parked .counterRoom }) e.1) s1
  { s2 with issueNow := s2.issueNow ++ out }

/-- The contexts with a crew on a core. -/
def residents (s : State) (core : Nat) : List Nat :=
  s.crews.foldl (fun l e => if !e.2.saved && e.2.cores.contains core then setIns l e.2.ctx else l) []

/-- Microseconds that end in the `t` ticks before now. -/
def microsEnded (s : State) (t : Nat) : Nat := s.time / 84000 - (s.time - t) / 84000

/-- Usage of a core in a cycle of `t` ticks: core time and event code 1, matrix and tile-fetch time, copy-unit time, and the core's
static share of energy for each microsecond (R313, R314, R317). The array holds an operation until it retires (R245). -/
def chargeCore (s : State) (t core : Nat) : State :=
  let s1 := (residents s core).foldl (fun s x => charge (countEvent (addUc s x 0 t) x 1 1 false false) x 27 (microsEnded s t)) s
  let arr := (s1.core core).array
  let s2 := match arr.holder.bind s1.crew? with
    | some c =>
      let sA := if arr.ops.isEmpty then s1 else addUc s1 c.ctx 1 t
      if arr.ops.any (fun (o : MOp) => !o.complete && o.a.isSome) then addUc sA c.ctx 4 t else sA
    | none => s1
  match List.find? (fun (e : Nat × Copy) => e.2.core == core && e.2.unit == 16) s2.copies with
  | some e => addUc s2 e.2.ctx 2 t
  | none => s2

/-- Usage of the package copy engines in a cycle (R313). -/
def chargeEngines (s : State) (t : Nat) : State :=
  s.engines.foldl (fun s e => match e.2.head?.bind (SMap.find? s.copies) with
    | some c => addUc s c.ctx 3 t
    | none => s) s

/-- Cores that hold a crew. -/
def busyCores (s : State) : List Nat :=
  s.crews.foldl (fun l e => if e.2.saved then l else e.2.cores.foldl setIns l) []

/-- The order in which the cores are served in a cycle, from one of them on, which the manual leaves open (DESIGN CHOICE, log 23). -/
def coreOrder (first : Nat) (l : List Nat) : List Nat := l.drop (first % l.length) ++ l.take (first % l.length)

/-- ISSUE_SELECT (R305): one cycle of the band clock. Time advances, usage is charged, launches age, groups at stop points take what their engines
have for them (R337), and the streams of every core
select and issue, from the core on that `first` and the clock give (log 23). -/
def execIssueSelect (first : Nat) (s : State) : Out :=
  .next (
    let t := cycleTicks s.cryo.band
    let cores := coreOrder (s.clock + first) (busyCores s)
    let s1 := tickLaunches { s with clock := s.clock + 1, time := s.time + t, issueNow := [] }
    let s2 := chargeEngines (cores.foldl (fun s c => chargeCore s t c) s1) t
    let s3 := (s2.groups.filter (fun e => !e.2.pipe.isEmpty)).foldl (fun s e => takePipe s e.1) s2
    cores.foldl issueCore s3)

/-! ## Issue of one instruction -/

/-- The pair that a group's instruction belongs to: the higher member of one reads what its lower member read, also when it is replayed alone (R151);
a lower member remembers what it reads. -/
def Group.pairNow (g : Group) : Option PairOld :=
  if g.isHigher then g.pair
  else match g.parkHere.bind ParkOp.old with
    | some p => some p
    | none => if linePair g.line (pcSlot g.pc) then some ⟨g.pc + 1, g.regs, g.active, g.vPoison, g.sPoison, g.mPoison⟩ else none

/-- The group's next instruction is taken up: it is counted at its issue (R317), a pair remembers its sources (R151), and a word that
does not decode raises ILLEGAL with its lowest detail (R169). The instruction to execute, or the state where there is none. -/
def takeUp (s : State) (gid : Nat) : State × Option Instr :=
  match s.group? gid with
  | none => (s, none)
  | some g =>
    if !mayRun s g || !g.entered then (s, none)
    else
      let i := pcSlot g.pc
      let g1 := { g with pair := g.pairNow, skipped := if g.skippedHere then g.skipped else none }
      let s1 := { s.setGroup gid g1 with cur := gid }
      let s2 := if g.issued || g.parkHere.isSome then s1
        else charge (countEvent s1 (s.ctxOf g) 2 1 g.sup true) (s.ctxOf g) (slotClass g.line i) 1
      match g1.instrAt i with
      | .ok x => (s2, some x)
      | .error d => (raiseCD s2 gid 1 d, none)

/-- After an instruction: matrix operations see the `s` registers that it has written (R121); the higher member of its pair issues in the same cycle; a group whose last lanes have left retires; at a switch point
the group may stop (R279), or take a PIPEERR of its engines (R337). -/
def afterIssue (s0 : State) (gid : Nat) : State :=
  let s := noteRegs s0 gid
  match s.group? gid with
  | none => s
  | some g =>
    if g.isHigher && mayRun s g && g.entered then { s with issueNow := gid :: s.issueNow }
    else stopPoint (leaveSpent s gid) gid

/-! ## The model's default order (DESIGN CHOICE, log 1) -/

/-- Events that may be pending for a group. -/
def groupEvents (e : Nat × Group) : List Instr :=
  let gid := e.1
  let g := e.2
  (if g.entered then [] else if g.refetched then [.lineRefetch gid 0] else [.lineFetch gid 0])
    ++ (match g.pager with
      | some va => [.pagerRequest gid va]
      | none => [])
    ++ (if g.leaving.isSome then [.groupRetire gid] else [])
    ++ (g.status :: g.places.map Place.status).flatMap (fun st => match st with
      | .parked .idle => [.idleExpire gid]
      | .parked .trigger => [.triggerComplete gid]
      | .parked .drain => [.monitorRelease gid]
      | .parked .reply => (g.sc ++ g.lc).map (fun c => .peerReplyReturn gid c.op)
      | .waiting (.colour _ _) => [.mwaitBackoffExpire gid]
      | .waiting (.future _) => [.greenRoomBackoffExpire gid]
      | _ => [])

/-- Events that may be pending for a request. -/
def reqEvents (e : Nat × Req) : List Instr :=
  if !e.2.performed then [.homeAccess e.1, .peerAccessArrive e.1]
  else if e.2.dst == .none then [.writeRejectReturn e.1] else [.loadReturn e.1]

/-- Where a saved crew may return with the crews that belong with it: where they were, and where they fit. -/
def returnPlaces (s : State) (cid : Nat) : List (List Nat) :=
  let cs := (together s cid).filterMap s.crew?
  cs.map (fun c => c.cores.headD 0) :: (findPlace s (crewUnit s cs) (fun _ => true)).toList

/-- Events of crews, launches and contexts. -/
def crewEvents (s : State) : List Instr :=
  s.crews.flatMap (fun e => [.preemptRequest e.1, .crewSave e.1, .crewMigrate e.1]
      ++ (if e.2.saved then (returnPlaces s e.1).map (.crewRestore e.1) else []))
    ++ s.launches.flatMap (fun e => (if e.2.isRetake && !e.2.decided then [.retakeDecision e.1] else [])
      ++ (if e.2.eligibleSince.isSome then [.priorityAgeing e.1] else [])
      ++ (match (if eligible s e.2 && placing s e.2.ctx then findPlace s e.2.unit (mayUse s (e.2.key e.1)) else none) with
        | some l => [.crewPlace false e.1 l]
        | none => [.crewPlace false e.1 []]))
    ++ s.flushed.zipIdx.flatMap (fun f => match spawnCore s (f.1.unit s) (mayUse s (.spawn f.1)) with
        | some c => [.crewPlace true f.2 [c]]
        | none => [])
    ++ s.ctxs.flatMap (fun e => (if e.2.mailbox.isEmpty && e.2.mailBusy.isNone then [] else [.mailboxEntryTake e.1])
      ++ (if e.2.scheduled then [.quantumExpire e.1] else [])
      ++ (match (headOf s e.1).bind (fun h => reservable s h.1 h.2.1) with
        | some l => [.headReservation e.1 l]
        | none => []))

/-- Events of monitors, engines, arrays, maintenance and homes. -/
def unitEvents (s : State) : List Instr :=
  s.slates.map (fun e => .monitorGrant (e.1 / 4096) (e.1 % 4096))
    ++ s.flits.map (fun e => .flitArrive e.1) ++ s.fills.map (fun e => .fillArrive e.1)
    ++ s.shoots.map (fun e => .shootdownComplete e.1) ++ s.pends.map (fun e => .faultRecordWrite e.1)
    ++ s.copies.filterMap (fun e => if e.2.unit = 16 then e.2.todo.head?.map (fun i => .copyBytesLand e.1 i) else none)
    ++ s.engines.map (fun e => .engineCommandPerform e.1)
    ++ s.cores.flatMap (fun e => (if e.2.array.halt && !e.2.array.halted then [.arrayHalt e.1] else [])
      ++ (e.2.array.ops.filter (fun o => !o.complete)).map (fun o => .matrixOpComplete e.1 o.id)
      ++ e.2.bins.map (fun b => .spawnBinTimerExpire e.1 b.entry))
    ++ s.thaws.flatMap (fun e => (List.range 6).map (fun h => .thawRecallArrive e.1 h) ++ [.thawRecallComplete e.1])
    ++ (if s.clearing then [.stampMapCleared] else [])
    ++ (if s.cryo.wantBand ≠ s.cryo.band then [.bandChange] else [])
    ++ (if s.cryo.holdSince.isSome && s.cryo.st == 5 then [.retreatHoldExpire] else [])
    ++ (if s.cryo.withinSince.isSome then [.coolholdRelease] else [])
    ++ (if s.uc12At < s.time / oneMs then [.uc12Sample] else [])
    ++ (if s.interrupts.isEmpty then [] else [.linkInterrupt])
    ++ (s.cores.filter (fun e => e.2.failing)).map (fun e => .coreReplace e.1)

/-- Everything that may be pending inside the package. -/
def pendingEvents (s : State) : List Instr :=
  s.groups.flatMap groupEvents ++ s.reqs.flatMap reqEvents ++ crewEvents s ++ unitEvents s

/-- The event that the model takes when its agenda is empty and no group issues: in turn a cycle of the clock and one of the pending
events. -/
def autoEvent (s : State) : Instr :=
  let l := if s.autoTurn % 2 = 0 then [] else pendingEvents s
  l.getD (s.autoTurn / 2 % (l.length + 1)) (.issueSelect 0)

end Sys2Proof.Machine
end

