-- ==== Sys2Proof/Machine/Dispatch.lean ====
section
/-! DEFINITION. The meaning of every instruction and event: one arm for each constructor of `Instr`. -/

namespace Sys2Proof.Machine

/-- The effect of an instruction of the group that issues, or of an event. -/
def exec (i : Instr) (s : State) : Host.Outcome State Fault Refusal :=
  match i with
  | .nop => Sys2Proof.Machine.execNop s
  | .bra g t => Sys2Proof.Machine.execBra g t s
  | .call g t => Sys2Proof.Machine.execCall g t s
  | .ret g => Sys2Proof.Machine.execRet g s
  | .exit g => Sys2Proof.Machine.execExit g s
  | .trap g code => Sys2Proof.Machine.execTrap g code s
  | .ifm a t => Sys2Proof.Machine.execIf a t s
  | .elsem t => Sys2Proof.Machine.execElse t s
  | .endif => Sys2Proof.Machine.execEndif s
  | .loop t => Sys2Proof.Machine.execLoop t s
  | .brk g t => Sys2Proof.Machine.execBreak g t s
  | .cont g t => Sys2Proof.Machine.execCont g t s
  | .endloop t => Sys2Proof.Machine.execEndloop t s
  | .trigger g => Sys2Proof.Machine.execTrigger g s
  | .gets g d n => Sys2Proof.Machine.execGets g d n s
  | .sadd o => Sys2Proof.Machine.execSadd o s
  | .ssub o => Sys2Proof.Machine.execSsub o s
  | .smul o => Sys2Proof.Machine.execSmul o s
  | .smad o => Sys2Proof.Machine.execSmad o s
  | .smulhi o => Sys2Proof.Machine.execSmulhi o s
  | .smin o => Sys2Proof.Machine.execSmin o s
  | .smax o => Sys2Proof.Machine.execSmax o s
  | .sand o => Sys2Proof.Machine.execSand o s
  | .sor o => Sys2Proof.Machine.execSor o s
  | .sxor o => Sys2Proof.Machine.execSxor o s
  | .sshl o => Sys2Proof.Machine.execSshl o s
  | .sshr o => Sys2Proof.Machine.execSshr o s
  | .ssar o => Sys2Proof.Machine.execSsar o s
  | .scmp o cc => Sys2Proof.Machine.execScmp o cc s
  | .ssel o => Sys2Proof.Machine.execSsel o s
  | .smov o => Sys2Proof.Machine.execSmov o s
  | .sli g d ty v => Sys2Proof.Machine.execSli g d ty v s
  | .sliPc g d v => Sys2Proof.Machine.execSliPc g d v s
  | .sbfe o => Sys2Proof.Machine.execSbfe o s
  | .spopc o => Sys2Proof.Machine.execSpopc o s
  | .sclz o => Sys2Proof.Machine.execSclz o s
  | .add o => Sys2Proof.Machine.execAdd o s
  | .sub o => Sys2Proof.Machine.execSub o s
  | .mul o => Sys2Proof.Machine.execMul o s
  | .mulhi o => Sys2Proof.Machine.execMulhi o s
  | .mad o => Sys2Proof.Machine.execMad o s
  | .min o => Sys2Proof.Machine.execMin o s
  | .max o => Sys2Proof.Machine.execMax o s
  | .abs o => Sys2Proof.Machine.execAbs o s
  | .neg o => Sys2Proof.Machine.execNeg o s
  | .and o => Sys2Proof.Machine.execAnd o s
  | .or o => Sys2Proof.Machine.execOr o s
  | .xor o => Sys2Proof.Machine.execXor o s
  | .not o => Sys2Proof.Machine.execNot o s
  | .shl o => Sys2Proof.Machine.execShl o s
  | .shr o => Sys2Proof.Machine.execShr o s
  | .sar o => Sys2Proof.Machine.execSar o s
  | .rot o => Sys2Proof.Machine.execRot o s
  | .bfe o => Sys2Proof.Machine.execBfe o s
  | .bfi o => Sys2Proof.Machine.execBfi o s
  | .popc o => Sys2Proof.Machine.execPopc o s
  | .clz o => Sys2Proof.Machine.execClz o s
  | .brev o => Sys2Proof.Machine.execBrev o s
  | .cmp o => Sys2Proof.Machine.execCmp o s
  | .sel o c => Sys2Proof.Machine.execSel o c s
  | .mov o => Sys2Proof.Machine.execMov o s
  | .movi g d ty v => Sys2Proof.Machine.execMovi g d ty v s
  | .movs g d a ty => Sys2Proof.Machine.execMovs g d a ty s
  | .fadd o => Sys2Proof.Machine.execFadd o s
  | .fsub o => Sys2Proof.Machine.execFsub o s
  | .fmul o => Sys2Proof.Machine.execFmul o s
  | .ffma o => Sys2Proof.Machine.execFfma o s
  | .fmin o => Sys2Proof.Machine.execFmin o s
  | .fmax o => Sys2Proof.Machine.execFmax o s
  | .fcmp o => Sys2Proof.Machine.execFcmp o s
  | .fclass o => Sys2Proof.Machine.execFclass o s
  | .fround o => Sys2Proof.Machine.execFround o s
  | .frcp o => Sys2Proof.Machine.execFrcp o s
  | .frsq o => Sys2Proof.Machine.execFrsq o s
  | .fsqrt o => Sys2Proof.Machine.execFsqrt o s
  | .fex2 o => Sys2Proof.Machine.execFex2 o s
  | .flg2 o => Sys2Proof.Machine.execFlg2 o s
  | .fsin o => Sys2Proof.Machine.execFsin o s
  | .fcos o => Sys2Proof.Machine.execFcos o s
  | .cvt g d a toF frm rm => Sys2Proof.Machine.execCvt g d a toF frm rm s
  | .pack2 o => Sys2Proof.Machine.execPack2 o s
  | .unpk2 o => Sys2Proof.Machine.execUnpk2 o s
  | .shfl g d a ty mode seg => Sys2Proof.Machine.execShfl g d a ty mode seg s
  | .vote g op a => Sys2Proof.Machine.execVote g op a s
  | .matchv g op a ty => Sys2Proof.Machine.execMatch g op a ty s
  | .redux g op d a ty => Sys2Proof.Machine.execRedux g op d a ty s
  | .vscan g op excl d a ty => Sys2Proof.Machine.execVscan g op excl d a ty s
  | .ld g d m ty => Sys2Proof.Machine.execLd g d m ty s
  | .st g m c ty => Sys2Proof.Machine.execSt g m c ty s
  | .sld g d sp a disp ty => Sys2Proof.Machine.execSld g d sp a disp ty s
  | .sst g sp a disp c ty => Sys2Proof.Machine.execSst g sp a disp c ty s
  | .pref g m ty => Sys2Proof.Machine.execPref g m ty s
  | .atom g d m c => Sys2Proof.Machine.execAtom g d m c s
  | .red g m c => Sys2Proof.Machine.execRed g m c s
  | .redFar g m c => Sys2Proof.Machine.execRedFar g m c s
  | .waitc k n => Sys2Proof.Machine.execWaitc k n s
  | .bar id count => Sys2Proof.Machine.execBar id count s
  | .arrive d a => Sys2Proof.Machine.execArrive d a s
  | .arrivex d a b => Sys2Proof.Machine.execArrivex d a b s
  | .bwait a b => Sys2Proof.Machine.execBwait a b s
  | .paint g a n c => Sys2Proof.Machine.execPaint g a n c s
  | .unpaint g a n => Sys2Proof.Machine.execUnpaint g a n s
  | .mwait g c => Sys2Proof.Machine.execMwait g c s
  | .mnotify g c => Sys2Proof.Machine.execMnotify g c s
  | .mnotifyall g c => Sys2Proof.Machine.execMnotifyall g c s
  | .mheld g d i_ => Sys2Proof.Machine.execMheld g d i_ s
  | .freeze g a n => Sys2Proof.Machine.execFreeze g a n s
  | .thaw g a n => Sys2Proof.Machine.execThaw g a n s
  | .frzq g d a => Sys2Proof.Machine.execFrzq g d a s
  | .spawn g a b => Sys2Proof.Machine.execSpawn g a b s
  | .binflush g a => Sys2Proof.Machine.execBinflush g a s
  | .fget g d a => Sys2Proof.Machine.execFget g d a s
  | .fput g a b => Sys2Proof.Machine.execFput g a b s
  | .launch g d a => Sys2Proof.Machine.execLaunch g d a s
  | .retake g d a => Sys2Proof.Machine.execRetake g d a s
  | .rdcnt g d k => Sys2Proof.Machine.execRdcnt g d k s
  | .mma o => Sys2Proof.Machine.execMma o s
  | .mmas o => Sys2Proof.Machine.execMmas o s
  | .mmaq o => Sys2Proof.Machine.execMmaq o s
  | .sacc g d p c st_ ty mc nc noAcc => Sys2Proof.Machine.execSacc g d p c st_ ty mc nc noAcc s
  | .accz g d => Sys2Proof.Machine.execAccz g d s
  | .acczPair g d => Sys2Proof.Machine.execAcczPair g d s
  | .accld g d a o ty mc nc => Sys2Proof.Machine.execAccld g d a o ty mc nc s
  | .accst g a o t ty mc nc => Sys2Proof.Machine.execAccst g a o t ty mc nc s
  | .accdrain g a => Sys2Proof.Machine.execAccdrain g a s
  | .accfill g a => Sys2Proof.Machine.execAccfill g a s
  | .xbatch => Sys2Proof.Machine.execXbatch s
  | .xwait n => Sys2Proof.Machine.execXwait n s
  | .opready => Sys2Proof.Machine.execOpready s
  | .copy g d st_ => Sys2Proof.Machine.execCopy g d st_ s
  | .copyBar g d st_ b => Sys2Proof.Machine.execCopyBar g d st_ b s
  | .xcopy g d st_ e => Sys2Proof.Machine.execXcopy g d st_ e s
  | .srd g d num => Sys2Proof.Machine.execSrd g d num s
  | .swr g a num => Sys2Proof.Machine.execSwr g a num s
  | .eret => Sys2Proof.Machine.execEret s
  | .tlbinv a n => Sys2Proof.Machine.execTlbinv a n s
  | .idle n => Sys2Proof.Machine.execIdle n s
  | .halt => Sys2Proof.Machine.execHalt s
  | .lineFetch gid err => Sys2Proof.Machine.execLineFetch gid err s
  | .lineRefetch gid err => Sys2Proof.Machine.execLineRefetch gid err s
  | .issueSelect first => Sys2Proof.Machine.execIssueSelect first s
  | .stampMapCleared => Sys2Proof.Machine.execStampMapCleared s
  | .retakeDecision launch => Sys2Proof.Machine.execRetakeDecision launch s
  | .mailboxEntryTake ctx => Sys2Proof.Machine.execMailboxEntryTake ctx s
  | .crewPlace spawned id cores => Sys2Proof.Machine.execCrewPlace spawned id cores s
  | .priorityAgeing launch => Sys2Proof.Machine.execPriorityAgeing launch s
  | .headReservation ctx cores => Sys2Proof.Machine.execHeadReservation ctx cores s
  | .crewMigrate crew => Sys2Proof.Machine.execCrewMigrate crew s
  | .triggerComplete gid => Sys2Proof.Machine.execTriggerComplete gid s
  | .groupRetire gid => Sys2Proof.Machine.execGroupRetire gid s
  | .spawnBinTimerExpire core entry => Sys2Proof.Machine.execSpawnBinTimerExpire core entry s
  | .greenRoomBackoffExpire gid => Sys2Proof.Machine.execGreenRoomBackoffExpire gid s
  | .monitorGrant ctx colour => Sys2Proof.Machine.execMonitorGrant ctx colour s
  | .monitorRelease gid => Sys2Proof.Machine.execMonitorRelease gid s
  | .mwaitBackoffExpire gid => Sys2Proof.Machine.execMwaitBackoffExpire gid s
  | .homeAccess req => Sys2Proof.Machine.execHomeAccess req s
  | .loadReturn req => Sys2Proof.Machine.execLoadReturn req s
  | .leaseGrant req => Sys2Proof.Machine.execLeaseGrant req s
  | .leaseRecall line => Sys2Proof.Machine.execLeaseRecall line s
  | .l1Evict core line => Sys2Proof.Machine.execL1Evict core line s
  | .writeRejectReturn req => Sys2Proof.Machine.execWriteRejectReturn req s
  | .copyBytesLand copy elem => Sys2Proof.Machine.execCopyBytesLand copy elem s
  | .engineCommandPerform engine => Sys2Proof.Machine.execEngineCommandPerform engine s
  | .matrixOpComplete core op => Sys2Proof.Machine.execMatrixOpComplete core op s
  | .flitArrive flit => Sys2Proof.Machine.execFlitArrive flit s
  | .peerAccessArrive req => Sys2Proof.Machine.execPeerAccessArrive req s
  | .peerReplyReturn gid op => Sys2Proof.Machine.execPeerReplyReturn gid op s
  | .faultRecordWrite id => Sys2Proof.Machine.execFaultRecordWrite id s
  | .preemptRequest crew => Sys2Proof.Machine.execPreemptRequest crew s
  | .crewSave crew => Sys2Proof.Machine.execCrewSave crew s
  | .arrayHalt core => Sys2Proof.Machine.execArrayHalt core s
  | .crewRestore crew cores => Sys2Proof.Machine.execCrewRestore crew cores s
  | .quantumExpire ctx => Sys2Proof.Machine.execQuantumExpire ctx s
  | .tlbWalkComplete core ctx va => Sys2Proof.Machine.execTlbWalkComplete core ctx va s
  | .shootdownComplete id => Sys2Proof.Machine.execShootdownComplete id s
  | .pagerRequest gid va => Sys2Proof.Machine.execPagerRequest gid va s
  | .thawRecallArrive granule holder => Sys2Proof.Machine.execThawRecallArrive granule holder s
  | .thawRecallComplete granule => Sys2Proof.Machine.execThawRecallComplete granule s
  | .fillArrive fill => Sys2Proof.Machine.execFillArrive fill s
  | .uc0Snapshot read => Sys2Proof.Machine.execUc0Snapshot read s
  | .uc12Sample => Sys2Proof.Machine.execUc12Sample s
  | .linkRead p => Sys2Proof.Machine.execLinkRead p s
  | .linkWrite p => Sys2Proof.Machine.execLinkWrite p s
  | .linkAtomic p => Sys2Proof.Machine.execLinkAtomic p s
  | .linkReadData x data => Sys2Proof.Machine.execLinkReadData x data s
  | .linkWriteAck x => Sys2Proof.Machine.execLinkWriteAck x s
  | .linkAtomicResult x old => Sys2Proof.Machine.execLinkAtomicResult x old s
  | .linkAck port lseq => Sys2Proof.Machine.execLinkAck port lseq s
  | .linkNack port lseq => Sys2Proof.Machine.execLinkNack port lseq s
  | .linkRecall x slice granule rseq => Sys2Proof.Machine.execLinkRecall x slice granule rseq s
  | .linkRecallAck x granule rseq => Sys2Proof.Machine.execLinkRecallAck x granule rseq s
  | .linkInterrupt => Sys2Proof.Machine.execLinkInterrupt s
  | .linkRefuse x code => Sys2Proof.Machine.execLinkRefuse x code s
  | .linkRetrain port ok => Sys2Proof.Machine.execLinkRetrain port ok s
  | .portDown port => Sys2Proof.Machine.execPortDown port s
  | .portUp port => Sys2Proof.Machine.execPortUp port s
  | .jqcmdWrite ctx v => Sys2Proof.Machine.execJqcmdWrite ctx v s
  | .journalQueryComplete ctx asked old => Sys2Proof.Machine.execJournalQueryComplete ctx asked old s
  | .featgntWrite ctx k v => Sys2Proof.Machine.execFeatgntWrite ctx k v s
  | .hostBarAccess ctx num x => Sys2Proof.Machine.execHostBarAccess ctx num x s
  | .lmboxWrite ctx x => Sys2Proof.Machine.execLmboxWrite ctx x s
  | .rgnownWrite v => Sys2Proof.Machine.execRgnownWrite v s
  | .vfcfgWrite ctx v => Sys2Proof.Machine.execVfcfgWrite ctx v s
  | .svcountWrite ctx v => Sys2Proof.Machine.execSvcountWrite ctx v s
  | .arrctlWrite core v => Sys2Proof.Machine.execArrctlWrite core v s
  | .bandhiWrite v => Sys2Proof.Machine.execBandhiWrite v s
  | .triplimWrite v => Sys2Proof.Machine.execTriplimWrite v s
  | .registerWrite ctx num v => Sys2Proof.Machine.execRegisterWrite ctx num v s
  | .checkerMismatch gid unit datapath out => Sys2Proof.Machine.execCheckerMismatch gid unit datapath out s
  | .scoreboardMismatch core => Sys2Proof.Machine.execScoreboardMismatch core s
  | .softError site => Sys2Proof.Machine.execSoftError site s
  | .coreReplace core => Sys2Proof.Machine.execCoreReplace core s
  | .hbmPinSwap stack => Sys2Proof.Machine.execHbmPinSwap stack s
  | .softPostPackageRepair stack => Sys2Proof.Machine.execSoftPostPackageRepair stack s
  | .sensorReading cores hub hbm => Sys2Proof.Machine.execSensorReading cores hub hbm s
  | .bandChange => Sys2Proof.Machine.execBandChange s
  | .scrubSweep bad => Sys2Proof.Machine.execScrubSweep bad s
  | .soakTimerExpire b => Sys2Proof.Machine.execSoakTimerExpire b s
  | .retreatHoldExpire => Sys2Proof.Machine.execRetreatHoldExpire s
  | .coolholdRelease => Sys2Proof.Machine.execCoolholdRelease s
  | .cmdCool => Sys2Proof.Machine.execCmdCool s
  | .cmdWarm => Sys2Proof.Machine.execCmdWarm s
  | .cmdService die => Sys2Proof.Machine.execCmdService die s
  | .cmdOff => Sys2Proof.Machine.execCmdOff s
  | .cmdClear => Sys2Proof.Machine.execCmdClear s
  | .cmdInvalid v => Sys2Proof.Machine.execCmdInvalid v s
  | .powerUp bank0 bank1 => Sys2Proof.Machine.execPowerUp bank0 bank1 s
  | .warmReset => Sys2Proof.Machine.execWarmReset s
  | .coldReset => Sys2Proof.Machine.execColdReset s
  | .firmwareUpdate img => Sys2Proof.Machine.execFirmwareUpdate img s
  | .attestationReport nonce => Sys2Proof.Machine.execAttestationReport nonce s
  | .idleExpire gid => Sys2Proof.Machine.execIdleExpire gid s

end Sys2Proof.Machine
end

