-- ==== Sys2Proof/Machine/Step.lean ====
section
/-! DEFINITION. One step of the package: the next instruction that a group issues in this cycle, else the next event of the agenda, else
an event of the model's own order (DESIGN CHOICE, log 1). And a state in which a given instruction issues next (DESIGN CHOICE, log 3). -/

namespace Sys2Proof.Machine

/-- What follows a next state. -/
def Out.andThen (o : Out) (f : State → State) : Out :=
  match o with
  | .next s => .next (f s)
  | .fault r => .fault r
  | .refused r => .refused r

/-- A group issues: its instruction is taken up, executed, and followed by its pair or a stop point. -/
def issueStep (gid : Nat) (s : State) : Out :=
  match takeUp s gid with
  | (s1, some i) => Out.andThen (exec i s1) (fun s2 => afterIssue s2 gid)
  | (s1, none) => .next s1

/-- One step. -/
def step (s : State) : Host.Outcome State Fault Refusal :=
  match s.issueNow, s.agenda with
  | gid :: r, _ => issueStep gid { s with issueNow := r }
  | [], e :: r => if e.isEvent then exec e { s with agenda := r } else .next { s with agenda := r }
  | [], [] => exec (autoEvent s) { s with autoTurn := s.autoTurn + 1 }

/-- A launch whose crew the instruction runs in. -/
def probeLaunch : Launch :=
  { ctx := 0, recAddr := 0, pa := 0, isRetake := false, entry := 0, gx := 1, gy := 1, gz := 1, spawnt := 1, prio := 0,
    pair := false, quad := false, coop := false, scratch := 0, nregs := 512, w := 64, groups := 1, param := 0, handler := 0,
    cont := 0, preds := [], met5 := false, gen := 1, state := 2, decided := true, rerun := none, begun := 1, retired := 0, order := 0,
    eligibleSince := none, waited := 0, boost := 0, headSince := none, clearing := false, issuer := none, asker := none, reject := 0 }

/-- Its crew, on core 0. -/
def probeCrew (launch gid : Nat) : Crew :=
  { ctx := 0, launch := launch, idx := 0, spawned := false, cores := [0], started := 1, gids := [gid], scratchBytes := 0,
    scratch := [], absent := [], scratchPoison := [], bars := [], triggered := false, rcd := .empty, matrixGroup := none,
    mmaqCount := 0, recent := [], preempt := false, saved := false, slot := 0, hasImage := false, since := 0, migrating := false,
    arrayKept := [] }

/-- A line whose slot 0 holds a word and which is never fetched again: the other slots hold zeros. -/
def probeLine (w : Nat) : BitVec 512 := BitVec.ofNat 512 (w % 2 ^ 96)

/-- `s` with a group of 64 lanes and 512 registers that has entered a line with the instruction in slot 0, and issues next. -/
def State.withFetchWord (s : State) (_nbits w : Nat) : State :=
  let l := s.nextId
  let g := newGroup (l + 1) 0 0 64 512 (fullMask 64) .zero 0 s.clock
  { s with
    agenda := [], issueNow := [l + 2], nextId := l + 3,
    launches := SMap.ins s.launches l probeLaunch,
    crews := SMap.ins s.crews (l + 1) (probeCrew l (l + 2)),
    groups := SMap.ins s.groups (l + 2) { g with line := probeLine w, entered := true, needBt := false } }

end Sys2Proof.Machine
end

