-- ==== Sys2Proof/Safety.lean ====
section
/-! DEFINITION. What counts as a safe run: every step answers a next state. And the terms in which claims about one instruction
are stated: the group that issues, and what an instruction leaves as it was. -/

namespace Sys2Proof.Machine

/-- `n` steps lead from `s` to `t`. -/
def Runs : Nat → State → State → Prop
  | 0, s, t => s = t
  | n + 1, s, t => ∃ u, step s = .next u ∧ Runs n u t

/-- A state is safe when no run from it meets a fault or a refusal. -/
def Safe (s : State) : Prop := ∀ n t, Runs n s t → ∃ u, step t = .next u

/-! ## The group that issues -/

/-- Group `g` stands at an instruction of `s`, and no register that it reads or holds has a poisoned word (R151, R339). -/
structure Issuing (s : State) (g : Group) : Prop where
  group : s.group? s.cur = some g
  vClean : g.vPoison = []
  sClean : g.sPoison = []
  mClean : g.mPoison = []
  srcClean : g.srcV = [] ∧ g.srcS = [] ∧ g.srcM = []

/-- The program counter after the instruction at it completes without a transfer: the target that the lower member of its pair left,
else the next slot (R151, R153). -/
def Group.pcAfter (g : Group) : Word :=
  match g.afterPair.find? (fun p => p.here g) with
  | some p => p.target
  | none => pcNext g.pc

/-- The destination is `s` register `k`. -/
def destS (d : SDst) (k : Nat) : Bool :=
  match d with
  | .reg r => k == r.toNat
  | .dash => false

/-- The destination is `m` register `k`; `m0` is never written (R166). -/
def destM (d : MDst) (k : Nat) : Bool :=
  match d with
  | .reg r => k == r.toNat && k != 0
  | .dash => false

/-- The destination is the single `v` register `k`, or the low register of the pair that holds `k`. -/
def destV (d : VDst) (wide : Bool) (k : Nat) : Bool :=
  match d with
  | .reg r => k == r.toNat || (wide && k == r.toNat + 1)
  | _ => false

/-! ## Frames -/

/-- `h` is `g` but for its `v`, `s` and `m` registers and for what the passage to another instruction changes: the program counter
and how its line was entered, the latches and their window, the pair, the status with its stamp, the records of an instruction that has
passed its checks and waits, and what is noted of operands of matrix operations that it writes (R121). -/
def Group.Moved (g h : Group) : Prop :=
  h = { g with regs := h.regs, pc := h.pc, entered := h.entered, needBt := h.needBt, refetched := h.refetched, latches := h.latches,
               window := h.window, status := h.status, stamp := h.stamp, issued := h.issued, pair := h.pair, afterPair := h.afterPair,
               passed := h.passed, sHit := h.sHit }

/-- `t` is `s` but for the group that issued, which is `h` now, for the streams of cores (R305), and for the counter of free values.
So every other group, every special register, every crew, and every byte of memory and of every scratchpad is as it was. -/
structure OnlyGroup (s t : State) (h : Group) : Prop where
  state : t = { s with groups := t.groups, cores := t.cores, freeCtr := t.freeCtr }
  group : t.group? s.cur = some h
  others : ∀ k, k ≠ s.cur → t.group? k = s.group? k
  cores : ∀ c, t.core c = { s.core c with streams := (t.core c).streams }
  mem : ∀ a, Memory.byte t.mem a = Memory.byte s.mem a

/-- The instruction of `g` has completed, with no effect beyond its group, which went on to its next instruction as `h`. -/
structure Completed (s t : State) (g h : Group) : Prop where
  only : OnlyGroup s t h
  moved : g.Moved h
  pc : h.pc = g.pcAfter
  ready : h.status = .ready

/-- `t` is `s` but for the group that issued, the streams of cores, and what the TLBs hold. -/
structure OnlyFlow (s t : State) (h : Group) : Prop where
  state : t = { s with groups := t.groups, cores := t.cores, quadTlb := t.quadTlb }
  group : t.group? s.cur = some h
  others : ∀ k, k ≠ s.cur → t.group? k = s.group? k
  cores : ∀ c, t.core c = { s.core c with streams := (t.core c).streams, tlb := (t.core c).tlb }
  mem : ∀ a, Memory.byte t.mem a = Memory.byte s.mem a

/-- The instruction leaves `g`, which goes on at `target`: a new line is entered there, at once, or after the higher member of the
pair that the instruction began (R151). -/
structure Transferred (s t : State) (g h : Group) (target : Word) : Prop where
  only : OnlyFlow s t h
  moved : g.Moved h
  regs : h.regs = g.regs
  ready : h.status = .ready
  goes : if g.pair.map PairOld.pc = some (g.pc + 1) then h.pc = g.pc + 1 ∧
      h.afterPair.head?.map (fun p => (p.at_, p.depth, p.sup, p.target)) = some (g.pc + 1, h.frames.length, h.sup, target)
    else h.pc = target ∧ h.entered = false ∧ h.latches = [] ∧ h.window = 0

/-- The instruction of `g` waits: the group parked at it, which has issued, and nothing else of it changed (R31). -/
structure Waits (s t : State) (g : Group) (why : Park) : Prop where
  only : OnlyGroup s t { g with status := .parked why, issued := true, stamp := s.clock }

end Sys2Proof.Machine
end

