-- ==== Sys2Proof/Certificates/Slice0/Obligations.lean ====
section
/-! DEFINITION. The statements about the 9600, for the provers. Each docstring names the rule of spec/ that its statement formalises.
The terms they share stand in Sys2Proof/Safety.lean and, per group of statements, above them. -/

section

open Sys2Proof Sys2Proof.Machine

namespace Sys2Proof.Stmt

/-! ## Scalar instructions (R184 to R186) -/

/-- An operand as its type reads it (R184, R188). -/
def value (t : Fmt) (a : Word) : Int :=
  match t with
  | .i64 => a.toInt
  | .i32 => (a.setWidth 32).toInt
  | .n32 | .b32 => (a.toNat % 2 ^ 32 : Nat)
  | _ => a.toNat

/-- A condition code of 0 to 5 (R159). -/
def holds (cc : Cond) (a b : Int) : Bool :=
  match cc with
  | .eq => decide (a = b)
  | .ne => decide (a ≠ b)
  | .lt => decide (a < b)
  | .le => decide (a ≤ b)
  | .gt => decide (a > b)
  | .ge => decide (a ≥ b)
  | _ => false

/-- The number of one bits among the low `n`. -/
def ones {w : Nat} (a : BitVec w) (n : Nat) : Nat := ((List.range n).filter (fun k => a.getLsbD k)).length
/-- The number of zero bits above the highest one bit of the low `n`. -/
def zerosAbove {w : Nat} (a : BitVec w) (n : Nat) : Nat := ((List.range n).takeWhile (fun k => !a.getLsbD (n - 1 - k))).length

/-- `n` bits of `a` from `pos`, extended to `w` bits as the type says. -/
def field (signed : Bool) (w : Nat) (a : Nat) (pos n : Nat) : BitVec w :=
  let f := a / 2 ^ pos % 2 ^ n
  if signed = true ∧ n ≠ 0 ∧ 2 ^ (n - 1) ≤ f then BitVec.ofInt w ((f : Int) - (2 ^ n : Nat)) else BitVec.ofNat w f

/-- A scalar instruction: its guard, destination, sources, and the value that its rule gives. -/
structure SRow where
  g : BitVec 4
  d : SDst
  srcs : List SSrc
  val : Word

/-- R185 and R186, row by row; *a*, *b*, *c* are `g.sval` of the sources. -/
def scalarRow (g : Group) (i : Instr) : Option SRow :=
  let two := fun (o : SOp2) (v : Word → Word → Word) => some (⟨o.g, o.d, [o.a, o.b], v (g.sval o.a) (g.sval o.b)⟩ : SRow)
  let three := fun (o : SOp3) (v : Word → Word → Word → Word) =>
    some (⟨o.g, o.d, [o.a, o.b, o.c], v (g.sval o.a) (g.sval o.b) (g.sval o.c)⟩ : SRow)
  let one := fun (o : SOp1) (v : Word → Word) => some (⟨o.g, o.d, [o.a], v (g.sval o.a)⟩ : SRow)
  match i with
  | .sadd o => two o (fun a b => BitVec.ofNat 64 (a.toNat + b.toNat))
  | .ssub o => two o (fun a b => BitVec.ofInt 64 (a.toInt - b.toInt))
  | .smul o => two o (fun a b => BitVec.ofNat 64 (a.toNat * b.toNat))
  | .smad o => three o (fun a b c => BitVec.ofNat 64 (a.toNat * b.toNat + c.toNat))
  | .smulhi o => two o (fun a b => BitVec.ofInt 64 (value o.ty a * value o.ty b / 2 ^ 64))
  | .smin o => two o (fun a b => if value o.ty a ≤ value o.ty b then a else b)
  | .smax o => two o (fun a b => if value o.ty a ≤ value o.ty b then b else a)
  | .sand o => two o (fun a b => a &&& b)
  | .sor o => two o (fun a b => a ||| b)
  | .sxor o => two o (fun a b => a ^^^ b)
  | .sshl o => two o (fun a b => if 64 ≤ b.toNat then 0 else BitVec.ofNat 64 (a.toNat * 2 ^ b.toNat))
  | .sshr o => two o (fun a b => if 64 ≤ b.toNat then 0 else BitVec.ofNat 64 (a.toNat / 2 ^ b.toNat))
  | .ssar o => two o (fun a b => if 64 ≤ b.toNat then (if a.getLsbD 63 then BitVec.allOnes 64 else 0)
      else BitVec.ofInt 64 (a.toInt / (2 ^ b.toNat : Nat)))
  | .scmp o cc => two o (fun a b => if holds cc (value o.ty a) (value o.ty b) then 1 else 0)
  | .ssel o => three o (fun a b c => if c ≠ 0 then a else b)
  | .smov o => one o (fun a => a)
  | .sli k d ty v => some ⟨k, d, [], if ty = .i64 then BitVec.ofInt 64 v.toInt else BitVec.ofNat 64 v.toNat⟩
  | .sliPc k d v => some ⟨k, d, [], BitVec.ofInt 64 ((g.pc.toNat / 64 * 64 : Nat) + v.toInt)⟩
  | .sbfe o => two o (fun a b => let pos := b.toNat % 64
      field (o.ty == .i64) 64 a.toNat pos (Nat.min (Nat.min (b.toNat / 2 ^ 8 % 2 ^ 7) 64) (64 - pos)))
  | .spopc o => one o (fun a => BitVec.ofNat 64 (ones a 64))
  | .sclz o => one o (fun a => BitVec.ofNat 64 (zerosAbove a 64))
  | _ => none

/-- A scalar value is written: the instruction completes; under a non-empty effective mask `S[d]` and latch `b0` take `val`; under an
empty one no register changes (R156, R162, R184). Every other register and everything else of the machine stays. -/
def WritesS (s : State) (g : Group) (k : BitVec 4) (d : SDst) (val : Word) (o : Out) : Prop :=
  ∃ t h, o = .next t ∧ Completed s t g h ∧ h.regs.v = g.regs.v ∧ h.regs.m = g.regs.m ∧
    (∀ r, h.regs.rdS r = if g.eff k ≠ 0 ∧ destS d r = true then val else g.regs.rdS r) ∧
    (h.entered = true → h.window = g.window + 1 ∧ h.latches.tail = g.latches.take 2 ∧ (g.eff k ≠ 0 → h.latches.head? = some (.s val)))

end Sys2Proof.Stmt

open Sys2Proof.Stmt

/-- R184 to R186: every scalar instruction, in every well-formed form whose latches may be read, completes and writes the value of its row. -/
def Obligations.ScalarResults : Prop :=
  ∀ (s : State) (g : Group) (i : Instr) (r : SRow), Issuing s g → i.wf = true → scalarRow g i = some r → r.srcs.all g.sOk = true →
    WritesS s g r.g r.d r.val (exec i s)

namespace Sys2Proof.Stmt

/-! ## Vector instructions (R187 to R206) -/

/-- Bits of a lane value under a type: 64 or 32. -/
def width (t : Fmt) : Nat := if t.wide then 64 else 32

/-- A vector instruction: its guard, destination, vector, scalar and mask sources, whether its result is 64 bits wide, and the value of a
lane; of a 32-bit result bits 31:0 count. -/
structure VRow where
  g : BitVec 4
  d : VDst
  vs : List (VSrc × Bool)
  ss : List SSrc
  ms : List MSrc
  wide : Bool
  val : Nat → BitVec 64

/-- Lane `l` of a source that is a register or a latch. -/
def lane (g : Group) (x : VSrc) (wide : Bool) (l : Nat) : BitVec 64 := g.vlane x wide 0 l

/-- Lane `l` of source `i` of a list: sources that name one port take its flits in their order (R62). -/
def laneOf (g : Group) (vs : List (VSrc × Bool)) (i l : Nat) : BitVec 64 :=
  match vs[i]? with
  | some x => g.vlane x.1 x.2 ((vs.take i).filter (fun y => x.1.isPort && y.1 == x.1)).length l
  | none => 0

/-- The amount of a shift: the 32 bits of its register, unsigned (R189). -/
def amountOf (b : BitVec 64) : Nat := b.toNat % 2 ^ 32

/-- Position and length of a packed control (R189). -/
def posLen (c : BitVec 64) : Nat × Nat := (c.toNat % 32, Nat.min (Nat.min (c.toNat / 2 ^ 8 % 64) 32) (32 - c.toNat % 32))

/-- R188 and R189, row by row. -/
def intRow (g : Group) (i : Instr) : Option VRow :=
  let one := fun (o : VOp1) (v : BitVec 64 → BitVec 64) =>
    some (⟨o.g, o.d, [(o.a, o.ty.wide)], [], [], o.ty.wide, fun l => v (lane g o.a o.ty.wide l)⟩ : VRow)
  let two := fun (o : VOp2) (v : BitVec 64 → BitVec 64 → BitVec 64) =>
    let vs := [(o.a, o.ty.wide), (o.b, o.ty.wide)]
    some (⟨o.g, o.d, vs, [], [], o.ty.wide, fun l => v (laneOf g vs 0 l) (laneOf g vs 1 l)⟩ : VRow)
  let three := fun (o : VOp3) (v : BitVec 64 → BitVec 64 → BitVec 64 → BitVec 64) =>
    let vs := [(o.a, o.ty.wide), (o.b, o.ty.wide), (o.c, o.ty.wide)]
    some (⟨o.g, o.d, vs, [], [], o.ty.wide, fun l => v (laneOf g vs 0 l) (laneOf g vs 1 l) (laneOf g vs 2 l)⟩ : VRow)
  -- the amount of a shift is one register under every type
  let shift := fun (o : VOp2) (v : BitVec 64 → Nat → BitVec 64) =>
    let vs := [(o.a, o.ty.wide), (o.b, false)]
    some (⟨o.g, o.d, vs, [], [], o.ty.wide, fun l => v (laneOf g vs 0 l) (amountOf (laneOf g vs 1 l))⟩ : VRow)
  match i with
  | .add o => two o (fun a b => BitVec.ofNat 64 (a.toNat + b.toNat))
  | .sub o => two o (fun a b => BitVec.ofInt 64 (a.toInt - b.toInt))
  | .mul o => two o (fun a b => BitVec.ofNat 64 (a.toNat * b.toNat))
  | .mulhi o => two o (fun a b => BitVec.ofInt 64 (value o.ty a * value o.ty b / 2 ^ 32))
  | .mad o => three o (fun a b c => BitVec.ofNat 64 (a.toNat * b.toNat + c.toNat))
  | .min o => two o (fun a b => if value o.ty a ≤ value o.ty b then a else b)
  | .max o => two o (fun a b => if value o.ty a ≤ value o.ty b then b else a)
  | .abs o => one o (fun a => BitVec.ofInt 64 (value o.ty a).natAbs)
  | .neg o => one o (fun a => BitVec.ofInt 64 (-a.toInt))
  | .and o => two o (fun a b => a &&& b)
  | .or o => two o (fun a b => a ||| b)
  | .xor o => two o (fun a b => a ^^^ b)
  | .not o => one o (fun a => ~~~a)
  | .shl o => shift o (fun a n => if width o.ty ≤ n then 0 else BitVec.ofNat 64 (a.toNat * 2 ^ n))
  | .shr o => shift o (fun a n => if width o.ty ≤ n then 0 else BitVec.ofNat 64 (a.toNat / 2 ^ n))
  | .sar o => shift o (fun a n =>
      let s : Int := if o.ty.wide then a.toInt else (a.setWidth 32).toInt
      if width o.ty ≤ n then (if s < 0 then BitVec.allOnes 64 else 0) else BitVec.ofInt 64 (s / (2 ^ n : Nat)))
  | .rot o => two o (fun a b => let k := amountOf b % 32
      BitVec.ofNat 64 (a.toNat % 2 ^ 32 * 2 ^ k + a.toNat % 2 ^ 32 / 2 ^ (32 - k)))
  | .bfe o => two o (fun a b => (field (o.ty == .i32) 32 (a.toNat % 2 ^ 32) (posLen b).1 (posLen b).2).setWidth 64)
  | .bfi o => three o (fun a b c => BitVec.ofNat 64 (
      b.toNat % 2 ^ (posLen c).1 + a.toNat % 2 ^ (posLen c).2 * 2 ^ (posLen c).1
        + b.toNat % 2 ^ 32 / 2 ^ ((posLen c).1 + (posLen c).2) * 2 ^ ((posLen c).1 + (posLen c).2)))
  | .popc o => one o (fun a => BitVec.ofNat 64 (ones a 32))
  | .clz o => one o (fun a => BitVec.ofNat 64 (zerosAbove a 32))
  | .brev o => one o (fun a => BitVec.ofNat 64 (((List.range 32).filter (fun k => a.getLsbD k)).map (fun k => 2 ^ (31 - k))).sum)
  | .sel o c =>
    let vs := [(o.a, o.ty.wide), (o.b, o.ty.wide)]
    some ⟨o.g, o.d, vs, [], [c], o.ty.wide, fun l => if (g.mval c).getLsbD l then laneOf g vs 0 l else laneOf g vs 1 l⟩
  | .mov o => one o (fun a => a)
  | .movi k d ty v => some ⟨k, d, [], [], [], ty.wide,
      fun _ => if ty = .i64 then BitVec.ofInt 64 v.toInt else BitVec.ofNat 64 v.toNat⟩
  | .movs k d a ty => some ⟨k, d, [], [a], [], ty.wide, fun _ => g.sval a⟩
  | _ => none

/-- The sources of a row are registers and latches that may be read, and its destination is no port. -/
def VRow.plain (r : VRow) (g : Group) : Bool :=
  r.vs.all (fun x => !x.1.isPort) && r.vs.all g.vOk && r.ss.all g.sOk && r.ms.all g.mOk
    && (match r.d with | .port _ => false | _ => true)

/-- A vector value is written from a state `u` that has the same groups, cores and memory: the instruction completes; lanes of the
effective mask of `V[d]`, or of the pair, take their values, other lanes and registers stay; latch `b0` takes the same values (R162, R187). -/
def WritesV (u : State) (g : Group) (k : BitVec 4) (d : VDst) (wide : Bool) (val : Nat → BitVec 64) (o : Out) : Prop :=
  ∃ t h, o = .next t ∧ Completed u t g h ∧ h.regs.s = g.regs.s ∧ h.regs.m = g.regs.m ∧
    (∀ r l, l < 64 → h.regs.rdV r l =
      if (g.eff k).getLsbD l = true ∧ destV d wide r = true then
        (if wide = true ∧ destV d false r = false then (val l).extractLsb' 32 32 else (val l).extractLsb' 0 32)
      else g.regs.rdV r l) ∧
    (h.entered = true → h.window = g.window + 1 ∧ h.latches.tail = g.latches.take 2 ∧
      ∃ x, h.latches.head? = some x ∧ x.kind = some (if wide then .v64 else .v32) ∧ ∀ l, l < 64 → (g.eff k).getLsbD l = true →
        x.lane l = if wide then val l else ((val l).extractLsb' 0 32).setWidth 64)

/-- A mask value is written: `M[d]` and latch `b0` take it; under an empty effective mask no register changes (R156, R162). -/
def WritesM (s : State) (g : Group) (k : BitVec 4) (d : MDst) (val : Mask) (o : Out) : Prop :=
  ∃ t h, o = .next t ∧ Completed s t g h ∧ h.regs.v = g.regs.v ∧ h.regs.s = g.regs.s ∧
    (∀ a r, h.regs.rdM a r = if g.eff k ≠ 0 ∧ destM d r = true then val else g.regs.rdM a r) ∧
    (h.entered = true → h.window = g.window + 1 ∧ h.latches.tail = g.latches.take 2 ∧
      ∃ x, h.latches.head? = some x ∧ x.kind = some .m ∧ x.mask &&& g.eff k = val &&& g.eff k)

/-- The mask of the lanes of the effective mask that meet a condition; every other bit is 0. -/
def maskWhere (eff : Mask) (p : Nat → Bool) : Mask :=
  BitVec.ofNat 64 (((List.range 64).filter (fun l => eff.getLsbD l && p l)).map (fun l => 2 ^ l)).sum

end Sys2Proof.Stmt

/-- R187 to R189: every integer vector instruction that writes a V register or only a latch, in every well-formed form without a port,
completes and writes the values of its row. -/
def Obligations.VectorIntegerResults : Prop :=
  ∀ (s : State) (g : Group) (i : Instr) (r : VRow), Issuing s g → i.wf = true → intRow g i = some r → r.plain g = true →
    WritesV s g r.g r.d r.wide r.val (exec i s)


namespace Sys2Proof.Stmt

/-! ## Number formats (R131 to R135) -/

/-- Exponent bits, fraction bits and bias of a float format (R131). -/
def fmtParts (t : Fmt) : Nat × Nat × Nat :=
  match t with
  | .f16 => (5, 10, 15)
  | .bf16 => (8, 7, 127)
  | .f8a => (4, 3, 7)
  | .f8b => (5, 2, 15)
  | _ => (8, 23, 127)

/-- The magnitude code of an encoding. -/
def magOf (t : Fmt) (c : Nat) : Nat := c % 2 ^ ((fmtParts t).1 + (fmtParts t).2.1)
/-- The sign of an encoding: true for 1. -/
def signOf (t : Fmt) (c : Nat) : Bool := c / 2 ^ ((fmtParts t).1 + (fmtParts t).2.1) % 2 == 1
/-- The magnitude code of infinity, and of `0x7F`, the only NaN of f8a (R131). -/
def topMag (t : Fmt) : Nat := if t = .f8a then 127 else (2 ^ (fmtParts t).1 - 1) * 2 ^ (fmtParts t).2.1
/-- An encoding is NaN (R131). -/
def isNaNOf (t : Fmt) (c : Nat) : Bool := if t = .f8a then magOf t c == 127 else decide (topMag t < magOf t c)
/-- An encoding is an infinity; f8a has none. -/
def isInfOf (t : Fmt) (c : Nat) : Bool := t != .f8a && magOf t c == topMag t
/-- The value of a magnitude code, the exponent field unbounded above: subnormal where it is 0, else with the hidden bit (R131). -/
noncomputable def magVal (t : Fmt) (k : Nat) : ℝ :=
  let fb := (fmtParts t).2.1
  let bias := (fmtParts t).2.2
  if k < 2 ^ fb then (k : ℝ) * (2 : ℝ) ^ ((1 : Int) - bias - fb)
  else ((2 ^ fb + k % 2 ^ fb : Nat) : ℝ) * (2 : ℝ) ^ ((k / 2 ^ fb : Nat) - (bias : Int) - fb)

/-- A float format. -/
def isFloatFmt (t : Fmt) : Bool := t == .f32 || t == .f16 || t == .bf16 || t == .f8a || t == .f8b

/-- The real value of an exact value that is finite. -/
noncomputable def realOf : XVal → ℝ
  | .fin s m e => (if s then -1 else 1) * (m : ℝ) * (2 : ℝ) ^ e
  | _ => 0

/-- The magnitude codes that R135 gives for `Overflow`: the code after the largest is infinity. -/
def overflowMag (t : Fmt) (mode : RMode) (neg : Bool) : Nat :=
  if t = .f8a then 126
  else match mode with
    | .rne => topMag t
    | .rtz | .rto => topMag t - 1
    | .rup => if neg then topMag t - 1 else topMag t
    | .rdn => if neg then topMag t else topMag t - 1

/-- `r` is `RoundTo(t, mode, ±x)` of a magnitude `x > 0` (R134, R135, R145): `k` is the code of the neighbour towards zero, and `y` the
one that the mode chooses. -/
def Rounds (t : Fmt) (mode : RMode) (neg : Bool) (x : ℝ) (r : Rounded) : Prop :=
  ∃ k y : Nat, magVal t k ≤ x ∧ x < magVal t (k + 1) ∧
    (x = magVal t k → y = k) ∧
    (x ≠ magVal t k → match mode with
      | .rne => (x - magVal t k < magVal t (k + 1) - x → y = k) ∧ (magVal t (k + 1) - x < x - magVal t k → y = k + 1) ∧
          (x - magVal t k = magVal t (k + 1) - x → y = if k % 2 = 0 then k else k + 1)
      | .rtz => y = k
      | .rup => y = if neg then k else k + 1
      | .rdn => y = if neg then k + 1 else k
      | .rto => y = if k % 2 = 1 then k else k + 1) ∧
    r.ovf = decide (topMag t ≤ y) ∧
    r.code = (if neg then 2 ^ ((fmtParts t).1 + (fmtParts t).2.1) else 0) + (if topMag t ≤ y then overflowMag t mode neg else y) ∧
    (r.unf = true ↔ y < 2 ^ (fmtParts t).2.1 ∧ x ≠ magVal t y)

/-! ## Float instructions (R190 to R196) -/

/-- The operands of lane `l` of a float instruction, one for each source. -/
def operands (g : Group) (t : Fmt) (vs : List VSrc) (l : Nat) : List XVal :=
  (List.range vs.length).map (fun i => laneX t (laneOf g (vs.map (fun v => (v, false))) i l))

/-- The values that `fcmp`, `fmin` and `fmax` compare, as a rank: the sign with the magnitude code. -/
def rank (t : Fmt) (c : Nat) : Int := if signOf t c then -(magOf t c : Int) else magOf t c

/-- The lesser or greater of two encodings (R192), `-0` below `+0`. -/
def minMax (t : Fmt) (less : Bool) (a b : Nat) : Nat :=
  let x := a % 2 ^ ((fmtParts t).1 + (fmtParts t).2.1 + 1)
  let y := b % 2 ^ ((fmtParts t).1 + (fmtParts t).2.1 + 1)
  -- ranks with the two zeros apart
  let p := 2 * rank t a - (if signOf t a then 1 else 0)
  let q := 2 * rank t b - (if signOf t b then 1 else 0)
  if isNaNOf t a ∧ isNaNOf t b then canonNaN t
  else if isNaNOf t a then y
  else if isNaNOf t b then x
  else if less then (if p ≤ q then x else y) else (if q ≤ p then x else y)

/-- A condition on two encodings (R193). -/
def floatHolds (t : Fmt) (cc : Cond) (a b : Nat) : Bool :=
  let un := isNaNOf t a || isNaNOf t b
  match cc with
  | .eq => !un && decide (rank t a = rank t b)
  | .ne => un || decide (rank t a ≠ rank t b)
  | .lt => !un && decide (rank t a < rank t b)
  | .le => !un && decide (rank t a ≤ rank t b)
  | .gt => !un && decide (rank t a > rank t b)
  | .ge => !un && decide (rank t a ≥ rank t b)
  | .un => un
  | .ord => !un

/-- The class word (R194). -/
def classOf (t : Fmt) (c : Nat) : Nat :=
  if isNaNOf t c then 256
  else if isInfOf t c then (if signOf t c then 1 else 128)
  else if magOf t c = 0 then (if signOf t c then 8 else 16)
  else if magOf t c < 2 ^ (fmtParts t).2.1 then (if signOf t c then 4 else 32)
  else (if signOf t c then 2 else 64)

/-- The events of a rounded result with its operands (R145). -/
def eventsOf (t : Fmt) (ins : List XVal) (r : Rounded) : List Nat :=
  (if isNaNOf t r.code ∧ ¬(ins.any XVal.isNaN = true) then [0] else []) ++
  (if isInfOf t r.code ∧ ¬(ins.any XVal.isInf = true) then [1] else []) ++ (if r.ovf then [2] else []) ++ (if r.unf then [3] else [])

/-- A float instruction that rounds: its guard, destination, sources, format, mode, and per lane its operands and exact result. -/
structure FRow where
  g : BitVec 4
  d : VDst
  vs : List VSrc
  t : Fmt
  mode : RMode
  ins : Nat → List XVal
  exact : Nat → XVal

/-- R191 and R196, row by row. -/
def floatRow (g : Group) (i : Instr) : Option FRow :=
  let row := fun (k : BitVec 4) (d : VDst) (vs : List VSrc) (t : Fmt) (rm : RMode) (f : List XVal → XVal) =>
    some (⟨k, d, vs, t, rm, operands g t vs, fun l => f (operands g t vs l)⟩ : FRow)
  let one := fun (o : FOp1) (f : XVal → XVal) => row o.g o.d [o.a] o.ty o.rm (fun x => f (x.getD 0 .nan))
  let two := fun (o : FOp2) (f : XVal → XVal → XVal) => row o.g o.d [o.a, o.b] o.ty o.rm (fun x => f (x.getD 0 .nan) (x.getD 1 .nan))
  match i with
  | .fadd o => two o (fun a b => XVal.add o.rm a b)
  | .fsub o => two o (fun a b => XVal.add o.rm a b.neg)
  | .fmul o => two o XVal.mul
  | .ffma o => row o.g o.d [o.a, o.b, o.c] o.ty o.rm (fun x => XVal.add o.rm (XVal.mul (x.getD 0 .nan) (x.getD 1 .nan)) (x.getD 2 .nan))
  | .frcp o => one o rcpX
  | .frsq o => one o rsqX
  | .fsqrt o => one o sqrtX
  | .fex2 o => one o ex2X
  | .flg2 o => one o lg2X
  | .fsin o => one o sinX
  | .fcos o => one o cosX
  | _ => none

/-- Its lanes' results. -/
def FRow.result (r : FRow) (l : Nat) : Rounded := roundTo r.t r.mode (r.exact l)

/-- The events of its effective lanes, in ascending order. -/
def FRow.events (r : FRow) (g : Group) : List Nat :=
  (lanesOf (g.eff r.g)).flatMap (fun l => eventsOf r.t (r.ins l) (r.result l))

/-- Instructions of the class that round nothing and count nothing (R192, R194). -/
def bitRow (g : Group) (i : Instr) : Option VRow :=
  let least := fun (o : VOp2) (less : Bool) =>
    let vs := [(o.a, false), (o.b, false)]
    some (⟨o.g, o.d, vs, [], [], false, fun l => BitVec.ofNat 64 (minMax o.ty less (laneOf g vs 0 l).toNat (laneOf g vs 1 l).toNat)⟩ : VRow)
  match i with
  | .fmin o => least o true
  | .fmax o => least o false
  | .fclass o => some ⟨o.g, o.d, [(o.a, false)], [], [], false, fun l => BitVec.ofNat 64 (classOf o.ty (lane g o.a false l).toNat)⟩
  | .pack2 o =>
    let vs := [(o.a, false), (o.b, false)]
    some ⟨o.g, o.d, vs, [], [], o.ty == .b32, fun l =>
        let n := if o.ty = .b32 then 32 else if o.ty = .n16 ∨ o.ty = .i16 ∨ o.ty = .f16 ∨ o.ty = .bf16 then 16 else 8
        BitVec.ofNat 64 ((laneOf g vs 1 l).toNat % 2 ^ n * 2 ^ n + (laneOf g vs 0 l).toNat % 2 ^ n)⟩
  | .unpk2 o => some ⟨o.g, o.d, [(o.a, false)], [], [], true,
      fun l =>
        let n := if o.ty = .n16 ∨ o.ty = .i16 ∨ o.ty = .f16 ∨ o.ty = .bf16 then 16 else 8
        let half := fun (k : Nat) => field (o.ty == .i16 || o.ty == .i8) 32 (lane g o.a false l).toNat (k * n) n
        half 1 ++ half 0⟩
  | _ => none

end Sys2Proof.Stmt

/-- R134 and R135: `RoundTo` of a nonzero finite value gives one of the two neighbours of its magnitude in the format, as the mode
chooses, with the overflow of R135 and the events of R145; the neighbours are those of the encodings of R131. -/
def Sys2Proof.Stmt.RoundToNeighbour : Prop :=
  ∀ (t : Fmt) (mode : RMode) (s : Bool) (m : Nat) (e : Int), isFloatFmt t = true → m ≠ 0 →
    Rounds t mode s ((m : ℝ) * (2 : ℝ) ^ e) (roundTo t mode (.fin s m e))

/-- R131, R132, R134: `RoundTo` of NaN is the canonical NaN; of an infinity the infinity, or in f8a `0x7F` or `0xFF`; of a zero the zero
with its sign; none of them counts an overflow or an underflow. And an encoding means what R131 says. -/
def Sys2Proof.Stmt.FormatValues : Prop :=
  (∀ (t : Fmt) (mode : RMode), isFloatFmt t = true →
    roundTo t mode .nan = ⟨canonNaN t, false, false⟩ ∧ isNaNOf t (canonNaN t) = true ∧
    (∀ s, (roundTo t mode (.inf s)).code = (if s then 2 ^ ((fmtParts t).1 + (fmtParts t).2.1) else 0) + topMag t) ∧
    (∀ s e, roundTo t mode (.fin s 0 e) = ⟨if s then 2 ^ ((fmtParts t).1 + (fmtParts t).2.1) else 0, false, false⟩)) ∧
  (∀ (t : Fmt) (c : Nat), isFloatFmt t = true →
    (isNaNOf t c = true → ofCode t c = .nan) ∧ (isInfOf t c = true → ofCode t c = .inf (signOf t c)) ∧
    (isNaNOf t c = false → isInfOf t c = false →
      ∃ m e, ofCode t c = .fin (signOf t c) m e ∧ (m : ℝ) * (2 : ℝ) ^ e = magVal t (magOf t c)))

/-- R133 and R191: exact products and sums. Finite operands give the real result; a zero sum is `+0` but for a sum of two `-0` and, in
`rdn`, `-0`; a product takes the exclusive OR of the signs; NaN, infinities and their invalid combinations give what R191 states. -/
def Obligations.ExactArithmetic : Prop :=
  ∀ (mode : RMode) (s r : Bool) (m n : Nat) (e f : Int),
    (∃ u k q, XVal.mul (.fin s m e) (.fin r n f) = .fin u k q ∧ u = (s ^^ r) ∧
      realOf (.fin u k q) = realOf (.fin s m e) * realOf (.fin r n f)) ∧
    (∃ u k q, XVal.add mode (.fin s m e) (.fin r n f) = .fin u k q ∧
      realOf (.fin u k q) = realOf (.fin s m e) + realOf (.fin r n f) ∧
      (k = 0 → u = decide ((m = 0 ∧ n = 0 ∧ s = true ∧ r = true) ∨ (¬(m = 0 ∧ n = 0 ∧ s = true ∧ r = true) ∧ mode = .rdn)))) ∧
    (∀ x, XVal.mul .nan x = .nan ∧ XVal.mul x .nan = .nan ∧ XVal.add mode .nan x = .nan ∧ XVal.add mode x .nan = .nan) ∧
    XVal.add mode (.inf s) (.inf r) = (if s = r then .inf s else .nan) ∧
    XVal.add mode (.inf s) (.fin r n f) = .inf s ∧ XVal.add mode (.fin r n f) (.inf s) = .inf s ∧
    XVal.mul (.inf s) (.inf r) = .inf (s ^^ r) ∧
    XVal.mul (.inf s) (.fin r n f) = (if n = 0 then .nan else .inf (s ^^ r)) ∧
    XVal.mul (.fin r n f) (.inf s) = (if n = 0 then .nan else .inf (r ^^ s))

/-- R190, R191, R196: the float instructions that round, without a port, complete; each lane of the effective mask takes `RoundTo` of its
exact result in the format and mode of the instruction, with its upper bits clear, and the events of R145 are counted. -/
def Obligations.FloatResults : Prop :=
  ∀ (s : State) (g : Group) (i : Instr) (r : FRow), Issuing s g → i.wf = true → floatRow g i = some r →
    (VRow.plain ⟨r.g, r.d, r.vs.map (fun v => (v, false)), [], [], false, fun _ => 0⟩ g) = true →
    WritesV (countFpx s g (fpxFormat r.t) (r.events g)) g r.g r.d false (fun l => BitVec.ofNat 64 (r.result l).code) (exec i s) ∧
    (countFpx s g (fpxFormat r.t) (r.events g)).mem = s.mem

/-- R196: reciprocals and roots are correctly rounded, and every special operand of the table gives its result. -/
def Sys2Proof.Stmt.RootsRounded : Prop :=
  ∀ (mode : RMode) (c : Nat), isNaNOf .f32 c = false → isInfOf .f32 c = false → magOf .f32 c ≠ 0 →
    Rounds .f32 mode (signOf .f32 c) (1 / magVal .f32 (magOf .f32 c)) (roundTo .f32 mode (rcpX (ofCode .f32 c))) ∧
    (signOf .f32 c = false →
      Rounds .f32 mode false (Real.sqrt (magVal .f32 (magOf .f32 c))) (roundTo .f32 mode (sqrtX (ofCode .f32 c))) ∧
      Rounds .f32 mode false (1 / Real.sqrt (magVal .f32 (magOf .f32 c))) (roundTo .f32 mode (rsqX (ofCode .f32 c)))) ∧
    (signOf .f32 c = true → sqrtX (ofCode .f32 c) = .nan ∧ rsqX (ofCode .f32 c) = .nan)

/-- R196: the table of special operands, its columns `frcp`, `frsq`, `fsqrt`, `fex2`, `flg2`, `fsin`, `fcos`, and NaN. -/
def Sys2Proof.Stmt.SpecialOperands : Prop :=
  (∀ f ∈ [rcpX, rsqX, sqrtX, ex2X, lg2X, sinX, cosX], f .nan = .nan) ∧
  (∀ (mode : RMode),
    let bits := fun (c : Nat) => [rcpX, rsqX, sqrtX, ex2X, lg2X, sinX, cosX].map (fun f => (roundTo .f32 mode (f (ofCode .f32 c))).code)
    bits 0xFF800000 = [0x80000000, 0x7FC00000, 0x7FC00000, 0, 0x7FC00000, 0x7FC00000, 0x7FC00000] ∧
    bits 0x80000000 = [0xFF800000, 0xFF800000, 0x80000000, 0x3F800000, 0xFF800000, 0x80000000, 0x3F800000] ∧
    bits 0x00000000 = [0x7F800000, 0x7F800000, 0, 0x3F800000, 0xFF800000, 0, 0x3F800000] ∧
    bits 0x7F800000 = [0, 0, 0x7F800000, 0x7F800000, 0x7F800000, 0x7FC00000, 0x7FC00000])

/-- R192, R194, R199, R200: `fmin`, `fmax`, `fclass`, `pack2` and `unpk2` complete and write the bits that their rules give. -/
def Sys2Proof.Stmt.FloatBitResults : Prop :=
  ∀ (s : State) (g : Group) (i : Instr) (r : VRow), Issuing s g → i.wf = true → bitRow g i = some r → r.plain g = true →
    WritesV s g r.g r.d r.wide r.val (exec i s)

/-- R189 and R193: `cmp` and `fcmp` write the mask of the effective lanes that meet the condition, and 0 in every other lane. -/
def Sys2Proof.Stmt.CompareResults : Prop :=
  ∀ (s : State) (g : Group) (o : CmpOp), Issuing s g → (!o.a.isPort && !o.b.isPort) = true →
    (g.vOk (o.a, o.ty.wide) && g.vOk (o.b, o.ty.wide)) = true →
    ((Instr.cmp o).wf = true → WritesM s g o.g o.d
      (maskWhere (g.eff o.g) (fun l => holds o.cc (value o.ty (lane g o.a o.ty.wide l)) (value o.ty (lane g o.b o.ty.wide l))))
      (exec (.cmp o) s)) ∧
    ((Instr.fcmp o).wf = true → WritesM s g o.g o.d
      (maskWhere (g.eff o.g) (fun l => floatHolds o.ty o.cc (lane g o.a false l).toNat (lane g o.b false l).toNat))
      (exec (.fcmp o) s))

/-- R131, R132, R134, R135, R145: `RoundTo`, and what the encodings of the formats mean. -/
def Obligations.RoundTo : Prop := Stmt.RoundToNeighbour ∧ Stmt.FormatValues

/-- R196: reciprocals, roots, and the special operands of the transcendental instructions. -/
def Obligations.RootsAndSpecials : Prop := Stmt.RootsRounded ∧ Stmt.SpecialOperands

/-- R192 to R194, R185, R189: the float instructions that round nothing, and every compare. -/
def Obligations.BitsAndCompares : Prop := Stmt.FloatBitResults ∧ Stmt.CompareResults

namespace Sys2Proof.Stmt

/-! ## Rounding to integers, conversion and cross-lane instructions (R136, R195 to R206) -/

/-- The integer that a mode chooses for the magnitude `num / den` of a value with sign `s` (R134). -/
def pickInt (mode : RMode) (s : Bool) (num den : Nat) : Nat :=
  let k := num / den
  if num % den = 0 then k
  else match mode with
    | .rne => if 2 * (num % den) < den ∨ (2 * (num % den) = den ∧ k % 2 = 0) then k else k + 1
    | .rtz => k
    | .rup => if s then k else k + 1
    | .rdn => if s then k + 1 else k
    | .rto => if k % 2 = 1 then k else k + 1

/-- Significand and exponent of a magnitude code (R131). -/
def sigExp (t : Fmt) (k : Nat) : Nat × Int :=
  let fb := (fmtParts t).2.1
  let bias := (fmtParts t).2.2
  if k < 2 ^ fb then (k, (1 : Int) - bias - fb) else (2 ^ fb + k % 2 ^ fb, (k / 2 ^ fb : Nat) - (bias : Int) - fb)

/-- `fround` (R195): an integral value stays; of another one the integer neighbour that the mode chooses, with the sign of the value. -/
def roundInt (t : Fmt) (mode : RMode) (c : Nat) : Nat :=
  let sign := if signOf t c then 2 ^ ((fmtParts t).1 + (fmtParts t).2.1) else 0
  let (m, e) := sigExp t (magOf t c)
  if isNaNOf t c then canonNaN t
  else if isInfOf t c ∨ 0 ≤ e ∨ m % 2 ^ (-e).toNat = 0 then sign + magOf t c
  else sign + (roundTo t .rne (.fin false (pickInt mode (signOf t c) m (2 ^ (-e).toNat)) 0)).code

/-- Bits of an integer or bit type. -/
def intBits (t : Fmt) : Nat :=
  match t with
  | .n8 | .i8 => 8
  | .n16 | .i16 => 16
  | .n64 | .i64 | .b64 => 64
  | _ => 32

/-- A type that is read as signed. -/
def isSignedFmt (t : Fmt) : Bool := t == .i8 || t == .i16 || t == .i32 || t == .i64

/-- The integer of the low bits of a type (R136, R137). -/
def wrapInt (t : Fmt) (v : Int) : Int :=
  let u := v % (2 ^ intBits t : Nat)
  if isSignedFmt t = true ∧ (2 ^ (intBits t - 1) : Nat) ≤ u then u - (2 ^ intBits t : Nat) else u

/-- The range of an integer type: least and greatest. -/
def rangeOf (t : Fmt) : Int × Int :=
  if isSignedFmt t then (-(2 ^ (intBits t - 1) : Nat), (2 ^ (intBits t - 1) : Nat) - 1) else (0, (2 ^ intBits t : Nat) - 1)

/-- A float as an integer of a type (R136). -/
def floatToInt (t : Fmt) (mode : RMode) (x : XVal) : Int :=
  match x with
  | .nan => 0
  | .inf s => if s then (rangeOf t).1 else (rangeOf t).2
  | .fin s m e =>
    let k : Int := pickInt mode s (m * 2 ^ e.toNat) (2 ^ (-e).toNat)
    max (rangeOf t).1 (min (rangeOf t).2 (if s then -k else k))

/-- A q4n code (R138): its sign and its magnitude in units of 1/256. -/
def q4Value (c : Nat) : XVal := .fin (decide (8 ≤ c % 16)) (([11, 33, 55, 80, 107, 139, 181, 256] : List Nat).getD (c % 8) 0) (-8)

/-- `cvt` of a lane value (R136, R197, R198): the value written, and the events counted, which only float results have. -/
def cvtLane (dt frm : Fmt) (mode : RMode) (a : BitVec 64) : BitVec 64 × List Nat :=
  let float := fun (ins : List XVal) (x : XVal) =>
    (BitVec.ofNat 64 (roundTo dt mode x).code, eventsOf dt ins (roundTo dt mode x))
  if frm = .q4n then float [] (q4Value a.toNat)
  else if isFloatFmt frm then
    if isFloatFmt dt then float [laneX frm a] (laneX frm a) else (BitVec.ofInt 64 (floatToInt dt mode (laneX frm a)), [])
  else if isFloatFmt dt then
    let v := wrapInt frm a.toNat
    float [] (.fin (decide (v < 0)) v.natAbs 0)
  else (BitVec.ofInt 64 (wrapInt dt (wrapInt frm a.toNat)), [])

/-- The source lane of `shfl` in segments of `seg` lanes (R202); `pick` is the lane's selector. -/
def sourceLane (mode : ShflMode) (seg l pick : Nat) : Nat :=
  let i := l % seg
  let base := l - i
  match mode with
  | .pick _ => base + pick % seg
  | .rot δ => base + (((i : Int) + δ.toInt) % seg).toNat
  | .rev => base + seg - 1 - i
  | .flip δ => base + Nat.xor i (δ.toNat % seg)
  | .one δ => base + δ.toNat % seg
  | .zip => base + i / 2 + i % 2 * seg / 2
  | .unzip => if 2 * i < seg then base + 2 * i else base + 2 * (i - seg / 2) + 1

/-- The lanes of `eff` whose value of `a` has the bits of lane `l`'s (R204). -/
def sameLanes (g : Group) (a : VSrc) (wide : Bool) (eff : Mask) (l : Nat) : List Nat :=
  (List.range 64).filter (fun k => eff.getLsbD k && lane g a wide k == lane g a wide l)

/-- The word with a list of bits set. -/
def bitsSet (ls : List Nat) : BitVec 64 := BitVec.ofNat 64 (ls.map (fun l => 2 ^ l)).sum

/-- The lanes of a list reduced (R205): the value and the operands and result of an `f32` `add`. -/
def reduced (op : RedOp) (t : Fmt) (v : Nat → BitVec 64) (ls : List Nat) : BitVec 64 × List Nat :=
  let vs := ls.map v
  let nan := fun (l : Nat) => t == .f32 && isNaNOf .f32 (v l).toNat
  -- the order of the type, `-0` below `+0`
  let key := fun (l : Nat) => if t = .f32 then 2 * rank .f32 (v l).toNat - (if signOf .f32 (v l).toNat then 1 else 0) else value t (v l)
  let best := fun (p : Nat → Nat → Bool) => (ls.find? (fun l => !nan l && ls.all (fun k => nan k || p l k))).getD (ls.headD 0)
  match op with
  | .add => if t = .f32 then
      let r := roundTo .f32 .rne (sumExact (vs.map (laneX .f32)))
      (BitVec.ofNat 64 r.code, eventsOf .f32 (vs.map (laneX .f32)) r)
    else (BitVec.ofNat 64 (vs.map BitVec.toNat).sum, [])
  | .min => (if t = .f32 then (vs.drop 1).foldl (fun a b => BitVec.ofNat 64 (minMax .f32 true a.toNat b.toNat)) (vs.headD 0)
      else v (best (fun l k => decide (key l ≤ key k))), [])
  | .max => (if t = .f32 then (vs.drop 1).foldl (fun a b => BitVec.ofNat 64 (minMax .f32 false a.toNat b.toNat)) (vs.headD 0)
      else v (best (fun l k => decide (key k ≤ key l))), [])
  | .and => ((vs.drop 1).foldl (fun a b => a &&& b) (vs.headD 0), [])
  | .or => (vs.foldl (fun a b => a ||| b) 0, [])
  | .xor => (vs.foldl (fun a b => a ^^^ b) 0, [])
  | .argmin => (BitVec.ofNat 64 (best (fun l k => decide (key l ≤ key k))), [])
  | .argmax => (BitVec.ofNat 64 (best (fun l k => decide (key k ≤ key l))), [])

/-- `Identity(op, t)` (R206). -/
def identity (op : RedOp) (t : Fmt) : BitVec 64 :=
  match op with
  | .and => BitVec.allOnes 64
  | .min => if t = .f32 then 0x7F800000 else BitVec.ofInt 64 (rangeOf t).2
  | .max => if t = .f32 then 0xFF800000 else BitVec.ofInt 64 (rangeOf t).1
  | _ => 0

/-- The effective lanes up to lane `l`, or below it under `excl`. -/
def prefixLanes (eff : Mask) (excl : Bool) (l : Nat) : List Nat :=
  (List.range 64).filter (fun k => eff.getLsbD k && (if excl then decide (k < l) else decide (k ≤ l)))

end Sys2Proof.Stmt

/-- R136, R195, R197: `fround` and `cvt`, without a port, complete and write their rounded or converted values; `cvt` counts the events
of float results. -/
def Obligations.ConversionResults : Prop :=
  ∀ (s : State) (g : Group), Issuing s g →
    (∀ o : FOp1, (Instr.fround o).wf = true → (VRow.plain ⟨o.g, o.d, [(o.a, false)], [], [], false, fun _ => 0⟩ g) = true →
      WritesV s g o.g o.d false (fun l => BitVec.ofNat 64 (roundInt o.ty o.rm (lane g o.a false l).toNat)) (exec (.fround o) s)) ∧
    (∀ (k : BitVec 4) (d : VDst) (a : VSrc) (dt frm : Fmt) (rm : RMode), (Instr.cvt k d a dt frm rm).wf = true →
      g.vOk (a, frm.wide) = true →
      let evs := (lanesOf (g.eff k)).flatMap (fun l => (cvtLane dt frm rm (lane g a frm.wide l)).2)
      WritesV (countFpx s g (fpxFormat dt) evs) g k d dt.wide (fun l => (cvtLane dt frm rm (lane g a frm.wide l)).1)
        (exec (.cvt k d a dt frm rm) s))

/-- R201 to R204: `shfl` gives each lane the value of its source lane, or 0 where that lane is not live; `vote` and `match` give the
masks, counts and lanes of their rules. -/
def Obligations.LaneExchangeResults : Prop :=
  ∀ (s : State) (g : Group), Issuing s g →
    (∀ (k : BitVec 4) (d : VDst) (a : VSrc) (ty : Fmt) (mode : ShflMode) (seg : BitVec 3), (Instr.shfl k d a ty mode seg).wf = true →
      g.vOk (a, ty.wide) = true → (∀ b, mode = .pick b → g.vOk (b, false) = true) →
      let n := if seg = 0 then g.w else 2 ^ seg.toNat
      let j := fun l => sourceLane mode n l (match mode with | .pick b => amountOf (lane g b false l) | _ => 0)
      WritesV s g k d ty.wide (fun l => if g.live.getLsbD (j l) then lane g a ty.wide (j l) else 0) (exec (.shfl k d a ty mode seg) s)) ∧
    (∀ (k : BitVec 4) (op : VoteOp) (a : MSrc), (Instr.vote k op a).wf = true → g.mOk a = true →
      let eff := g.eff k
      let hs := (List.range 64).filter (fun l => eff.getLsbD l && (g.mval a).getLsbD l)
      match op with
      | .some d => WritesM s g k d (if hs = [] then 0 else eff) (exec (.vote k op a) s)
      | .every d => WritesM s g k d (if (List.range 64).all (fun l => !eff.getLsbD l || (g.mval a).getLsbD l) then eff else 0) (exec (.vote k op a) s)
      | .none d => WritesM s g k d (if hs = [] then eff else 0) (exec (.vote k op a) s)
      | .bits d => WritesS s g k d (bitsSet hs) (exec (.vote k op a) s)
      | .count d => WritesS s g k d (BitVec.ofNat 64 hs.length) (exec (.vote k op a) s)
      | .first d => WritesS s g k d (if hs = [] then BitVec.allOnes 64 else BitVec.ofNat 64 (hs.headD 0)) (exec (.vote k op a) s)) ∧
    (∀ (k : BitVec 4) (op : MatchOp) (a : VSrc) (ty : Fmt), (Instr.matchv k op a ty).wf = true → g.vOk (a, ty.wide) = true →
      let eff := g.eff k
      match op with
      | .mask d => WritesV s g k d true (fun l => bitsSet (sameLanes g a ty.wide eff l)) (exec (.matchv k op a ty) s)
      | .lead d => WritesM s g k d (maskWhere eff (fun l => (sameLanes g a ty.wide eff l).all (fun j => decide (l ≤ j))))
          (exec (.matchv k op a ty) s)
      | .cnt d => WritesV s g k d false (fun l => BitVec.ofNat 64 (sameLanes g a ty.wide eff l).length) (exec (.matchv k op a ty) s))

/-- R205 and R206: `redux` and `vscan` reduce the effective lanes, or those up to each lane; each `f32` sum is rounded once and counts its
events. -/
def Obligations.ReductionResults : Prop :=
  ∀ (s : State) (g : Group), Issuing s g →
    (∀ (k : BitVec 4) (op : RedOp) (d : SDst) (a : VSrc) (ty : Fmt), (Instr.redux k op d a ty).wf = true → g.vOk (a, ty.wide) = true →
      g.eff k ≠ 0 →
      let r := reduced op ty (lane g a ty.wide) (lanesOf (g.eff k))
      let v := if op = .argmin ∨ op = .argmax ∨ ty.wide = true then r.1
        else if ty = .i32 then (r.1.setWidth 32).signExtend 64 else BitVec.ofNat 64 (r.1.toNat % 2 ^ 32)
      WritesS (countFpx s g 0 r.2) g k d v (exec (.redux k op d a ty) s)) ∧
    (∀ (k : BitVec 4) (op : RedOp) (excl : Bool) (d : VDst) (a : VSrc) (ty : Fmt), (Instr.vscan k op excl d a ty).wf = true →
      g.vOk (a, ty.wide) = true →
      let ls := fun l => prefixLanes (g.eff k) excl l
      let val := fun l => if ls l = [] then (identity op ty, []) else reduced op ty (lane g a ty.wide) (ls l)
      WritesV (countFpx s g 0 ((lanesOf (g.eff k)).flatMap (fun l => (val l).2))) g k d ty.wide (fun l => (val l).1)
        (exec (.vscan k op excl d a ty) s))

namespace Sys2Proof.Stmt

/-! ## Encoding, fetch and the step -/

/-- The opcodes of the opcode map (R170): the number after a class's last, or the single opcodes of a class. -/
def assigned (o : Nat) : Bool :=
  decide (0x001 ≤ o ∧ o ≤ 0x00F) || decide (0x080 ≤ o ∧ o ≤ 0x093) || decide (0x100 ≤ o ∧ o ≤ 0x11A) || decide (0x180 ≤ o ∧ o ≤ 0x18F)
    || decide (0x200 ≤ o ∧ o ≤ 0x202) || decide (0x208 ≤ o ∧ o ≤ 0x20C) || decide (0x280 ≤ o ∧ o ≤ 0x287)
    || decide (0x300 ≤ o ∧ o ≤ 0x30C) || decide (0x310 ≤ o ∧ o ≤ 0x316) || decide (0x380 ≤ o ∧ o ≤ 0x38D)
    || decide (0x390 ≤ o ∧ o ≤ 0x395)

/-- Group `g` is the next to issue, and its program counter stands in a line that it has entered. -/
structure Next (s : State) (gid : Nat) (rest : List Nat) (g : Group) : Prop where
  first : s.issueNow = gid :: rest
  group : s.group? gid = some g
  runs : mayRun s g = true
  entered : g.entered = true

/-- What a group remembers when its next instruction is taken up: the sources of the pair that it begins or is in, those of a higher member that
was parked for PAGE included (R151, R211). -/
def pairAt (g : Group) : Option PairOld :=
  if g.isHigher = true then g.pair
  else match g.parkHere.bind ParkOp.old with
    | some p => some p
    | none => if linePair g.line (pcSlot g.pc) = true then some ⟨g.pc + 1, g.regs, g.active, g.vPoison, g.sPoison, g.mPoison⟩ else none

end Sys2Proof.Stmt

/-- The encodings that spec/ works out in full decode to the instructions that they stand for, for a group of 512 registers and width 64. -/
def Obligations.WorkedWords : Prop :=
  decode 512 64 (BitVec.ofNat 96 0x60C001008020106000000000) = .ok (.ffma ⟨0, .dash, .reg 1, .reg 2, .reg 8, .f32, .rne⟩) ∧
  decode 512 64 (BitVec.ofNat 96 0x618002002000006400000000) = .ok (.fcmp ⟨0, .reg 1, .latch .b0, .reg 0, .f32, .gt⟩) ∧
  decode 512 64 (BitVec.ofNat 96 0x200008021000003800000040) = .ok (.sadd ⟨0, .reg 4, .reg 4, .imm 64, .i64⟩) ∧
  decode 512 64 (BitVec.ofNat 96 0x458006002000001000000000) = .ok (.cmp ⟨0, .reg 3, .latch .b0, .reg 0, .n32, .eq⟩) ∧
  decode 512 64 (BitVec.ofNat 96 0x01C000008000000000000008) = .ok (.ifm (.reg 1) 8) ∧
  decode 512 64 (BitVec.ofNat 96 0x02CC00000000000000000003) = .ok (.brk 3 3) ∧
  decode 512 64 (BitVec.ofNat 96 0x82C018030000001000000000) = .ok (.redux 0 .add (.reg 12) (.reg 6) .n32) ∧
  decode 512 64 (BitVec.ofNat 96 0x800004008000005C0000000C) = .ok (.cvt 0 (.reg 2) (.reg 1) .bf16 .f32 .rto) ∧
  decode 512 64 (BitVec.ofNat 96 0xA00004020000001000000000) = .ok (.ld 0 2 ⟨.g, .reg 4, none, 0⟩ .n32) ∧
  decode 512 64 (BitVec.ofNat 96 0xA04000020000061000000000) = .ok (.st 0 ⟨.g, .reg 4, none, 0⟩ (.reg 3) .n32) ∧
  decode 512 64 (BitVec.ofNat 96 0xA08016040000001800000000) = .ok (.sld 0 11 .g (.reg 8) 0 .n64) ∧
  decode 512 64 (BitVec.ofNat 96 0xA1C000000000000000000000) = .ok (.waitc .lc 0) ∧
  decode 512 64 (BitVec.ofNat 96 0xA1400A030000081069000008) = .ok (.atom 0 5 ⟨.g, .reg 6, none, 8, .exch, .rel, .dv, .n32⟩ (.reg 4)) ∧
  decode 512 64 (BitVec.ofNat 96 0xC100000400D0000000000007) = .ok (.paint 0 (.reg 8) (.reg 13) 7) ∧
  decode 512 64 (BitVec.ofNat 96 0xC00000000000000000000401) = .ok (.bar 1 4) ∧
  decode 512 64 (BitVec.ofNat 96 0xC28000008020000000000000) = .ok (.freeze 0 (.reg 1) (.reg 2)) ∧
  decode 512 64 (BitVec.ofNat 96 0xC5400E018000000000000000) = .ok (.retake 0 7 (.reg 3)) ∧
  decode 512 64 (BitVec.ofNat 96 0xE000040200500C5000000A1A) = .ok (.mma ⟨0, 2, .reg 4, .reg 5, .reg 6, .f16, .f16, 2, 2, 1, false, false, false⟩) ∧
  decode 512 64 (BitVec.ofNat 96 0xE30000040090140000000001) = .ok (.copyBar 0 (.reg 8) (.reg 9) (.reg 10)) ∧
  decode 512 64 (BitVec.ofNat 96 0xE4000A000000000000000026) = .ok (.srd 0 (.reg 5) 0x026) ∧
  decode 512 64 (BitVec.ofNat 96 0xE48000000000000000000000) = .ok (.eret) ∧
  decode 512 64 (BitVec.ofNat 96 0x004000000000000000000000) = .ok (.nop)

/-- R155 and R170: decoding and encoding agree. Every well-formed core instruction has a word, and that word decodes to it at 512 registers
and width 64. -/
def Obligations.DecodeOfEncode : Prop :=
  ∀ i : Instr, i.wf = true → ∃ w, encode i = some w ∧ decode 512 64 w = .ok i

/-- R155, R157 to R161, R169: a word decodes only to a well-formed instruction whose encoding it is, so each instruction has one word. -/
def Sys2Proof.Stmt.EncodeOfDecode : Prop :=
  ∀ (n w : Nat) (x : IWord) (i : Instr), decode n w x = .ok i → i.wf = true ∧ encode i = some x

/-- R169, R170: a word whose opcode the map does not assign is refused with detail 1, and with no other opcode is that the detail. -/
def Sys2Proof.Stmt.UnassignedOpcodes : Prop :=
  ∀ (n w : Nat) (x : IWord), decode n w x = .error 1 ↔ assigned (Fields.ofWord x).opc.toNat = false

/-- A step runs the decoded instruction: where the slot at the program counter of the group that issues next decodes to `i`, the step is
`exec i` on the state in which the group is taken up, followed by what follows an issue (its pair, or a stop point). Taking up remembers
the sources of a pair (R151), counts the issue, forgets which other instruction a trap routine has gone to (R164), and changes nothing else. A slot that does not decode raises ILLEGAL with its detail
(R169). -/
def Sys2Proof.Stmt.StepOfDecoded : Prop :=
  ∀ (s : State) (gid : Nat) (rest : List Nat) (g : Group), Next s gid rest g →
    ∃ u, u.cur = gid ∧ u.issueNow = rest ∧ u.agenda = s.agenda ∧ u.mem = s.mem ∧ u.cores = s.cores ∧ u.crews = s.crews ∧
      (∀ k, k ≠ gid → u.group? k = s.group? k) ∧
      u.group? gid = some { g with pair := pairAt g, skipped := if g.skipped = some (g.pc, g.frames.length, g.sup) then g.skipped else none } ∧
      (∀ i, decode g.nregs g.w (slotWord g.line (pcSlot g.pc)) = .ok i → step s = Out.andThen (exec i u) (fun t => afterIssue t gid)) ∧
      (∀ d, decode g.nregs g.w (slotWord g.line (pcSlot g.pc)) = .error d → step s = .next (raiseCD u gid 1 d))

/-- The other steps: when the groups that were selected in this cycle have issued (R305), the event at the head of the agenda is executed, and with
neither the model takes an event of its own order (DESIGN CHOICE, log 1). -/
def Sys2Proof.Stmt.StepTakesEvents : Prop :=
  (∀ (s : State) (e : Instr) (r : List Instr), s.issueNow = [] → s.agenda = e :: r → e.isEvent = true → step s = exec e { s with agenda := r }) ∧
  (∀ (s : State), s.agenda = [] → s.issueNow = [] →
    ∃ e, e.isEvent = true ∧ step s = exec e { s with autoTurn := s.autoTurn + 1 })

/-- The machine never stops: in every state, whatever its fields hold, a step answers a next state. Every fault of the spec is an exception
that is taken (R276, R278). -/
def Obligations.EveryStepContinues : Prop :=
  ∀ s : State, ∃ t, step s = .next t

/-- Every step keeps the canonical form of memory and of the scratchpads of all crews: addresses strictly rising, and no listed byte equal
to an unlisted one. -/
def Obligations.MemoryFormKept : Prop :=
  ∀ (s t : State), Memory.wf s.mem = true → (∀ e ∈ s.crews, Memory.wf e.2.scratch = true) → step s = .next t →
    Memory.wf t.mem = true ∧ ∀ e ∈ t.crews, Memory.wf e.2.scratch = true

/-- The state after reset: the values that spec/ gives (R275, R300, R309, R351, R352), memory and scratchpads in their canonical form, no
group, no crew and no launch. -/
def Obligations.ResetState : Prop :=
  Memory.wf State.reset.mem = true ∧ State.reset.groups = [] ∧ State.reset.crews = [] ∧ State.reset.launches = [] ∧
  State.reset.gen = 1 ∧ State.reset.cryo.st = 0 ∧ State.reset.cryo.band = 4 ∧ State.reset.cryo.tset = 3 ∧
  State.reset.cryo.reg = ⟨344, 440, 640, 960, 280, 1280⟩ ∧ State.reset.cryo.lim = State.reset.cryo.reg ∧
  State.reset.migctl = 0xC04 ∧ (∀ x, (State.reset.ctx x).fqctl = 7 ∧ (State.reset.ctx x).schedctl = 0x01000061 ∧
    (State.reset.ctx x).vfcfg = 0xA00000000)

/-- R155, R157 to R161, R169, R170: the words that decode are those of well-formed instructions, and an unassigned operation code decodes to nothing. -/
def Obligations.EncodingIsExact : Prop := Stmt.EncodeOfDecode ∧ Stmt.UnassignedOpcodes

/-- R151, R169: what a step does: it runs the instruction that decodes at the program counter of the group that issues, or takes the event that is due. -/
def Obligations.StepRunsDecoded : Prop := Stmt.StepOfDecoded ∧ Stmt.StepTakesEvents

namespace Sys2Proof.Stmt

/-! ## Control instructions (R172 to R183) -/

/-- The address that a target field names from `pc` (R153): its line counted from that of `pc`, and its slot. -/
def targetOf (pc : Word) (t : BitVec 32) : Word :=
  BitVec.ofInt 64 ((pc.toNat / 64 * 64 : Nat) + 64 * (t.toInt / 8) + (t.toNat % 8 : Nat))

/-- The instruction leaves `g` and completes without a transfer: no register changes, and latch `b0` holds nothing (R162). -/
def Falls (s : State) (g : Group) (blocks : Bool) (o : Out) : Prop :=
  ∃ t h, o = .next t ∧ Completed s t g h ∧ h.regs = g.regs ∧
    (h.entered = true → h.latches = (.none :: g.latches).take 3 ∧ h.window = if blocks then 0 else g.window + 1)

/-- The checks of R152 pass for a transfer to `t`: its slot is 0 to 4, its line translates for execution, and in the line, which its home has, the
target's BT bit is 1. -/
def Reaches (s : State) (g : Group) (t : Word) : Prop :=
  t.toNat % 8 ≤ 4 ∧ t.toNat % 64 / 8 = 0 ∧ ∃ x l, xlate s g.core (s.ctxOf g) (t &&& ~~~63) g.sup .exec false = .ok x ∧
    s.farFault x.pa = none ∧ s.homeNat? x.pa 64 = some l ∧ l / 2 ^ (480 + 22 + t.toNat % 8) % 2 = 1

/-- It leaves `g` and transfers to `target` where the checks of R152 pass; else it raises their fault, and changes nothing else. -/
def Jumps (s : State) (g0 g : Group) (target : Word) (o : Out) : Prop :=
  (Reaches s g target → ∃ t h, o = .next t ∧ Transferred s t g h target) ∧
  (∀ f, checkTarget s g target true = some f → o = .next (raise s s.cur f) ∧ s.group? s.cur = some g0)

/-- `m` without the lanes of `k` in the top `n` entries of a mask stack. -/
def without (st : List MaskEntry) (n : Nat) (k : Mask) : List MaskEntry :=
  st.zipIdx.map (fun e => if e.2 < n then { e.1 with mask := e.1.mask &&& ~~~k } else e.1)

/-- FD (R173): the mask-stack depth that belongs to callers. -/
def callers (g : Group) : Nat :=
  if g.sup = true ∧ g.frames.length ≤ g.trapD then g.trapE else match g.frames with
    | f :: _ => f.depth
    | [] => 0

end Sys2Proof.Stmt

/-- R152 and R153: what a transfer checks, in order: the slot of its target (ILLEGAL 9); the translation of its line for execution, whose PAGE or PROT
has ADDR set to the line's address (R152; that the other fields are 0: DEDUCED, log 21); the target's BT bit in the line as its home holds it
(ILLEGAL 10), which for a window line it has first to read at the far end (R322), raising the fault of a read that was refused or lost (DESIGN CHOICE, log 47). -/
def Sys2Proof.Stmt.TransferChecks : Prop :=
  ∀ (s : State) (g : Group) (t : Word),
    (checkTarget s g t true = none ↔ Reaches s g t) ∧
    (4 < t.toNat % 8 ∨ t.toNat % 64 / 8 ≠ 0 → checkTarget s g t true = some (FaultInfo.of 1 9)) ∧
    (t.toNat % 8 ≤ 4 → t.toNat % 64 / 8 = 0 →
      match xlate s g.core (s.ctxOf g) (t &&& ~~~63) g.sup .exec false with
      | .error (.page d _ _) => checkTarget s g t true = some { FaultInfo.of 7 d with addr := t &&& ~~~63, replay := true }
      | .error (.fault c d) => c = 8 → checkTarget s g t true = some { FaultInfo.of 8 d with addr := t &&& ~~~63 }
      | .error (.far pa) => checkTarget s g t true = some (FaultInfo.far pa)
      | .ok x => (∀ f, s.farFault x.pa = some f → checkTarget s g t true = some (FaultInfo.of f.1 f.2)) ∧
        (s.farFault x.pa = none → match s.homeNat? x.pa 64 with
          | some l => l / 2 ^ (480 + 22 + t.toNat % 8) % 2 = 0 → checkTarget s g t true = some (FaultInfo.of 1 10)
          | none => checkTarget s g t true = some (FaultInfo.far x.pa)))

/-- R174: what `if`, `else`, `endif`, `loop`, `break`, `cont` and `endloop` do to the mask stack and the active lanes, where they transfer, and
their STACK faults. -/
def Sys2Proof.Stmt.StackedMasks : Prop :=
  ∀ (s : State) (g : Group), Issuing s g →
    (∀ (a : MSrc) (t : BitVec 32), g.mOk a = true →
      let act := g.active &&& g.mval a
      let g1 := { g with stack := ⟨.ifK, g.active, s.nextId⟩ :: g.stack, active := act }
      (g.stack.length = 32 → exec (.ifm a t) s = .next (raiseCD s s.cur 5 1)) ∧
      (g.stack.length < 32 → act ≠ 0 → Falls s g1 false (exec (.ifm a t) s)) ∧
      (g.stack.length < 32 → act = 0 → Jumps s g g1 (targetOf g.pc t) (exec (.ifm a t) s))) ∧
    (∀ (t : BitVec 32) (e : MaskEntry) (r : List MaskEntry), g.stack = e :: r →
      let act := e.mask &&& ~~~g.active &&& g.live
      let g1 := { g with stack := { e with kind := .elseK } :: r, active := act }
      (callers g < g.stack.length → e.kind = .ifK → act ≠ 0 → Falls s g1 false (exec (.elsem t) s)) ∧
      (callers g < g.stack.length → e.kind = .ifK → act = 0 → Jumps s g g1 (targetOf g.pc t) (exec (.elsem t) s)) ∧
      (g.stack.length ≤ callers g ∨ e.kind ≠ .ifK → exec (.elsem t) s = .next (raiseCD s s.cur 5 2)) ∧
      (callers g < g.stack.length → e.kind = .ifK ∨ e.kind = .elseK →
        Falls s (addFence s s.cur { g with stack := r, active := e.mask &&& g.live } e.since) false (exec .endif s)) ∧
      (g.stack.length ≤ callers g ∨ (e.kind ≠ .ifK ∧ e.kind ≠ .elseK) → exec .endif s = .next (raiseCD s s.cur 5 2))) ∧
    (g.stack = [] → ∀ t, exec (.elsem t) s = .next (raiseCD s s.cur 5 2) ∧ exec .endif s = .next (raiseCD s s.cur 5 2) ∧
      exec (.endloop t) s = .next (raiseCD s s.cur 5 2)) ∧
    (∀ t : BitVec 32,
      let g1 := { g with stack := ⟨.iterK, g.active, s.nextId⟩ :: ⟨.exitK, g.active, s.nextId⟩ :: g.stack }
      (30 < g.stack.length → exec (.loop t) s = .next (raiseCD s s.cur 5 1)) ∧
      (g.stack.length ≤ 30 → g.active ≠ 0 → Falls s g1 false (exec (.loop t) s)) ∧
      (g.stack.length ≤ 30 → g.active = 0 → Jumps s g g1 (targetOf g.pc t) (exec (.loop t) s))) ∧
    (∀ (t : BitVec 32) (e x : MaskEntry) (r : List MaskEntry), g.stack = e :: x :: r →
      (callers g + 1 < g.stack.length → e.kind = .iterK → x.kind = .exitK →
        (e.mask &&& g.live ≠ 0 →
          Jumps s g (addFence s s.cur { g with active := e.mask &&& g.live } e.since) (targetOf g.pc t) (exec (.endloop t) s)) ∧
        (e.mask &&& g.live = 0 →
          Falls s (addFence s s.cur { g with stack := r, active := x.mask &&& g.live } e.since) false (exec (.endloop t) s))) ∧
      (g.stack.length ≤ callers g + 1 ∨ e.kind ≠ .iterK ∨ x.kind ≠ .exitK → exec (.endloop t) s = .next (raiseCD s s.cur 5 2))) ∧
    (∀ (t : BitVec 32) (e : MaskEntry), g.stack = [e] → exec (.endloop t) s = .next (raiseCD s s.cur 5 2)) ∧
    (∀ (k : BitVec 4) (t : BitVec 32),
      let act := g.active &&& ~~~g.eff k
      (∀ n e, g.stack[n]? = some e → e.kind = .iterK → n + callers g < g.stack.length →
        (∀ j x, j < n → g.stack[j]? = some x → x.kind ≠ .iterK) →
        let gb := { g with active := act, stack := without g.stack (n + 1) (g.eff k) }
        let gc := { g with active := act, stack := without g.stack n (g.eff k) }
        (act ≠ 0 ∨ n ≠ 0 → Falls s gb false (exec (.brk k t) s) ∧ Falls s gc false (exec (.cont k t) s)) ∧
        (act = 0 → n = 0 → Jumps s g gb (targetOf g.pc t) (exec (.brk k t) s) ∧ Jumps s g gc (targetOf g.pc t) (exec (.cont k t) s))) ∧
      ((∀ n e, g.stack[n]? = some e → n + callers g < g.stack.length → e.kind ≠ .iterK) →
        exec (.brk k t) s = .next (raiseCD s s.cur 5 3) ∧ exec (.cont k t) s = .next (raiseCD s s.cur 5 3)))

/-- R174: the words of the structured control instructions: a field that the table does not show is zero, and a guard on one of the five
that take none raises ILLEGAL 2. -/
def Sys2Proof.Stmt.StructuredWords : Prop :=
  ∀ (n w : Nat) (x : IWord) (k : BitVec 4) (t : BitVec 32),
    let f := Fields.ofWord x
    (∀ a : MSrc, decode n w x = .ok (.ifm a t) ↔ f = { Fields.op 0x007 with sa := a.enc.1, sela := a.enc.2, imm := t }) ∧
    (decode n w x = .ok (.elsem t) ↔ f = { Fields.op 0x008 with imm := t }) ∧
    (decode n w x = .ok .endif ↔ f = Fields.op 0x009) ∧
    (decode n w x = .ok (.loop t) ↔ f = { Fields.op 0x00A with imm := t }) ∧
    (decode n w x = .ok (.brk k t) ↔ f = { Fields.op 0x00B with grd := k, imm := t }) ∧
    (decode n w x = .ok (.cont k t) ↔ f = { Fields.op 0x00C with grd := k, imm := t }) ∧
    (decode n w x = .ok (.endloop t) ↔ f = { Fields.op 0x00D with imm := t }) ∧
    (f.opc ∈ ([0x007, 0x008, 0x009, 0x00A, 0x00D] : List (BitVec 10)) → f.grd ≠ 0 → decode n w x = .error 2)

/-- R176 and R177: `bra` and `call` transfer when the guard holds every active lane, fall through when it holds none, and raise
DIVBRANCH otherwise; a `call` that transfers pushes its frame, and raises STACK at depth 64. A transfer whose target passes the checks of R152
completes; where one fails, its fault is raised. -/
def Sys2Proof.Stmt.BranchAndCall : Prop :=
  ∀ (s : State) (g : Group) (k : BitVec 4) (t : BitVec 32), Issuing s g →
    (g.eff k = 0 → Falls s g false (exec (.bra k t) s) ∧ Falls s g false (exec (.call k t) s)) ∧
    (g.eff k ≠ 0 → g.eff k = g.srcActive → Jumps s g g (targetOf g.pc t) (exec (.bra k t) s) ∧
      (g.frames.length = 64 → exec (.call k t) s = .next (raiseCD s s.cur 5 4)) ∧
      (g.frames.length < 64 → Jumps s g { g with frames := ⟨pcNext g.pc, g.stack.length, g.active, s.nextId, false⟩ :: g.frames }
        (targetOf g.pc t) (exec (.call k t) s))) ∧
    (g.eff k ≠ 0 → g.eff k ≠ g.srcActive →
      exec (.bra k t) s = .next (raiseCD s s.cur 4 1) ∧ exec (.call k t) s = .next (raiseCD s s.cur 4 2))

/-- R178 and R71: `ret` takes its lanes from the frame, and falls through while a lane of it remains; else it waits for the accesses of the
frame's colours, releases them, and returns with the frame's mask, or, from a user fault handler (R43, R165), to the faulting instruction
with its latches. -/
def Sys2Proof.Stmt.ReturnFromFrame : Prop :=
  ∀ (s : State) (g : Group) (k : BitVec 4), Issuing s g →
    (g.frames = [] → exec (.ret k) s = .next (raiseCD s s.cur 5 5)) ∧
    (∀ (f : Frame) (r : List Frame), g.frames = f :: r →
      let n := g.stack.length - f.depth
      let act := g.active &&& ~~~g.eff k
      let st := without g.stack n (g.eff k)
      let cs := (g.held.filter (fun e => e.2 == g.frames.length)).map Prod.fst
      let u := releaseColours s (s.ctxOf g) cs
      let g1 := addFence u s.cur { g with frames := r, stack := st.drop (st.length - f.depth), active := f.mask &&& g.live,
                                          held := g.held.filter (fun e => e.2 != g.frames.length) } f.since
      let stays := act ≠ 0 ∨ (st.take n).any (fun e => e.mask &&& g.live != 0) = true
      (stays → Falls s { g with active := act, stack := st } true (exec (.ret k) s)) ∧
      -- the return slot needs its BT bit, but not that of a handler's frame (R152)
      let check := checkTarget s g f.ret (!f.handler)
      (¬stays → ∀ x, check = some x → exec (.ret k) s = .next (raise s s.cur x)) ∧
      (¬stays → check = none → coloursBusy s s.cur cs = true → ∃ t, exec (.ret k) s = .next t ∧ Waits s t g .drain) ∧
      (¬stays → f.handler = false → check = none → coloursBusy s s.cur cs = false →
        ∃ t h, exec (.ret k) s = .next t ∧ Transferred u t g1 h f.ret) ∧
      (¬stays → f.handler = true → check = none → coloursBusy s s.cur cs = false →
        ∃ t h, exec (.ret k) s = .next t ∧ OnlyFlow u t h ∧ h.regs = g.regs ∧ h.frames = r ∧ h.active = f.mask &&& g.live ∧
          h.handler = none ∧ h.status = .ready ∧
          -- from the lower member of a pair it resumes there after the higher member, in a new window (R151, R164)
          if g.pair.map PairOld.pc = some (g.pc + 1) then
            h.pc = g.pc + 1 ∧ h.latches = (.none :: g.latches).take 3 ∧ h.window = 0 ∧ h.afterPair.head? = some ⟨g.pc + 1, r.length, g.sup, f.ret, some (g.handlerLatch.getD ([], 0))⟩
          else h.pc = f.ret ∧ h.entered = false ∧ (h.latches, h.window) = g.handlerLatch.getD ([], 0)))

/-- R179: `exit` retires its lanes; the group whose last live lane it is closes its batch, drains its counters and leaves (R41), but from
the lower member of a pair goes on to the higher member first (R151). -/
def Sys2Proof.Stmt.ExitRetiresLanes : Prop :=
  ∀ (s : State) (g : Group) (k : BitVec 4), Issuing s g →
    (g.eff k = 0 → Falls s g true (exec (.exit k) s)) ∧
    (g.eff k ≠ 0 → g.live &&& ~~~g.eff k ≠ 0 →
      Falls s { g with live := g.live &&& ~~~g.eff k, active := g.active &&& ~~~g.eff k } true (exec (.exit k) s)) ∧
    (g.eff k ≠ 0 → g.live &&& ~~~g.eff k = 0 →
      ∃ t h, exec (.exit k) s = .next t ∧ t.group? s.cur = some h ∧ h.live = 0 ∧ h.regs = g.regs ∧ h.held = g.held ∧ t.mem = s.mem ∧
        (∀ j, j ≠ s.cur → t.group? j = s.group? j) ∧
        if g.pair.map PairOld.pc = some (g.pc + 1) then h.leaving = g.leaving ∧ h.status = .ready ∧ h.pc = g.pcAfter
        else h.leaving = some .exit ∧ h.status = .parked .counters)

/-- R180, R271: `trap` enters the supervisor routine at TVEC with its code and the slot after it; with an empty effective mask it has no
effect. -/
def Sys2Proof.Stmt.TrapInstruction : Prop :=
  ∀ (s : State) (g : Group) (k : BitVec 4) (code : BitVec 16), Issuing s g →
    (g.eff k = 0 → Falls s g true (exec (.trap k code) s)) ∧
    (g.eff k ≠ 0 → ∃ t h, exec (.trap k code) s = .next t ∧ t.group? s.cur = some h ∧ h.sup = true ∧ h.pc = s.tvec ∧ h.entered = false ∧
      h.needBt = true ∧ h.tcause = code.setWidth 64 <<< 32 ||| 32 ∧ h.tpc = pcNext g.pc ∧ h.trec = 0 ∧ h.tmask = g.active ∧
      h.active = g.live ∧ h.trapE = g.stack.length ∧ h.trapD = g.frames.length ∧
      h.trapLatch = some ((.none :: g.latches).take 3, 0) ∧ h.status = .ready ∧ h.regs = g.regs ∧ h.held = g.held ∧
      h.stack = g.stack ∧ h.frames = g.frames ∧ t.mem = s.mem ∧ (∀ j, j ≠ s.cur → t.group? j = s.group? j))

/-- R181 and R38: `nop` has no effect; `trigger` waits for the stores, atomics and copies of its group, and then triggers its crew. -/
def Sys2Proof.Stmt.NopAndTrigger : Prop :=
  ∀ (s : State) (g : Group), Issuing s g → Falls s g false (exec .nop s) ∧
    ∀ k : BitVec 4,
      (g.eff k = 0 → Falls s g true (exec (.trigger k) s)) ∧
      (g.eff k ≠ 0 → storesPending s s.cur = true → ∃ t, exec (.trigger k) s = .next t ∧ Waits s t g .trigger) ∧
      (g.eff k ≠ 0 → storesPending s s.cur = false → Falls (triggerCrew s g.crew) g true (exec (.trigger k) s) ∧
        (∀ c, s.crew? g.crew = some c → (triggerCrew s g.crew).crew? g.crew = some { c with triggered := true }))

/-- R167: `gets` reads the special value of its number; reading the clock makes the crew volatile. A number above 19 raises ILLEGAL 4 whatever DST
holds, and for 1 to 19 a DST that names no register of the kind ILLEGAL 2. -/
def Obligations.SpecialValues : Prop :=
  (∀ (n w : Nat) (x : IWord) (num : BitVec 8),
    let f := Fields.ofWord x
    f = { Fields.op 0x00F with grd := f.grd, dst := f.dst, nwb := f.nwb, imm := num.setWidth 32 } →
      (19 < num.toNat → decode n w x = .error 4) ∧
      (f.nwb = false → num.toNat = 1 → 16 ≤ f.dst.toNat → decode n w x = .error 2) ∧
      (f.nwb = false → 2 ≤ num.toNat → num.toNat ≤ 19 → 64 ≤ f.dst.toNat → decode n w x = .error 2)) ∧
  ∀ (s : State) (g : Group) (k : BitVec 4) (n : BitVec 8), Issuing s g →
    (∀ d, (Instr.gets k (.v d) n).wf = true → WritesV s g k d false (fun l => BitVec.ofNat 64 l) (exec (.gets k (.v d) n) s)) ∧
    (∀ d, (Instr.gets k (.m d) n).wf = true → WritesM s g k d g.srcActive (exec (.gets k (.m d) n) s)) ∧
    (∀ (d : SDst) (c : Crew) (l : Launch), (Instr.gets k (.s d) n).wf = true → s.crew? g.crew = some c → s.launch? c.launch = some l →
      let ofLaunch := fun (v : Word) => if c.spawned then BitVec.allOnes 64 else v
      let own := fun (f : HandlerInfo → Word) => match g.handler with
        | some h => if h.depth ≤ g.frames.length then f h else 0
        | none => 0
      let val : Word := ([0, 0, BitVec.ofNat 64 g.w, if c.spawned then 0 else BitVec.ofNat 64 g.idx, if c.spawned then 1 else BitVec.ofNat 64 l.groups,
        ofLaunch (BitVec.ofNat 64 c.idx), ofLaunch (BitVec.ofNat 64 (c.idx % l.gx)), ofLaunch (BitVec.ofNat 64 (c.idx / l.gx % l.gy)),
        ofLaunch (BitVec.ofNat 64 (c.idx / (l.gx * l.gy))), BitVec.ofNat 64 l.gx, BitVec.ofNat 64 l.gy, BitVec.ofNat 64 l.gz,
        if l.quad && !c.spawned then BitVec.ofNat 64 (c.idx % 4) else 0, l.param, l.gen.setWidth 64, BitVec.ofNat 64 g.frames.length,
        own HandlerInfo.recAddr, own HandlerInfo.pc, BitVec.ofNat 64 s.clock, BitVec.ofNat 64 c.scratchBytes] : List Word).getD n.toNat 0
      WritesS (if n = 18 ∧ g.eff k ≠ 0 then markVolatile s g.crew 5 else s) g k d val (exec (.gets k (.s d) n) s))

/-- R174: `if`, `else`, `endif`, `loop`, `break`, `cont` and `endloop` on the mask stack. -/
def Obligations.StructuredControl : Prop := Stmt.StackedMasks ∧ Stmt.StructuredWords

/-- R176 and R177: transfers and calls. What the target of a transfer is checked for (R152) stands with the entry of lines. -/
def Obligations.TransfersAndCalls : Prop := Stmt.BranchAndCall

/-- R38, R180, R181, R271: `trap`, `nop` and `trigger`. -/
def Obligations.TrapNopTrigger : Prop := Stmt.TrapInstruction ∧ Stmt.NopAndTrigger

/-- R41, R43, R71, R165, R178, R179: `ret` and `exit`. -/
def Obligations.ExitAndReturn : Prop := Stmt.ReturnFromFrame ∧ Stmt.ExitRetiresLanes

namespace Sys2Proof.Stmt

/-! ## Exceptions and system registers (R268 to R278) -/

/-- The four words of a fault record (R277). -/
def recordOf (seq : BitVec 32) (deliv : Nat) (pc : Word) (grp : Nat) (crew : BitVec 32) (f : FaultInfo) : List Nat :=
  [seq.toNat * 2 ^ 32 + f.detail % 256 * 2 ^ 16 + deliv * 2 ^ 14 + f.report.toNat * 2 ^ 13 + f.replay.toNat * 2 ^ 12 + f.cause % 256,
   pc.toNat, f.addr.toNat, f.lane % 64 * 2 ^ 58 + grp % 32 * 2 ^ 53 + f.aux.toNat * 2 ^ 32 + crew.toNat]

/-- The fault queue of a context has room for a record, whose place at FQTAIL translates to `pa`, in HBM and in no frozen granule (R275, R276). -/
structure RingReady (s : State) (ctx pa : Nat) : Prop where
  room : 1 ≤ fqRoom (s.ctx ctx)
  inside : (s.ctx ctx).fqtail < fqSize (s.ctx ctx)
  place : ∃ x, xlateWalk s ctx ((s.ctx ctx).fqbase + BitVec.ofNat 64 (32 * (s.ctx ctx).fqtail)) true .write true = .ok x ∧ x.pa = pa
  open_ : ∀ i, i < 32 → inWindow s.lnkid (pa + i) = false ∧ granuleFrozen s (pa + i) = false

/-- One record has been written for a context at `pa`, and FQTAIL and FQSEQ advanced, in memory that is otherwise as it was. -/
structure Recorded (s t : State) (ctx pa : Nat) (ws : List Nat) : Prop where
  words : ∀ k w, ws[k]? = some w → Memory.readNat t.mem (pa + 8 * k) 8 = w
  rest : ∀ a, a < pa ∨ pa + 32 ≤ a → Memory.byte t.mem a = Memory.byte s.mem a
  tail : (t.ctx ctx).fqtail = ((s.ctx ctx).fqtail + 1) % fqSize (s.ctx ctx)
  seq : (t.ctx ctx).fqseq = (s.ctx ctx).fqseq + 1

/-- Group `g` has trapped as `h` (R271): its registers, stacks, colours and counters are as they were. -/
structure Trapped (s : State) (g h : Group) (cause detail : Nat) (rcd tp : Word) : Prop where
  sup : h.sup = true
  pc : h.pc = s.tvec ∧ h.entered = false ∧ h.needBt = true
  tcause : h.tcause = BitVec.ofNat 64 (detail % 256 * 2 ^ 16 + cause % 256)
  tpc : h.tpc = tp
  trec : h.trec = rcd
  tmask : h.tmask = g.active ∧ h.active = g.live
  saved : h.trapLatch = some (g.latches, g.window)
  depths : h.trapE = g.stack.length ∧ h.trapD = g.frames.length
  ready : h.status = .ready
  kept : h.regs = g.regs ∧ h.stack = g.stack ∧ h.frames = g.frames ∧ h.held = g.held ∧ h.lc = g.lc ∧ h.sc = g.sc ∧ h.cc = g.cc ∧
    h.xc = g.xc ∧ h.sscr = g.sscr ∧ h.ptgt = g.ptgt ∧ h.live = g.live ∧ h.dead = g.dead

/-- The registers that hold what is written into them, whole, at supervisor level: no effect beyond, no field of another access. -/
def plainReg (n : Nat) : Bool :=
  decide (n ≤ 0x003) || decide (0x010 ≤ n ∧ n ≤ 0x025) || [0x041, 0x042, 0x044, 0x045, 0x046, 0x047, 0x048, 0x060, 0x061, 0x062, 0x070, 0x072,
    0x080, 0x081, 0x082, 0x083, 0x085, 0x0C2, 0x0D8, 0x0D9, 0x0DA, 0x0DB].contains n

/-- The bits of a plain register that are not reserved (R146, R270, R275, R281, R287, R300, R316). -/
def plainBits (n : Nat) : Word :=
  if n ≤ 0x003 then 0xF01F
  else if n ≤ 0x023 then 0xFFFFFFFF
  else match n with
    | 0x024 => 0xFFFFFFFF000FFFFF
    | 0x025 => 0xFFFFFFFFFFFFFFC0
    | 0x041 => 0x0000FFFF00FF00FF
    | 0x060 | 0x070 => 0xFFFFFFFFFFFFF000
    | 0x061 => 0x11F
    | 0x062 => 0xFFFFF
    | 0x072 => 0xFFFFFFFFFFFE0000
    | 0x080 => 0x000FFFFFFFFFF000
    | 0x081 | 0x085 => 1
    | 0x082 => 0xFFFFFFFFFF000000
    | 0x083 => 0xFFFF
    | 0x0C2 => 0xFFFF00F1
    | 0x0D8 | 0x0D9 | 0x0DA | 0x0DB => 0xE0FF
    | _ => 0xFFFFFFFFFFFFFFFF

/-- A value that the map of a register takes (R275, R317). -/
def plainOk (n : Nat) (v : Word) : Bool :=
  (v &&& ~~~plainBits n == 0) && (n != 0x061 || decide (7 ≤ v.toNat % 32 ∧ v.toNat % 32 ≤ 20))
    && (!decide (0x0D8 ≤ n ∧ n ≤ 0x0DB) || decide (v.toNat % 256 ≤ 17) || decide (32 ≤ v.toNat % 256 ∧ v.toNat % 256 ≤ 35))

/-- Nothing is pending that a stop point would take: no pre-emption request, no PIPEERR of an engine (R279, R337). -/
def Undisturbed (s : State) (g : Group) : Prop := g.pipe = [] ∧ ∀ c, s.crewOf g = some c → c.preempt = false

end Sys2Proof.Stmt

/-- R271, R276 to R278: a fault at user level that no user fault handler takes is recorded in the fault queue of the context, and the group
traps precisely, at its program counter, without any effect of the instruction (one parked for PAGE there is first given up: R265, R355). -/
def Sys2Proof.Stmt.FaultTrapsNow : Prop :=
  ∀ (s : State) (gid : Nat) (g : Group) (f : FaultInfo) (pa : Nat), s.group? gid = some g → g.sup = false → 0 < f.cause → f.cause < 36 →
    g.parkHere = none ∨ f.cause = 7 → handlerTakes s g = false ∨ supervisorOnly f.cause = true → RingReady s (s.ctxOf g) pa →
    let t := raise s gid f
    ∃ h, t.group? gid = some h ∧
      Trapped s g h f.cause f.detail ((s.ctx (s.ctxOf g)).fqbase + BitVec.ofNat 64 (32 * (s.ctx (s.ctxOf g)).fqtail)) g.pc ∧
      Recorded s t (s.ctxOf g) pa (recordOf (s.ctx (s.ctxOf g)).fqseq 0 g.pc g.idx (crewIdx s g) f) ∧
      (∀ j, j ≠ gid → t.group? j = s.group? j)

/-- R43, R165, R277: a fault that the user fault handler of the launch takes is recorded with DELIV 1 and enters it as a call at the
faulting instruction does, with the latches saved. -/
def Sys2Proof.Stmt.FaultEntersHandler : Prop :=
  ∀ (s : State) (gid : Nat) (g : Group) (f : FaultInfo) (pa : Nat), s.group? gid = some g → 0 < f.cause → f.cause < 36 →
    handlerOf s g ≠ 0 → g.handler = none → g.frames.length < 64 → g.sup = false → supervisorOnly f.cause = false → g.parkHere = none →
    RingReady s (s.ctxOf g) pa →
    let t := raise s gid f
    let rcd := (s.ctx (s.ctxOf g)).fqbase + BitVec.ofNat 64 (32 * (s.ctx (s.ctxOf g)).fqtail)
    ∃ h, t.group? gid = some h ∧ h.sup = false ∧ h.pc = handlerOf s g ∧ h.entered = false ∧ h.needBt = true ∧
      h.frames = ⟨g.pc, g.stack.length, g.active, s.nextId, true⟩ :: g.frames ∧ h.handler = some ⟨g.frames.length + 1, rcd, g.pc⟩ ∧
      h.handlerLatch = some (g.latches, g.window) ∧ h.regs = g.regs ∧ h.stack = g.stack ∧ h.active = g.active ∧ h.status = .ready ∧
      Recorded s t (s.ctxOf g) pa (recordOf (s.ctx (s.ctxOf g)).fqseq 1 g.pc g.idx (crewIdx s g) f) ∧
      (∀ j, j ≠ gid → t.group? j = s.group? j)

/-- R273 and R276: a fault at supervisor level is a double fault: a record with cause 36 whose DETAIL and AUX hold the cause and detail, a
black-box entry with SEV 5, and the group retires as `halt` does. -/
def Sys2Proof.Stmt.DoubleFault : Prop :=
  ∀ (s : State) (gid : Nat) (g : Group) (f : FaultInfo) (pa : Nat), s.group? gid = some g → g.sup = true → 0 < f.cause →
    g.parkHere = none ∨ f.cause = 7 → RingReady s (s.ctxOf g) pa →
    let t := raise s gid f
    ∃ h e, t.group? gid = some h ∧ h.leaving = some .double ∧ h.status = .parked .counters ∧ h.regs = g.regs ∧
      t.box.getLast? = some e ∧ e.sev = 5 ∧ e.vf = s.ctxOf g ∧ e.eseq = s.eseq ∧
      Recorded s t (s.ctxOf g) pa (recordOf (s.ctx (s.ctxOf g)).fqseq 0 g.pc g.idx (crewIdx s g)
        { f with cause := 36, detail := f.cause, aux := BitVec.ofNat 16 (f.cause % 256 * 256 + f.detail % 256), replay := false }) ∧
      (∀ j, j ≠ gid → t.group? j = s.group? j)

/-- R276: while the queue lacks room the fault waits: the group stays parked at its instruction, and no record is written or dropped. -/
def Sys2Proof.Stmt.FaultWaitsForRoom : Prop :=
  ∀ (s : State) (gid : Nat) (g : Group) (f : FaultInfo), s.group? gid = some g → 0 < f.cause → g.parkHere = none ∨ f.cause = 7 → fqRoom (s.ctx (s.ctxOf g)) = 0 →
    (s.ctx (s.ctxOf g)).fqtail < fqSize (s.ctx (s.ctxOf g)) →
    (∃ x, xlateWalk s (s.ctxOf g) ((s.ctx (s.ctxOf g)).fqbase + BitVec.ofNat 64 (32 * (s.ctx (s.ctxOf g)).fqtail)) true .write false = .ok x) →
    let t := raise s gid f
    ∃ h i p, t.group? gid = some h ∧ h.status = .parked .faultRoom ∧ h.pc = g.pc ∧ h.regs = g.regs ∧ h.pend = some i ∧
      SMap.find? t.pends i = some p ∧ p.gid = some gid ∧ p.pc = g.pc ∧ (g.sup = false → p.recs = [f]) ∧ t.mem = s.mem ∧ t.ctxs = s.ctxs

/-- R273, R293, R297: `eret` at supervisor level returns to TPC with TMASK and the saved latches, at user level; with FWD set after a PAGE it
enters the user fault handler; with a stack that has moved it raises STACK 6; with a pre-emption request the group stops there; after a
trap taken at a stop point the group stands and waits as it did, but for an image that waits for pages and looks again (R297). -/
def Obligations.ReturnFromTrap : Prop :=
  ∀ (s : State) (g : Group), s.group? s.cur = some g → g.sup = true →
    (g.stack.length ≠ g.trapE ∨ g.frames.length ≠ g.trapD → exec .eret s = .next (raiseCD s s.cur 5 6)) ∧
    (∀ l w, g.stack.length = g.trapE → g.frames.length = g.trapD → g.parks = [] → g.trapLatch = some (l, w) → g.pipe = [] →
      let forwards := g.tfwd = true ∧ g.trapRun.1 = 7 ∧ handlerOf s g ≠ 0 ∧ g.handler = none ∧ g.frames.length < 64
      (g.places = [] → ¬forwards →
        ∃ t h, exec .eret s = .next t ∧ OnlyFlow s t h ∧ h.sup = false ∧ h.pc = g.tpc ∧ h.active = g.tmask &&& g.live ∧ h.latches = l ∧
          h.window = w ∧ h.entered = false ∧ h.needBt = false ∧ h.status = .ready ∧ h.regs = g.regs ∧ h.stack = g.stack ∧
          h.frames = g.frames ∧ (h.stopped = true ↔ g.stopped = true ∨ ∃ c, s.crewOf g = some c ∧ c.preempt = true)) ∧
      ((g.places.head?.bind Place.nest).isSome = false → forwards →
        ∃ t h, exec .eret s = .next t ∧ t.group? s.cur = some h ∧ h.sup = false ∧ h.pc = handlerOf s g ∧ h.tfwd = false ∧ h.places = [] ∧
          h.active = g.tmask &&& g.live ∧ h.handler = some ⟨g.frames.length + 1, g.trec, g.tpc⟩ ∧ h.handlerLatch = some (l, w)) ∧
      (∀ p r, g.places = p :: r → ¬forwards → p.nest = none → p.done = false → p.pc = g.tpc →
        ∃ t h, exec .eret s = .next t ∧ OnlyFlow s t h ∧ h.sup = false ∧ h.pc = g.tpc ∧ h.active = g.tmask &&& g.live ∧
          h.status = (if p.status = .parked .image then .ready else p.status) ∧ h.leaving = p.leaving ∧ h.issued = p.issued ∧ h.places = r ∧ h.regs = g.regs))

/-- R274: at user level the privileged instructions raise PROT 12. -/
def Sys2Proof.Stmt.PrivilegedAtUserLevel : Prop :=
  ∀ (s : State) (g : Group), s.group? s.cur = some g → g.sup = false →
    exec .eret s = .next (raiseCD s s.cur 8 12) ∧ exec .halt s = .next (raiseCD s s.cur 8 12) ∧
    (∀ n, exec (.idle n) s = .next (raiseCD s s.cur 8 12)) ∧ (∀ a n, exec (.tlbinv a n) s = .next (raiseCD s s.cur 8 12))

/-- R274: `idle` parks the group until its cycles have run out; `halt` makes it drain and retire; `tlbinv` checks its range, waits for the
earlier accesses of the group, and begins a shootdown. -/
def Sys2Proof.Stmt.IdleHaltTlbinv : Prop :=
  ∀ (s : State) (g : Group), Issuing s g → g.sup = true →
    (∀ n, Undisturbed s g → ∃ t h, exec (.idle n) s = .next t ∧ t.group? s.cur = some h ∧ h.status = .parked .idle ∧ h.pc = g.pc ∧
      h.regs = g.regs ∧ SMap.find? t.idles s.cur = some (s.clock + n.toNat) ∧ t.mem = s.mem) ∧
    (g.parks = [] → ∃ t h, exec .halt s = .next t ∧ t.group? s.cur = some h ∧ h.leaving = some .halt ∧ h.status = .parked .counters ∧
      h.regs = g.regs ∧ h.held = g.held ∧ t.mem = s.mem) ∧
    (∀ a n, g.sOk a = true → g.sOk n = true → g.parks = [] →
      ((g.sval a).toNat % 4096 ≠ 0 ∨ (g.sval n).toNat % 4096 ≠ 0 → exec (.tlbinv a n) s = .next (raiseCD s s.cur 6 4)) ∧
      ((g.sval a).toNat % 4096 = 0 → (g.sval n).toNat % 4096 = 0 → quiet s s.cur = false →
        ∃ t, exec (.tlbinv a n) s = .next t ∧ Waits s t g .counters) ∧
      ((g.sval a).toNat % 4096 = 0 → (g.sval n).toNat % 4096 = 0 → quiet s s.cur = true →
        ∃ t h sh, exec (.tlbinv a n) s = .next t ∧ t.group? s.cur = some h ∧ h.status = .parked .maintenance ∧ h.regs = g.regs ∧
          SMap.find? t.shoots s.nextId = some sh ∧ sh.kind = .tlbinv ∧ sh.ctx = s.ctxOf g ∧ sh.gid = s.cur ∧ sh.lo = (g.sval a).toNat ∧
          sh.hi = (g.sval a).toNat + (g.sval n).toNat ∧ sh.shot = false ∧ t.mem = s.mem))

/-- R268, R269: `srd` writes the register named into `S[d]` when its level may read it, and raises PROT 13 otherwise; a CNT register it
reads once the accesses that a fence orders before it are performed (R110, R318). -/
def Sys2Proof.Stmt.SystemRegisterRead : Prop :=
  ∀ (s : State) (g : Group) (k : BitVec 4) (d : SDst) (num : BitVec 12), Issuing s g → srAssigned num = true →
    let waits := 0x0DC ≤ num.toNat ∧ num.toNat ≤ 0x0DF ∧ fencesHold s s.cur g = true
    (((regRow num.toNat).acc g.sup).readable = true → ¬waits → WritesS s g k d (readReg s g num.toNat) (exec (.srd k d num) s)) ∧
    (((regRow num.toNat).acc g.sup).readable = true → waits → ∃ t, exec (.srd k d num) s = .next t ∧ Waits s t g .counters) ∧
    (((regRow num.toNat).acc g.sup).readable = false → exec (.srd k d num) s = .next (raiseCD s s.cur 8 13))

/-- R268: `swr` writes `S[a]` into the register named under a non-empty effective mask; a value with reserved bits, or one that the map
refuses, raises ILLEGAL 2, and then an access that the level does not have raises PROT 13. -/
def Sys2Proof.Stmt.SystemRegisterWrite : Prop :=
  ∀ (s : State) (g : Group) (k : BitVec 4) (a : SSrc) (num : BitVec 12), Issuing s g → srAssigned num = true → g.sOk a = true →
    let n := num.toNat
    let refused := (g.sval a &&& ~~~(regRow n).bits) ≠ 0 ∨ mapRefuses n (g.sval a) = true
    (refused → exec (.swr k a num) s = .next (raiseCD s s.cur 1 2)) ∧
    (¬refused → ((regRow n).acc g.sup).writable = false → exec (.swr k a num) s = .next (raiseCD s s.cur 8 13)) ∧
    (¬refused → ((regRow n).acc g.sup).writable = true → g.eff k = 0 → Falls s g false (exec (.swr k a num) s)) ∧
    (¬refused → ((regRow n).acc g.sup).writable = true → g.eff k ≠ 0 →
      ∃ h, (writeReg s s.cur g n (g.sval a)).group? s.cur = some h ∧ Falls (writeReg s s.cur g n (g.sval a)) h false (exec (.swr k a num) s))

/-- R269, R270, R275, R281, R287, R300, R316: the registers without further effect hold what is written into them, their reserved bits read
as zero, and writing one changes no other register of the group, of another group, of its context, of another context, of a core or of the package, and no
byte of memory. (A counter of events reads as its selection allows, R317, so CNT`k` is left out where CNTCFG`k` is written.) -/
def Obligations.SystemRegisterMaps : Prop :=
  ∀ (s : State) (gid : Nat) (g : Group) (n : Nat) (v : Word), s.group? gid = some g → plainReg n = true → plainOk n v = true →
    let t := writeReg s gid g n v
    (regRow n).bits = plainBits n ∧ mapRefuses n v = false ∧ ((regRow n).acc true).writable = true ∧ ((regRow n).acc true).readable = true ∧
    -- TMASK has no bits above the width
    ∃ h, t.group? gid = some h ∧ readReg t h n = (if n = 0x044 then v &&& fullMask g.w else v) ∧ h.regs = g.regs ∧ t.mem = s.mem ∧
      (∀ m : BitVec 12, srAssigned m = true → m.toNat ≠ n → ¬(0x0D8 ≤ n ∧ n ≤ 0x0DB ∧ m.toNat = n + 4) →
        readReg t h m.toNat = readReg s g m.toNat) ∧
      (∀ j k, j ≠ gid → s.group? j = some k → ∃ k', t.group? j = some k' ∧ k'.regs = k.regs ∧
        ∀ m : BitVec 12, srAssigned m = true → (regRow m.toNat).held = .group → readReg t k' m.toNat = readReg s k m.toNat) ∧
      (∀ x m, x ≠ s.ctxOf g → readContext t x m = readContext s x m) ∧ (∀ c m, readPackage t c m = readPackage s c m)

/-- R171, R274: the privileged instructions at user level, and `idle`, `halt` and `tlbinv` at supervisor level. -/
def Obligations.SystemInstructions : Prop := Stmt.PrivilegedAtUserLevel ∧ Stmt.IdleHaltTlbinv

/-- R271, R276 to R278: a fault that traps, and one whose records wait for room. -/
def Obligations.FaultTraps : Prop := Stmt.FaultTrapsNow ∧ Stmt.FaultWaitsForRoom

/-- R43, R165, R273, R276, R277: the user fault handler, and the fault of a trap routine. -/
def Obligations.HandlersAndDoubleFaults : Prop := Stmt.FaultEntersHandler ∧ Stmt.DoubleFault

/-- R268, R269: `srd` and `swr`. -/
def Obligations.SystemRegisters : Prop := Stmt.SystemRegisterRead ∧ Stmt.SystemRegisterWrite

namespace Sys2Proof.Stmt

/-! ## Memory instructions at issue (R59, R115, R208 to R220) -/

/-- A memory instruction: its guard, sources, space, counters, lanes with their addresses, and what its requests carry. -/
structure MRow where
  g : BitVec 4
  vs : List (VSrc × Bool)
  ss : List SSrc
  sp : Space
  kind : ReqKind
  ctrs : List Ctr
  need : Need
  ty : Fmt
  lanes : List Nat
  ea : Nat → Word
  data : Nat → BitVec 64
  cmp : Nat → BitVec 64
  dst : Dst
  aop : AOp
  ord : Sys2Proof.Ord
  scope : Scope

/-- Bytes of an access of a type (R208). -/
def widthOf (t : Fmt) : Nat :=
  if t = .n8 ∨ t = .i8 then 1 else if t = .n16 ∨ t = .i16 then 2 else if t = .n64 ∨ t = .i64 ∨ t = .b64 then 8 else 4

/-- The effective address of lane `l` (R209). -/
def eaOf (g : Group) (base : SSrc) (off : Option VSrc) (disp : Int) (width l : Nat) : Word :=
  BitVec.ofInt 64 ((g.sval base).toNat + disp + match off with
    | some v => ((lane g v false l).toNat % 2 ^ 32 : Nat)
    | none => (l * width : Nat))

/-- Compare value and new value of a lane of `cas`, or its data twice (R217). -/
def atomOperands (g : Group) (op : AOp) (t : Fmt) (c : VSrc) (l : Nat) : BitVec 64 × BitVec 64 :=
  match op, c with
  | .cas, .reg k => if t.wide then (g.src.rdV64 k.toNat l, g.src.rdV64 (k.toNat + 2) l)
      else ((g.src.rdV k.toNat l).setWidth 64, (g.src.rdV (k.toNat + 1) l).setWidth 64)
  | _, _ => (0, lane g c t.wide l)

/-- R213, R214, R216, R218, row by row. -/
def memRow (g : Group) (i : Instr) : Option MRow :=
  let uniform := fun (k : BitVec 4) => if g.eff k = 0 then [] else [0]
  let atomic := fun (k : BitVec 4) (m : AtomCtl) (c : VSrc) (ctrs : List Ctr) (dst : Dst) =>
    some (⟨k, (match m.off with | some v => [(v, false)] | none => []) ++ [(c, m.ty.wide)], [m.base], m.sp, .atom, ctrs, .atom, m.ty,
      lanesOf (g.eff k), eaOf g m.base m.off m.disp.toInt (widthOf m.ty), fun l => (atomOperands g m.op m.ty c l).2,
      fun l => (atomOperands g m.op m.ty c l).1, dst, m.op, m.ord, m.scope⟩ : MRow)
  match i with
  | .ld k d a ty => some ⟨k, (match a.off with | some v => [(v, false)] | none => []), [a.base], a.sp, .load, [.lc], .read, ty,
      lanesOf (g.eff k), eaOf g a.base a.off a.disp.toInt (widthOf ty), fun _ => 0, fun _ => 0, .v d.toNat, .add, .relaxed, .cr⟩
  | .st k a c ty => some ⟨k, (match a.off with | some v => [(v, false)] | none => []) ++ [(c, ty.wide)], [a.base], a.sp, .store, [.sc],
      .write, ty, lanesOf (g.eff k), eaOf g a.base a.off a.disp.toInt (widthOf ty), lane g c ty.wide, fun _ => 0, .none, .add, .relaxed, .cr⟩
  | .sld k d sp a disp ty => some ⟨k, [], [a], sp, .load, [.lc], .read, ty, uniform k, eaOf g a none disp.toInt (widthOf ty),
      fun _ => 0, fun _ => 0, .s d.toNat, .add, .relaxed, .cr⟩
  | .sst k sp a disp c ty => some ⟨k, [], [a, c], sp, .store, [.sc], .write, ty, uniform k, eaOf g a none disp.toInt (widthOf ty),
      fun _ => g.sval c, fun _ => 0, .none, .add, .relaxed, .cr⟩
  | .atom k d m c => atomic k m c [.lc, .sc] (.v d.toNat)
  | .red k m c => atomic k m c [.sc] .none
  | .redFar k m c => atomic k m c [.sc] .none
  | .frzq k d a => some ⟨k, [], [a], .g, .frzq, [.lc], .read, .n8, uniform k, fun _ => g.sval a, fun _ => 0, fun _ => 0, .s d.toNat,
      .add, .relaxed, .cr⟩
  | _ => none

/-- The instruction may read its sources, no instruction at this place is parked for PAGE, and its counters have room (R115, R211). -/
structure MayIssue (s : State) (g : Group) (r : MRow) : Prop where
  issuing : Issuing s g
  vs : r.vs.all g.vOk = true
  ss : r.ss.all g.sOk = true
  fresh : g.parkHere = none
  room : ∀ k ∈ r.ctrs, (g.ctr k).length < 255
  some_ : r.lanes ≠ []

/-- The state in which the TLBs of a core hold the translations that the lanes needed (R288). -/
def filled (s : State) (g : Group) (r : MRow) : State := r.lanes.foldl (fun s l => tlbFill s g.core (s.ctxOf g) (r.ea l)) s

/-- Every lane is aligned and translates, as `x` says (R210 steps 2 and 3). -/
def Translates (s : State) (g : Group) (r : MRow) (x : Nat → Xl) : Prop :=
  ∀ l ∈ r.lanes, (r.ea l).toNat % widthOf r.ty = 0 ∧ xlate (filled s g r) g.core (s.ctxOf g) (r.ea l) g.sup r.need true = .ok (x l)

/-- Colours that the lanes need and the group does not hold (R64, R69); `frzq` makes no coloured access. -/
def needs (g : Group) (r : MRow) (x : Nat → Xl) (c : Nat) : Prop :=
  r.kind ≠ .frzq ∧ c ∉ g.held.map Prod.fst ∧ ∃ l ∈ r.lanes, (x l).colour = c ∧ c ≠ 0 ∧ (x l).frz = false

/-- An atomic meets nothing that holds it back or stops it: its lines are free, earlier writes to them are performed, the scope records
pass (R114), and the link carries it (R330). -/
def AtomFree (s : State) (g : Group) (r : MRow) (x : Nat → Xl) : Prop :=
  r.kind = .atom → ∀ l ∈ r.lanes,
    SMap.find? s.lineHolds (lineOf (x l).pa) = none ∧ scopeOk s g.crew r.scope (lineOf (x l).pa) = true ∧
    (∀ e ∈ s.reqs, ¬(e.2.gid = s.cur ∧ e.2.sp = .g ∧ e.2.performed = false ∧ lineOf e.2.pa = lineOf (x l).pa)) ∧
    (inWindow s.lnkid (x l).pa = true → linkNative s (s.ctxOf g) (x l).pa r.aop r.ty = true)

/-- The request of a lane: nothing of it is performed yet. -/
def Asked (s : State) (g : Group) (r : MRow) (l : Nat) (pa tgt : Nat) (q : Req) : Prop :=
  q.gid = s.cur ∧ q.crew = g.crew ∧ q.core = g.core ∧ q.ctx = s.ctxOf g ∧ q.op = s.nextId ∧ q.lane = l ∧ q.kind = r.kind ∧ q.sp = r.sp ∧
    q.va = r.ea l ∧ q.pa = pa ∧ q.tgt = tgt ∧ q.width = widthOf r.ty ∧ q.ty = r.ty ∧ q.data = r.data l ∧ q.dst = r.dst ∧ q.performed = false ∧
    (r.kind = .atom → q.cmp = r.cmp l ∧ q.aop = r.aop ∧ q.ord = r.ord ∧ q.scope = r.scope)

/-- The group has sent a request for each lane, `pa` and `tgt` being its place, and counts the instruction on its counters; no byte of
memory and of a scratchpad changes, nor a register. -/
structure Sent (s t : State) (g h : Group) (r : MRow) (pa tgt : Nat → Nat) : Prop where
  group : t.group? s.cur = some h
  others : ∀ j, j ≠ s.cur → t.group? j = s.group? j
  asked : ∀ i l, r.lanes[i]? = some l → ∃ q, SMap.find? t.reqs (s.nextId + 1 + i) = some q ∧ Asked s g r l (pa l) (tgt l) q
  older : ∀ k, k < s.nextId → SMap.find? t.reqs k = SMap.find? s.reqs k
  counted : ∀ k, h.ctr k = g.ctr k ++ if k ∈ r.ctrs then [⟨s.nextId, false⟩] else []
  op : ∃ o, SMap.find? t.ops s.nextId = some o ∧ o.left = r.lanes.length ∧ o.gid = s.cur ∧ o.ctrs = r.ctrs
  regs : h.regs = g.regs ∧ h.active = g.active ∧ h.stack = g.stack ∧ h.frames = g.frames ∧ h.held = g.held
  mem : ∀ a, Memory.byte t.mem a = Memory.byte s.mem a
  scratch : ∀ c, (t.crew? c).map Crew.scratch = (s.crew? c).map Crew.scratch

/-- A `.p` address of lane `l` names a place in the scratchpad of a crew of the quad set (R47). -/
def peerOk (s : State) (c : Crew) (r : MRow) (l : Nat) : Bool :=
  quadCrew s c && decide ((r.ea l).toNat < 2 ^ 21) && decide ((r.ea l).toNat % 2 ^ 19 + widthOf r.ty ≤ c.scratchBytes)

/-- The colours that the lanes need and the group does not hold, in ascending order. -/
def newColours (g : Group) (r : MRow) (x : Nat → Xl) : List Nat :=
  (List.range 4096).filter (fun d => decide (∃ l ∈ r.lanes, (x l).colour = d ∧ d ≠ 0 ∧ (x l).frz = false) && !(g.held.map Prod.fst).contains d)

/-- The end of the wait of R116 on a counter: on `xc` the operands and tiles of the batches that have retired are free to use (R121). -/
def atWait (g : Group) (k : Ctr) : Group := if k = .xc then { g with unwaited := [] } else g

end Sys2Proof.Stmt

/-- R59, R115, R156, R209, R210, R213, R214, R216, R218, R104: a memory instruction in `.g` whose lanes pass every check sends one request
for each lane of its effective mask, to the physical address that its effective address translates to, counts on its counters, and
completes without waiting for them. With an empty effective mask it does nothing. -/
def Obligations.GlobalAccessIssues : Prop :=
  ∀ (s : State) (g : Group) (i : Instr) (r : MRow), i.wf = true → memRow g i = some r → r.sp = .g →
    (r.lanes = [] → Issuing s g → r.vs.all g.vOk = true → r.ss.all g.sOk = true → g.parkHere = none → Falls s g true (exec i s)) ∧
    (∀ x : Nat → Xl, MayIssue s g r → Translates s g r x → (∀ c, ¬needs g r x c) → AtomFree s g r x →
      ∃ t h, exec i s = .next t ∧ Sent s t g h r (fun l => (x l).pa) (fun _ => 0) ∧ h.pc = g.pcAfter ∧ h.status = .ready)

/-- R46, R47, R48, R51, R214, R218: in `.l` every lane within the scratchpad of its crew is sent to it, and in `.p` to that of the crew of
its quad set that the address names; an instruction that reaches another crew waits for its replies, and one that touches an absent line
parks. -/
def Obligations.ScratchpadAccessIssues : Prop :=
  ∀ (s : State) (g : Group) (i : Instr) (r : MRow) (c : Crew), i.wf = true → memRow g i = some r → MayIssue s g r →
    s.crewOf g = some c → (∀ l ∈ r.lanes, (r.ea l).toNat % widthOf r.ty = 0) →
    (r.sp = .l → (∀ l ∈ r.lanes, (r.ea l).toNat + widthOf r.ty ≤ c.scratchBytes) →
      ((∀ l ∈ r.lanes, lineAbsent c (r.ea l).toNat (widthOf r.ty) = false) →
        ∃ t h, exec i s = .next t ∧ Sent s t g h r (fun l => (r.ea l).toNat) (fun _ => g.crew) ∧ h.pc = g.pcAfter ∧ h.status = .ready) ∧
      ((∃ l ∈ r.lanes, lineAbsent c (r.ea l).toNat (widthOf r.ty) = true) → ∃ t, exec i s = .next t ∧ Waits s t g .lines)) ∧
    (r.sp = .p → (∀ l ∈ r.lanes, peerOk s c r l = true) →
      let tgt := fun l => if (r.ea l).toNat / 2 ^ 19 = c.idx % 4 then g.crew else (peerCrew s c ((r.ea l).toNat / 2 ^ 19)).getD noCrew
      (∀ l ∈ r.lanes, ∀ p, s.crew? (tgt l) = some p → lineAbsent p ((r.ea l).toNat % 2 ^ 19) (widthOf r.ty) = false) →
        ∃ t h, exec i s = .next t ∧ Sent s t g h r (fun l => (r.ea l).toNat % 2 ^ 19) tgt ∧
          ((∃ l ∈ r.lanes, tgt l ≠ g.crew) → h.pc = g.pc ∧ h.status = .parked .reply) ∧
          ((∀ l ∈ r.lanes, tgt l = g.crew) → h.pc = g.pcAfter ∧ h.status = .ready))

/-- R115 and R210: what stops a memory instruction before it sends anything: no room on a counter, and then, in this order, an offset
outside the scratchpad (`PROT 1`; in `.p` `PROT 2`, as for an address that names no peer, or where the crew has none), an address that is not a
multiple of the width (`ALIGN 1`), and a translation that fails with a fault other than PAGE; each raised for the lowest failing lane, with its
address. -/
def Sys2Proof.Stmt.AccessChecks : Prop :=
  ∀ (s : State) (g : Group) (i : Instr) (r : MRow), i.wf = true → memRow g i = some r → Issuing s g → r.vs.all g.vOk = true →
    r.ss.all g.sOk = true → g.parkHere = none → r.lanes ≠ [] →
    ((∃ k ∈ r.ctrs, 255 ≤ (g.ctr k).length) → ∃ t, exec i s = .next t ∧ Waits s t g .counterRoom) ∧
    ((∀ k ∈ r.ctrs, (g.ctr k).length < 255) →
      (∀ (c : Crew) (l : Nat), r.sp = .l → s.crewOf g = some c → l ∈ r.lanes → c.scratchBytes < (r.ea l).toNat + widthOf r.ty →
        (∀ j ∈ r.lanes, j < l → (r.ea j).toNat + widthOf r.ty ≤ c.scratchBytes) →
        exec i s = .next (raise s s.cur { FaultInfo.of 8 1 with addr := r.ea l, lane := l })) ∧
      (∀ (c : Crew) (l : Nat), r.sp = .p → s.crewOf g = some c → l ∈ r.lanes → peerOk s c r l = false → (∀ j ∈ r.lanes, j < l → peerOk s c r j = true) →
        exec i s = .next (raise s s.cur { FaultInfo.of 8 2 with addr := r.ea l, lane := l })) ∧
      (∀ (c : Crew) (l : Nat), s.crewOf g = some c → (r.sp = .l ∧ (∀ j ∈ r.lanes, (r.ea j).toNat + widthOf r.ty ≤ c.scratchBytes) ∨
          r.sp = .p ∧ ∀ j ∈ r.lanes, peerOk s c r j = true) →
        l ∈ r.lanes → (r.ea l).toNat % widthOf r.ty ≠ 0 → (∀ j ∈ r.lanes, j < l → (r.ea j).toNat % widthOf r.ty = 0) →
        exec i s = .next (raise s s.cur { FaultInfo.of 6 1 with addr := r.ea l, lane := l })) ∧
      (∀ l, r.sp = .g → l ∈ r.lanes → (r.ea l).toNat % widthOf r.ty ≠ 0 → (∀ j ∈ r.lanes, j < l → (r.ea j).toNat % widthOf r.ty = 0) →
        exec i s = .next (raise s s.cur { FaultInfo.of 6 1 with addr := r.ea l, lane := l })) ∧
      (∀ l c d, r.sp = .g → (∀ j ∈ r.lanes, (r.ea j).toNat % widthOf r.ty = 0) → l ∈ r.lanes →
        xlate (filled s g r) g.core (s.ctxOf g) (r.ea l) g.sup r.need true = .error (.fault c d) →
        (∀ j ∈ r.lanes, j < l → ∀ c d, xlate (filled s g r) g.core (s.ctxOf g) (r.ea j) g.sup r.need true ≠ .error (.fault c d)) →
        (∀ j ∈ r.lanes, ∀ pa, xlate (filled s g r) g.core (s.ctxOf g) (r.ea j) g.sup r.need true ≠ .error (.far pa)) →
        exec i s = .next (raise (filled s g r) s.cur { FaultInfo.of c d with addr := r.ea l, lane := l })))

/-- R64, R69, R70, R210: an instruction that has passed its checks and whose lanes need colours that its group does not hold joins the queue of the monitor of the lowest one,
and parks; a colour below one that is held raises COLOURORDER 1, and else a seventeenth colour COLOURCAP 1, whose AUX is the (17 − |*H*|)-th new
colour (R78). -/
def Sys2Proof.Stmt.ColouredAccess : Prop :=
  ∀ (s : State) (g : Group) (i : Instr) (r : MRow) (x : Nat → Xl) (c : Nat), i.wf = true → memRow g i = some r → r.sp = .g →
    MayIssue s g r → Translates s g r x → needs g r x c → (∀ d, needs g r x d → c ≤ d) → (∀ l ∈ r.lanes, (x l).colour < 4096) →
    ((∀ d ∈ g.held.map Prod.fst, d < c) → g.held.length + (newColours g r x).length ≤ 16 → AtomFree s g r x →
      ∃ t h, exec i s = .next t ∧ t.group? s.cur = some h ∧ h.status = .parked .monitor ∧ h.pc = g.pc ∧ h.regs = g.regs ∧
        s.cur ∈ (SMap.get t.slates Slate.free (slateKey (s.ctxOf g) c)).queue ∧ t.mem = s.mem ∧
        (SMap.get t.slates Slate.free (slateKey (s.ctxOf g) c)).owner = (SMap.get s.slates Slate.free (slateKey (s.ctxOf g) c)).owner) ∧
    ((∃ d ∈ g.held.map Prod.fst, c < d) → ∃ f, exec i s = .next (raise (filled s g r) s.cur f) ∧ f.cause = 11 ∧ f.detail = 1 ∧
      f.aux = BitVec.ofNat 16 c) ∧
    ((∀ d ∈ g.held.map Prod.fst, d < c) → 16 < g.held.length + (newColours g r x).length →
      ∃ f, exec i s = .next (raise (filled s g r) s.cur f) ∧ f.cause = 12 ∧ f.detail = 1 ∧
        f.aux = BitVec.ofNat 16 ((newColours g r x).getD (16 - g.held.length) 0))

/-- R215: `pref` completes at once whatever its lanes do: no register and no byte of memory changes, and it counts on no counter. A lane that
passes has its line requested, from HBM or from a window (R322), and no other line is: a lane that is misaligned, does not translate, or whose page
has a colour that the group does not hold (R64) is dropped. Only where a walk has first to read a window line does the instruction wait for it, as
a load does. -/
def Sys2Proof.Stmt.PrefetchCompletes : Prop :=
  ∀ (s : State) (g : Group) (k : BitVec 4) (a : MAddr) (ty : Fmt), Issuing s g → (Instr.pref k a ty).wf = true →
    g.sOk a.base = true → (∀ v, a.off = some v → g.vOk (v, false) = true) →
    let ea := eaOf g a.base a.off a.disp.toInt (widthOf ty)
    let asks := fun l => (g.eff k).getLsbD l = true ∧ l < 64 ∧ (ea l).toNat % widthOf ty = 0
    let xl := fun l => xlate s g.core (s.ctxOf g) (ea l) g.sup .read true
    -- what a lane has to meet for its line to be requested
    let passes := fun l x => asks l ∧ xl l = .ok x ∧ (x.colour = 0 ∨ x.colour ∈ g.held.map Prod.fst)
    ((∀ l pa, asks l → xl l ≠ .error (.far pa)) →
      ∃ t h, exec (.pref k a ty) s = .next t ∧ t.group? s.cur = some h ∧ g.Moved h ∧ h.pc = g.pcAfter ∧ h.status = .ready ∧ h.regs = g.regs ∧
        (∀ j, j ≠ s.cur → t.group? j = s.group? j) ∧ t.mem = s.mem ∧
        (∀ i, i < s.nextId → SMap.find? t.reqs i = SMap.find? s.reqs i) ∧
        (∀ l x, passes l x → l1Valid s g.core (lineOf x.pa) = false → SMap.find? s.leases (lineOf x.pa) = none →
          if inHbm x.pa = true then ∃ f ∈ t.fills, f.2.core = g.core ∧ f.2.line = lineOf x.pa
          else ∃ q ∈ t.reqs, q.2.kind = .pref ∧ q.2.core = g.core ∧ q.2.pa = x.pa ∧ q.2.performed = false) ∧
        (∀ f ∈ t.fills, f ∈ s.fills ∨ ∃ l x, passes l x ∧ f.2.line = lineOf x.pa) ∧
        (∀ q ∈ t.reqs, q ∈ s.reqs ∨ ∃ l x, passes l x ∧ q.2.pa = x.pa)) ∧
    (∀ l pa, asks l → xl l = .error (.far pa) → (∀ j p, j < l → asks j → xl j ≠ .error (.far p)) →
      exec (.pref k a ty) s = .next (raise s s.cur (FaultInfo.far pa)))

/-- R116, R219, R236, R247: `waitc` and `xwait` park until their counter is at most `n`, and then raise the first fault held for report against an
instruction that has retired on it, with REPORT set; with none they complete. `xwait` claims the array of its core first, or parks until the crew
that holds it retires. -/
def Sys2Proof.Stmt.CounterWaits : Prop :=
  ∀ (s : State) (g : Group) (k : Ctr) (n : BitVec 8), Issuing s g →
    (n.toNat < (g.ctr k).length → ∃ t, exec (.waitc k n) s = .next t ∧ Waits s t g .counters) ∧
    ((g.ctr k).length ≤ n.toNat → g.dueFault k = none → Falls s (atWait g k) true (exec (.waitc k n) s)) ∧
    (∀ f, (g.ctr k).length ≤ n.toNat → g.dueFault k = some f →
      exec (.waitc k n) s = .next (raiseRunAs (some f.sup) (s.setGroup s.cur { atWait g k with heldFaults := g.heldFaults.erase f }) s.cur
        (f.recs.map (fun x => { x with report := true })))) ∧
    (∀ f, g.dueFault k = some f → f ∈ g.heldFaults ∧ f.ctr = k ∧ (∀ e ∈ g.ctr k, e.op ≠ f.op) ∧
      ∀ h ∈ g.heldFaults, h.ctr = k → (∀ e ∈ g.ctr k, e.op ≠ h.op) → f.op ≤ h.op) ∧
    (∀ c, s.crewOf g = some c → c.matrixGroup.getD s.cur = s.cur →
      let v := s.modCrew g.crew (fun c => { c with matrixGroup := some s.cur })
      -- the array is the crew's, or becomes it
      let u := if (s.core g.core).array.holder = none then takeArray v g.crew g.core else v
      ((s.core g.core).array.holder.getD g.crew = g.crew →
        (n.toNat < g.xc.length → ∃ t, exec (.xwait n) s = .next t ∧ Waits u t g .counters) ∧
        (g.xc.length ≤ n.toNat → g.dueFault .xc = none → Falls u (atWait g .xc) true (exec (.xwait n) s)) ∧
        (∀ f, g.xc.length ≤ n.toNat → g.dueFault .xc = some f →
          exec (.xwait n) s = .next (raiseRunAs (some f.sup) (u.setGroup s.cur { atWait g .xc with heldFaults := g.heldFaults.erase f }) s.cur
            (f.recs.map (fun x => { x with report := true }))))) ∧
      (∀ j, (s.core g.core).array.holder = some j → j ≠ g.crew → ∃ t, exec (.xwait n) s = .next t ∧ Waits v t g .arrayClaim)) ∧
    (∀ c m, s.crewOf g = some c → c.matrixGroup = some m → m ≠ s.cur → exec (.xwait n) s = .next (raiseCD s s.cur 1 18))

/-- R64, R69, R70, R115, R210: what stops a memory instruction at issue, or makes it wait. -/
def Obligations.MemoryChecks : Prop := Stmt.AccessChecks ∧ Stmt.ColouredAccess

/-- R116, R215, R219, R236, R247: `pref`, `waitc` and `xwait`. -/
def Obligations.PrefetchAndWaits : Prop := Stmt.PrefetchCompletes ∧ Stmt.CounterWaits

namespace Sys2Proof.Stmt

/-! ## Memory events (R48, R55 to R58, R62, R100 to R109, R115, R217) -/

/-- A request that is not performed, and that local order lets be performed (R110), with no store of its core's before it to its bytes that is
still on its way (R108); the tables of its home hold no poisoned word (R339). -/
structure Pending (s : State) (rid : Nat) (r : Req) : Prop where
  listed : SMap.find? s.reqs rid = some r
  open_ : r.performed = false
  free : orderFree s r = true
  first : r.kind = .store ∨ r.kind = .atom → passedBefore s rid r = false
  tables : s.freezePoison = [] ∧ s.stampPoison = []

/-- The request was performed and keeps a value for its register. -/
def Done (t : State) (rid : Nat) (val : BitVec 64) : Prop :=
  ∃ q, SMap.find? t.reqs rid = some q ∧ q.performed = true ∧ q.val = val

/-- The registers of every group are as they were. -/
def SameRegs (s t : State) : Prop := ∀ k, (t.group? k).map Group.regs = (s.group? k).map Group.regs

/-- Every byte of memory is as it was, but the `n` from `a`, which hold the low bytes of `v`, least first. -/
def Stored (m m' : Memory) (a n : Nat) (v : BitVec 64) : Prop :=
  (∀ i, i < n → (Memory.byte m' (a + i)).toNat = v.toNat / 2 ^ (8 * i) % 256) ∧ ∀ b, b < a ∨ a + n ≤ b → Memory.byte m' b = Memory.byte m b

/-- The operation of a request waits for no replies (R48). -/
def plainOp (s : State) (r : Req) : Bool := !((SMap.find? s.ops r.op).map Op.precise).getD false

/-- The new value of an atomic (R217), if it writes one: `old`, the data `x` and the compare value as their type reads them. -/
def atomicNew (op : AOp) (t : Fmt) (old x cmp : BitVec 64) : Option (BitVec 64) :=
  let n := 8 * widthOf t
  let lo := fun (v : BitVec 64) => v.toNat % 2 ^ n
  match op with
  | .add => if t = .f32 then some (BitVec.ofNat 64 (roundTo .f32 .rne (XVal.add .rne (ofCode .f32 (lo old)) (ofCode .f32 (lo x)))).code)
    else some (BitVec.ofNat 64 ((lo old + lo x) % 2 ^ n))
  | .min => if t = .f32 then some (BitVec.ofNat 64 (minMax .f32 true (lo old) (lo x)))
    else some (if value t x < value t old then x else old)
  | .max => if t = .f32 then some (BitVec.ofNat 64 (minMax .f32 false (lo old) (lo x)))
    else some (if value t old < value t x then x else old)
  | .and => some (old &&& x)
  | .or => some (old ||| x)
  | .xor => some (old ^^^ x)
  | .exch => some x
  | .cas => if lo old = lo cmp then some x else none

/-- The register that a returned value is written to, extended (R208): lane `l` of `v` register `d`, or `s` register `d`. -/
def returned (r : Req) : BitVec 64 := fmtExtend r.ty 64 r.val.toNat

end Sys2Proof.Stmt

/-- R106, R109, R208: a load in HBM is performed with the value of its core's valid L1 copy, or else with the value at its home, and changes
no byte and no register; HOME_ACCESS performs it. -/
def Sys2Proof.Stmt.LoadPerformed : Prop :=
  ∀ (s : State) (rid : Nat) (r : Req), Pending s rid r → r.kind = .load → r.sp = .g → r.dst ≠ .none → inWindow s.lnkid r.pa = false →
    (∀ l, SMap.find? (s.core r.core).l1 (lineOf r.pa) = some l →
      ∃ t, exec (.homeAccess rid) s = .next t ∧ Done t rid (BitVec.ofNat 64 (lineNat l.data (r.pa % 128) r.width)) ∧ t.mem = s.mem ∧ SameRegs s t) ∧
    (l1Valid s r.core (lineOf r.pa) = false → storePassed s r.core (lineOf r.pa) = false →
      ∃ t, exec (.homeAccess rid) s = .next t ∧ Done t rid (BitVec.ofNat 64 (Memory.readNat s.mem r.pa r.width)) ∧ t.mem = s.mem ∧ SameRegs s t)

/-- R100, R106, R113: a store in HBM is performed at its home: the bytes it names take its data, and no other byte changes; the home of a
frozen granule rejects it, and FROZENALIAS is held for report on `sc`. -/
def Obligations.StorePerformed : Prop :=
  ∀ (s : State) (rid : Nat) (r : Req), Pending s rid r → r.kind = .store → r.sp = .g → r.dst = .none → plainOp s r = true →
    inWindow s.lnkid r.pa = false →
    (granuleFrozen s r.pa = false → granuleFrozen s (r.pa + r.width - 1) = false →
      ∃ t, exec (.homeAccess rid) s = .next t ∧ Stored s.mem t.mem r.pa r.width r.data ∧ SMap.find? t.reqs rid = none ∧ SameRegs s t ∧
        SMap.find? t.scopes (lineOf r.pa) = none) ∧
    (granuleFrozen s r.pa = true ∨ granuleFrozen s (r.pa + r.width - 1) = true → ∀ g, s.group? r.gid = some g → (∀ e ∈ g.heldFaults, e.recs ≠ []) →
      ∃ t h, exec (.homeAccess rid) s = .next t ∧ t.mem = s.mem ∧ SameRegs s t ∧ t.group? r.gid = some h ∧
        ∃ f ∈ h.heldFaults, f.ctr = .sc ∧ f.op = r.op ∧ ∃ x ∈ f.recs, x.cause = 10 ∧
          -- a record of an earlier lane of the instruction stays as it was
          ((∀ e ∈ g.heldFaults, e.op = r.op → ∀ y ∈ e.recs, y.cause = 10 → y.detail = 1) → x.detail = 1))

/-- R57, R58, R106, R113, R114, R217: an atomic in HBM is one step on the value at its home, under a lease of its core or, for `.far`, at the
home: the new value is written where the operation writes one, the old one is kept for the destination, the line becomes a
synchronisation line, and its scope record names the atomic. -/
def Obligations.AtomicPerformed : Prop :=
  ∀ (s : State) (rid : Nat) (r : Req), Pending s rid r → r.kind = .atom → r.sp = .g → plainOp s r = true → inWindow s.lnkid r.pa = false →
    r.width = widthOf r.ty → r.ty.access = true ∨ r.ty = .f32 → granuleFrozen s r.pa = false →
    r.far = true ∨ (grantLease s r.core r.pa r.colour).isSome = true →
    let old := BitVec.ofNat 64 (Memory.readNat s.mem r.pa r.width)
    ∃ t, exec (.homeAccess rid) s = .next t ∧ SameRegs s t ∧
      (∀ v, atomicNew r.aop r.ty old r.data r.cmp = some v → Stored s.mem t.mem r.pa r.width v) ∧
      (atomicNew r.aop r.ty old r.data r.cmp = none → t.mem = s.mem) ∧
      (r.dst ≠ .none → Done t rid old) ∧ (r.dst = .none → SMap.find? t.reqs rid = none) ∧
      lineOf r.pa ∈ t.syncLines ∧ SMap.find? t.scopes (lineOf r.pa) = some ⟨r.scope, r.crew, false⟩

/-- R46, R47, R48, R217: accesses to a scratchpad are performed in it: those to the own crew's by HOME_ACCESS, those to a peer's when they
arrive; an access to a crew that has retired is refused, and its operation records the lowest lane that was, with its address. -/
def Obligations.ScratchpadPerformed : Prop :=
  ∀ (s : State) (rid : Nat) (r : Req) (own : Bool), Pending s rid r → r.kind ≠ .frzq → (own = true → r.sp ≠ .g ∧ r.tgt = r.crew) →
    (own = false → r.sp = .p ∧ r.tgt ≠ r.crew) → r.width = widthOf r.ty → r.ty.access = true ∨ r.ty = .f32 →
    let e := if own then Instr.homeAccess rid else .peerAccessArrive rid
    (∀ c, s.crew? r.tgt = some c → lineAbsent c r.pa r.width = false → (own = false → c.saved = false) →
      let old := BitVec.ofNat 64 (Memory.readNat c.scratch r.pa r.width)
      ∃ t k, exec e s = .next t ∧ t.crew? r.tgt = some k ∧ t.mem = s.mem ∧ SameRegs s t ∧
        (r.kind = .load → k.scratch = c.scratch) ∧
        (r.kind = .store → Stored c.scratch k.scratch r.pa r.width r.data) ∧
        (r.kind = .atom → ∀ v, atomicNew r.aop r.ty old r.data r.cmp = some v → Stored c.scratch k.scratch r.pa r.width v) ∧
        (r.kind = .atom → atomicNew r.aop r.ty old r.data r.cmp = none → k.scratch = c.scratch) ∧
        (r.kind ≠ .store → r.dst ≠ .none → Done t rid old) ∧
        (∀ j, j ≠ r.tgt → (t.crew? j).map Crew.scratch = (s.crew? j).map Crew.scratch)) ∧
    (s.crew? r.tgt = none → own = false → ∀ o, SMap.find? s.ops r.op = some o → o.precise = true →
      ∃ t q p, exec e s = .next t ∧ t.mem = s.mem ∧ SameRegs s t ∧ SMap.find? t.reqs rid = some q ∧ q.performed = true ∧
        SMap.find? t.ops r.op = some p ∧
        (∀ l va, o.gone = some (l, va) → l < r.lane → p.gone = some (l, va)) ∧
        ((∀ l va, o.gone = some (l, va) → r.lane ≤ l) → p.gone = some (r.lane, r.va)))

/-- R104: `frzq` reads the count of its granule in 7:0, the frozen attribute of its mapping in bit 8, and a thaw in progress in bit 9. -/
def Sys2Proof.Stmt.FreezeQueryPerformed : Prop :=
  ∀ (s : State) (rid : Nat) (r : Req), Pending s rid r → r.kind = .frzq →
    let e := SMap.get s.freezeTable FreezeEntry.none (granuleOf r.pa)
    ∃ t, exec (.homeAccess rid) s = .next t ∧ t.mem = s.mem ∧ SameRegs s t ∧
      Done t rid (BitVec.ofNat 64 (if inHbm r.pa then e.count + r.frozen.toNat * 256 + e.thawing.toNat * 512 else r.frozen.toNat * 256))

/-- R115, R208: a performed value that is not poisoned is written to its register, extended as its type says, and to no other; the request
ends. -/
def Sys2Proof.Stmt.LoadReturns : Prop :=
  ∀ (s : State) (rid : Nat) (r : Req) (g : Group), SMap.find? s.reqs rid = some r → r.performed = true → plainOp s r = true →
    s.group? r.gid = some g → r.vPoison = 0 → r.kind ≠ .frzq → r.lane < 64 →
    (∀ d, r.dst = .v d → ∃ t h, exec (.loadReturn rid) s = .next t ∧ t.group? r.gid = some h ∧ SMap.find? t.reqs rid = none ∧ t.mem = s.mem ∧
      h.regs.s = g.regs.s ∧ h.regs.m = g.regs.m ∧ (∀ k, k ≠ r.gid → (t.group? k).map Group.regs = (s.group? k).map Group.regs) ∧
      ∀ k l, l < 64 → h.regs.rdV k l =
        if l = r.lane ∧ k = d then (if r.ty.wide then (returned r).extractLsb' 0 32 else (fmtExtend r.ty 32 r.val.toNat : BitVec 32))
        else if l = r.lane ∧ r.ty.wide = true ∧ k = d + 1 then (returned r).extractLsb' 32 32 else g.regs.rdV k l) ∧
    (∀ d, r.dst = .s d → ∃ t h, exec (.loadReturn rid) s = .next t ∧ t.group? r.gid = some h ∧ SMap.find? t.reqs rid = none ∧ t.mem = s.mem ∧
      h.regs.v = g.regs.v ∧ h.regs.m = g.regs.m ∧ (∀ k, k ≠ r.gid → (t.group? k).map Group.regs = (s.group? k).map Group.regs) ∧
      ∀ k, h.regs.rdS k = if k = d then returned r else g.regs.rdS k)

/-- R48: when every lane of a `.p` instruction has its reply, it retires: loaded values are written and the group goes on, or PEERGONE 1 is
raised for the lowest lane that a retired crew refused. -/
def Sys2Proof.Stmt.PeerReplies : Prop :=
  ∀ (s : State) (gid op : Nat) (o : Op) (g : Group), SMap.find? s.ops op = some o → s.group? gid = some g → o.gid = gid → o.precise = true →
    g.status = .parked .reply → g.places = [] → g.leaving = none → (∀ e ∈ s.reqs, e.2.op = op → e.2.performed = true ∧ e.2.vPoison = 0) →
    (o.gone = none → ∃ t h, exec (.peerReplyReturn gid op) s = .next t ∧ t.group? gid = some h ∧ h.pc = g.pcAfter ∧ h.status = .ready ∧
      t.mem = s.mem ∧ SMap.find? t.ops op = none ∧
      (∀ k e d, e ∈ s.reqs → e.2.op = op → e.2.dst = .s d → (∀ x ∈ s.reqs, x.2.op = op → x = e) → e.2.kind ≠ .frzq → k = d →
        h.regs.rdS k = returned e.2)) ∧
    (∀ l va, o.gone = some (l, va) → ∃ u, exec (.peerReplyReturn gid op) s = .next (raise u gid { FaultInfo.of 16 1 with addr := va, lane := l }) ∧
      u.mem = s.mem ∧ SameRegs s u)

/-- R55, R57, R100, R103: leases, evictions, fills and rejected writes change no byte of memory and no register. A granted lease names its core
and its line becomes valid there with the home's data; a recalled one names none; an evicted line is invalid; a fill whose recall number
is not below the recorded one installs the home's data; and a rejected write ends, its copy invalid. -/
def Obligations.CacheEvents : Prop :=
  ∀ (s : State),
    (∀ rid r, Pending s rid r → r.kind = .atom → r.sp = .g → r.far = false → inHbm r.pa = true → granuleFrozen s r.pa = false →
      SMap.find? s.leases (lineOf r.pa) ≠ some r.core → l1Room s r.core (lineOf r.pa) = true → storePassed s r.core (lineOf r.pa) = false →
      ∃ t l, exec (.leaseGrant rid) s = .next t ∧ SMap.find? t.leases (lineOf r.pa) = some r.core ∧
        SMap.find? (t.core r.core).l1 (lineOf r.pa) = some l ∧ l.data = homeLine s (lineOf r.pa) ∧ l.leased = true ∧ t.mem = s.mem ∧ SameRegs s t) ∧
    (∀ line, ∃ t, exec (.leaseRecall line) s = .next t ∧ SMap.find? t.leases line = none ∧ t.mem = s.mem ∧ SameRegs s t) ∧
    (∀ core line, ∃ t, exec (.l1Evict core line) s = .next t ∧ t.mem = s.mem ∧ SameRegs s t ∧
      (core < 384 → l1Valid t core line = false ∧ (l1Valid s core line = true → SMap.find? t.leases line ≠ some core)) ∧
      -- the homes' copies of window lines go in the same way (DESIGN CHOICE, log 50)
      (384 ≤ core → SMap.find? t.farCopies line = none)) ∧
    (∀ fid f, SMap.find? s.fills fid = some f → l1Valid s f.core f.line = false → storePassed s f.core f.line = false →
      l1Room s f.core f.line = true → (SMap.get (s.core f.core).recallSeq 0 f.slice).toNat ≤ f.seq.toNat →
      ∃ t l, exec (.fillArrive fid) s = .next t ∧ SMap.find? (t.core f.core).l1 f.line = some l ∧ l.data = homeLine s f.line ∧
        l.frozen = f.frozen ∧ SMap.find? t.fills fid = none ∧ t.mem = s.mem ∧ SameRegs s t) ∧
    (∀ rid r, SMap.find? s.reqs rid = some r → r.performed = true → r.dst = .none → r.sp = .g →
      ∃ t, exec (.writeRejectReturn rid) s = .next t ∧ SMap.find? t.reqs rid = none ∧ l1Valid t r.core (lineOf r.pa) = false ∧ t.mem = s.mem ∧
        SameRegs s t)

/-- The vector instructions that may name ports and write no mask: the row, and the format and the exception events that it counts. -/
def Sys2Proof.Stmt.portRow (g : Group) (i : Instr) : Option (VRow × Nat × List Nat) :=
  match i with
  | .fround o => some (⟨o.g, o.d, [(o.a, false)], [], [], false,
      fun l => BitVec.ofNat 64 (roundInt o.ty o.rm (lane g o.a false l).toNat)⟩, 0, [])
  | _ => match intRow g i, bitRow g i, floatRow g i with
    | some r, _, _ => some (r, 0, [])
    | _, some r, _ => some (r, 0, [])
    | _, _, some r => some (⟨r.g, r.d, r.vs.map (fun v => (v, false)), [], [], false, fun l => BitVec.ofNat 64 (r.result l).code⟩,
        fpxFormat r.t, r.events g)
    | _, _, _ => none

/-- The ports that sources name, in the order A, B, C. -/
def Sys2Proof.Stmt.portNames (vs : List (VSrc × Bool)) : List Nat :=
  vs.filterMap (fun x => match x.1 with | .port k => some k.toNat | _ => none)

/-- Each port holds a flit for every source that names it. -/
def Sys2Proof.Stmt.Fed (g : Group) (ports : List Nat) : Prop := ∀ p ∈ ports, ports.count p ≤ (SMap.get g.queues [] p).length

/-- The instruction of `g` has taken a flit from each port that it names and completed as `h`: it blocks, and leaves no latch result (R162, R163). -/
structure Sys2Proof.Stmt.Received (s t : State) (g h : Group) (ports : List Nat) : Prop where
  done : Completed s t { g with queues := h.queues } h
  queues : ∀ p, SMap.get h.queues [] p = (SMap.get g.queues [] p).drop (ports.count p)
  latches : h.entered = true → h.latches = (.none :: g.latches).take 3 ∧ h.window = 0

/-- R61, R62, R145: a vector instruction whose destination is a port sends one flit with the values of its effective lanes, and parks until it is
accepted; a port that is not enabled, or names a peer outside a quad launch, raises ILLEGAL 13. A port source with no flit for it parks; else the
instruction takes the flit at the head of each port that it names, in the order A, B, C, reads their lanes, makes the crew volatile (cause 3), and
writes its register. Under an empty effective mask it sends and takes nothing. -/
def Sys2Proof.Stmt.PortInstructions : Prop :=
  (∀ (s : State) (g : Group) (i : Instr) (r : VRow) (f : Nat) (evs : List Nat), Issuing s g → i.wf = true → portRow g i = some (r, f, evs) →
    r.vs.all g.vOk = true → r.ss.all g.sOk = true → r.ms.all g.mOk = true →
    let ports := portNames r.vs
    -- the state with the volatility cause, where a flit is received
    let u := if ports = [] then s else s.modCrew g.crew (fun c => { c with rcd := { c.rcd with vcause := c.rcd.vcause ||| 8 } })
    (g.eff r.g = 0 → ports ≠ [] ∨ (∃ k, r.d = .port k) → Falls s g true (exec i s)) ∧
    (g.eff r.g ≠ 0 → ∀ k, r.d = .port k → portAllowed s g k.toNat = false → exec i s = .next (raiseCD s s.cur 1 13)) ∧
    (g.eff r.g ≠ 0 → (∀ k, r.d = .port k → portAllowed s g k.toNat = true) → ¬Fed g ports → ∃ t, exec i s = .next t ∧ Waits s t g .portEmpty) ∧
    (g.eff r.g ≠ 0 → Fed g ports → ∀ k, r.d = .port k → portAllowed s g k.toNat = true →
      ∃ t h m, exec i s = .next t ∧ t.group? s.cur = some h ∧ h = { g with status := .parked .portRoom, issued := true, stamp := s.clock } ∧
        SMap.find? t.flits s.nextId = some m ∧ m.gid = s.cur ∧ m.port = k.toNat ∧ m.flit.mask = g.eff r.g ∧ m.takes = ports ∧
        m.fpFmt = f ∧ m.fp = evs ∧ m.grp = (SMap.get g.ptgt 0 k.toNat).toNat % 32 ∧ t.mem = s.mem ∧ t.crews = u.crews ∧
        (∀ j, j ≠ s.cur → t.group? j = s.group? j) ∧
        ∀ l, l < 64 → (g.eff r.g).getLsbD l = true → m.flit.lane l = ((r.val l).extractLsb' 0 32).setWidth 64) ∧
    (g.eff r.g ≠ 0 → Fed g ports → ports ≠ [] → (∀ k, r.d ≠ .port k) →
      ∃ t h, exec i s = .next t ∧ Received (countFpx u g f evs) t g h ports ∧ h.regs.s = g.regs.s ∧ h.regs.m = g.regs.m ∧
        ∀ q l, l < 64 → h.regs.rdV q l =
          if (g.eff r.g).getLsbD l = true ∧ destV r.d r.wide q = true then
            (if r.wide = true ∧ destV r.d false q = false then (r.val l).extractLsb' 32 32 else (r.val l).extractLsb' 0 32)
          else g.regs.rdV q l)) ∧
  -- compares
  (∀ (s : State) (g : Group) (o : CmpOp) (i : Instr), Issuing s g → i = .cmp o ∨ i = .fcmp o → i.wf = true →
    let vs := [(o.a, o.ty.wide), (o.b, o.ty.wide)]
    let ports := portNames vs
    let u := s.modCrew g.crew (fun c => { c with rcd := { c.rcd with vcause := c.rcd.vcause ||| 8 } })
    let meets := fun l => if i = .cmp o then holds o.cc (value o.ty (laneOf g vs 0 l)) (value o.ty (laneOf g vs 1 l))
      else floatHolds o.ty o.cc (laneOf g vs 0 l).toNat (laneOf g vs 1 l).toNat
    vs.all g.vOk = true → ports ≠ [] →
    (g.eff o.g = 0 → Falls s g true (exec i s)) ∧
    (g.eff o.g ≠ 0 → ¬Fed g ports → ∃ t, exec i s = .next t ∧ Waits s t g .portEmpty) ∧
    (g.eff o.g ≠ 0 → Fed g ports →
      ∃ t h, exec i s = .next t ∧ Received u t g h ports ∧ h.regs.v = g.regs.v ∧ h.regs.s = g.regs.s ∧
        ∀ a q, h.regs.rdM a q = if destM o.d q = true then maskWhere (g.eff o.g) meets else g.regs.rdM a q))

/-- R62, R145: a flit that arrives at a port with room joins it, and its sender completes: it takes the flits of its own port sources and counts its
events; the sender may be the receiver. A flit to a group that has retired is refused, and the sender raises PEERGONE 3. -/
def Sys2Proof.Stmt.FlitDelivery : Prop :=
  ∀ (s : State) (fid : Nat) (f : FlitMsg) (g : Group), SMap.find? s.flits fid = some f → s.group? f.gid = some g → g.status = .parked .portRoom →
    g.places = [] → g.live ≠ 0 →
    (∀ tid x, groupOfCrew s f.tgt f.grp = some (tid, x) → s.group? tid = some x → (SMap.get x.queues [] f.port).length < 8 →
      (∀ c, s.crew? f.tgt = some c → c.saved = false) →
      ∃ t h, exec (.flitArrive fid) s = .next t ∧ t.group? f.gid = some h ∧ h.pc = g.pcAfter ∧ h.status = .ready ∧ h.regs = g.regs ∧
        SMap.find? t.flits fid = none ∧ t.mem = s.mem ∧
        (∀ p, SMap.get h.queues [] p =
          (SMap.get g.queues [] p ++ if tid = f.gid ∧ p = f.port then [f.flit] else []).drop (f.takes.count p)) ∧
        (dieOfCore g.core = dieOfCore x.core → t.ctxs = (countFpx s g f.fpFmt f.fp).ctxs) ∧
        (tid ≠ f.gid → ∃ y, t.group? tid = some y ∧ SMap.get y.queues [] f.port = SMap.get x.queues [] f.port ++ [f.flit] ∧ y.regs = x.regs)) ∧
    (groupOfCrew s f.tgt f.grp = none → ∃ u, exec (.flitArrive fid) s = .next (raise u f.gid (FaultInfo.of 16 3)) ∧
      SMap.find? u.flits fid = none ∧ u.mem = s.mem ∧ SameRegs s u)

/-- R104, R106, R109, R208: a load, and a freeze query, performed. -/
def Obligations.LoadsPerformed : Prop := Stmt.LoadPerformed ∧ Stmt.FreezeQueryPerformed

/-- R48, R115, R208: what comes back to a group. -/
def Obligations.Replies : Prop := Stmt.LoadReturns ∧ Stmt.PeerReplies

/-- R61, R62, R145: ports and their flits. -/
def Obligations.Ports : Prop := Stmt.PortInstructions ∧ Stmt.FlitDelivery

namespace Sys2Proof.Stmt

/-! ## What precedes and follows a register instruction (R146, R147, R164, R339) -/

/-- What an instruction reads: its guard, its destination if it is of kind V, and its sources. -/
structure Named where
  g : BitVec 4
  d : VDst
  vs : List (VSrc × Bool)
  ss : List SSrc
  ms : List MSrc

/-- The scalar, vector and float instructions of the rows above. -/
def named (g : Group) (i : Instr) : Option Named :=
  match scalarRow g i, intRow g i, bitRow g i, floatRow g i with
  | some r, _, _, _ => some ⟨r.g, .dash, [], r.srcs, []⟩
  | _, some r, _, _ => some ⟨r.g, r.d, r.vs, r.ss, r.ms⟩
  | _, _, some r, _ => some ⟨r.g, r.d, r.vs, r.ss, r.ms⟩
  | _, _, _, some r => some ⟨r.g, r.d, r.vs.map (fun v => (v, false)), [], []⟩
  | _, _, _, _ => none

/-- Lane `l` of a vector source holds a poisoned word. -/
def eats (g : Group) (x : VSrc × Bool) (l : Nat) : Bool :=
  match x.1 with
  | .reg k => g.srcV.contains (64 * k.toNat + l) || (x.2 && g.srcV.contains (64 * (k.toNat + 1) + l))
  | _ => false

/-- One of the two words of a 64-bit register is poisoned. -/
def badWord (p : List Nat) (k : Nat) : Bool := p.contains (2 * k) || p.contains (2 * k + 1)

/-- Group `g` after the lanes `d` died, and the black-box entry that reports them. -/
def dead (s : State) (g : Group) (d : Mask) : State :=
  boxEvent (s.setGroup s.cur { g with dead := g.dead ||| d, live := g.live &&& ~~~d, active := g.active &&& ~~~d })
    2 1 (dieOfCore g.core) g.core (s.ctxOf g) d 0

/-- The events of index `n % 4` that a list counts, for a counter of format `f`. -/
def eventsAt (f : Nat) (evs : List Nat) (n : Nat) : Nat := if n / 4 = f then (evs.filter (· == n % 4)).length else 0

end Sys2Proof.Stmt

/-- R164 and R339: an instruction that names a latch which may not be read as its kind raises LATCH and has no effect. Otherwise the lanes
of the effective mask that would consume a poisoned word die first, all live lanes where a guard, a mask or a scalar is poisoned; the
instruction goes on with the lanes that remain, and a group without live lanes leaves. A poisoned word of an active lane outside the effective mask
is logged as a corrected event, and raises nothing. -/
def Obligations.RegisterReadChecks : Prop :=
  ∀ (s : State) (g : Group) (i : Instr), s.group? s.cur = some g → i.wf = true →
    (∀ r, memRow g i = some r → (r.vs.all g.vOk && r.ss.all g.sOk) = false → exec i s = .next (raiseCD s s.cur 3 0)) ∧
    (∀ n, named g i = some n → (∀ k, n.d ≠ .port k) →
      let ok := n.vs.all g.vOk && n.ss.all g.sOk && n.ms.all g.mOk
      let whole := n.ss.any (fun x => match x with | .reg k => badWord g.srcS k.toNat | _ => false)
        || n.ms.any (fun x => match x with | .reg k => badWord g.srcM k.toNat | _ => false) || badWord g.srcM n.g.toNat
      let d := if whole then g.live else maskWhere (g.eff n.g) (fun l => n.vs.any (fun x => eats g x l))
      let spared := ∃ l, l < 64 ∧ (g.srcActive &&& ~~~g.eff n.g).getLsbD l = true ∧ n.vs.any (fun x => eats g x l) = true
      (ok = false → exec i s = .next (raiseCD s s.cur 3 0)) ∧
      (ok = true → ¬spared → g.eff n.g ≠ 0 → d ≠ 0 → g.live &&& ~~~d ≠ 0 → exec i s = exec i (dead s g d)) ∧
      (ok = true → ¬spared → g.eff n.g ≠ 0 → d ≠ 0 → g.live &&& ~~~d = 0 →
        ∃ t h, exec i s = .next t ∧ t.group? s.cur = some h ∧ h.live = 0 ∧ h.leaving = some .dead ∧ h.status = .parked .counters ∧
          h.regs = g.regs ∧ t.mem = s.mem ∧ (∀ j, j ≠ s.cur → t.group? j = s.group? j) ∧
          -- the deaths, and the end of the group (DETAIL 0 there: DEDUCED, log 64)
          t.box = (boxEvent (dead s g d) 4 1 (dieOfCore g.core) g.core (s.ctxOf g) 0 0).box) ∧
      (ok = true → spared → d = 0 → (∀ x ∈ n.vs, ∀ k, x.1 ≠ .port k) →
        ∃ t, exec i s = .next t ∧ ∃ e ∈ t.box, e.eseq = s.eseq ∧ e.sev = 0 ∧ e.src = 1 ∧ e.vf = 63))

/-- R146 and R147: where the launch passes FPXKSEL, each counter of the format takes its events and stops at `0xFFFFFFFF`; one that passes
THRESH sets its CROSS bit, and interrupts the host if the bit was clear and IEN is set; otherwise nothing is counted. -/
def Obligations.ExceptionCounters : Prop :=
  ∀ (s : State) (g : Group) (f : Nat) (evs : List Nat), f < 5 → (∀ e ∈ evs, e < 4) →
    let x := s.ctxOf g
    let c := s.ctx x
    let t := countFpx s g f evs
    let old := fun (n : Nat) => (SMap.get c.fpxc 0 n).toNat
    let new := fun (n : Nat) => Nat.min (old n + eventsAt f evs n) 0xFFFFFFFF
    let th := c.fpxctl.toNat / 2 ^ 32
    let crosses := fun (n : Nat) => decide (th ≠ 0 ∧ old n < th ∧ th ≤ new n)
    let chosen := c.fpxksel = 0 ∨ ∃ l, s.launchOf g = some l ∧ c.fpxksel.toNat = l.entry.toNat / 64 * 64
    t = { s with ctxs := t.ctxs, interrupts := t.interrupts } ∧ (∀ y, y ≠ x → t.ctx y = s.ctx y) ∧
    (chosen →
      t.ctx x = { c with fpxc := (t.ctx x).fpxc, fpxstat := (t.ctx x).fpxstat } ∧
      (∀ n, n < 20 → (SMap.get (t.ctx x).fpxc 0 n).toNat = new n ∧
        (t.ctx x).fpxstat.getLsbD n = (c.fpxstat.getLsbD n || crosses n)) ∧
      t.interrupts = s.interrupts ++ ((List.range 20).filter (fun n => crosses n && !c.fpxstat.getLsbD n && c.fpxctl.getLsbD n)).map
        (fun _ => (x, 1))) ∧
    (¬chosen → s.launchOf g ≠ none → t = s)

namespace Sys2Proof.Stmt

/-! ## Barriers (R119, R221 to R224) -/

/-- The instruction of the group has completed as `h`, whatever else it changed; no register of its group, no other group and no byte of
memory did. -/
structure Passed (s t : State) (g h : Group) : Prop where
  group : t.group? s.cur = some h
  pc : h.pc = g.pcAfter
  ready : h.status = .ready
  regs : h.regs = g.regs
  others : ∀ j, j ≠ s.cur → t.group? j = s.group? j
  mem : t.mem = s.mem

/-- `n` bytes of a scratchpad as a number, the least significant first. -/
def padWord (c : Crew) (o : Nat) : Nat := ((List.range 8).map (fun i => (Memory.byte c.scratch (o + i)).toNat * 2 ^ (8 * i))).sum

/-- The words of a barrier object after an update (R222): the control word and BYTES. -/
def objectAfter (ctl bytes : Nat) : Nat × Nat :=
  let phase := ctl / 2 ^ 32 % 4096
  let goal := ctl / 2 ^ 16 % 2 ^ 16
  if ctl % 2 ^ 16 = goal ∧ goal ≠ 0 ∧ bytes = 0 then (ctl / 2 ^ 44 * 2 ^ 44 + (phase + 1) % 4096 * 2 ^ 32 + goal * 2 ^ 16, 0) else (ctl, bytes)

/-- The object at `a` may be used by the crew `c` of the group (R223). -/
structure Object (s : State) (g : Group) (c : Crew) (a : Nat) : Prop where
  crew : s.crewOf g = some c
  room : a + 16 ≤ c.scratchBytes
  aligned : a % 16 = 0
  here : c.absent.contains (a / 128) = false
  clean : scratchBad c a 16 = false

end Sys2Proof.Stmt

/-- R221: a group that executes `bar` joins the round of its barrier and parks until as many groups as the count says, or all that remain
in the crew, have arrived and performed their accesses; then all of them pass. Too few groups raise BARCOUNT 2, another count BARCOUNT 1. -/
def Sys2Proof.Stmt.NamedBarriers : Prop :=
  ∀ (s : State) (g : Group) (c : Crew) (id : BitVec 4) (count : BitVec 6), Issuing s g → g.parkHere = none → s.crewOf g = some c →
    let b := SMap.get c.bars ⟨count.toNat, []⟩ id.toNat
    let need := Nat.min count.toNat c.gids.length
    -- no instruction of the group has arrived here, this one or one below a trap taken at a stop point
    s.cur ∉ b.arrived → (g.places.length, id.toNat) ∉ g.bars →
    (c.started < count.toNat → exec (.bar id count) s = .next (raiseCD s s.cur 15 2)) ∧
    (count.toNat ≤ c.started → b.k ≠ count.toNat → exec (.bar id count) s = .next (raiseCD s s.cur 15 1)) ∧
    (count.toNat ≤ c.started → b.k = count.toNat → b.arrived.length + 1 < need ∨ quiet s s.cur = false →
      ∃ t k, exec (.bar id count) s = .next t ∧
        t.group? s.cur = some { g with
          bars := (g.places.length, id.toNat) :: g.bars, status := .parked (if quiet s s.cur then .barrier else .counters), issued := true, stamp := s.clock } ∧
        t.crew? g.crew = some k ∧ SMap.find? k.bars id.toNat = some ⟨count.toNat, b.arrived ++ [s.cur]⟩ ∧ t.mem = s.mem ∧
        (∀ j, j ≠ s.cur → t.group? j = s.group? j)) ∧
    (count.toNat ≤ c.started → b.k = count.toNat → need ≤ b.arrived.length + 1 → quiet s s.cur = true → g.places = [] → g.leaving = none →
      b.arrived.Nodup → g.bars.filter (fun e => e.2 == id.toNat) = [] →
      (∀ h ∈ b.arrived, quiet s h = true ∧ ∃ y, s.group? h = some y ∧ y.status = .parked .barrier ∧ y.places = [] ∧ y.leaving = none ∧
        y.bars.filter (fun e => e.2 == id.toNat) = [(0, id.toNat)]) →
      ∃ t k, exec (.bar id count) s = .next t ∧ t.crew? g.crew = some k ∧ SMap.find? k.bars id.toNat = none ∧ t.mem = s.mem ∧
        (∀ h ∈ b.arrived ++ [s.cur], ∀ y, s.group? h = some y →
          ∃ z, t.group? h = some z ∧ z.pc = y.pcAfter ∧ z.status = .ready ∧ z.regs = y.regs) ∧
        (∀ j, j ∉ b.arrived ++ [s.cur] → t.group? j = s.group? j))

/-- R222 to R224: `arrive` and `arrivex` wait for the earlier accesses of the group, add 1 to COUNT and, `arrivex`, to BYTES, and write
COUNT and PHASE as they were; a phase ends when COUNT is GOAL and BYTES is 0. `bwait` passes once the phase has passed. A word that is no
object in use, or one that is full, raises BARCOUNT 3; the checks of the address are those of R223. -/
def Sys2Proof.Stmt.BarrierObjects : Prop :=
  ∀ (s : State) (g : Group) (c : Crew) (a b : SSrc) (d : BitVec 6), Issuing s g → g.parkHere = none → s.crewOf g = some c →
    g.sOk a = true → g.sOk b = true →
    let o := (g.sval a).toNat
    let ctl := padWord c o
    let inUse := ctl / 2 ^ 44 = 0 ∧ ctl / 2 ^ 16 % 2 ^ 16 ≠ 0
    let room := ctl % 2 ^ 16 < ctl / 2 ^ 16 % 2 ^ 16
    (∀ i ∈ [Instr.arrive d a, .arrivex d a b, .bwait a b],
      (c.scratchBytes < o + 16 → exec i s = .next (raise s s.cur { FaultInfo.of 8 1 with addr := g.sval a })) ∧
      (o + 16 ≤ c.scratchBytes → o % 16 ≠ 0 → exec i s = .next (raise s s.cur { FaultInfo.of 6 2 with addr := g.sval a })) ∧
      (o + 16 ≤ c.scratchBytes → o % 16 = 0 → c.absent.contains (o / 128) = true → ∃ t, exec i s = .next t ∧ Waits s t g .lines)) ∧
    (Object s g c o → ∀ i add, (i = Instr.arrive d a ∧ add = 0) ∨ (i = Instr.arrivex d a b ∧ add = (g.sval b).toNat) →
      (quiet s s.cur = false → ∃ t, exec i s = .next t ∧ Waits s t g .counters) ∧
      (quiet s s.cur = true → ¬(inUse ∧ room) → exec i s = .next (raiseCD s s.cur 15 3)) ∧
      (quiet s s.cur = true → inUse → room →
        ∃ t h k, exec i s = .next t ∧ t.group? s.cur = some h ∧ h.pc = g.pcAfter ∧ h.status = .ready ∧ h.regs.v = g.regs.v ∧
          h.regs.m = g.regs.m ∧ t.crew? g.crew = some k ∧ t.mem = s.mem ∧
          (∀ r, h.regs.rdS r = if r = d.toNat then BitVec.ofNat 64 (ctl % 2 ^ 16 * 2 ^ 16 + ctl / 2 ^ 32 % 4096) else g.regs.rdS r) ∧
          (padWord k o, padWord k (o + 8)) = objectAfter (ctl + 1) ((padWord c (o + 8) + add) % 2 ^ 64) ∧
          (∀ x, x < o ∨ o + 16 ≤ x → Memory.byte k.scratch x = Memory.byte c.scratch x))) ∧
    (Object s g c o →
      let k := (ctl / 2 ^ 32 % 4096 + 4096 - (g.sval b).toNat % 4096) % 4096
      (¬inUse → exec (.bwait a b) s = .next (raiseCD s s.cur 15 3)) ∧
      (inUse → k = 0 ∨ 2048 < k → ∃ t, exec (.bwait a b) s = .next t ∧ Waits s t g .object) ∧
      (inUse → k ≠ 0 → k ≤ 2048 → ∃ t h, exec (.bwait a b) s = .next t ∧ Passed s t g h ∧
        (c.cores.length = 2 → ∀ e ∈ (t.core g.core).l1, e.2.frozen = true)))

/-- R119, R221 to R224: named barriers and barrier objects. -/
def Obligations.Barriers : Prop := Stmt.NamedBarriers ∧ Stmt.BarrierObjects

namespace Sys2Proof.Stmt

/-! ## Colours, freezing and shootdowns (R66, R67, R97 to R102, R226, R291) -/

/-- The pages of a range, each with its leaf, by walks now. -/
def pagesIn (s : State) (g : Group) (a n : Word) : List (Nat × Except XErr Leaf) := pagesOf s (s.ctxOf g) a n

/-- The leaves of a range. -/
def leavesIn (s : State) (g : Group) (a n : Word) : List (Nat × Leaf) := rangeLeaves (pagesIn s g a n)

/-- A range passes the checks that `paint` and `freeze` share: multiples of `gran`, and every page translates as a write at the level,
without the frozen check. -/
structure RangeOk (s : State) (g : Group) (a n : Word) (gran : Nat) : Prop where
  start : a.toNat % gran = 0
  length : n.toNat % gran = 0
  some_ : n ≠ 0
  pages : ∀ p ∈ pagesIn s g a n, ∃ l x, p.2 = .ok l ∧ checkLeaf s.lnkid (BitVec.ofNat 64 p.1) g.sup .write false l.e l.size = .ok x

/-- A page at `v`, resident or not, lies in the range as a whole, its 64 KiB block with it where C64 is set (R284, R285). -/
def wholeAt (lo hi v : Nat) (w : Except XErr Leaf) : Prop :=
  ∀ k, (∃ l, w = .ok l ∧ k = if l.size = 4096 ∧ l.e.getLsbD 9 = true then 65536 else l.size) ∨ (∃ d x, w = .error (.page d x k)) →
    lo ≤ v - v % k ∧ v - v % k + k ≤ hi

/-- Check 1 of R66 on large pages: the range covers every page that it touches, its last one among them, as a whole; and the entry of the
last one has not first to be read at a far end (R322). -/
def WholePages (s : State) (g : Group) (a n : Word) : Prop :=
  (∀ p ∈ pagesIn s g a n, wholeAt a.toNat (a.toNat + n.toNat) p.1 p.2) ∧
  wholeAt a.toNat (a.toNat + n.toNat) (a + n - 4096).toNat (walk s (s.ctxOf g) (a + n - 4096)) ∧
  ∀ pa, walk s (s.ctxOf g) (a + n - 4096) ≠ .error (.far pa)

/-- The page-table entries of a range hold `f` of what they held, but for those in a frozen granule or at a far end; no other byte of memory
changed. -/
structure Patched (s t : State) (ls : List (Nat × Leaf)) (f : Nat → Nat) (stuck : Nat → Bool) : Prop where
  entries : ∀ p ∈ ls, stuck p.2.at_ = false → Memory.readNat t.mem p.2.at_ 8 = f (Memory.readNat s.mem p.2.at_ 8)
  lost : ∀ p ∈ ls, stuck p.2.at_ = true → Memory.readNat t.mem p.2.at_ 8 = Memory.readNat s.mem p.2.at_ 8
  rest : ∀ a, (∀ p ∈ ls, a < p.2.at_ ∨ p.2.at_ + 8 ≤ a) → Memory.byte t.mem a = Memory.byte s.mem a

/-- The group parks for a shootdown of its range, which has begun, and holds granules until it completes (R97). -/
structure Shooting (s t : State) (g : Group) (kind : Maint) (a n : Word) (granules locks : List Nat) : Prop where
  group : t.group? s.cur = some { g with status := .parked .maintenance, issued := true, stamp := s.clock }
  others : ∀ j, j ≠ s.cur → t.group? j = s.group? j
  shoot : ∃ i phys, s.nextId ≤ i ∧
    SMap.find? t.shoots i = some ⟨s.ctxOf g, s.cur, kind, a.toNat, a.toNat + n.toNat, phys, [], granules, locks, false⟩

/-- The freeze-table entry of a granule. -/
def entry (s : State) (x : Nat) : FreezeEntry := SMap.get s.freezeTable FreezeEntry.none x

/-- The entry at an address stands in a frozen granule (R356), or in a window, whose home forwards its write (R322). -/
def stuckAt (s : State) (a : Nat) : Bool := inWindow s.lnkid a || granuleFrozen s a

/-- A TLB entry and a range have a byte in common, in an address space that does not wrap between them. -/
def meets (e : TlbEntry) (lo hi : Nat) : Bool := decide (lo < e.base + e.size ∧ e.base < hi)

end Sys2Proof.Stmt

/-- R66 and R67: `paint` writes its colour, and `unpaint` colour 0, into the entry of every page of the range, and parks for the shootdown.
Before that, in order: ALIGN 5, PAGE on the lowest page that is not resident, PROT as R286 gives it, and, `paint` only, FROZEN 2. -/
def Sys2Proof.Stmt.Painting : Prop :=
  ∀ (s : State) (g : Group) (k : BitVec 4) (a n : SSrc) (c : BitVec 12), Issuing s g → g.parkHere = none → g.sOk a = true → g.sOk n = true →
    g.eff k ≠ 0 →
    let va := g.sval a
    let len := g.sval n
    let ls := leavesIn s g va len
    (∀ (i : Instr) (new : Nat), (i = .paint k a n c ∧ new = c.toNat ∧ ∀ p ∈ ls, p.2.e.getLsbD 11 = false) ∨ (i = .unpaint k a n ∧ new = 0) →
      (va.toNat % 4096 ≠ 0 ∨ len.toNat % 4096 ≠ 0 ∨ len = 0 → exec i s = .next (raiseCD s s.cur 6 5)) ∧
      (va.toNat % 4096 = 0 → len.toNat % 4096 = 0 → len ≠ 0 → WholePages s g va len →
        (∀ p d x m, p ∈ pagesIn s g va len → p.2 = .error (.page d x m) →
          ∃ u, exec i s = .next (raise u s.cur { FaultInfo.of 7 d with addr := BitVec.ofNat 64 p.1, replay := true }) ∧ u.mem = s.mem ∧
            SameRegs s u) ∧
        (∀ pre p post (f : Nat × Nat), pagesIn s g va len = pre ++ p :: post → (∀ q ∈ pre ++ post, (∀ d x m, q.2 ≠ .error (.page d x m)) ∧ ∀ pa, q.2 ≠ .error (.far pa)) →
          f.1 ≠ 7 →
          (∀ q ∈ pre, ∃ l x, q.2 = .ok l ∧ checkLeaf s.lnkid (BitVec.ofNat 64 q.1) g.sup .write false l.e l.size = .ok x) →
          (p.2 = .error (.fault f.1 f.2) ∨
            ∃ l, p.2 = .ok l ∧ checkLeaf s.lnkid (BitVec.ofNat 64 p.1) g.sup .write false l.e l.size = .error (.fault f.1 f.2)) →
          exec i s = .next (raiseCD s s.cur f.1 f.2))) ∧
      (RangeOk s g va len 4096 → WholePages s g va len →
        ∃ t, exec i s = .next t ∧ Shooting s t g .paint va len [] [] ∧
          Patched s t ls (fun w => new * 2 ^ 52 + w % 2 ^ 52) (stuckAt s))) ∧
    ((∃ p ∈ ls, p.2.e.getLsbD 11 = true) → RangeOk s g va len 4096 → WholePages s g va len →
      exec (.paint k a n c) s = .next (raiseCD s s.cur 9 2))

/-- R97, R98, R102, R226: `freeze` recalls the leases of its granules, raises their counts and sets FRZ; `thaw` clears FRZ and lowers the
counts, and a granule that reaches 0 begins its recalls; both park for the shootdown. A granule that is thawing, or that another `freeze` or
`thaw` holds, is waited for; a count that cannot change raises PROT 8 or 9; misaligned ranges raise ALIGN 8; a poisoned entry of the freeze table
raises PIPEERR 6 (R339). -/
def Sys2Proof.Stmt.FreezeAndThaw : Prop :=
  ∀ (s : State) (g : Group) (k : BitVec 4) (a n : SSrc), Issuing s g → g.parkHere = none → g.sOk a = true → g.sOk n = true →
    g.eff k ≠ 0 →
    let va := g.sval a
    let len := g.sval n
    let ls := leavesIn s g va len
    let gs := rangeGranules (va.toNat + len.toNat) ls
    (∀ i ∈ [Instr.freeze k a n, .thaw k a n], va.toNat % 65536 ≠ 0 ∨ len.toNat % 65536 ≠ 0 ∨ len = 0 →
      exec i s = .next (raiseCD s s.cur 6 8)) ∧
    (RangeOk s g va len 65536 → blocksAligned ls = true → (∀ p ∈ ls, inHbm (pteAddr p.2.e) = true) →
      ∀ i ∈ [Instr.freeze k a n, .thaw k a n], (∃ x ∈ gs, x ∈ s.freezePoison) → exec i s = .next (raiseCD s s.cur 17 6)) ∧
    (RangeOk s g va len 65536 → blocksAligned ls = true → (∀ p ∈ ls, inHbm (pteAddr p.2.e) = true) → (∀ x ∈ gs, x ∉ s.freezePoison) →
      (∀ i ∈ [Instr.freeze k a n, .thaw k a n], (∃ x ∈ gs, (entry s x).thawing = true ∨ ∃ e ∈ s.shoots, x ∈ e.2.locks) →
        ∃ t, exec i s = .next t ∧ Waits s t g .granule) ∧
      ((∀ x ∈ gs, (entry s x).thawing = false ∧ ∀ e ∈ s.shoots, x ∉ e.2.locks) →
        ((∃ x ∈ gs, (entry s x).count = 255) → exec (.freeze k a n) s = .next (raiseCD s s.cur 8 8)) ∧
        ((∃ x ∈ gs, (entry s x).count = 0) → exec (.thaw k a n) s = .next (raiseCD s s.cur 8 9)) ∧
        ((∀ x ∈ gs, (entry s x).count ≠ 255) →
          ∃ t, exec (.freeze k a n) s = .next t ∧ Shooting s t g .freeze va len [] gs ∧
            (∀ x, entry t x = if x ∈ gs then { entry s x with count := (entry s x).count + 1 } else entry s x) ∧
            (∀ line, line / 512 ∈ gs → SMap.find? t.leases line = none) ∧
            Patched s t (ls.filter (fun p => p.2.e.getLsbD 11 == false)) (fun w => w / 4096 * 4096 + 2048 + w % 2048)
              (fun p => stuckAt s p || gs.contains (p / 65536))) ∧
        ((∀ x ∈ gs, (entry s x).count ≠ 0) →
          ∃ t, exec (.thaw k a n) s = .next t ∧ Shooting s t g .thaw va len (gs.filter (fun x => (entry s x).count == 1)) gs ∧
            (∀ x, entry t x = if x ∈ gs then { entry s x with count := (entry s x).count - 1, thawing := decide ((entry s x).count = 1) }
              else entry s x) ∧
            (∀ x ∈ gs, (entry s x).count = 1 → ∃ q, SMap.find? t.thaws x = some q ∧
              ∀ j, j < 6 → q.2.getLsbD j = (entry s x).holders.getLsbD j) ∧
            Patched s t (ls.filter (fun p => p.2.e.getLsbD 11 == true)) (fun w => w / 4096 * 4096 + w % 2048) (stuckAt s))))

/-- R67, R101 to R103, R291: a shootdown first removes the TLB entries of its context that meet its range, and the L1 lines of the memory
that it mapped, and then, when the accesses that
it waits for are performed, its group goes on; a die that acknowledges a recall holds no line of the granule and records the number; with
every acknowledgement the granule is stamped and writable, and the groups that wait for it go on. Memory and registers stay. -/
def Obligations.ShootdownsAndRecalls : Prop :=
  ∀ (s : State),
    (∀ i sh, SMap.find? s.shoots i = some sh → sh.shot = false → sh.lo < sh.hi → sh.hi ≤ 2 ^ 56 →
      (∀ c, ∀ e ∈ (s.core c).tlb, e.base + e.size ≤ 2 ^ 56) →
      ∃ t sh1, exec (.shootdownComplete i) s = .next t ∧ t.mem = s.mem ∧ t.groups = s.groups ∧ SMap.find? t.shoots i = some sh1 ∧
        sh1 = { sh with shot := true, waits := sh1.waits } ∧
        (∀ c, (t.core c).tlb = (s.core c).tlb.filter (fun e => !(e.ctx == sh.ctx && meets e sh.lo sh.hi))) ∧
        -- no L1 keeps a line of the range, nor a home a copy of a window line
        (∀ c line, SMap.find? (t.core c).l1 line =
          if ∃ p ∈ sh.phys, p.1 < 128 * (line + 1) ∧ 128 * line < p.2 then none else SMap.find? (s.core c).l1 line) ∧ t.farCopies = [] ∧
        -- it waits for nothing but accesses of its context that are not performed
        (∀ w ∈ sh1.waits, (∃ r, (w, r) ∈ s.reqs ∧ r.ctx = sh.ctx ∧ r.sp = .g ∧ r.performed = false) ∨
          (∃ c, (w, c) ∈ s.copies ∧ c.ctx = sh.ctx) ∨ (∃ e ∈ s.cores, ∃ o ∈ e.2.array.ops, o.id = w ∧ o.complete = false) ∨
          ∃ f, (w, f) ∈ s.farWrites ∧ f.ctx = sh.ctx) ∧
        -- and for every one to its range, copies of the copy units and writes to windows among them
        (∀ w r, (w, r) ∈ s.reqs → r.ctx = sh.ctx → r.sp = .g → r.performed = false → sh.lo < r.va.toNat + r.width → r.va.toNat < sh.hi →
          w ∈ sh1.waits) ∧
        (∀ w f, (w, f) ∈ s.farWrites → f.owner.engine = true → f.ctx = sh.ctx → sh.lo < f.va.toNat + f.n → f.va.toNat < sh.hi → w ∈ sh1.waits) ∧
        (∀ w c p, (w, c) ∈ s.copies → c.ctx = sh.ctx → c.unit = 16 → c.away s = false → p ∈ c.places → sh.lo < p.1 + p.2 → p.1 < sh.hi →
          w ∈ sh1.waits)) ∧
    (∀ i sh g, SMap.find? s.shoots i = some sh → sh.shot = true → (∀ w ∈ sh.waits, stillOut s w = false) →
      sh.granules = [] → (∀ e ∈ s.shoots, e.2.ctx = sh.ctx → i ≤ e.1) → s.group? sh.gid = some g → g.places = [] →
      g.status = .parked .maintenance →
      ∃ t h, exec (.shootdownComplete i) s = .next t ∧ t.group? sh.gid = some h ∧ h.pc = g.pcAfter ∧ h.status = .ready ∧ h.regs = g.regs ∧
        t.mem = s.mem ∧ SMap.find? t.shoots i = none ∧
        -- only groups that wait for a granule look at it again
        ∀ j y, j ≠ sh.gid → s.group? j = some y → ∃ z, t.group? j = some z ∧ z.pc = y.pc ∧ z.regs = y.regs ∧
          (y.places = [] → y.status ≠ .parked .granule → z = y)) ∧
    (∀ x j (q : Nat × BitVec 22), SMap.find? s.thaws x = some q → j < 6 → q.2.getLsbD j = true →
      ∃ t, exec (.thawRecallArrive x j) s = .next t ∧ t.mem = s.mem ∧ t.groups = s.groups ∧
        SMap.find? t.thaws x = some (q.1, q.2 &&& ~~~(BitVec.ofNat 22 (2 ^ j))) ∧
        (∀ c, c / 64 = j → (∀ e ∈ (t.core c).l1, e.1 / 512 ≠ x) ∧
          -- of each slice of the stack of the granule, whose lines they home (DEDUCED, log 66)
          ∀ sl, sl / 8 = homeSlice (65536 * x) / 8 → SMap.get (t.core c).recallSeq 0 sl = BitVec.ofNat 32 q.1)) ∧
    (∀ x (q : Nat × BitVec 22), SMap.find? s.thaws x = some q → q.2 = 0 →
      ∃ t, exec (.thawRecallComplete x) s = .next t ∧ t.mem = s.mem ∧ SameRegs s t ∧ entry t x = FreezeEntry.none ∧ t.thawGen = s.gen ∧
        SMap.find? t.thaws x = none ∧ (∀ i, i < 16 → SMap.get t.stamps 0 (16 * x + i) = s.gen) ∧
        (∀ j g, s.group? j = some g → g.status = .parked .granule → g.leaving = none → ∃ h, t.group? j = some h ∧ h.status = .ready ∧ h.pc = g.pc))

/-- R66, R67, R97, R98, R102, R226: `paint`, `unpaint`, `freeze` and `thaw`. -/
def Obligations.PaintingFreezing : Prop := Stmt.Painting ∧ Stmt.FreezeAndThaw

namespace Sys2Proof.Stmt

/-! ## Monitors (R69 to R77, R225) -/

/-- COLOURORDER with its colour. -/
def orderInfo (detail : Nat) (c : BitVec 12) : FaultInfo := { FaultInfo.of 11 detail with aux := BitVec.ofNat 16 c.toNat }

/-- The slate entry of a monitor. -/
def slate (s : State) (ctx c : Nat) : Slate := SMap.get s.slates Slate.free (slateKey ctx c)

/-- A scalar register is written by an instruction that blocks and leaves no latch result: it completes, and no other register changes. -/
def PutsS (s : State) (g : Group) (d : BitVec 6) (val : Word) (o : Out) : Prop :=
  ∃ t h, o = .next t ∧ t.group? s.cur = some h ∧ h.pc = g.pcAfter ∧ h.status = .ready ∧ h.regs.v = g.regs.v ∧ h.regs.m = g.regs.m ∧
    (∀ r, h.regs.rdS r = if r = d.toNat then val else g.regs.rdS r) ∧ (∀ j, j ≠ s.cur → t.group? j = s.group? j) ∧ t.mem = s.mem

/-- R74 to R77: `mwait` releases its colour and waits registered, `mnotify` and `mnotifyall` move registered groups to the queue of the
monitor, and `mheld` reads an entry of the held colours. -/
def MonitorInstructions : Prop :=
  ∀ (s : State) (g : Group) (k : BitVec 4) (c : BitVec 12), Issuing s g → g.parkHere = none → g.places = [] →
    let ctx := s.ctxOf g
    let es := s.green.filter (fun e => e.key == .colour ctx c.toNat)
    (g.eff k = 0 → ∀ d i, ∀ x ∈ [Instr.mwait k c, .mnotify k c, .mnotifyall k c, .mheld k d i], Falls s g true (exec x s)) ∧
    (g.eff k ≠ 0 →
      (c.toNat ∉ g.held.map Prod.fst → ∀ x ∈ [Instr.mwait k c, .mnotify k c, .mnotifyall k c],
        exec x s = .next (raise s s.cur (orderInfo 2 c))) ∧
      (∀ e, g.held.find? (fun e => e.1 == c.toNat) = some e →
        ((∃ x ∈ g.held, c.toNat < x.1) → exec (.mwait k c) s = .next (raise s s.cur (orderInfo 3 c))) ∧
        ((∀ x ∈ g.held, x.1 ≤ c.toNat) → coloursBusy s s.cur [c.toNat] = true → ∃ t, exec (.mwait k c) s = .next t ∧ Waits s t g .drain) ∧
        ((∀ x ∈ g.held, x.1 ≤ c.toNat) → coloursBusy s s.cur [c.toNat] = false →
          ∃ t h, exec (.mwait k c) s = .next t ∧ t.group? s.cur = some h ∧ h.held = g.held.filter (fun x => x.1 != c.toNat) ∧
            h.rewait = some e ∧ h.status = .waiting (.colour ctx c.toNat) ∧ h.pc = g.pc ∧ h.regs = g.regs ∧ t.mem = s.mem ∧
            (slate t ctx c.toNat).owner = none ∧ (slate t ctx c.toNat).queue = (slate s ctx c.toNat).queue ∧
            (let die := slateSlice ctx c.toNat / 16
             if (s.green.filter (fun x => x.die == die)).length < 4096 then
               t.green = s.green ++ [⟨die, s.cur, .colour ctx c.toNat⟩] ∧ SMap.find? t.backoffs s.cur = none
             else t.green = s.green ∧ ∃ b, SMap.find? t.backoffs s.cur = some b ∧ b.due = s.clock + b.delay ∧
               b.delay = match SMap.find? s.backoffs s.cur with | some x => Nat.min (2 * x.delay) 4096 | none => 64))) ∧
      (c.toNat ∈ g.held.map Prod.fst → es.Nodup → (es.map Green.gid).Nodup →
        (∀ e ∈ es, e.gid ≠ s.cur ∧ e.gid ∉ (slate s ctx c.toNat).queue ∧
          ∃ y, s.group? e.gid = some y ∧ y.places = [] ∧ y.status = .waiting (.colour ctx c.toNat)) →
        ∀ x take, (x = Instr.mnotify k c ∧ take = es.take 1) ∨ (x = Instr.mnotifyall k c ∧ take = es) →
          ∃ t h, exec x s = .next t ∧ t.group? s.cur = some h ∧ h.pc = g.pcAfter ∧ h.status = .ready ∧ h.regs = g.regs ∧ h.held = g.held ∧
            t.mem = s.mem ∧ t.green = s.green.filter (fun e => !take.contains e) ∧
            (slate t ctx c.toNat).queue = (slate s ctx c.toNat).queue ++ take.map Green.gid ∧
            (slate t ctx c.toNat).owner = (slate s ctx c.toNat).owner ∧
            (∀ e ∈ take, ∃ y, t.group? e.gid = some y ∧ y.status = .parked .monitor)) ∧
      -- the entries of `mheld` stand in ascending order of their colours
      (∀ d i (l : List (Nat × Nat)), l.Perm g.held → l.Pairwise (fun x y => x.1 < y.1) → PutsS s g d (BitVec.ofNat 64 (g.held.length * 2 ^ 16 +
        (match l[i.toNat]? with | some e => e.2 * 2 ^ 32 + e.1 | none => 0))) (exec (.mheld k d i) s)))

/-- R68 to R71, R74, R76, R82: a free monitor is granted to the head of its queue: the lines of the colour leave its L1, its crew is
volatile, and it holds the colour, and queues for the next one that its instruction needs; only an entry that the slate slice has no room for
is kept in memory. A group whose drain ended takes up its instruction; a group that is not registered joins the queue when
its back-off ends. -/
def MonitorEvents : Prop :=
  ∀ (s : State) (gid : Nat) (g : Group), s.group? gid = some g → g.places = [] → g.leaving = none →
    (∀ ctx c ws r k b, slate s ctx c = ⟨none, gid :: r, b⟩ → g.status = .parked .monitor → g.wants = c :: ws → ws.head? ≠ some c →
      s.crew? g.crew = some k → k.saved = false →
      ∃ t h y, exec (.monitorGrant ctx c) s = .next t ∧ slate t ctx c = ⟨some gid, r, b⟩ ∧ (b = false → t.mem = s.mem) ∧
        t.group? gid = some h ∧ h.regs = g.regs ∧
        (g.rewait = none → h.pc = g.pc ∧ h.held = g.held ++ [(c, g.frames.length)] ∧ h.wants = ws) ∧
        (g.rewait = none → ws = [] → h.status = .ready) ∧
        (∀ d ds, g.rewait = none → ws = d :: ds → slateKey ctx d ≠ slateKey ctx c → h.status = .parked .monitor ∧ gid ∈ (slate t ctx d).queue) ∧
        (∀ x d, g.rewait = some (x, d) → h.pc = g.pcAfter ∧ h.status = .ready ∧ h.rewait = none ∧ h.held = g.held ++ [(c, d)]) ∧
        (∀ e ∈ (t.core g.core).l1, e ∈ (s.core g.core).l1 ∧ (e.2.colour = c → e.2.frozen = true)) ∧
        (∀ e ∈ (s.core g.core).l1, e.2.colour ≠ c ∨ e.2.frozen = true → e ∈ (t.core g.core).l1) ∧
        t.crew? g.crew = some y ∧ y.rcd.vcause = k.rcd.vcause ||| 2#8) ∧
    (g.status = .parked .drain → ∃ t h, exec (.monitorRelease gid) s = .next t ∧ t.group? gid = some h ∧ h.status = .ready ∧ h.pc = g.pc ∧
      h.held = g.held ∧ h.regs = g.regs ∧ t.mem = s.mem) ∧
    (∀ ctx c b, g.status = .waiting (.colour ctx c) → SMap.find? s.backoffs gid = some b → b.due ≤ s.clock → gid ∉ (slate s ctx c).queue →
      ∃ t h, exec (.mwaitBackoffExpire gid) s = .next t ∧ t.group? gid = some h ∧ h.status = .parked .monitor ∧ h.regs = g.regs ∧
        (slate t ctx c).queue = (slate s ctx c).queue ++ [gid] ∧ SMap.find? t.backoffs gid = none ∧ t.mem = s.mem)

/-! ## Futures and spawn bins (R39, R40, R227 to R231, R233) -/

/-- The translation of a future, with the TLB filled by it. -/
def futureXl (s : State) (g : Group) (va : Word) (need : Need) : Except XErr Xl :=
  xlate (tlbFill s g.core (s.ctxOf g) va) g.core (s.ctxOf g) va g.sup need true

/-- R229 to R231, R40, R112: `fget` of a word whose bit 63 is set reads it and acquires, else the group waits registered at its address;
`fput` releases, writes the word with bit 63 set, and wakes every group registered there. -/
def Futures : Prop :=
  ∀ (s : State) (g : Group) (k : BitVec 4) (d : BitVec 6) (a b : SSrc), Issuing s g → g.parkHere = none → g.places = [] → g.sOk a = true →
    g.sOk b = true → g.eff k ≠ 0 →
    let va := g.sval a
    let u := tlbFill s g.core (s.ctxOf g) va
    (quiet s s.cur = false → ∃ t, exec (.fput k a b) s = .next t ∧ Waits s t g .counters) ∧
    (∀ i need, (i = Instr.fget k d a ∧ need = Need.read) ∨ (i = Instr.fput k a b ∧ need = Need.write ∧ quiet s s.cur = true) →
      (va.toNat % 8 ≠ 0 → exec i s = .next (raise u s.cur { FaultInfo.of 6 1 with addr := va })) ∧
      (∀ c d, va.toNat % 8 = 0 → c ≠ 0 → c ≠ 7 → futureXl s g va need = .error (.fault c d) → exec i s = .next (raiseCD u s.cur c d)) ∧
      (∀ x, va.toNat % 8 = 0 → futureXl s g va need = .ok x →
        (x.colour ≠ 0 → exec i s = .next (raise u s.cur { FaultInfo.of 8 3 with addr := va })) ∧
        (x.colour = 0 → inHbm x.pa = false → exec i s = .next (raise u s.cur { FaultInfo.of 8 4 with addr := va })))) ∧
    (∀ x, va.toNat % 8 = 0 → futureXl s g va .read = .ok x → x.colour = 0 → inHbm x.pa = true → poisoned s x.pa 8 = false →
      let w := Memory.readNat s.mem x.pa 8
      (2 ^ 63 ≤ w → PutsS s g d (BitVec.ofNat 64 (w - 2 ^ 63)) (exec (.fget k d a) s) ∧
        ∃ t, exec (.fget k d a) s = .next t ∧ ∀ e ∈ (t.core g.core).l1, e.2.frozen = true) ∧
      (w < 2 ^ 63 → (s.green.filter (fun e => e.die == homeSlice x.pa / 16)).length < 4096 →
        ∃ t h, exec (.fget k d a) s = .next t ∧ t.group? s.cur = some h ∧ h.status = .waiting (.future x.pa) ∧ h.pc = g.pc ∧
          h.regs = g.regs ∧ t.green = s.green ++ [⟨homeSlice x.pa / 16, s.cur, .future x.pa⟩] ∧ t.mem = s.mem)) ∧
    (∀ x, va.toNat % 8 = 0 → quiet s s.cur = true → futureXl s g va .write = .ok x → x.colour = 0 → inHbm x.pa = true →
      s.freezePoison = [] → s.stampPoison = [] →
      (granuleFrozen s x.pa = true → exec (.fput k a b) s = .next (raise u s.cur { FaultInfo.of 10 1 with addr := va })) ∧
      (granuleFrozen s x.pa = false → (∀ e ∈ s.green, e.key = .future x.pa → e.gid ≠ s.cur) →
        ∃ t h, exec (.fput k a b) s = .next t ∧ t.group? s.cur = some h ∧ h.pc = g.pcAfter ∧ h.status = .ready ∧ h.regs = g.regs ∧
          Stored s.mem t.mem x.pa 8 (BitVec.ofNat 64 ((g.sval b).toNat % 2 ^ 63 + 2 ^ 63)) ∧
          t.green = s.green.filter (fun e => e.key != .future x.pa) ∧
          (∀ e ∈ s.green, e.key = .future x.pa → ∀ y, s.group? e.gid = some y → y.places = [] → y.status = .waiting (.future x.pa) →
            ∃ z, t.group? e.gid = some z ∧ z.status = .ready ∧ z.pc = y.pc ∧ z.regs = y.regs))) ∧
    (∀ n, fencesHold s s.cur g = false → PutsS s g d (let c := s.ctx (s.ctxOf g)
      let code := (SMap.get c.cntcfg 0 n.toNat).toNat % 256
      if 32 ≤ code ∧ code ≤ 35 ∧ c.cntgrant = false then 0 else BitVec.ofNat 64 (SMap.get c.cnt 0 n.toNat).toNat) (exec (.rdcnt k d n) s))

/-- R40: the repeated check of a group that found the green room full. -/
def FutureBackoff : Prop :=
  ∀ (s : State) (gid : Nat) (g : Group) (pa : Nat) (b : Backoff), s.group? gid = some g → g.places = [] → g.status = .waiting (.future pa) →
    SMap.find? s.backoffs gid = some b → b.due ≤ s.clock →
    let die := homeSlice pa / 16
    ∃ t h, exec (.greenRoomBackoffExpire gid) s = .next t ∧ t.group? gid = some h ∧ h.regs = g.regs ∧ h.pc = g.pc ∧ t.mem = s.mem ∧
      (2 ^ 63 ≤ Memory.readNat s.mem pa 8 ∨ poisoned s pa 8 = true → h.status = .ready ∧ SMap.find? t.backoffs gid = none) ∧
      (Memory.readNat s.mem pa 8 < 2 ^ 63 → poisoned s pa 8 = false → h.status = g.status ∧
        if (s.green.filter (fun e => e.die == die)).length < 4096 then t.green = s.green ++ [⟨die, gid, .future pa⟩] ∧
          SMap.find? t.backoffs gid = none
        else t.green = s.green ∧ SMap.find? t.backoffs gid = some ⟨Nat.min (2 * b.delay) 4096, s.clock + Nat.min (2 * b.delay) 4096⟩)

/-- A bin holds the entry address of the context of a launch (R39; that an address names no bin of another context: DEDUCED, log 53). -/
def binHolds (s : State) (launch : Nat) (entry : Word) (b : Bin) : Bool :=
  b.entry == entry && (s.launch? b.launch).map Launch.ctx == (s.launch? launch).map Launch.ctx

/-- The bin of a core for an entry address of the context of a launch. -/
def binOf (s : State) (core launch : Nat) (entry : Word) : Option Bin := (s.core core).bins.find? (binHolds s launch entry)

/-- What a flushed bin becomes: threads that wait for placement. -/
def asFlushed (s : State) (core launch : Nat) (entry : Word) (ts : List (Nat × List W32)) : Flushed :=
  ⟨((s.launch? launch).map Launch.ctx).getD 0, launch, core, entry, ts.map Prod.snd, s.clock⟩

/-- R39, R227, R228: `spawn` releases, and adds one thread per lane to the bin of its entry on its core, whichever launch opened it; the bin is
flushed when it holds as many threads as the groups of its launch are wide. `binflush` flushes the bin of the issuing core for the address of `S[a]`,
and no other; without one, or with an empty mask, it does nothing. The end of a bin's time flushes it. -/
def SpawnBins : Prop :=
  (∀ (s : State) (g : Group) (k : BitVec 4) (a : SSrc) (c : Crew), Issuing s g → g.parkHere = none → g.sOk a = true → s.crewOf g = some c →
    g.eff k ≠ 0 →
    let va := g.sval a
    let found := binOf s g.core c.launch va
    let old := found.elim [] Bin.threads
    -- the launch of the bin: that of its first thread
    let lid := found.elim c.launch Bin.launch
    (∀ r : BitVec 9, (Instr.spawn k a (.reg r)).wf = true →
      (quiet s s.cur = false → ∃ t, exec (.spawn k a (.reg r)) s = .next t ∧ Waits s t g .counters) ∧
      (∀ l lc, quiet s s.cur = true → s.launch? lid = some l → s.launch? c.launch = some lc → old.length < l.w →
        (lanesOf (g.eff k)).length ≤ lc.w → ((s.core g.core).bins.filter (binHolds s c.launch va)).length ≤ 1 →
        (s.core g.core).bins.length < (if found = none then 32 else 33) →
        let all := old ++ (lanesOf (g.eff k)).map (fun l => (g.crew, (List.range 4).map (fun i => g.src.rdV (r.toNat + i) l)))
        ∃ t h y, exec (.spawn k a (.reg r)) s = .next t ∧ Passed s t g h ∧ t.crew? g.crew = some y ∧
          y.rcd.vcause = c.rcd.vcause ||| 4#8 ∧
          (all.length < l.w → t.flushed = s.flushed ∧
            (binOf t g.core c.launch va).map (fun b => (b.launch, b.threads)) = some (lid, all)) ∧
          (l.w ≤ all.length → t.flushed = s.flushed ++ [asFlushed s g.core lid va (all.take l.w)] ∧
            (binOf t g.core c.launch va).map (fun b => (b.launch, b.threads)) =
              if all.length = l.w then none else some (c.launch, all.drop l.w)))) ∧
    (∃ t h, exec (.binflush k a) s = .next t ∧ Passed s t g h ∧
      t.flushed = s.flushed ++ (match found with
        | some b => [asFlushed s g.core b.launch va b.threads]
        | none => []) ∧
      (((s.core g.core).bins.filter (binHolds s c.launch va)).length ≤ 1 →
        (t.core g.core).bins = (s.core g.core).bins.filter (fun b => !binHolds s c.launch va b)) ∧
      ∀ x, x ≠ g.core → (t.core x).bins = (s.core x).bins)) ∧
  (∀ (s : State) (g : Group) (k : BitVec 4) (a : SSrc), Issuing s g → g.sOk a = true → g.eff k = 0 →
    Falls s g true (exec (.binflush k a) s)) ∧
  (∀ (s : State) (core : Nat) (entry : Word) (pre post : List Bin) (b : Bin) (l : Launch),
    (s.core core).bins = pre ++ b :: post → b.entry = entry → s.launch? b.launch = some l → b.start + l.spawnt ≤ s.clock →
    (∀ x ∈ pre, x.entry ≠ entry ∨ ∃ k, s.launch? x.launch = some k ∧ s.clock < x.start + k.spawnt) →
    ∃ t, exec (.spawnBinTimerExpire core entry) s = .next t ∧ t.flushed = s.flushed ++ [asFlushed s core b.launch entry b.threads] ∧
      (t.core core).bins = pre ++ post ∧ t.mem = s.mem ∧ t.groups = s.groups)

end Sys2Proof.Stmt

/-- R69 to R77, R82, R225: the instructions of the implicit monitors, and the events that grant them. -/
def Obligations.Monitors : Prop := Stmt.MonitorInstructions ∧ Stmt.MonitorEvents

/-- R39, R40, R227 to R231, R233: futures, spawn bins and the reading of event counters. -/
def Obligations.FuturesAndSpawns : Prop := Stmt.Futures ∧ Stmt.FutureBackoff ∧ Stmt.SpawnBins

namespace Sys2Proof.Stmt

/-! ## Launches and retakes (R33 to R36, R84, R91 to R95, R232, R298, R299) -/

/-- The generation after the next advance (R84, R95). -/
def nextGen (s : State) : BitVec 32 := if s.gen = 0xFFFFFFFF then 1 else s.gen + 1

/-- No byte of `n` from an address lies in a window. -/
def Here (s : State) (a n : Nat) : Prop := ∀ i, i < n → inWindow s.lnkid (a + i) = false

/-- The words of a record whose halves lie at `p0` and `p1`. -/
def recordAt (s : State) (p0 p1 : Nat) : List (BitVec 64) :=
  (List.range 16).map (fun i => BitVec.ofNat 64 (Memory.readNat s.mem (if i < 8 then p0 + 8 * i else p1 + 8 * (i - 8)) 8))

/-- `n` bits of the word at a byte offset of a record. -/
def fieldOf (r : List (BitVec 64)) (o lo n : Nat) : Nat := (r.getD (o / 8) 0).toNat / 2 ^ lo % 2 ^ n

/-- A launch is listed as its record says, accepted with a generation (R33, R34, R299). -/
structure Accepted (t : State) (lid : Nat) (r : List (BitVec 64)) (ctx : Nat) (va : Word) (retake : Bool) (gen : BitVec 32) : Prop where
  listed : ∃ l, SMap.find? t.launches lid = some l ∧ l.state = 1 ∧ l.gen = gen ∧ l.ctx = ctx ∧ l.recAddr = va ∧ l.isRetake = retake ∧
    l.issuer = none ∧ l.entry = r.getD 0 0 ∧ l.gx = fieldOf r 0x08 0 32 ∧ l.gy = fieldOf r 0x08 32 16 ∧ l.gz = fieldOf r 0x08 48 16 ∧
    l.groups = fieldOf r 0x10 8 5 + 1 ∧ l.w = 16 * 2 ^ fieldOf r 0x10 18 2 ∧ l.nregs = 8 * (fieldOf r 0x10 20 6 + 1) ∧
    l.scratch = fieldOf r 0x10 32 3 ∧ l.prio = fieldOf r 0x10 38 2 ∧ l.param = r.getD 3 0 ∧ l.handler = r.getD 4 0 ∧ l.cont = r.getD 5 0 ∧
    (l.coop = true ↔ fieldOf r 0x10 35 1 = 1) ∧ (l.quad = true ↔ fieldOf r 0x10 36 1 = 1) ∧ (l.pair = true ↔ fieldOf r 0x10 37 1 = 1) ∧
    l.spawnt = (if fieldOf r 0x10 48 16 = 0 then 4096 else fieldOf r 0x10 48 16)
  gen : t.gen = gen
  leases : t.leases = []

/-- R33 to R35, R84, R232, R299: `launch` and `retake` read the record at `S[a]`, here one in HBM, and answer in `S[d]`: GEN and STATE 1 of an accepted
launch, which are written into the record and for which the generation advances; or GEN, REASON and STATE 5 of a rejected one, with a
fault record of cause 33; 7 alone leaves the record as it was. Before that: ALIGN 2, the translation of both halves, a release, and room
among 256 launches. -/
def LaunchInstructions : Prop :=
  ∀ (s : State) (g : Group) (k : BitVec 4) (d : BitVec 6) (a : SSrc) (i : Instr) (retake : Bool), Issuing s g → g.parkHere = none →
    g.sOk a = true → g.eff k ≠ 0 → (i = .launch k d a ∧ retake = false) ∨ (i = .retake k d a ∧ retake = true) →
    let va := g.sval a
    let ctx := s.ctxOf g
    let u := tlbFill (tlbFill s g.core ctx va) g.core ctx (va + 64)
    -- its submission, once it has made one
    (∀ x w, g.subHere = some x → x.answer = some w → PutsS s g d w (exec i s)) ∧
    (∀ x, g.subHere = some x → x.answer = none → ∃ t, exec i s = .next t ∧ Waits s t g .launch) ∧
    (g.subHere = none →
      (va.toNat % 64 ≠ 0 → exec i s = .next (raiseCD u s.cur 6 2)) ∧
      (∀ c e, va.toNat % 64 = 0 → c ≠ 7 → xlate u g.core ctx va g.sup .write true = .error (.fault c e) →
        exec i s = .next (raiseCD u s.cur c e)) ∧
      (∀ x0 x1, va.toNat % 64 = 0 → xlate u g.core ctx va g.sup .write true = .ok x0 →
        xlate u g.core ctx (va + 64) g.sup .write true = .ok x1 →
        (quiet s s.cur = false → ∃ t, exec i s = .next t ∧ OnlyFlow s t { g with status := .parked .counters, issued := true, stamp := s.clock }) ∧
        (quiet s s.cur = true → 256 ≤ (s.launches.filter (fun e => e.2.ctx == ctx && decide (1 ≤ e.2.state ∧ e.2.state ≤ 3))).length →
          ∃ t, exec i s = .next t ∧ OnlyFlow s t { g with status := .parked .launch, issued := true, stamp := s.clock }) ∧
        (quiet s s.cur = true → (s.launches.filter (fun e => e.2.ctx == ctx && decide (1 ≤ e.2.state ∧ e.2.state ≤ 3))).length < 256 →
          Here s x0.pa 64 → Here s x1.pa 64 → submitFar s ctx x0.pa x1.pa = none → granuleFrozen s (x1.pa + 0x30) = false → x1.pa % 64 = 0 →
          let r := recordAt s x0.pa x1.pa
          let say := fun (t : State) (h : Group) (w : Word) => exec i s = .next t ∧ t.group? s.cur = some h ∧ h.pc = g.pcAfter ∧
            h.status = .ready ∧ h.regs.v = g.regs.v ∧ h.regs.m = g.regs.m ∧ ∀ n, h.regs.rdS n = if n = d.toNat then w else g.regs.rdS n
          (reasonOf s ctx retake r = none →
            let w := BitVec.ofNat 64 ((nextGen s).toNat * 2 ^ 32 + 1)
            ∃ t h, say t h w ∧ Accepted t s.nextId r ctx va retake (nextGen s) ∧ Stored s.mem t.mem (x1.pa + 0x30) 8 w) ∧
          (∀ n pa, reasonOf s ctx retake r = some n → RingReady s ctx pa → pa + 32 ≤ x1.pa + 0x30 ∨ x1.pa + 0x38 ≤ pa →
            let w := BitVec.ofNat 64 ((if n = 7 then 0 else fieldOf r 0x70 32 32) * 2 ^ 32 + n * 256 + 5)
            ∃ t h, say t h w ∧ SMap.find? t.launches s.nextId = none ∧ t.gen = s.gen ∧
              (∀ j x, (recordOf (s.ctx ctx).fqseq 2 0 0 0 { FaultInfo.of 33 n with addr := va })[j]? = some x →
                Memory.readNat t.mem (pa + 8 * j) 8 = x) ∧
              (n ≠ 7 → Memory.readNat t.mem (x1.pa + 0x30) 8 = w.toNat) ∧
              (∀ b, b < pa ∨ pa + 32 ≤ b → b < x1.pa + 0x30 ∨ x1.pa + 0x38 ≤ b ∨ n = 7 → Memory.byte t.mem b = Memory.byte s.mem b)))))

/-- R35: REASON 7 stands before every other; a rejected record has the lowest REASON that holds. Some of the conditions. -/
def LaunchReasons : Prop :=
  ∀ (s : State) (ctx : Nat) (retake : Bool) (r : List (BitVec 64)),
    let st := fieldOf r 0x70 0 4
    let crews := fieldOf r 0x08 0 32 * fieldOf r 0x08 32 16 * fieldOf r 0x08 48 16
    (1 ≤ st → st ≤ 3 → reasonOf s ctx retake r = some 7) ∧
    (st = 0 ∨ 4 ≤ st →
      (crews = 0 ∨ 2 ^ 32 ≤ crews ∨ fieldOf r 0x10 0 8 ≠ 0 ∨ fieldOf r 0x10 18 2 = 3 ∨ 6 ≤ fieldOf r 0x10 32 3 ∨ r.getD 15 0 ≠ 0 →
        reasonOf s ctx retake r = some 1) ∧
      (reasonOf s ctx retake r ≠ some 1 →
        (fieldOf r 0 0 6 ≠ 0 ∨ fieldOf r 0x28 0 8 ≠ 0 → reasonOf s ctx retake r = some 2) ∧
        (reasonOf s ctx retake r ≠ some 2 →
          (16 ≤ fieldOf r 0x10 8 5 → fieldOf r 0x10 37 1 = 0 → reasonOf s ctx retake r = some 3))) ∧
      (reasonOf s ctx retake r = none → retake = true → 4 ≤ st ∧ st ≠ 5 ∧ r.getD 5 0 ≠ 0))

/-- R298: the mailbox submits the address at its head as `launch` does, and drops one that is misaligned with a record of REASON 11. -/
def MailboxTakes : Prop :=
  ∀ (s : State) (ctx : Nat) (va : Word) (q : List Word), (s.ctx ctx).mailbox = va :: q → (s.ctx ctx).mailBusy = none →
    s.cryo.st ≠ 0 → s.cryo.st ≠ 7 →
    (∀ pa, va.toNat % 64 ≠ 0 → RingReady s ctx pa →
      ∃ t, exec (.mailboxEntryTake ctx) s = .next t ∧ (t.ctx ctx).mailbox = q ∧
        Recorded s t ctx pa (recordOf (s.ctx ctx).fqseq 2 0 0 0 { FaultInfo.of 33 11 with addr := va })) ∧
    (∀ x0 x1, va.toNat % 64 = 0 → xlateWalk s ctx va false ⟨true, true, false⟩ true = .ok x0 →
      xlateWalk s ctx (va + 64) false ⟨true, true, false⟩ true = .ok x1 →
      (s.launches.filter (fun e => e.2.ctx == ctx && decide (1 ≤ e.2.state ∧ e.2.state ≤ 3))).length < 256 →
      Here s x0.pa 64 → Here s x1.pa 64 → submitFar s ctx x0.pa x1.pa = none →
      reasonOf s ctx false (recordAt s x0.pa x1.pa) = none → granuleFrozen s (x1.pa + 0x30) = false → x1.pa % 64 = 0 →
      ∃ t, exec (.mailboxEntryTake ctx) s = .next t ∧ (t.ctx ctx).mailbox = q ∧ t.groups = s.groups ∧
        Accepted t s.nextId (recordAt s x0.pa x1.pa) ctx va false (nextGen s) ∧
        Stored s.mem t.mem (x1.pa + 0x30) 8 (BitVec.ofNat 64 ((nextGen s).toNat * 2 ^ 32 + 1)))

/-- The stamp of a tile in a range of a continuity entry is above its generation (R92). -/
def newerIn (s : State) (w cgen : Nat) : Prop :=
  ∃ e ∈ s.stamps, w / 2 ^ 24 ≤ e.1 ∧ e.1 ≤ w / 2 ^ 24 + w % 2 ^ 24 ∧ cgen < e.2.toNat

/-- A crew re-runs by its continuity entry (R92): it is not valid, of another epoch, volatile, overflowed, of a thaw since, or one of its
ranges was written since. -/
def reruns (s : State) (r : List (BitVec 64)) : Prop :=
  let cgen := fieldOf r 0 32 32
  fieldOf r 0 0 1 = 0 ∨ fieldOf r 0 16 8 ≠ s.epoch.toNat ∨ fieldOf r 0 1 1 = 1 ∨ fieldOf r 0 2 1 = 1 ∨
    (fieldOf r 0 3 1 = 1 ∧ cgen < s.thawGen.toNat) ∨
    (∃ i, i < fieldOf r 0 11 5 ∧ i < 24 ∧ newerIn s (r.getD (2 + i) 0).toNat cgen) ∨
    (∃ i, i < fieldOf r 0 8 3 ∧ i < 6 ∧ newerIn s (r.getD (26 + i) 0).toNat cgen)

/-- R36, R92, R93, R95: the decision of a retake, whose predecessors and entries lie in HBM: it waits for a predecessor, one that reads
STATE 5 rejects it, and once all are satisfied it says which crews re-run; with none the retake is complete. And the end of the clearing of
the stamp map. -/
def RetakeDecides : Prop :=
  (∀ (s : State) (lid : Nat) (l : Launch), s.launch? lid = some l → l.isRetake = true → l.decided = false → l.state = 1 →
    l.clearing = false → l.issuer = none → l.reject = 0 → l.met5 = false → decisionFar s l = none → s.memPoison = [] → s.stampPoison = [] → (∀ p ∈ l.preds, inWindow s.lnkid p = false) →
    let st := l.preds.map (fun p => Memory.readNat s.mem p 8 % 16)
    (5 ∉ st → (∃ x ∈ st, x ≠ 0 ∧ x ≠ 3 ∧ x ≠ 4) → exec (.retakeDecision lid) s = .next s) ∧
    (∀ pa, 5 ∈ st → RingReady s l.ctx pa →
      ∃ t, exec (.retakeDecision lid) s = .next t ∧ t.launch? lid = none ∧ t.gen = s.gen ∧ (t.ctx l.ctx).fqseq = (s.ctx l.ctx).fqseq + 1) ∧
    ((∀ x ∈ st, x = 0 ∨ x = 3 ∨ x = 4) → l.coop = false → l.quad = false →
      (∀ k, k < l.gx * l.gy * l.gz → ∃ x, xlateWalk s l.ctx (l.cont + BitVec.ofNat 64 (256 * k)) false .read false = .ok x ∧ Here s x.pa 256) →
      ∃ t, exec (.retakeDecision lid) s = .next t ∧
        let must := fun (k : Nat) => ∀ x, xlateWalk s l.ctx (l.cont + BitVec.ofNat 64 (256 * k)) false .read false = .ok x →
          reruns s ((List.range 32).map (fun i => BitVec.ofNat 64 (Memory.readNat s.mem (x.pa + 8 * i) 8)))
        ((∃ k, k < l.gx * l.gy * l.gz ∧ must k) → ∃ m rr, t.launch? lid = some m ∧ m.decided = true ∧ m.state = 1 ∧ m.rerun = some rr ∧
          ∀ k, k ∈ rr ↔ k < l.gx * l.gy * l.gz ∧ must k) ∧
        ((∀ k, k < l.gx * l.gy * l.gz → ¬must k) → t.launch? lid = none ∧ t.gen = nextGen s))) ∧
  (∀ s : State, ∃ t, exec .stampMapCleared s = .next t ∧ t.clearing = false ∧ t.mem = s.mem ∧ t.groups = s.groups ∧
    (∀ lid, t.launch? lid = (s.launch? lid).map (fun l => { l with clearing := false })))

end Sys2Proof.Stmt

/-- R33 to R36, R84, R91 to R95, R232, R298, R299: launches, retakes and the mailbox. -/
def Obligations.LaunchesAndRetakes : Prop :=
  Stmt.LaunchInstructions ∧ Stmt.LaunchReasons ∧ Stmt.MailboxTakes ∧ Stmt.RetakeDecides

namespace Sys2Proof.Stmt

/-! ## Placement, retirement and pre-emption (R26 to R30, R36 to R42, R73, R117, R276 to R282, R297, R301 to R311) -/

/-- A crew has started on its cores, with its groups at the entry: every register 0, every lane live (R30). `old` bounds the identities
that were in use. -/
structure Started (t : State) (old : Nat) (l : Launch) (lid ctx idx base : Nat) : Prop where
  crew : ∃ cid c, old ≤ cid ∧ t.crew? cid = some c ∧ c.idx = idx ∧ c.launch = lid ∧ c.ctx = ctx ∧ c.spawned = false ∧
    c.cores = (if l.pair then [base, base + 1] else [base]) ∧ c.started = l.groups ∧ c.gids.length = l.groups ∧ c.scratch = [] ∧
    c.scratchBytes = l.scratch * 65536 * (if l.pair then 2 else 1) ∧ c.rcd = .empty ∧
    ∀ i gid, c.gids[i]? = some gid → ∃ g, t.group? gid = some g ∧ g.crew = cid ∧ g.idx = i ∧ g.pc = l.entry ∧ g.entered = false ∧
      g.needBt = true ∧ g.regs = .zero ∧ g.w = l.w ∧ g.nregs = l.nregs ∧ g.live = fullMask l.w ∧ g.active = fullMask l.w ∧
      g.status = .ready ∧ g.sup = false ∧ g.stack = [] ∧ g.frames = [] ∧ g.held = [] ∧ g.core ∈ c.cores

/-- R26 to R30, R39, R301 to R303, R307: the head unit of an eligible launch starts on cores that it fits, and its launch goes to STATE 2;
a flushed group starts with its threads' arguments in `v0` to `v3`; ageing, reservation and migration. -/
def PlacementEvents : Prop :=
  ∀ (s : State),
    (∀ lid l bases, s.launch? lid = some l → eligible s l = true → placing s l.ctx = true → slotsOk s l.unit = true →
      headDue s l.ctx (.launch lid l.begun) = false → anyFits s (unitsBefore s l) = false → unitFits s l.unit bases = true →
      (∀ c ∈ l.unit.cores bases, mayUse s (.launch lid l.begun) c = true) → (l.state = 1 → predFar s l = none) →
      ∃ t m, exec (.crewPlace false lid bases) s = .next t ∧ t.launch? lid = some m ∧ m.state = 2 ∧ m.boost = 0 ∧
        m.begun = l.begun + l.unit.crews.length ∧ (∀ p ∈ l.unit.crews.zip bases, Started t s.nextId l lid l.ctx p.1 p.2) ∧
        (∀ j, j < s.nextId → t.group? j = s.group? j) ∧ (l.state = 2 → t.mem = s.mem)) ∧
    (∀ f r l core, s.flushed = f :: r → s.launch? f.launch = some l → placing s f.ctx = true → slotsOk s (f.unit s) = true →
      spawnCore s (f.unit s) (mayUse s (.spawn f)) = some core → (∀ a ∈ f.threads, a.length = 4) → f.threads.length ≤ 64 →
      ∃ t cid c gid g, exec (.crewPlace true 0 [core]) s = .next t ∧ t.flushed = r ∧ t.crew? cid = some c ∧ c.spawned = true ∧
        c.ctx = f.ctx ∧ c.launch = f.launch ∧ c.cores = [core] ∧ c.gids = [gid] ∧ t.group? gid = some g ∧ g.pc = f.entry ∧
        g.live = fullMask f.threads.length ∧ g.w = l.w ∧ g.nregs = l.nregs ∧ t.mem = s.mem ∧
        (∀ n l, n < 4 → l < f.threads.length → g.regs.rdV n l = (f.threads.getD l []).getD n 0) ∧
        (∀ j, j < s.nextId → t.group? j = s.group? j)) ∧
    (∀ lid l e, s.launch? lid = some l → l.eligibleSince = some e → eligible s l = true →
      let step := 2 ^ (((s.ctx l.ctx).schedctl.toNat / 2 ^ 4) % 2 ^ 4 + 10)
      e + step ≤ s.clock → ∃ t, exec (.priorityAgeing lid) s = .next t ∧
        t.launch? lid = some { l with boost := Nat.min 3 (l.boost + 1), eligibleSince := some (e + step) }) ∧
    (∀ ctx k u e bases, headOf s ctx = some (k, u, some e) → placing s ctx = true → reservedFor s k = none →
      e + 256 * Nat.max 1 ((s.ctx ctx).schedctl.toNat / 2 ^ 16 % 2 ^ 16) ≤ s.clock → unitCanFit s k u = false →
      unitFits { s with groups := [], crews := [] } u bases = true → (∀ h, u.home = some h → ∀ b ∈ bases, b / 64 = h / 64) →
      (∀ c ∈ u.cores bases, mayUse s k c = true) →
      ∃ t, exec (.headReservation ctx bases) s = .next t ∧ reservedFor t k = some (u.cores bases) ∧
        (∀ j, j ≠ k → ∀ c ∈ u.cores bases, mayUse t j c = false) ∧ t.groups = s.groups ∧ t.mem = s.mem) ∧
    (∀ cid, together s cid ≠ [] → (∀ k ∈ together s cid, ∃ c, s.crew? k = some c ∧ mayMigrate s c = true) →
      ∃ t, exec (.crewMigrate cid) s = .next t ∧ (∀ k ∈ together s cid, (t.crew? k).map Crew.migrating = some true) ∧ t.mem = s.mem)

/-- R38, R41, R42, R73, R117: a group that leaves, with nothing outstanding, is gone, its monitors free; its crew goes with its last group, and
the launch with its last crew: the generation advances and STATE 4 is written; `trigger` completes when the stores are performed. -/
def RetirementEvents : Prop :=
  ∀ (s : State) (gid : Nat) (g : Group) (c : Crew), s.group? gid = some g → s.crew? g.crew = some c →
    (∀ why, g.leaving = some why → g.stopped = false → entryFar s g.crew = none → g.lc = [] → g.sc = [] → g.cc = [] → g.xc = [] → g.heldFaults = [] → g.parks = [] →
      coloursBusy s gid g.colours = false →
      ∃ t, exec (.groupRetire gid) s = .next t ∧ t.group? gid = none ∧
        (∀ k, (SMap.get t.slates Slate.free k).owner ≠ some gid ∧ gid ∉ (SMap.get t.slates Slate.free k).queue) ∧
        (∀ e ∈ t.green, e.gid ≠ gid) ∧
        ((∃ j ∈ c.gids, j ≠ gid) → t.mem = s.mem ∧ ∃ k, t.crew? g.crew = some k ∧ k.gids = c.gids.filter (· != gid) ∧
          (k.rcd.broken = true ↔ c.rcd.broken = true ∨ why ≠ .exit)) ∧
        (∀ l, (∀ j ∈ c.gids, j = gid) → s.launch? c.launch = some l → l.cont = 0 → t.crew? g.crew = none ∧
          (l.begun < l.toRun → t.mem = s.mem ∧ t.launch? c.launch = some { l with retired := l.retired + 1 }) ∧
          (l.toRun ≤ l.begun → 2 ≤ l.state → (∀ e ∈ s.crews, e.2.launch = c.launch → e.1 = g.crew) →
            (∀ f ∈ s.flushed, f.launch ≠ c.launch) → (∀ k ∈ s.cores, ∀ b ∈ k.2.bins, b.launch ≠ c.launch) →
            inWindow s.lnkid l.pa = false → granuleFrozen s l.pa = false → granuleFrozen s (l.pa + 7) = false →
            t.launch? c.launch = none ∧ t.gen = nextGen s ∧
              Memory.readNat t.mem l.pa 8 = l.gen.toNat * 2 ^ 32 + l.reject % 256 * 2 ^ 8 + 4))) ∧
    (g.status = .parked .trigger → g.places = [] → storesPending s gid = false →
      ∃ t h k, exec (.triggerComplete gid) s = .next t ∧ t.group? gid = some h ∧ h.pc = g.pcAfter ∧ h.status = .ready ∧ h.regs = g.regs ∧
        t.crew? g.crew = some k ∧ k.triggered = true)

/-- R276, R278, R297: a record that waited is written once there is room, and its group traps as it would have; the pager's request traps a
group where it stands, with PAGE 3 at the address posted. -/
def LateTraps : Prop :=
  ∀ (s : State) (gid : Nat) (g : Group) (pa : Nat), s.group? gid = some g → RingReady s (s.ctxOf g) pa →
    let rcd := (s.ctx (s.ctxOf g)).fqbase + BitVec.ofNat 64 (32 * (s.ctx (s.ctxOf g)).fqtail)
    (∀ id p f, SMap.find? s.pends id = some p → p.gid = some gid → p.recs = [f] → f.cause < 36 → p.deliv = 0 → p.launch = none →
      p.ctx = s.ctxOf g → g.pend = some id → (∀ x ∈ g.places, x.pend ≠ some id) →
      ∃ t h, exec (.faultRecordWrite id) s = .next t ∧ t.group? gid = some h ∧ Trapped s g h f.cause f.detail rcd p.pc ∧ h.pend = none ∧
        Recorded s t p.ctx pa (recordOf (s.ctx p.ctx).fqseq 0 p.pc p.grp p.crewIdx f) ∧ SMap.find? t.pends id = none) ∧
    (∀ va, g.pager = some va → pagerPoint s gid g = true → g.status ≠ .parked .idle →
      ∃ t h nest, exec (.pagerRequest gid va) s = .next t ∧ t.group? gid = some h ∧ Trapped s g h 7 3 rcd g.pc ∧ h.pager = none ∧
        h.leaving = none ∧ h.wants = [] ∧ h.rewait = none ∧ h.passed = none ∧
        h.places = ⟨g.pc, g.status, g.wants, g.rewait, g.frames.length, g.passed, g.leaving, g.pair, g.issued, false, nest, none⟩ :: g.places ∧
        -- the trap that it was in already, to which `eret` returns it
        (g.sup = false → nest = none) ∧
        (g.sup = true → ∃ n, nest = some n ∧ n.tcause = g.tcause ∧ n.tpc = g.tpc ∧ n.trec = g.trec ∧ n.tmask = g.tmask) ∧
        Recorded s t (s.ctxOf g) pa (recordOf (s.ctx (s.ctxOf g)).fqseq 0 g.pc g.idx (crewIdx s g) { FaultInfo.of 7 3 with addr := va })) ∧
    -- a group in `idle` completes it first (R274)
    (∀ va, g.pager = some va → g.status = .parked .idle → g.sup = true → g.leaving = none → mayTrap s g = true →
      ∃ t h, exec (.pagerRequest gid va) s = .next t ∧ t.group? gid = some h ∧ h.sup = true ∧ h.tcause = 0x30007 ∧ h.tpc = g.pcAfter ∧
        h.pc = s.tvec ∧ h.pager = none ∧ h.regs = g.regs ∧ SMap.find? t.idles gid = none)

/-- R279 to R282, R311: a request stops the groups that stand at a stop point; crews that are stopped and quiet are saved together with those that
belong with them, the matrix group of each being entered at PREEMPT first; what a save slot takes is the model's free values (log 9), and no byte
outside the pages of the slots that take it changes; saved crews are restored together on cores that they fit; the quantum, and a context without work
that gives way; and the halt of an array. -/
def PreemptionEvents : Prop :=
  ∀ (s : State),
    (∀ cid, (∃ k ∈ together s cid, ∃ c, s.crew? k = some c ∧ preemptReason s c = true) →
      ∃ t, exec (.preemptRequest cid) s = .next t ∧ t.mem = s.mem ∧ SameRegs s t ∧
        ∀ k ∈ together s cid, ∀ c, s.crew? k = some c → c.saved = false → (t.crew? k).map Crew.preempt = some true ∧
          ∀ gid g, gid ∈ c.gids → s.group? gid = some g → g.crew = k → atStop s gid g = true → c.preempt = false →
            (t.group? gid).map Group.stopped = some true) ∧
    (∀ cid c, s.crew? cid = some c → c.preempt = true → c.saved = false → crewQuiet s cid = true →
      (∀ gid ∈ c.gids, ∀ g, s.group? gid = some g → g.stopped = true) →
      (imageDue s cid c = none → (∀ k ∈ together s cid, saveReady s k = true) →
        (∀ k ∈ together s cid, ∀ d, s.crew? k = some d → d.saved = false → slotFar s d = none) →
        ∃ t, exec (.crewSave cid) s = .next t ∧ SameRegs s t ∧
          (∀ k ∈ together s cid, ∀ d, s.crew? k = some d → d.saved = false →
            (∃ e, t.crew? k = some e ∧ e.saved = true ∧ e.preempt = false) ∧ ∀ x ∈ d.cores, (t.core x).array.holder ≠ some k) ∧
          -- a byte that changes lies in a page of the slot of one of them
          (∀ a, (∀ k ∈ together s cid, ∀ d, s.crew? k = some d → d.saved = false → ∀ p ∈ slotPages s d, ∀ x,
              xlateWalk s d.ctx (slotVa s d p) true .write false = .ok x → a < x.pa ∨ x.pa + 4096 ≤ a) →
            Memory.byte t.mem a = Memory.byte s.mem a)) ∧
      (∀ m g, c.matrixGroup = some m → s.group? m = some g → c.hasImage = false → g.sup = false →
        (s.core g.core).array.holder = some cid →
        ∃ t h, exec (.crewSave cid) s = .next t ∧ t.group? m = some h ∧
          Trapped s g h 34 0 ((s.ctx c.ctx).svbase + BitVec.ofNat 64 (0x300000 * c.slot + 0x2B0000)) g.pc ∧
          (t.crew? cid).map Crew.hasImage = some true ∧ t.mem = s.mem)) ∧
    -- the pages of a slot lie in its 3 MiB, before its image area
    (∀ c : Crew, c.scratchBytes ≤ 655360 → (∀ gid ∈ c.gids, ∀ g, s.group? gid = some g → g.idx < 32) → ∀ p ∈ slotPages s c, p < 0x2B0) ∧
    (∀ cid c bases, s.crew? cid = some c → s.running = true → (s.ctx c.ctx).scheduled = true → (s.ctx c.ctx).switching = false →
      let us := together s cid
      cid ∈ us → us.Nodup → (∀ k ∈ us, ∃ d, s.crew? k = some d ∧ d.ctx = c.ctx ∧ d.saved = true ∧ d.migrating = false ∧ d.hasImage = false ∧
        ∀ gid ∈ d.gids, ∀ g, s.group? gid = some g → g.crew = k) →
      unitFits s (crewUnit s (us.filterMap s.crew?)) bases = true →
      ∃ t, exec (.crewRestore cid bases) s = .next t ∧ t.mem = s.mem ∧
        ∀ k base d, (k, base) ∈ us.zip bases → s.crew? k = some d →
          ∃ e, t.crew? k = some e ∧ e.saved = false ∧ e.preempt = false ∧ e.gids = d.gids ∧ e.scratch = d.scratch ∧
            e.cores = (if d.cores.length = 2 then [base, base + 1] else [base]) ∧
            ∀ gid g, gid ∈ d.gids → s.group? gid = some g → ∃ h, t.group? gid = some h ∧ h.stopped = false ∧ h.regs = g.regs ∧ h.core ∈ e.cores) ∧
    (∀ x, (s.ctx x).scheduled = true → (s.ctx x).switching = false → (s.ctx x).restoring = false →
      (hasWork s x = false → (partners s x).any (hasWork s) = true → ∃ t, exec (.quantumExpire x) s = .next t ∧ (t.ctx x).scheduled = false ∧
        (t.ctx x).switching = false ∧ t.groups = s.groups ∧ t.mem = s.mem) ∧
      ((s.ctx x).quantumStart + 8400000 * Nat.max 1 ((s.ctx x).vfcfg.toNat / 2 ^ 32 % 2 ^ 8) ≤ s.time →
      ((partners s x).any (hasWork s) = false → ∃ t, exec (.quantumExpire x) s = .next t ∧ (t.ctx x).quantumStart = s.time ∧
        (t.ctx x).scheduled = true ∧ t.groups = s.groups ∧ t.mem = s.mem) ∧
      ((partners s x).any (hasWork s) = true → (∃ e ∈ s.crews, e.2.ctx = x ∧ e.2.saved = false) →
        ∃ t, exec (.quantumExpire x) s = .next t ∧ (t.ctx x).switching = true ∧ (t.ctx x).scheduled = true ∧ t.groups = s.groups))) ∧
    (∀ core, (s.core core).array.halt = true → (s.core core).array.halted = false → jointInFlight s (s.core core).array = false →
      ∃ t, exec (.arrayHalt core) s = .next t ∧ (t.core core).array = { (s.core core).array with halted := true } ∧ t.mem = s.mem ∧
        ∀ gid g, s.group? gid = some g → g.core = core → g.status = .parked .image → g.leaving = none → g.places = [] →
          ∃ h, t.group? gid = some h ∧ h.status = .ready ∧ h.pc = g.pc)

end Sys2Proof.Stmt

/-- R26 to R30, R39, R301 to R303, R307: placement. -/
def Sys2Proof.Stmt.Placement : Prop := Stmt.PlacementEvents

/-- R38, R41, R42, R73, R117, R276, R278, R297: retirement, the early trigger, and traps that come late. -/
def Obligations.Retirement : Prop := Stmt.RetirementEvents ∧ Stmt.LateTraps

/-- R279 to R282, R311: pre-emption, saves, restores and quanta. -/
def Sys2Proof.Stmt.Preemption : Prop := Stmt.PreemptionEvents

/-- R26 to R30, R39, R279 to R282, R301 to R303, R307, R311: crews placed, stopped, saved and restored. -/
def Obligations.PlacementAndPreemption : Prop := Stmt.Placement ∧ Stmt.Preemption

namespace Sys2Proof.Stmt

/-! ## Fetch and the issue cycle (R149 to R152, R274, R288, R305) -/

/-- Bit `k` of the line word. -/
def lineBit (line : BitVec 512) (k : Nat) : Bool := line.getLsbD (480 + k)

/-- The class of a slot: the three highest bits of its word (R155, R170). -/
def classAt (line : BitVec 512) (i : Nat) : Nat := line.toNat / 2 ^ (96 * i + 93) % 8

/-- What may stand beside an instruction of class 010, 011 or 100. -/
def mates (a b : Nat) : Bool := (a == 2 || a == 3 || a == 4) && (b == 0 || b == 1 || b == 5)

/-- The conditions of R150 by detail. -/
def lineBad (g : Group) (line : BitVec 512) (d : Nat) : Prop :=
  match d with
  | 1 => line.toNat / 2 ^ 480 % 2 ^ 18 ≠ 0
  | 2 => ∃ i, i < 5 ∧ (ones (BitVec.ofNat 96 (line.toNat / 2 ^ (96 * i))) 96 + (if lineBit line (27 + i) then 1 else 0)) % 2 = 1
  | 3 => ∃ j, j < 3 ∧ lineBit line (18 + j) = true ∧ lineBit line (19 + j) = true
  | 4 => ∃ j, j < 4 ∧ lineBit line (18 + j) = true ∧
      (mates (classAt line j) (classAt line (j + 1)) || mates (classAt line (j + 1)) (classAt line j)) = false
  | 5 => ∃ j, j < 4 ∧ lineBit line (18 + j) = true ∧ ∃ k, k ∈ slotDests g.nregs g.w line j ∧ k ∈ slotDests g.nregs g.w line (j + 1)
  | 6 => ∃ j, j < 4 ∧ lineBit line (18 + j) = true ∧ lineBit line (23 + j) = true
  | _ => False

/-- R149 to R152: a group that stands before a line checks the form of its program counter, translates the line for execution, and checks
the line word in the order of its details; where it passes, and BT is set where the entry needs it, the group has entered the line, as its
home holds it but for the bits `err` that arrive wrong. A first parity failure is logged and the line is fetched again. -/
def LineEntry : Prop :=
  ∀ (s : State) (gid : Nat) (g : Group) (err : BitVec 512) (e : Instr), s.group? gid = some g → maySelect s g = true → g.entered = false →
    g.pager = none ∨ g.sup = true → (g.refetched = false ∧ e = .lineFetch gid err) ∨ (g.refetched = true ∧ e = .lineRefetch gid err) →
    let va := g.pc &&& ~~~(63 : Word)
    let u := tlbFill s g.core (s.ctxOf g) va
    (4 < g.pc.toNat % 8 ∨ g.pc.toNat % 64 / 8 ≠ 0 → exec e s = .next (raiseCD s gid 1 9)) ∧
    (g.pc.toNat % 8 ≤ 4 → g.pc.toNat % 64 / 8 = 0 →
      (∀ c d, xlate s g.core (s.ctxOf g) va g.sup .exec false = .error (.fault c d) →
        exec e s = .next (raiseCD s gid c d)) ∧
      (∀ d col sz, xlate s g.core (s.ctxOf g) va g.sup .exec false = .error (.page d col sz) →
        exec e s = .next (raise s gid { FaultInfo.of 7 d with replay := true, addr := va })) ∧
      (∀ x, xlate s g.core (s.ctxOf g) va g.sup .exec false = .ok x → inWindow s.lnkid x.pa = false →
        let line := BitVec.ofNat 512 (Memory.readNat s.mem x.pa 64) ^^^ err
        (∀ d, d ≠ 2 → lineBad g line d → (∀ k, k < d → ¬lineBad g line k) → exec e s = .next (raiseCD u gid 2 d)) ∧
        (lineBad g line 2 → ¬lineBad g line 1 → g.refetched = true → exec e s = .next (raiseCD u gid 2 2)) ∧
        (lineBad g line 2 → ¬lineBad g line 1 → g.refetched = false →
          ∃ t b, exec e s = .next t ∧ t.group? gid = some { g with refetched := true } ∧ t.box.getLast? = some b ∧ b.sev = 0 ∧ b.src = 2 ∧
            t.mem = s.mem) ∧
        ((∀ d, ¬lineBad g line d) → g.needBt = true → lineBit line (22 + g.pc.toNat % 8) = false →
          exec e s = .next (raiseCD u gid 1 10)) ∧
        ((∀ d, ¬lineBad g line d) → g.needBt = false ∨ lineBit line (22 + g.pc.toNat % 8) = true →
          exec e s = .next (u.setGroup gid { g with line := line, entered := true, needBt := false, refetched := false }))))

/-- R2, R115, R305: one cycle: time advances by the period of the band; the streams select ready groups, and what issues are groups that stand
at an instruction; a group alone on its core issues. No crew, no byte of memory and no group changes before it issues, but that a group whose
instruction would carry a counter past 255 parks; and that a PIPEERR of an engine is taken at a stop point, which is stated elsewhere. -/
def IssueCycle : Prop :=
  ∀ (s : State) (first : Nat), (s.groups.map Prod.fst).Nodup → (∀ e ∈ s.groups, e.2.pipe = []) →
    ∃ t new, exec (.issueSelect first) s = .next t ∧ t.clock = s.clock + 1 ∧
      t.time = s.time + ([60, 70, 105, 210].getD s.cryo.band 336) ∧ t.mem = s.mem ∧ t.crews = s.crews ∧
      (∀ gid, t.group? gid = s.group? gid ∨ ∃ g, s.group? gid = some g ∧ g.overfull = true ∧ maySelect s g = true ∧
        t.group? gid = some { g with status := .parked .counterRoom, stamp := s.clock + 1 }) ∧
      t.issueNow = new ∧
      (∀ gid ∈ new, ∃ g, s.group? gid = some g ∧ maySelect s g = true ∧ g.entered = true ∧ g.overfull = false ∧
        gid ∈ (t.core g.core).streams) ∧
      (∀ gid g c, groupsOf s g.core = [(gid, g)] → s.crewOf g = some c → g.core ∈ c.cores → maySelect s g = true → g.entered = true →
        g.overfull = false → g.w ≤ 64 → g.nextSlots = [pcSlot g.pc] → passedOver s gid g (pcSlot g.pc) = false → gid ∈ new)

/-- R274, R288: the entry that a walk finds stands in the TLBs of its core and quad from then on, in the place of one that they held for the page; the
cycles of an `idle` end. -/
def WalksAndIdle : Prop :=
  ∀ (s : State),
    (∀ core ctx (va : Word) l, core < 384 → ctx < 64 → walk s ctx va = .ok l → 0 < l.size →
      ∃ t e, exec (.tlbWalkComplete core ctx va) s = .next t ∧ t.mem = s.mem ∧ t.groups = s.groups ∧
        e = ⟨ctx, va.toNat % 2 ^ 57 / l.size * l.size, l.size, l.e⟩ ∧ tlbFind (t.core core).tlb ctx (va.toNat % 2 ^ 57) = some e ∧
        tlbFind (SMap.get t.quadTlb [] (core / 4)) ctx (va.toNat % 2 ^ 57) = some e) ∧
    (∀ gid g due, s.group? gid = some g → g.status = .parked .idle → SMap.find? s.idles gid = some due → due ≤ s.clock →
      ∃ t h, exec (.idleExpire gid) s = .next t ∧ Passed { s with cur := gid } t g h)

end Sys2Proof.Stmt

/-- R2, R149 to R153, R274, R288, R305: what transfers check, line entry, the issue cycle, walks, and the end of `idle`. -/
def Obligations.FetchAndIssue : Prop := Stmt.TransferChecks ∧ Stmt.LineEntry ∧ Stmt.IssueCycle ∧ Stmt.WalksAndIdle

namespace Sys2Proof.Stmt

/-! ## Links (R100 to R103, R114, R322 to R332) -/

/-- One packet has left by the port to a far end, under the port's next LSEQ, with this package as its source. -/
structure Sends (s t : State) (far : Nat) (p : OutPacket) : Prop where
  unacked : (t.port far).unacked = (s.port far).unacked ++ [{ p with lseq := (s.port far).lseq, src := s.pkg, dst := far }]
  lseq : (t.port far).lseq = ((s.port far).lseq + 1 + (p.data.length + 31) / 32) % 65536

/-- A packet is accepted on a port (R324): the port is up and has room for it, its first flit has the expected LSEQ, and its CRC is good. -/
structure Accepts (s : State) (far : Nat) (a : Arrival) (p : OutPacket) : Prop where
  up : (s.port far).up = true
  good : a.room = true ∧ a.crc = { p with lseq := a.lseq }.crc ∧ a.lseq = (s.port far).expect
  size : p.data.length ≤ 128

/-- The header and data of a packet that arrives. -/
def arriving (p : Packet) (ty : Nat) : OutPacket :=
  ⟨p.link.lseq, ty, p.vf, p.src, p.dst, p.aseq, p.aop, p.ty, p.ord, p.len, 0, p.addr, 0, p.data⟩

/-- A packet from a far end to this package, without LSEQ, for a context, about an address of the sender's. -/
def toUs (s : State) (far ty ctx addr : Nat) (data : List Byte) : OutPacket := { OutPacket.of ty ctx addr data with src := far, dst := s.pkg }

/-- It is acknowledged by a link ack that names its last flit, and the next one is expected (R324). -/
structure Acked (s t : State) (far : Nat) (data : List Byte) : Prop where
  expect : (t.port far).expect = ((s.port far).expect + 1 + (data.length + 31) / 32) % 65536
  answer : (t.port far).answer = some (6, ((s.port far).expect + (data.length + 31) / 32) % 65536)

/-- An answer to a packet: its type, code and data. -/
def replyTo (p : Packet) (ty code : Nat) (data : List Byte) : OutPacket := { OutPacket.of ty p.vf p.addr data with aseq := p.aseq, code := code }

/-- `n` bytes from `a`. -/
def bytesAt (m : Memory) (a n : Nat) : List Byte := (List.range n).map (fun i => Memory.byte m (a + i))

/-- The little-endian number of bytes. -/
def numOf (l : List Byte) : Nat := (l.zipIdx.map (fun e => e.1.toNat * 2 ^ (8 * e.2))).sum

/-- R323: a packet as its port sends it: 32 bytes of header, little-endian, each field in its bits, and data flits of 32 bytes. (The CRC is
that of IEEE 802.3, which the spec does not name: PRESUMED, log 69.) -/
def PacketLayout : Prop :=
  ∀ p : OutPacket, p.lseq < 65536 → p.ty < 16 → p.vf < 64 → p.src < 32 → p.dst < 32 → p.aseq < 65536 → p.len < 128 → p.code < 16 →
    p.addr < 2 ^ 52 → p.rseq < 2 ^ 32 → p.data.length ≤ 128 →
    let h := numOf (p.wire.take 32)
    let bits := fun (lo n : Nat) => h / 2 ^ lo % 2 ^ n
    bits 240 16 = p.lseq ∧ bits 236 4 = p.ty ∧ bits 230 6 = p.vf ∧ bits 225 5 = p.src ∧ bits 220 5 = p.dst ∧ bits 204 16 = p.aseq ∧
      bits 200 4 = p.aop.toNat ∧ bits 196 4 = p.typ.toNat ∧ bits 194 2 = p.ord.toNat ∧ bits 192 2 = 0 ∧ bits 184 8 = p.len ∧ bits 180 4 = p.code ∧
      bits 128 52 = p.addr ∧ bits 96 32 = p.rseq ∧ bits 32 64 = 0 ∧
      -- the CRC is one over bits 255:32 and the data flits
      bits 0 32 = (crc32 ((p.wire.take 32).drop 4 ++ p.wire.drop 32)).toNat ∧
      p.wire.length = 32 * (1 + (p.data.length + 31) / 32) ∧ (∀ i, i < p.data.length → p.wire[32 + i]? = p.data[i]?)

/-- R347: the HBM stack of an address is on: in OFF and TRIP none is, in WARMSVC those of the service die are. -/
def StackOn (s : State) (a : Nat) : Prop := s.cryo.st ≠ 0 ∧ s.cryo.st ≠ 7 ∧ (s.cryo.st = 1 → homeSlice a / 16 = s.cryo.svcDie)

/-- R322: a packet may reach `n` bytes from its address: HBM that is on, and for the host a region of its VF. -/
def Allowed (s : State) (p : Packet) (n : Nat) : Prop :=
  p.addr + n - 1 < hbmEnd ∧ p.addr < hbmEnd ∧ StackOn s p.addr ∧ StackOn s (p.addr + n - 1) ∧
    (p.src = 16 → SMap.find? s.owners (p.addr / 0x200000) = some p.vf ∧ SMap.find? s.owners ((p.addr + n - 1) / 0x200000) = some p.vf)

/-- R102, R103, R114, R322 to R327, R331, R332: a read, a write and an atomic from outside are acknowledged, performed at the home and
answered; one at an address that is not allowed is refused with CODE 3, a write or atomic on a frozen granule with 1, an atomic against a
narrower scope with 2; read data says with CODE 1 that it is a frozen fill, and with RSEQ the recall number of its slice (the model's choice of
fields, log 31); one whose flits are not those expected, or not good, gets a link nack and has no effect; a recall drops the replicas
of its granule and is acknowledged; an interrupt leaves for the host. -/
def LinkArrivals : Prop :=
  ∀ (s : State) (far : Nat), far ≤ 16 →
    (∀ p : Packet, p.src = far → p.dst = s.pkg →
      (let n := p.len % 128 + 1
       Accepts s far p.link (arriving p 0) → ∃ t, exec (.linkRead p) s = .next t ∧ Acked s t far p.data ∧ t.mem = s.mem ∧ t.groups = s.groups ∧
        (Allowed s p n → Sends s t far { replyTo p 3 (if peerFrozen s p = true then 1 else 0) (bytesAt s.mem p.addr n) with
          rseq := (SMap.get s.sliceSeq 0 (homeSlice p.addr)).toNat }) ∧
        (¬Allowed s p n → Sends s t far (replyTo p 11 3 []))) ∧
      (p.data ≠ [] → Accepts s far p.link (arriving p 1) → ∃ t, exec (.linkWrite p) s = .next t ∧ Acked s t far p.data ∧ t.groups = s.groups ∧
        (Allowed s p p.data.length → granuleFrozen s p.addr = false → granuleFrozen s (p.addr + p.data.length - 1) = false → Sends s t far (replyTo p 4 0 []) ∧
          ∀ a, Memory.byte t.mem a = if p.addr ≤ a ∧ a < p.addr + p.data.length then p.data.getD (a - p.addr) 0 else Memory.byte s.mem a) ∧
        (Allowed s p p.data.length → granuleFrozen s p.addr = true ∨ granuleFrozen s (p.addr + p.data.length - 1) = true → Sends s t far (replyTo p 11 1 []) ∧ t.mem = s.mem) ∧
        (¬Allowed s p p.data.length → Sends s t far (replyTo p 11 3 []) ∧ t.mem = s.mem)) ∧
      (let ty := Fmt.ofCode p.ty
       let n := widthOf ty
       let op := AOp.ofCode p.aop
       let old := Memory.readNat s.mem p.addr n
       let free := ∀ r, SMap.find? s.scopes (lineOf p.addr) = some r → r.scope = .sy
       p.data.length = (if op = .cas then 2 * n else n) → p.aop.toNat < 8 → ty.access = true ∨ ty = .f32 →
       SMap.find? s.lineHolds (lineOf p.addr) = none → Accepts s far p.link (arriving p 2) →
       ∃ t, exec (.linkAtomic p) s = .next t ∧ Acked s t far p.data ∧ t.groups = s.groups ∧
        (Allowed s p n → granuleFrozen s p.addr = false → free →
          Sends s t far (replyTo p 5 0 ((List.range n).map (fun i => BitVec.ofNat 8 (old / 2 ^ (8 * i))))) ∧
          ((∀ h, (s.stream far p.vf).highest = some h → (p.aseq + 65536 - h) % 65536 < 32768) →
            SMap.find? (t.stream far p.vf).journal p.aseq = some (some (BitVec.ofNat 64 old))) ∧
          match atomicNew op ty (BitVec.ofNat 64 old) (BitVec.ofNat 64 (numOf (if op = .cas then p.data.drop n else p.data)))
              (BitVec.ofNat 64 (numOf (p.data.take n))) with
          | some v => Stored s.mem t.mem p.addr n v
          | none => t.mem = s.mem) ∧
        (Allowed s p n → granuleFrozen s p.addr = false → ¬free → Sends s t far (replyTo p 11 2 []) ∧ t.mem = s.mem) ∧
        (Allowed s p n → granuleFrozen s p.addr = true → Sends s t far (replyTo p 11 1 []) ∧ t.mem = s.mem) ∧
        (¬Allowed s p n → Sends s t far (replyTo p 11 3 []) ∧ t.mem = s.mem))) ∧
    (∀ (p : Packet) (i : Instr) (ty : Nat), p.src = far → (s.port far).up = true →
      p.link.room = false ∨ p.link.crc ≠ (arriving p ty).crc ∨ p.link.lseq ≠ (s.port far).expect →
      SMap.find? s.lineHolds (lineOf p.addr) = none → (i, ty) ∈ [(Instr.linkRead p, 0), (.linkWrite p, 1), (.linkAtomic p, 2)] →
      ∃ t, exec i s = .next t ∧ (t.port far).answer = some (7, (s.port far).expect) ∧ (t.port far).expect = (s.port far).expect ∧
        (t.port far).unacked = (s.port far).unacked ∧ t.mem = s.mem ∧ t.groups = s.groups) ∧
    (far ≤ 15 → ∀ a slice gr q, slice < 96 → Accepts s far a { toUs s far 8 0 (65536 * gr) [] with rseq := q } →
      ∃ t, exec (.linkRecall ⟨a, far⟩ slice gr q) s = .next t ∧ Acked s t far [] ∧ t.mem = s.mem ∧ t.groups = s.groups ∧
      -- recorded for every slice of the stack (DEDUCED, log 66)
      (∀ i, i < 96 → i / 8 = slice / 8 → SMap.get t.farRecall 0 (96 * far + i) = BitVec.ofNat 32 q) ∧
      Sends s t far { OutPacket.of 9 0 (65536 * gr) [] with rseq := q } ∧
      -- no L1 and no home keeps a line of the granule
      (let within := fun (line : Nat) => peerOf s.lnkid (128 * line) = some far ∧ line / 512 = (0xC00000000000 + far * 0x10000000000) / 65536 + gr
       (∀ c, ∀ e ∈ (t.core c).l1, e ∈ (s.core c).l1 ∧ ¬within e.1) ∧ ∀ e ∈ t.farCopies, e ∈ s.farCopies ∧ ¬within e.1)) ∧
    (far ≤ 15 → ∀ a gr q hs, Accepts s far a { toUs s far 9 0 (65536 * gr) [] with rseq := q } → SMap.find? s.thaws gr = some (q, hs) →
      ∃ t, exec (.linkRecallAck ⟨a, far⟩ gr q) s = .next t ∧ Acked s t far [] ∧ t.mem = s.mem ∧
        SMap.find? t.thaws gr = some (q, hs &&& ~~~(BitVec.ofNat 22 (2 ^ (6 + far))))) ∧
    (far = 16 → (s.port 16).up = true → ∀ vf vec r, s.interrupts = (vf, vec) :: r → ∃ t, exec .linkInterrupt s = .next t ∧ t.interrupts = r ∧
      Sends s t 16 { OutPacket.of 10 vf 0 [] with code := vec } ∧ t.mem = s.mem ∧ t.groups = s.groups)

/-- A request of this package that a link carries and that has no answer yet. -/
structure Away (s : State) (rid : Nat) (r : Req) : Prop where
  listed : SMap.find? s.reqs rid = some r
  sent : r.sent = true
  open_ : r.performed = false
  far : inWindow s.lnkid r.pa = true

/-- The packet of read data for a window line (the places of the frozen flag and the recall number: log 31). -/
def lineData (s : State) (ctx line rseq : Nat) (fz : Bool) (data : List Byte) : OutPacket :=
  { toUs s (farOf s (128 * line)) 3 ctx (farAddr (128 * line)) data with code := if fz = true then 1 else 0, rseq := rseq }

/-- R103, R112, R115, R325 to R328: the answers to requests of this package: a line of read data, discarded and asked for again when its number is
below the recorded one; an acknowledgement; an atomic's old value; a refusal, whose fault is held for report. The data of a line that a home
asked for becomes its copy; the acknowledgement of an engine's write ends it. -/
def LinkAnswers : Prop :=
  (∀ (s : State) (rid : Nat) (r : Req) (g : Group) (a : Arrival), Away s rid r → s.group? r.gid = some g → plainOp s r = true →
    (∀ data rseq fz, r.kind = .load → data.length = 128 → r.dst ≠ .none → Accepts s (farOf s r.pa) a (lineData s r.ctx (lineOf r.pa) rseq fz data) →
      (recordedSeq s r.pa ≤ rseq → ∃ t, exec (.linkReadData ⟨a, rid, rseq, fz⟩ data) s = .next t ∧ t.mem = s.mem ∧ SameRegs s t ∧
        Done t rid (BitVec.ofNat 64 (numOf data / 2 ^ (8 * (r.pa % 128)) % 2 ^ (8 * r.width)))) ∧
      (rseq < recordedSeq s r.pa → ∃ t, exec (.linkReadData ⟨a, rid, rseq, fz⟩ data) s = .next t ∧ t.mem = s.mem ∧ t.groups = s.groups ∧
        SMap.find? t.reqs rid = some { r with sent := false } ∧ ∀ c, (t.core c).l1 = (s.core c).l1)) ∧
    (r.kind = .store → r.dst = .none → Accepts s (farOf s r.pa) a (toUs s (farOf s r.pa) 4 r.ctx (farAddr r.pa) []) →
      ∃ t, exec (.linkWriteAck ⟨a, rid⟩) s = .next t ∧ t.mem = s.mem ∧ SameRegs s t ∧ SMap.find? t.reqs rid = none ∧
        SMap.find? t.scopes (lineOf r.pa) = none ∧ SMap.find? t.farCopies (lineOf r.pa) = none) ∧
    (∀ old : Word, r.kind = .atom → r.width = widthOf r.ty → Accepts s (farOf s r.pa) a { toUs s (farOf s r.pa) 5 r.ctx (farAddr r.pa)
        ((List.range r.width).map (fun i => BitVec.ofNat 8 (old.toNat / 2 ^ (8 * i)))) with aseq := r.aseq } →
      ∃ t, exec (.linkAtomicResult ⟨a, rid⟩ old) s = .next t ∧ t.mem = s.mem ∧ SameRegs s t ∧
      (r.dst ≠ .none → Done t rid (BitVec.ofNat 64 (old.toNat % 2 ^ (8 * r.width)))) ∧
      (r.dst = .none → SMap.find? t.reqs rid = none) ∧
      (t.stream (farOf s r.pa) r.ctx).outstanding = (s.stream (farOf s r.pa) r.ctx).outstanding - 1) ∧
    (∀ code, 1 ≤ code → code ≤ 3 → r.kind ≠ .pref → (∀ h ∈ g.heldFaults, h.op ≠ r.op) →
      Accepts s (farOf s r.pa) a { toUs s (farOf s r.pa) 11 r.ctx (farAddr r.pa) [] with code := code, aseq := r.aseq } →
      ∃ t h, exec (.linkRefuse ⟨a, rid⟩ code) s = .next t ∧ t.mem = s.mem ∧ SameRegs s t ∧ t.group? r.gid = some h ∧
        (∃ x ∈ h.heldFaults, x.ctr = (if r.kind = .load then .lc else .sc) ∧ x.op = r.op ∧ ∃ f, x.recs = [f] ∧ f.addr = r.va ∧ f.lane = r.lane ∧
          f.report = true ∧ (f.cause, f.detail) = (if code = 1 then (10, 1) else if code = 2 then (14, 2) else (8, 18))) ∧
        (r.kind = .store → l1Valid t r.core (lineOf r.pa) = false))) ∧
  (∀ (s : State) (i : Nat) (x : FarRead) (a : Arrival) (data : List Byte) (rseq : Nat) (fz : Bool), SMap.find? s.reqs i = none →
    SMap.find? s.farReads i = some x → x.again = false → data.length = 128 → recordedSeq s (128 * x.line) ≤ rseq →
    Accepts s (farOf s (128 * x.line)) a (lineData s x.ctx x.line rseq fz data) →
    ∃ t, exec (.linkReadData ⟨a, i, rseq, fz⟩ data) s = .next t ∧ t.mem = s.mem ∧ SameRegs s t ∧ SMap.find? t.farReads i = none ∧
      -- with the frozen flag where the context has PFRZREP (R331)
      SMap.find? t.farCopies x.line = some ⟨BitVec.ofNat 1024 (numOf data), fz && granted s x.ctx 2, none⟩ ∧
      ∀ gid g, s.group? gid = some g → g.status = .parked .walk → g.leaving = none → (t.group? gid).map Group.status = some .ready) ∧
  (∀ (s : State) (i : Nat) (w : FarWrite) (a : Arrival), SMap.find? s.reqs i = none → SMap.find? s.farWrites i = some w →
    Accepts s (farOf s w.pa) a (toUs s (farOf s w.pa) 4 w.ctx (farAddr w.pa) []) →
    ∃ t, exec (.linkWriteAck ⟨a, i⟩) s = .next t ∧ t.mem = s.mem ∧ SameRegs s t ∧ SMap.find? t.farWrites i = none ∧
      SMap.find? t.scopes (lineOf w.pa) = none)

/-- R324, R328, R331: acknowledgements free packets; a nack counts against one flit, and sixteen lead to a retrain; a port with three failed
retrains in 1 ms goes down, losing what has no answer, and comes up afresh. -/
def LinkLevel : Prop :=
  ∀ (s : State) (port : Nat),
    (port ≤ 16 → (s.port port).up = true →
      (∀ n, n < 65536 → ∃ t, exec (.linkAck port n) s = .next t ∧ t.mem = s.mem ∧ t.groups = s.groups ∧
        ∀ p, p ∈ (t.port port).unacked ↔ p ∈ (s.port port).unacked ∧
          32768 ≤ (n + 65536 - (p.lseq + (p.data.length + 31) / 32) % 65536) % 65536) ∧
      (∀ n, n < 65536 → ∃ t, exec (.linkNack port n) s = .next t ∧ t.mem = s.mem ∧ t.groups = s.groups ∧
        (t.port port).unacked = (s.port port).unacked ∧ (t.port port).nackAt = n ∧
        (t.port port).nacks = if (s.port port).nacks ≠ 0 ∧ (s.port port).nackAt = n then (s.port port).nacks + 1 else 1) ∧
      (∀ ok, 16 ≤ (s.port port).nacks → ∃ t b, exec (.linkRetrain port ok) s = .next t ∧ t.mem = s.mem ∧ t.groups = s.groups ∧
        t.box.getLast? = some b ∧ b.sev = 3 ∧ b.src = 9 ∧ b.die = 6 ∧ b.unit = port ∧
        (if ok then (t.port port).nacks = 0 ∧ (t.port port).retrains = (s.port port).retrains else s.time ∈ (t.port port).retrains ∧
          ∀ x ∈ (t.port port).retrains, x = s.time ∨ x ∈ (s.port port).retrains ∧ s.time < x + 84000000)) ∧
      (3 ≤ ((s.port port).retrains.filter (fun x => decide (s.time < x + 84000000))).length →
        ∃ t, exec (.portDown port) s = .next t ∧ t.mem = s.mem ∧ SameRegs s t ∧ (t.port port).up = false ∧ (t.port port).unacked = [] ∧
          (∀ x, (s.ctx x).en = true → (∃ c, (x, c) ∈ s.ctxs) → (x, 3) ∈ t.interrupts) ∧
          (∀ rid r, (rid, r) ∈ s.reqs → SMap.find? s.reqs rid = some r → r.sent = true → r.performed = false → inWindow s.lnkid r.pa = true →
            farOf s r.pa = port → ∀ q, SMap.find? t.reqs rid = some q → q.performed = true))) ∧
    (farEnd s port = true → (s.port port).up = false → (port ≠ 16 → peersUp s < 12) →
      ∃ t, exec (.portUp port) s = .next t ∧ (t.port port) = { Port.reset with up := true } ∧ t.mem = s.mem ∧ t.groups = s.groups)

end Sys2Proof.Stmt

/-- R100 to R103, R114, R322 to R332: the links to the host and to peer packages. -/
def Obligations.Links : Prop := Stmt.PacketLayout ∧ Stmt.LinkArrivals ∧ Stmt.LinkAnswers ∧ Stmt.LinkLevel

namespace Sys2Proof.Stmt

/-! ## Registers written from outside, and usage counters (R268, R269, R281, R290, R298, R300, R309, R310, R313, R315, R329, R332, R334, R351) -/

/-- The event answers a state that differs in one context, as `c` says. -/
def SetsCtx (s : State) (o : Out) (x : Nat) (c : Ctx) : Prop :=
  ∃ t, o = .next t ∧ t.ctx x = c ∧ (∀ y, y ≠ x → t.ctx y = s.ctx y) ∧ t = { s with ctxs := t.ctxs }

/-- The offset of a register of a context in the host's BAR (R332). -/
def barAt (x n : Nat) : Nat := 0x10000 * x + 8 * n

/-- The bytes of a word, least significant first. -/
def wordBytes (v : Word) : List Byte := (List.range 8).map (fun i => BitVec.ofNat 8 (v.toNat / 2 ^ (8 * i)))

/-- A packet of the host with `data` was accepted and answered by `p`, and changed no register, no group and no byte of memory. -/
structure Traffic (s t : State) (data : List Byte) (p : OutPacket) : Prop where
  acked : Acked s t 16 data
  sends : Sends s t 16 p
  regs : SameRegs s t
  mem : t.mem = s.mem

/-- Nothing but the link and the event counters of contexts took note of the packet. -/
structure Ignored (s t : State) : Prop where
  state : t = { s with ports := t.ports, ctxs := t.ctxs, interrupts := t.interrupts, barRead := t.barRead }
  ctxs : ∀ y, t.ctx y = { s.ctx y with cnt := (t.ctx y).cnt, cntstat := (t.ctx y).cntstat }

/-- The sets of dies of R309. -/
def dieSets : List Nat := [1, 2, 4, 8, 16, 32, 3, 12, 48, 7, 56, 63]

/-- DIES of a VFCFG value. -/
def dies (v : Word) : Nat := v.toNat / 2 ^ 8 % 2 ^ 6

/-- R281, R298, R300, R309, R310, R329, R334: JQCMD, FEATGNT, LMBOX, SVCOUNT and VFCFG of a context. -/
def ContextRegisterEvents : Prop :=
  ∀ (s : State) (x : Nat) (v : Word), x < 64 →
    let c := s.ctx x
    (let far := v.toNat / 2 ^ 16 % 2 ^ 5
     (farEnd s far = false → SetsCtx s (exec (.jqcmdWrite x v) s) x { c with jqcmd := none, jqres := 5 }) ∧
     (farEnd s far = true → (s.port far).up = false → SetsCtx s (exec (.jqcmdWrite x v) s) x { c with jqcmd := none, jqres := 4 }) ∧
     (farEnd s far = true → (s.port far).up = true →
       SetsCtx s (exec (.jqcmdWrite x v) s) x { c with jqcmd := some (BitVec.ofNat 64 (v.toNat % 2 ^ 21)), jqres := 0 }) ∧
     -- what the far end's journal says, as far as the answers that the stream has had tell; else only the far end knows
     (let behind := fun (n : Nat) => (n + 65536 - v.toNat % 65536) % 65536
      let st := SMap.find? s.linkStreams (streamKey far x)
      let sent := fun (st : Stream) => behind (st.nextAseq + 65535) < 32768
      let older := fun (st : Stream) => ∃ e ∈ st.answered, 4096 ≤ behind e.1 ∧ behind e.1 < 32768
      let gives := fun (asked : BitVec 3) (old : Word) (r : BitVec 3) (w : Word) => SetsCtx s (exec (.journalQueryComplete x asked old) s) x
        { c with jqcmd := none, jqres := r, jqval := if r = 1 then w else c.jqval }
      c.jqcmd = some v → ∀ asked old,
        ((s.port far).up = false → gives asked old 4 old) ∧
        ((s.port far).up = true → st = none → gives asked old 2 old) ∧
        (∀ y, (s.port far).up = true → st = some y → ¬sent y → gives asked old 2 old) ∧
        (∀ y, (s.port far).up = true → st = some y → sent y → older y → gives asked old 3 old) ∧
        (∀ y, (s.port far).up = true → st = some y → sent y → ¬older y → asked ≠ 3 →
          (∀ w, SMap.find? y.answered (v.toNat % 65536) = some (some w) → gives asked old 1 w) ∧
          (SMap.find? y.answered (v.toNat % 65536) = some none → gives asked old 2 old) ∧
          (SMap.find? y.answered (v.toNat % 65536) = none → gives asked old (if asked = 2 then 2 else 1) old)))) ∧
    (let held := ∃ l ∈ s.launches, l.2.ctx = x ∧ 1 ≤ l.2.state ∧ l.2.state ≤ 3
     let crews := ∃ k ∈ s.crews, k.2.ctx = x
     (¬held → ¬crews → SetsCtx s (exec (.featgntWrite x 0 v) s) x { c with featgnt0 := v &&& c.featoff0 } ∧
       SetsCtx s (exec (.featgntWrite x 1 v) s) x { c with featgnt1 := v &&& c.featoff1 }) ∧
     (held ∨ crews → ∀ k, exec (.featgntWrite x k v) s = .next s)) ∧
    -- a write of the host travels on the stream of its data writes (on port 16: DESIGN CHOICE, log 71)
    (∀ a, Accepts s 16 a (toUs s 16 1 x (barAt x 0x0C0) (wordBytes v)) →
      ∃ t, exec (.lmboxWrite x ⟨a, v⟩) s = .next t ∧ Traffic s t (wordBytes v) (OutPacket.of 4 x (barAt x 0x0C0) []) ∧
        (t.ctx x).mailbox = (if c.mailbox.length < 16 then c.mailbox ++ [v] else c.mailbox) ∧
        (t.ctx x).lost = (c.lost || decide (16 ≤ c.mailbox.length))) ∧
    (∀ a, (s.port 16).up = true → a.lseq ≠ (s.port 16).expect →
      ∃ t, exec (.lmboxWrite x ⟨a, v⟩) s = .next t ∧ (t.port 16).answer = some (7, (s.port 16).expect) ∧ (t.ctx x).mailbox = c.mailbox ∧
        (t.ctx x).lost = c.lost) ∧
    (let n := Nat.min (v.toNat % 2 ^ 13) 6144
     let crews := (s.crews.filter (fun k => k.2.ctx == x)).length
     (n < crews → exec (.svcountWrite x v) s = .next s) ∧
     (crews ≤ n → SetsCtx s (exec (.svcountWrite x v) s) x { c with svcount := n })) ∧
    (let w := v &&& 0x000000FF00003F01
     let fits := dies w ∈ dieSets ∧ ∀ e ∈ s.ctxs, e.1 ≠ x → e.2.vfcfg.getLsbD 0 = true → dies e.2.vfcfg = dies w ∨ dies e.2.vfcfg &&& dies w = 0
     (c.vfcfg.getLsbD 0 = true → c.vfcfg ||| 1 ≠ w ||| 1 → exec (.vfcfgWrite x v) s = .next s) ∧
     (w.getLsbD 0 = true → ¬fits → exec (.vfcfgWrite x v) s = .next s) ∧
     (c.vfcfg.getLsbD 0 = false ∨ c.vfcfg ||| 1 = w ||| 1 → w.getLsbD 0 = false ∨ fits →
       ∃ t, exec (.vfcfgWrite x v) s = .next t ∧ (t.ctx x).vfcfg = w ∧ t.mem = s.mem ∧ t.groups = s.groups ∧
         (c.vfcfg.getLsbD 0 = true → w.getLsbD 0 = false → c.scheduled = true → (t.ctx x).switching = true ∨ (t.ctx x).scheduled = false)))

/-- R268, R269, R290, R313, R315, R332, R351, R270: region owners, ARRCTL, BANDHI, TRIPLIM, a register over the management port and by the host, and the
usage counters. -/
def OtherRegisterEvents : Prop :=
  ∀ (s : State) (v : Word),
    (s.rgnidx.toNat ≤ 294911 → ∃ t, exec (.rgnownWrite v) s = .next t ∧ t = { s with owners := t.owners } ∧
      SMap.find? t.owners s.rgnidx.toNat = (if v.getLsbD 7 then some (v.toNat % 64) else none) ∧
      ∀ r, r ≠ s.rgnidx.toNat → SMap.find? t.owners r = SMap.find? s.owners r) ∧
    (∀ core, core < 384 → ∃ t, exec (.arrctlWrite core v) s = .next t ∧ t = { s with cores := t.cores } ∧
      (t.core core).array = { (s.core core).array with halt := v.getLsbD 0, halted := (s.core core).array.halted && v.getLsbD 0 }) ∧
    (let f := fun (k : Nat) => v.toNat / 2 ^ (16 * k) % 2 ^ 16
     let h := [Nat.min (f 0) 344, Nat.min (f 1) 440, Nat.min (f 2) 640, Nat.min (f 3) 960]
     (300 ≤ h.getD 0 0 ∧ h.getD 0 0 < h.getD 1 0 ∧ h.getD 1 0 < h.getD 2 0 ∧ h.getD 2 0 < h.getD 3 0 →
       exec (.bandhiWrite v) s =
         -- in effect from the next reading
         .next { s with cryo := { s.cryo with reg := { s.cryo.reg with hi0 := h.getD 0 0, hi1 := h.getD 1 0, hi2 := h.getD 2 0, hi3 := h.getD 3 0 } } }) ∧
     (¬(300 ≤ h.getD 0 0 ∧ h.getD 0 0 < h.getD 1 0 ∧ h.getD 1 0 < h.getD 2 0 ∧ h.getD 2 0 < h.getD 3 0) → exec (.bandhiWrite v) s = .next s) ∧
     (let lo := Nat.max (f 0) 280
      let hi := Nat.min (f 1) 1280
      exec (.triplimWrite v) s = .next (if lo < hi then { s with cryo := { s.cryo with reg := { s.cryo.reg with tripLo := lo, tripHi := hi } } } else s))) ∧
    (∀ x (n : BitVec 12), x < 64 → plainReg n.toNat = true → (regRow n.toNat).held = .context → plainOk n.toNat v = true →
      (∃ t, exec (.registerWrite x n v) s = .next t ∧ readContext t x n.toNat = v ∧ SameRegs s t ∧ t.mem = s.mem) ∧
      (∀ a, Accepts s 16 a (toUs s 16 1 x (barAt x n.toNat) (wordBytes v)) →
        ∃ t, exec (.hostBarAccess x n ⟨a, some v⟩) s = .next t ∧ readContext t x n.toNat = v ∧
          Traffic s t (wordBytes v) (OutPacket.of 4 x (barAt x n.toNat) [])) ∧
      (∀ a, Accepts s 16 a { toUs s 16 0 x (barAt x n.toNat) [] with len := 7 } →
        ∃ t, exec (.hostBarAccess x n ⟨a, none⟩) s = .next t ∧ t.barRead = some (readContext s x n.toNat) ∧ Ignored s t ∧
          Traffic s t [] (OutPacket.of 3 x (barAt x n.toNat) (wordBytes (readContext s x n.toNat))))) ∧
    (∀ x (n : BitVec 12), (regRow n.toNat).held ≠ .context →
      (∀ a, Accepts s 16 a (toUs s 16 1 x (barAt x n.toNat) (wordBytes v)) →
        ∃ t, exec (.hostBarAccess x n ⟨a, some v⟩) s = .next t ∧ t.barRead = s.barRead ∧ Ignored s t) ∧
      (∀ a, Accepts s 16 a { toUs s 16 0 x (barAt x n.toNat) [] with len := 7 } →
        ∃ t, exec (.hostBarAccess x n ⟨a, none⟩) s = .next t ∧ t.barRead = some 0 ∧ Ignored s t)) ∧
    exec (.registerWrite 0 0x050 v) s = .next { s with tvec := v &&& 0xFFFFFFFFFFFFFFC7 } ∧
    -- a snapshot holds the samples of UC12 that are due
    (∀ x u, x < 64 → exec .uc12Sample s = .next u →
      (∃ t, exec (.uc0Snapshot (.uc x 0)) s = .next t ∧ t.ctx x = { u.ctx x with ucSnap := (u.ctx x).uc, uctime := s.time / 84 } ∧
        (∀ y, y ≠ x → t.ctx y = u.ctx y) ∧ t = { s with ctxs := t.ctxs, mgmtRead := t.mgmtRead, uc12At := u.uc12At } ∧
        t.mgmtRead = some (BitVec.ofNat 64 (SMap.get (u.ctx x).uc 0 0 / 84000 % 2 ^ 48))) ∧
      (∀ k, 1 ≤ k → k ≤ 15 → exec (.uc0Snapshot (.uc x k)) s = .next { s with mgmtRead := some (BitVec.ofNat 64
        ((if k ≤ 4 then SMap.get (s.ctx x).ucSnap 0 k / 84000 else SMap.get (s.ctx x).ucSnap 0 k) % 2 ^ 48)) })) ∧
    -- an entry of the black box over the management port (R342)
    (∀ i e, s.box[i]? = some e → e.sev < 256 → e.src < 256 → e.die < 65536 → e.unit < 65536 → e.vf < 64 →
      ∃ l, exec (.uc0Snapshot (.box i)) s = .next { s with mgmtBytes := l } ∧ l.length = 32 ∧
        let n := numOf l
        n / 2 ^ 16 % 2 ^ 48 = e.eseq.toNat ∧ n / 2 ^ 8 % 2 ^ 8 = e.sev ∧ n % 2 ^ 8 = e.src ∧ n / 2 ^ (64 + 48) % 2 ^ 16 = e.die ∧
        n / 2 ^ (64 + 32) % 2 ^ 16 = e.unit ∧ n / 2 ^ (64 + 26) % 2 ^ 6 = e.vf ∧ n / 2 ^ 64 % 2 ^ 26 = 0 ∧ n / 2 ^ 128 % 2 ^ 64 = e.addr.toNat ∧
        n / 2 ^ (192 + 32) % 2 ^ 32 = e.time.toNat ∧ n / 2 ^ 192 % 2 ^ 32 = e.detail.toNat) ∧
    (s.time / 84000000 ≤ s.uc12At → exec .uc12Sample s = .next s) ∧
    (s.uc12At < s.time / 84000000 → (s.ctxs.map Prod.fst).Nodup → ∃ t, exec .uc12Sample s = .next t ∧ t.mem = s.mem ∧ t.groups = s.groups ∧
      t.uc12At = s.time / 84000000 ∧
      ∀ e ∈ s.ctxs, ∀ k, SMap.get (t.ctx e.1).uc 0 k = SMap.get (s.ctx e.1).uc 0 k +
        if k = 12 then (s.time / 84000000 - s.uc12At) * (s.l2.filter (fun l => l.2.owner == e.1)).length else 0)

end Sys2Proof.Stmt

/-- R268 to R270, R281, R290, R298, R300, R309, R310, R313, R315, R329, R332, R334, R351: the registers that events write. -/
def Obligations.RegisterEvents : Prop := Stmt.ContextRegisterEvents ∧ Stmt.OtherRegisterEvents

namespace Sys2Proof.Stmt

/-! ## Reliability (R335 to R343) -/

/-- The last entry of the black box is new: its severity, source, die, unit and detail (R342). -/
def Logs (s t : State) (sev src die unit detail : Nat) : Prop :=
  ∃ e, t.box.getLast? = some e ∧ e.eseq = s.eseq ∧ e.sev = sev ∧ e.src = src ∧ e.die = die ∧ e.unit = unit ∧
    e.detail = BitVec.ofNat 32 detail ∧ e.time = BitVec.ofNat 32 (s.time / 84000) ∧ t.eseq = s.eseq + 1

/-- The last entry of the black box is new, and names an address (R342): UNIT is the core of an L1, the slice of an L2, the stack of HBM. -/
def LogsAt (s t : State) (sev src core pa : Nat) : Prop :=
  let slice := homeSlice pa
  let die := if src = 2 then core / 64 else slice / 16
  let unit := if src = 2 then core else if src = 3 then slice else slice / 8
  Logs s t sev src die unit 0 ∧ t.box.getLast?.map BoxEntry.addr = some (BitVec.ofNat 64 (pa / 4 * 4))

/-- The vector lane of a checker that has failed twice is switched to its spare, where that is free (R337). -/
structure LaneSwapped (s u : State) (core unit dp : Nat) : Prop where
  swaps : unit = 1 → 4 * core + dp % 4 ∉ s.lanesSpared → Logs s u 3 7 (core / 64) core unit ∧
    (∀ l, l ∈ u.lanesSpared ↔ l ∈ s.lanesSpared ∨ l = 4 * core + dp % 4) ∧ u = { s with box := u.box, eseq := u.eseq, lanesSpared := u.lanesSpared }
  stays : unit ≠ 1 ∨ 4 * core + dp % 4 ∈ s.lanesSpared → u = s

/-- The engine's unit has failed, and the operation or the copy that it was at is stuck (R337); the group's PIPEERR waits for a stop point. -/
structure EngineFailed (s w : State) (gid : Nat) (g : Group) (unit : Nat) (entry : BitVec 48) : Prop where
  group : w.group? gid = some { g with pipe := g.pipe ++ [(unit, some entry)] }
  others : ∀ j, j ≠ gid → w.group? j = s.group? j
  suspect : (w.core g.core).suspect = (s.core g.core).suspect ||| BitVec.ofNat 5 (2 ^ (unit - 1))
  op : unit = 4 → ∀ o, (s.core g.core).array.ops.find? (fun o => o.gid == gid && !o.complete) = some o →
    (w.core g.core).array = { (s.core g.core).array with
      ops := (s.core g.core).array.ops.map (fun x => if x.id = o.id then { x with stuck := true } else x) }
  copy : unit = 5 → ∀ e, List.find? (fun (e : Nat × Copy) => e.2.gid == gid && e.2.unit == 16 && !e.2.stuck) s.copies = some e →
    w.copies = SMap.upd s.copies e.1 (fun q => { q with stuck := true })
  mem : w.mem = s.mem

/-- R335 to R337, R342, R343: what a failing checker and a scoreboard mismatch do: a corrected event; a spared lane and SUSPECT; or PIPEERR, at the
instruction for units 1 to 3, and at a stop point of the group for the array and the copy unit. The event of the black box that is numbered before
the record names its SEQ. -/
def CheckerEvents : Prop :=
  ∀ (s : State),
    (∀ gid g unit dp, s.group? gid = some g →
      (1 ≤ unit ∧ unit ≤ 3 ∧ atInstruction g = true) ∨ (unit = 4 ∧ ∃ o ∈ (s.core g.core).array.ops, o.gid = gid ∧ o.complete = false) ∨
        (unit = 5 ∧ ∃ e ∈ s.copies, e.2.gid = gid ∧ e.2.unit = 16) →
      let susp := (s.core g.core).suspect ||| BitVec.ofNat 5 (2 ^ (unit - 1))
      let seq := (s.ctx (s.ctxOf g)).fqseq
      (∃ t, exec (.checkerMismatch gid unit dp .second) s = .next t ∧ Logs s t 0 7 (g.core / 64) g.core unit ∧
        t = { s with box := t.box, eseq := t.eseq }) ∧
      (unit = 1 → 4 * g.core + dp % 4 ∉ s.lanesSpared →
        ∃ t u, exec (.checkerMismatch gid unit dp .third) s = .next t ∧ LaneSwapped s u g.core unit dp ∧
          t = { u with cores := t.cores } ∧ t.core g.core = { s.core g.core with suspect := susp }) ∧
      (4 ≤ unit → ∃ t, exec (.checkerMismatch gid unit dp .third) s = .next t ∧ Logs s t 0 7 (g.core / 64) g.core 0 ∧
        t.core g.core = { s.core g.core with suspect := susp } ∧ t = { s with box := t.box, eseq := t.eseq, cores := t.cores }) ∧
      (∃ u v, LaneSwapped s u g.core unit dp ∧ Logs u v 4 7 (g.core / 64) g.core 0 ∧ v = { u with box := v.box, eseq := v.eseq, cores := v.cores } ∧
        v.core g.core = { s.core g.core with suspect := susp } ∧
        (unit ≤ 3 →
          let r := raiseCD v gid 17 unit
          ∃ t, exec (.checkerMismatch gid unit dp .fails) s = .next t ∧ t = { r with box := t.box, pends := t.pends } ∧
            -- the record is written now, or named when it is
            (∀ id, (r.group? gid).bind Group.pend = some id → t.box = r.box ∧
              t.pends = SMap.upd r.pends id (fun p => { p with entry := some u.eseq })) ∧
            ((r.group? gid).bind Group.pend = none → t.pends = r.pends ∧
              t.box = if (r.ctx (s.ctxOf g)).fqseq = seq then r.box
                else r.box.map (fun e => if e.eseq = u.eseq then { e with detail := seq } else e))) ∧
        (4 ≤ unit → ∃ w, EngineFailed s w gid g unit u.eseq ∧ w.box = v.box ∧
          (trapPoint s gid g = false → exec (.checkerMismatch gid unit dp .fails) s = .next w) ∧
          (∀ pa, trapPoint s gid g = true → g.pipe = [] → RingReady s (s.ctxOf g) pa →
            ∃ t h, exec (.checkerMismatch gid unit dp .fails) s = .next t ∧ t.group? gid = some h ∧ h.pipe = [] ∧
              Trapped s g h 17 unit ((s.ctx (s.ctxOf g)).fqbase + BitVec.ofNat 64 (32 * (s.ctx (s.ctxOf g)).fqtail)) g.pc ∧
              Recorded s t (s.ctxOf g) pa (recordOf seq 0 g.pc g.idx (crewIdx s g) (FaultInfo.of 17 unit)) ∧
              ∀ e ∈ t.box, e.eseq = u.eseq → e.detail = seq)))) ∧
    (∀ core, ∃ t, exec (.scoreboardMismatch core) s = .next t ∧ Logs s t 0 8 (core / 64) core 0 ∧ t = { s with box := t.box, eseq := t.eseq })

/-- R339, R342: an uncorrectable error poisons the word where it is found, and changes no value: each half of an `s` and an `m` register is a word of its
own. A clean L1 line is fetched anew. The tables are poisoned as the memory that holds them. -/
def PoisonEvents : Prop :=
  ∀ (s : State),
    (∀ gid g r l, s.group? gid = some g →
      (∃ t h, exec (.softError (.vreg gid r l)) s = .next t ∧ t.group? gid = some h ∧ 64 * r + l ∈ h.vPoison ∧ h = { g with vPoison := h.vPoison } ∧
        t = { s with groups := t.groups, box := t.box, eseq := t.eseq } ∧
        Logs s t (if g.active.getLsbD l then 1 else 0) 1 (g.core / 64) g.core 0) ∧
      (∀ w, ∃ t h, exec (.softError (.sreg gid r w)) s = .next t ∧ t.group? gid = some h ∧ (w < 2 → 2 * r + w ∈ h.sPoison) ∧
        h = { g with sPoison := h.sPoison } ∧ t = { s with groups := t.groups, box := t.box, eseq := t.eseq } ∧ Logs s t 1 1 (g.core / 64) g.core 0) ∧
      (∀ w, ∃ t h, exec (.softError (.mreg gid r w)) s = .next t ∧ t.group? gid = some h ∧ (r ≠ 0 → w < 2 → 2 * r + w ∈ h.mPoison) ∧
        h = { g with mPoison := h.mPoison } ∧ t = { s with groups := t.groups, box := t.box, eseq := t.eseq } ∧ Logs s t 1 1 (g.core / 64) g.core 0)) ∧
    (∀ core tile e, ∃ t, exec (.softError (.acc core tile e)) s = .next t ∧ 4096 * tile + e ∈ (t.core core).array.poison ∧
      (t.core core).array.tiles = (s.core core).array.tiles ∧ t = { s with cores := t.cores, box := t.box, eseq := t.eseq } ∧
      Logs s t 1 6 (core / 64) core 0) ∧
    (∀ crew c o, s.crew? crew = some c → ∃ t k, exec (.softError (.scratch crew o)) s = .next t ∧ t.crew? crew = some k ∧
      o / 4 ∈ k.scratchPoison ∧ k = { c with scratchPoison := k.scratchPoison } ∧ t = { s with crews := t.crews, box := t.box, eseq := t.eseq } ∧
      Logs s t 1 5 (c.cores.headD 0 / 64) (c.cores.headD 0) 0) ∧
    (∀ core pa l, SMap.find? (s.core core).l1 (lineOf pa) = some l →
      (l.leased = false → ∃ t, exec (.softError (.l1 core pa)) s = .next t ∧ l1Valid t core (lineOf pa) = false ∧ t.memPoison = s.memPoison ∧
        t.mem = s.mem ∧ t.groups = s.groups ∧ LogsAt s t 0 2 core pa) ∧
      (l.leased = true → ∃ t, exec (.softError (.l1 core pa)) s = .next t ∧ pa / 4 ∈ t.memPoison ∧ (∀ w ∈ s.memPoison, w ∈ t.memPoison) ∧
        t = { s with memPoison := t.memPoison, box := t.box, eseq := t.eseq } ∧ LogsAt s t 1 2 core pa)) ∧
    (∀ pa, ∃ t, exec (.softError (.l2Clean pa)) s = .next t ∧ t = { s with box := t.box, eseq := t.eseq } ∧ LogsAt s t 0 3 0 pa) ∧
    (∀ pa, inHbm pa = true →
      (∃ t, exec (.softError (.mem pa)) s = .next t ∧ pa / 4 ∈ t.memPoison ∧ (∀ w ∈ s.memPoison, w ∈ t.memPoison) ∧
        t = { s with memPoison := t.memPoison, box := t.box, eseq := t.eseq } ∧
        LogsAt s t 1 (if (SMap.find? s.l2 (lineOf pa)).any L2Line.dirty then 3 else 4) 0 pa) ∧
      (pa % 4096 = 0 → ∃ t, exec (.softError (.stamp (pa / 4096))) s = .next t ∧ pa / 4096 ∈ t.stampPoison ∧ LogsAt s t 1 4 0 pa ∧
        t = { s with stampPoison := t.stampPoison, box := t.box, eseq := t.eseq }) ∧
      (pa % 65536 = 0 → ∃ t, exec (.softError (.freeze (pa / 65536))) s = .next t ∧ pa / 65536 ∈ t.freezePoison ∧ LogsAt s t 1 4 0 pa ∧
        t = { s with freezePoison := t.freezePoison, box := t.box, eseq := t.eseq }))

/-- R303, R335, R336, R341: a failing core is marked, and no unit waits for its quad; it is replaced by a spare of its die once the quad is empty, with
every lane spare free; lanes and L2 ways whose storage fails; HBM repairs. -/
def RepairEvents : Prop :=
  ∀ (s : State),
    (∀ core, core < 384 → (s.core core).outOfService = false →
      ((s.core core).failing = false → ∃ t, exec (.coreReplace core) s = .next t ∧ (t.core core) = { s.core core with failing := true } ∧
        (∀ r, r ∈ t.reserved ↔ r ∈ s.reserved ∧ ∀ c ∈ r.cores, c / 4 ≠ core / 4) ∧ t = { s with cores := t.cores, reserved := t.reserved }) ∧
      ((s.core core).failing = true → (∀ e ∈ s.crews, e.2.saved = false → ∀ c ∈ e.2.cores, c / 4 ≠ core / 4) →
        ∃ t, exec (.coreReplace core) s = .next t ∧ (t.core core).failing = false ∧ (t.core core).l1 = [] ∧ (t.core core).bins = (s.core core).bins ∧
          (t.core core).recallSeq = (s.core core).recallSeq ∧ (∀ e ∈ t.fills, e.2.core ≠ core) ∧
          (∀ l, l ∈ t.lanesSpared ↔ l ∈ s.lanesSpared ∧ l / 4 ≠ core) ∧ t.mem = s.mem ∧ t.groups = s.groups ∧
          (∀ i, i < 4 → s.spares.getLsbD (4 * (core / 64) + i) = false → (∀ j, j < i → s.spares.getLsbD (4 * (core / 64) + j) = true) →
            t.spares = s.spares ||| BitVec.ofNat 24 (2 ^ (4 * (core / 64) + i)) ∧ (t.core core).outOfService = false ∧
            Logs s t 3 7 (core / 64) core i) ∧
          ((∀ i, i < 4 → s.spares.getLsbD (4 * (core / 64) + i) = true) → (t.core core).outOfService = true ∧ t.spares = s.spares))) ∧
    (∀ core k, core < 384 → 4 * core + k % 4 ∉ s.lanesSpared → ∃ t, exec (.softError (.lane core k)) s = .next t ∧
      (∀ l, l ∈ t.lanesSpared ↔ l ∈ s.lanesSpared ∨ l = 4 * core + k % 4) ∧ Logs s t 3 1 (core / 64) core 0 ∧
      t = { s with lanesSpared := t.lanesSpared, box := t.box, eseq := t.eseq }) ∧
    (∀ slice set, slice < 96 → set < 1536 → (slice, set) ∉ s.waySpares → ∃ t, exec (.softError (.way slice set)) s = .next t ∧
      t.waySpares = s.waySpares ++ [(slice, set)] ∧ Logs s t 3 3 (slice / 16) slice 0 ∧
      t = { s with waySpares := t.waySpares, box := t.box, eseq := t.eseq }) ∧
    (∀ stack, stack < 12 →
      (∃ t, exec (.hbmPinSwap stack) s = .next t ∧ t.pinSpares = s.pinSpares ++ [stack] ∧ Logs s t 3 4 (stack / 2) stack 0 ∧ t.mem = s.mem) ∧
      (∃ t, exec (.softPostPackageRepair stack) s = .next t ∧ t.softppr = s.softppr ||| BitVec.ofNat 12 (2 ^ stack) ∧
        Logs s t 3 4 (stack / 2) stack 1 ∧ t.mem = s.mem))

/-! ## Cryogenic operation (R344 to R354, R357) -/

/-- R300, R307, R344, R347 to R351, R357: what a reading of the sensors does in each state: TRIP, the end of COOLDOWN, RETREAT from COLD, ASCENT
from RETREAT, and OFF from ASCENT; COOLHOLD; and which cores are hot: those that read more than DELTA above the mean of their die. The band follows
TMAX in every other state, and the limits are those that BANDHI and TRIPLIM hold. `ts` are the readings of the cores, `hub` and `hbm` those of the hub
die and of the HBM stacks. -/
def SensorEvents : Prop :=
  ∀ (s : State) (ts : List (Nat × Nat)) (hub hbm : List Nat) (tmax tmin : Nat),
    let c := s.cryo
    let all := ts.map Prod.snd ++ hub ++ hbm
    tmax ∈ all → tmin ∈ all → (∀ x ∈ all, tmin ≤ x ∧ x ≤ tmax) →
    let limits := c.reg.tripLo ≤ tmin ∧ tmax ≤ c.reg.tripHi
    let calm := c.readings = [] ∧ tmax ≤ tmin + 60
    let raw := if tmax ≤ c.reg.hi0 then 0 else if tmax ≤ c.reg.hi1 then 1 else if tmax ≤ c.reg.hi2 then 2 else if tmax ≤ c.reg.hi3 then 3 else 4
    let die := fun (k : Nat) => (ts.filter (fun e => e.1 / 64 == k / 64)).map Prod.snd
    let hot := fun (k : Nat) => ∃ e ∈ ts, e.1 = k ∧ (die k).sum + s.migctl.toNat / 2 ^ 8 % 2 ^ 8 * (die k).length < e.2 * (die k).length
    ∃ t, exec (.sensorReading ts hub hbm) s = .next t ∧ t.cryo.lim = c.reg ∧ t.cryo.reg = c.reg ∧ t.cryo.band = c.band ∧
      (c.st ≠ 0 → c.st ≠ 7 → ¬limits → t.cryo.st = 7 ∧ t.cryo.wantBand = raw ∧ t.groups = [] ∧ t.crews = [] ∧ t.launches = [] ∧ t.mem = [] ∧
        Logs s t 4 10 6 0 0) ∧
      (c.st = 0 ∨ c.st = 7 → t.cryo.st = c.st ∧ t.cryo.wantBand = raw ∧ t.groups = s.groups ∧ t.mem = s.mem) ∧
      (c.st = 1 → limits → t.cryo.st = 1 ∧ t.cryo.wantBand = raw) ∧
      (c.st = 2 → limits → calm → (tmax ≤ c.reg.hi0 → t.cryo.st = 3 ∧ t.cryo.wantBand = 0 ∧ t.cryo.holdSince = some s.time) ∧
        (c.reg.hi0 < tmax → t.cryo.st = 2 ∧ t.cryo.wantBand = raw)) ∧
      (c.st = 3 → limits → t.cryo.st = 3 ∧ t.cryo.wantBand = raw ∧
        t.cryo.holdSince = if c.reg.hi0 < tmax then none else some (c.holdSince.getD s.time)) ∧
      (c.st = 4 → limits → (tmax ≤ c.reg.hi0 → t.cryo.st = 4) ∧
        (c.reg.hi0 < tmax → t.cryo.st = 5 ∧ t.cryo.wantBand = Nat.min 3 (Nat.max 1 raw)) ∧ t.groups = s.groups ∧ t.mem = s.mem) ∧
      (c.st = 5 → limits → (c.reg.hi3 < tmax → t.cryo.st = 6 ∧ t.cryo.wantBand = 4 ∧ ∀ x, (t.ctx x).scheduled = false) ∧
        (tmax ≤ c.reg.hi3 → t.cryo.st = 5 ∧ t.cryo.wantBand = Nat.max c.wantBand raw)) ∧
      (c.st = 6 → limits → calm → t.cryo.wantBand = raw ∧ (960 ≤ tmin → t.cryo.st = 0 ∧ t.groups = [] ∧ t.mem = []) ∧
        (tmin < 960 → t.cryo.st = 6)) ∧
      -- COOLHOLD, asserted by the descent and the ascent, and withdrawn after a time within the limits in whatever state
      (c.st = 2 ∨ c.st = 6 → limits → calm → tmin + 40 < tmax → t.cryo.coolhold = true ∧ t.cryo.withinSince = none) ∧
      (c.coolhold = true → limits → calm → tmax ≤ tmin + 40 → t.cryo.coolhold = true ∧ t.cryo.withinSince = some (c.withinSince.getD s.time)) ∧
      (limits → c.st = 3 ∨ c.st = 4 ∨ c.st = 5 → t.cryo.tmax = tmax ∧ t.cryo.tmin = tmin ∧
        ∀ k, k < 384 → (hot k → (t.core k).hotSince = some ((s.core k).hotSince.getD s.time)) ∧ (¬hot k → (t.core k).hotSince = none))

/-- A field of an image, little-endian. -/
def byteField (b : List Byte) (o n : Nat) : Nat := natOfBytes ((b.drop o).take n)

/-- R353: what an image must hold to be accepted for a kind with a fused minimum. -/
structure Signed (b : List Byte) (kind : Nat) (min : BitVec 32) : Prop where
  length : b.length = 0x400 + byteField b 0x00C 4 ∧ byteField b 0x00C 4 % 64 = 0
  magic : byteField b 0x000 4 = 0x96000B07
  kind : byteField b 0x004 4 = kind
  zero : byteField b 0x034 76 = 0 ∧ byteField b 0x380 128 = 0
  key : byteField b 0x030 4 ≤ 3 ∧ Config.keyRevoked (byteField b 0x030 4) = false ∧
    Config.sha256 ((b.drop 0x080).take 384) = Config.keyHash (byteField b 0x030 4)
  sig : Config.rsaVerify ((b.drop 0x080).take 384) ((b.drop 0x200).take 384) (b.take 0x200) = true
  digest : (Config.sha256 (b.drop 0x400)).toNat = byteField b 0x010 32
  svn : min.toNat ≤ byteField b 0x008 4

/-- R2, R335, R341, R345, R346, R348 to R350, R352: bands, scrubbing, and the timers of SOAK, RETREAT and COOLHOLD. `b` is what the firmware brings to
steps 3 to 6 of bring-up, which SOAK ends with and a warm reset in COLD or RETREAT starts anew. -/
def TimerEvents : Prop :=
  ∀ (s : State),
    let c := s.cryo
    (bandWaits s c.wantBand = true → exec .bandChange s = .next s) ∧
    (c.wantBand ≠ c.band → (c.band ≤ 2 → 2 < c.wantBand → ∀ e ∈ s.cores, jointInFlight s e.2.array = false) →
      (3 < c.wantBand → ∀ e ∈ s.crews, e.2.saved = true) →
      ∃ t, exec .bandChange s = .next t ∧
        t.cryo = { c with band := c.wantBand, tset := Nat.min c.wantBand 3, refon := decide (c.st ≠ 0 ∧ c.st ≠ 4 ∧ c.st ≠ 7) } ∧
        Logs s t 0 10 6 0 (c.st * 256 + c.band * 16 + c.wantBand) ∧ t = { s with cryo := t.cryo, box := t.box, eseq := t.eseq }) ∧
    (c.st = 4 → ∀ bad, ∃ t, exec (.scrubSweep bad) s = .next t ∧ t.cryo.scrubbed = c.scrubbed + 1 ∧ t.mem = s.mem ∧ t.groups = s.groups ∧
      (∀ pa ∈ bad, inHbm pa = true → pa / 4 ∈ t.memPoison) ∧ (∀ w ∈ t.memPoison, w ∈ s.memPoison ∨ ∃ pa ∈ bad, w = pa / 4)) ∧
    (∀ b : BringUp, ((∃ h, c.holdSince = some h ∧ c.st = 3 ∧ h + 600 * 84000000000 ≤ s.time) ∨ ((c.st = 4 ∨ c.st = 5) ∧ c.step = 3)) →
      let fused := c.minSup
      (b.fails < 3 ∨ 5 < b.fails → Signed b.supervisor 2 fused →
        ∃ t, exec (.soakTimerExpire b) s = .next t ∧ t.tvec = b.tvec &&& 0xFFFFFFFFFFFFFFC7 ∧ t.cryo.st = (if c.st = 3 then 4 else c.st) ∧
          t.cryo.step = 7 ∧ t.cryo.svnSup.toNat = byteField b.supervisor 0x008 4 ∧ t.cryo.supDigest = Config.sha256 (b.supervisor.drop 0x400) ∧
          t.gen = 1 ∧ t.stamps = [] ∧ t.freezeTable = [] ∧ t.thawGen = 0 ∧ t.epoch = 0 ∧ t.softppr = 0 ∧ t.spares = s.spares ||| b.spares ∧
          (∀ l, l ∈ t.lanesSpared ↔ l ∈ s.lanesSpared ∨ l ∈ b.lanes) ∧ (∀ w, w ∈ t.waySpares ↔ w ∈ s.waySpares ∨ w ∈ b.ways) ∧ t.mem = s.mem) ∧
      (3 ≤ b.fails → b.fails ≤ 5 →
        ∃ t, exec (.soakTimerExpire b) s = .next t ∧ Logs s t 4 10 6 0 b.fails ∧ t = { s with box := t.box, eseq := t.eseq }) ∧
      (b.fails < 3 ∨ 5 < b.fails → ¬Signed b.supervisor 2 fused →
        ∃ t, exec (.soakTimerExpire b) s = .next t ∧ Logs s t 4 10 6 0 6 ∧ t = { s with box := t.box, eseq := t.eseq })) ∧
    (∀ h, c.holdSince = some h → c.st = 5 → h + 60 * 84000000000 ≤ s.time →
      (c.wantBand = 1 → ∃ t, exec .retreatHoldExpire s = .next t ∧ t.cryo.st = 4 ∧ t.cryo.wantBand = 0 ∧ t.mem = s.mem) ∧
      (2 ≤ c.wantBand → ∃ t, exec .retreatHoldExpire s = .next t ∧ t.cryo.st = 5 ∧ t.cryo.wantBand = c.wantBand - 1 ∧ t.mem = s.mem)) ∧
    (∀ h, c.withinSince = some h → c.coolhold = true → h + 60 * 84000000000 ≤ s.time →
      exec .coolholdRelease s = .next { s with cryo := { c with coolhold := false, withinSince := none } })

/-- R348, R351: the commands, each in the states that allow it; elsewhere, and with codes 6 and 7, a command only sets REFUSED. The limits are those of the
last reading. -/
def CommandEvents : Prop :=
  ∀ (s : State),
    let c := s.cryo
    let refused : Out := .next { s with cryo := { c with refused := true } }
    let cool := (c.st = 0 ∧ 0 < c.step) ∨ c.st = 1
    let warm := 2 ≤ c.st ∧ c.st ≤ 5
    let service := c.st = 0 ∧ 0 < c.step ∧ 960 ≤ c.tmin ∧ c.tmax ≤ c.lim.tripHi
    let clear := c.st = 7 ∧ c.lim.tripLo ≤ c.tmin ∧ c.tmax ≤ c.lim.tripHi
    (if cool then ∃ t, exec .cmdCool s = .next t ∧ t.cryo.st = 2 ∧ t.cryo.refon = true ∧ t.mem = s.mem else exec .cmdCool s = refused) ∧
    (if warm then ∃ t, exec .cmdWarm s = .next t ∧ t.cryo.st = 6 ∧ t.cryo.refon = true ∧ t.mem = s.mem ∧ SameRegs s t ∧
        (∀ cid k, s.crew? cid = some k → k.saved = false → (t.crew? cid).map Crew.preempt = some true) ∧
        (∀ x, (t.ctx x).scheduled = false) else exec .cmdWarm s = refused) ∧
    (∀ die, if service then ∃ t, exec (.cmdService die) s = .next t ∧ t.cryo.st = 1 ∧ t.cryo.svcDie = die.toNat ∧ t.mem = s.mem
      else exec (.cmdService die) s = refused) ∧
    (if c.st = 1 then ∃ t, exec .cmdOff s = .next t ∧ t.cryo.st = 0 ∧ t.groups = [] ∧ t.mem = [] else exec .cmdOff s = refused) ∧
    (if clear then ∃ t, exec .cmdClear s = .next t ∧ t.cryo.st = 0 ∧ t.mem = s.mem else exec .cmdClear s = refused) ∧
    (∀ v : Word, 6 ≤ v.toNat % 8 → exec (.cmdInvalid v) s = refused)

/-- R313, R335, R341, R352 to R354: power-up, the resets, a firmware image and a report. `f0` and `f1` are what the flash banks were made with (DESIGN
CHOICE, log 17). -/
def PowerEvents : Prop :=
  ∀ (s : State),
    let c := s.cryo
    (∀ f0 f1, c.step = 0 → c.st = 0 →
      let b0 := c.bank0.getD f0
      let b1 := c.bank1.getD f1
      let boots := fun (k : Nat) (b : List Byte) => ∃ t, exec (.powerUp f0 f1) s = .next t ∧ t.cryo.running = k ∧ t.cryo.step = 1 ∧
        t.cryo.svnMc.toNat = byteField b 0x008 4 ∧ t.cryo.bank0 = some b0 ∧ t.cryo.bank1 = some b1 ∧
        -- a minimum that was to be raised to the version that has booted
        t.cryo.minMc = (if c.raising = some t.cryo.svnMc then t.cryo.svnMc else c.minMc) ∧ t = { s with cryo := t.cryo }
      (Signed b0 1 c.minMc → boots 0 b0) ∧
      (¬Signed b0 1 c.minMc → Signed b1 1 c.minMc → boots 1 b1) ∧
      (¬Signed b0 1 c.minMc → ¬Signed b1 1 c.minMc →
        ∃ t, exec (.powerUp f0 f1) s = .next t ∧ t.cryo = { c with bank0 := some b0, bank1 := some b1 } ∧ Logs s t 4 10 6 0 1)) ∧
    (∃ t, exec .warmReset s = .next t ∧ t.groups = [] ∧ t.crews = [] ∧ t.launches = [] ∧ t.mem = s.mem ∧ t.box = s.box ∧
      t.softppr = s.softppr ∧ t.spares = s.spares ∧ t.lanesSpared = s.lanesSpared ∧ t.pinSpares = s.pinSpares ∧ t.waySpares = s.waySpares ∧
      t.cryo.st = c.st ∧ t.cryo.reg = ⟨344, 440, 640, 960, 280, 1280⟩ ∧ t.cryo.step = Nat.min c.step 3 ∧ t.tvec = 0 ∧
      (∀ e ∈ s.ctxs, (t.ctx e.1).fqctl = 7 ∧ (t.ctx e.1).uc = (s.ctx e.1).uc ∧ (t.ctx e.1).ucSnap = (s.ctx e.1).ucSnap ∧
        (t.ctx e.1).uctime = (s.ctx e.1).uctime)) ∧
    (∃ t, exec .coldReset s = .next t ∧ t.mem = [] ∧ t.groups = [] ∧ t.cryo.st = 0 ∧ t.cryo.step = 0 ∧ t.cryo.bank0 = c.bank0 ∧
      t.cryo.bank1 = c.bank1 ∧ t.cryo.minMc = c.minMc ∧ t.cryo.minSup = c.minSup ∧ t.cryo.raising = c.raising ∧ t.spares = 0 ∧ t.lanesSpared = []) ∧
    (∀ img, let accepted := c.st = 1 ∧ Signed img.bytes 1 c.minMc
      (¬accepted → exec (.firmwareUpdate img) s = .next s) ∧
      (accepted → ∃ t, exec (.firmwareUpdate img) s = .next t ∧ t = { s with cryo := t.cryo } ∧ t.cryo.running = c.running ∧
        (c.running = 0 → t.cryo.bank0 = c.bank0 ∧ t.cryo.bank1 = some img.bytes) ∧
        (c.running ≠ 0 → t.cryo.bank1 = c.bank1 ∧ t.cryo.bank0 = some img.bytes) ∧ t.cryo.minMc = c.minMc ∧
        t.cryo.raising = if img.raisesMin then some (BitVec.ofNat 32 (byteField img.bytes 0x008 4)) else c.raising)) ∧
    (∀ nonce : BitVec 256, ∃ t body, exec (.attestationReport nonce) s = .next t ∧
      t = { s with cryo := { c with reports := c.reports ++ [body ++ Config.attestSign body] } } ∧ body.length = 156 ∧
      let fw := if c.running = 0 then c.bank0.getD [] else c.bank1.getD []
      byteField body 0 32 = nonce.toNat ∧ byteField body 32 32 = (Config.sha256 ((fw.drop 0x400).take (byteField fw 0x00C 4))).toNat ∧
      byteField body 64 32 = c.supDigest.toNat ∧ byteField body 96 4 = c.svnMc.toNat ∧ byteField body 100 4 = c.svnSup.toNat ∧
      byteField body 104 32 = (Config.sha256 (repairList s)).toNat ∧
      byteField body 136 8 = (c.reg.hi3 * 2 ^ 48 + c.reg.hi2 * 2 ^ 32 + c.reg.hi1 * 2 ^ 16 + c.reg.hi0) % 2 ^ 64 ∧
      byteField body 144 8 = (c.reg.tripHi * 2 ^ 16 + c.reg.tripLo) % 2 ^ 64 ∧ byteField body 152 4 = c.st % 2 ^ 32)

end Sys2Proof.Stmt

/-- R335 to R343: reliability. -/
def Obligations.Reliability : Prop := Stmt.CheckerEvents ∧ Stmt.PoisonEvents ∧ Stmt.RepairEvents

/-- R344 to R354, R357: cryogenic operation, power and images. -/
def Obligations.CryogenicOperation : Prop := Stmt.SensorEvents ∧ Stmt.TimerEvents ∧ Stmt.CommandEvents ∧ Stmt.PowerEvents

namespace Sys2Proof.Stmt

/-! ## Records and operands (R138, R140, R237 to R241) -/

/-- Bytes of an element of a record; two q4n elements share one. -/
def elemWidth (t : Fmt) : Nat :=
  match t with
  | .n8 | .i8 | .f8a | .f8b | .q4n => 1
  | .n16 | .i16 | .f16 | .bf16 => 2
  | .n64 | .i64 | .b64 => 8
  | _ => 4

/-- A word of a record as a number. -/
def rowWord (r : List (BitVec 64)) (i : Nat) : Nat := (r.getD i 0).toNat

/-- A record is rejected whatever names it (R238); `sparseA` says that it is the A operand of `mmas`. -/
def Rejected (r : List (BitVec 64)) (sparseA : Bool) : Prop :=
  let h := Shape.of r
  rowWord r 6 / 2 ^ 12 % 2 ^ 20 ≠ 0 ∨ rowWord r 6 / 2 ^ 8 % 2 ≠ 0 ∨ rowWord r 7 ≠ 0 ∨ h.sparse = 3 ∨ h.space = 3 ∨
  (∃ d, d < 4 ∧ d ≤ h.ndim ∧ h.e d = 0) ∨
  (∃ d, d < 4 ∧ h.ndim < d ∧ (h.e d ≠ 0 ∨ h.b d ≠ 0 ∨ h.s d ≠ 0)) ∨
  (h.fmt ≠ .q4n ∧ (h.base % elemWidth h.fmt ≠ 0 ∨ ∃ d, d < 4 ∧ d ≤ h.ndim ∧ h.s d % (elemWidth h.fmt : Int) ≠ 0)) ∨
  (h.fmt = .q4n ∧ (h.s 0 ≠ 0 ∨ h.base % 32 ≠ 0 ∨ h.s 1 % 32 ≠ 0 ∨ 1 < h.ndim)) ∨
  (h.sparse ≠ 0 ∧ (sparseA = false ∨ h.e 0 % 8 ≠ 0 ∨ (h.sparse = 2 ∧ h.metaBase % 2 ≠ 0)))

/-- Rows of a record: one where NDIM is 0 (R241). -/
def recRows (h : Shape) : Nat := if h.ndim = 0 then 1 else h.e 1

/-- Where element (`c0`, `c1`) of a dense record lies, or stored element `c0` of row `c1` of a sparse one (R238). -/
def elemAt (h : Shape) (c0 c1 : Nat) : Nat :=
  ((h.base + (c1 : Int) * h.s 1 + (if h.fmt = Fmt.q4n then ((c0 / 2 : Nat) : Int) else (c0 : Int) * h.s 0)) % 2 ^ 64).toNat

/-- A code out of the bytes of an element (R139, R238). -/
def codeIn (h : Shape) (c0 v : Nat) : Nat := if h.fmt = .q4n then v / 16 ^ (c0 % 2) % 16 else v

/-- The metadata field of run `n` of row `c1` (R239), and its bytes. -/
def metaField (h : Shape) (c1 n : Nat) : Nat × Nat :=
  let k := if h.sparse = 2 then 2 else 1
  (((h.metaBase + (c1 : Int) * h.mstride + (n * k : Nat)) % 2 ^ 64).toNat, k)

/-- A metadata field keeps ascending positions, and its other bits are zero (R140). -/
def metaOk (n v : Nat) : Prop := (∀ r, r + 1 < n → v / 8 ^ r % 8 < v / 8 ^ (r + 1) % 8) ∧ v / 8 ^ n = 0

/-- R237 and R238: the fields of a record, and when it is rejected. -/
def RecordFields : Prop :=
  ∀ r : List (BitVec 64), r.length = 8 →
    let h := Shape.of r
    h.base = rowWord r 0 ∧ h.metaBase = rowWord r 1 ∧
    (∀ d, d < 4 → h.e d = rowWord r 2 / 2 ^ (16 * d) % 2 ^ 16 ∧ h.b d = rowWord r 5 / 2 ^ (16 * d) % 2 ^ 16 ∧
      h.s d = (BitVec.ofNat 32 (rowWord r (3 + d / 2) / 2 ^ (32 * (d % 2)))).toInt) ∧
    h.mstride = (BitVec.ofNat 32 (rowWord r 6 / 2 ^ 32)).toInt ∧ h.sparse = rowWord r 6 / 2 ^ 10 % 4 ∧
    h.zfill = decide (rowWord r 6 / 2 ^ 9 % 2 = 1) ∧ h.ndim = rowWord r 6 / 2 ^ 6 % 4 ∧ h.space = rowWord r 6 / 2 ^ 4 % 4 ∧
    h.fmt.code.toNat = rowWord r 6 % 16 ∧
    ∀ sparseA, shapeBad r h sparseA = true ↔ Rejected r sparseA

/-- R238 to R241, R339: what an operand reads as its element (`c0`, `c1`), with the marker of poison: +0 outside the extents; the element of a dense record; and of a sparse
one the kept value whose position it has, else +0. A metadata field that is not well-formed stops the operation (R141). -/
def OperandReads : Prop :=
  ∀ (s : State) (w : EngineId) (ctx crew : Nat) (sup : Bool) (h : Shape) (c0 c1 : Nat),
    let rd := readElem s w ctx crew sup h.space
    let it := operandElem s w ctx crew sup h c0 c1
    (h.e 0 ≤ c0 ∨ recRows h ≤ c1 → it = .ok (none, false)) ∧
    (c0 < h.e 0 → c1 < recRows h →
      (∀ v b, h.sparse = 0 → rd (elemAt h c0 c1) (elemWidth h.fmt) = .ok v b → it = .ok (some (codeIn h c0 v), b != 0)) ∧
      (∀ v b, h.sparse ≠ 0 → rd (metaField h c1 (c0 / 8)).1 (metaField h c1 (c0 / 8)).2 = .ok v b →
        let n := if h.sparse = 2 then 4 else 2
        (¬metaOk n v → it = .error .bad) ∧
        (metaOk n v → (∀ r, r < n → v / 8 ^ r % 8 ≠ c0 % 8) → it = .ok (none, b != 0)) ∧
        (∀ r x y, metaOk n v → r < n → v / 8 ^ r % 8 = c0 % 8 →
          rd (elemAt h (c0 / 8 * n + r) c1) (elemWidth h.fmt) = .ok x y → it = .ok (some (codeIn h (c0 / 8 * n + r) x), y != 0 || b != 0))))

/-- A value that an engine reads, with a mark where one of its words is poisoned (R339). -/
def ReadsAs (it : ElemRead) (v : Nat) (bad : Prop) : Prop := ∃ b, it = .ok v b ∧ (b ≠ 0 ↔ bad)

/-- R46, R47, R106, R244, R253, R322, R339: where an engine reads operands: global memory at its home, never in an L1 and through its own walk-ahead TLB;
a window line in the copy that its home holds, which without one has first to ask the far end; the scratchpad of the crew, or that of a
member of its quad set, which may have retired. -/
def OperandPlaces : Prop :=
  ∀ (s : State) (w : EngineId) (ctx crew : Nat) (sup : Bool) (c : Crew) (addr n : Nat), s.crew? crew = some c → 0 < n →
    let at_ := xlateAhead s w ctx (BitVec.ofNat 64 addr) sup .read false
    let global := readElem s w ctx crew sup 0 addr n
    let marked := fun (p : List Nat) (a : Nat) => ∃ k ∈ p, 4 * k < a + n ∧ a < 4 * k + 4
    (tlbFind (s.walkAhead w) ctx (addr % 2 ^ 57) = none → at_ = xlateWalk s ctx (BitVec.ofNat 64 addr) sup .read false) ∧
    (∀ x, at_ = .ok x →
      (inHbm x.pa = true → ReadsAs global (Memory.readNat s.mem x.pa n) (marked s.memPoison x.pa)) ∧
      (inWindow s.lnkid x.pa = true →
        (SMap.find? s.farCopies (lineOf x.pa) = none → global = .far x.pa) ∧
        (∀ q, SMap.find? s.farCopies (lineOf x.pa) = some q →
          (∀ b, q.bad = some b → global = .lost b.1 b.2) ∧
          (q.bad = none → x.pa % 128 + n ≤ 128 →
            ReadsAs global (q.data.toNat / 2 ^ (8 * (x.pa % 128)) % 2 ^ (8 * n)) (marked s.memPoison x.pa))))) ∧
    (∀ k col z, at_ = .error (.page k col z) → global = .wait (addr - addr % z)) ∧
    (∀ pa, at_ = .error (.far pa) → global = .far pa) ∧
    ReadsAs (readElem s w ctx crew sup 1 addr n) (Memory.readNat c.scratch addr n) (marked c.scratchPoison addr) ∧
    (addr / 2 ^ 19 % 4 ≠ c.idx % 4 →
      (peerCrew s c (addr / 2 ^ 19 % 4) = none → readElem s w ctx crew sup 2 addr n = .gone) ∧
      (∀ k p, peerCrew s c (addr / 2 ^ 19 % 4) = some k → s.crew? k = some p →
        ReadsAs (readElem s w ctx crew sup 2 addr n) (Memory.readNat p.scratch (addr % 2 ^ 19) n) (marked p.scratchPoison (addr % 2 ^ 19))))

/-- Steps 6 to 8 of R242 on ranges: those in scratchpads, then the pages of the global ones. -/
def pageNeed (sp : List Span) (p : Nat) (need : Need) : Prop :=
  let on := fun (x : Span) => x.space = 0 ∧ (p = x.addr / 4096 ∨ p = (x.addr + x.n - 1) / 4096)
  (∃ x ∈ sp, on x) ∧ (need = .write ∧ (∃ x ∈ sp, on x ∧ x.write = true) ∨ need = .read ∧ ∀ x ∈ sp, on x → x.write = false)

/-- A page passes step 7 of R242: mapped, with the permission, not frozen where it is written; no entry of its tables has first to be read at a
far end (R80, R99, R322). -/
structure PagePasses (s : State) (g : Group) (p : Nat) (need : Need) : Prop where
  mapped : ∀ k z, walk s (s.ctxOf g) (BitVec.ofNat 64 (4096 * p)) ≠ .error (.page 1 k z)
  near : ∀ pa, walk s (s.ctxOf g) (BitVec.ofNat 64 (4096 * p)) ≠ .error (.far pa)
  allowed : ∀ c d, xlateWalk s (s.ctxOf g) (BitVec.ofNat 64 (4096 * p)) g.sup need true ≠ .error (.fault c d)

/-- A page passes steps 7 and 8: its colour, where its page is resident and not frozen or not resident, is 0 or held. -/
structure PageOk (s : State) (g : Group) (p : Nat) (need : Need) : Prop where
  passes : PagePasses s g p need
  colour : ∀ l, walk s (s.ctxOf g) (BitVec.ofNat 64 (4096 * p)) = .ok l → l.e.getLsbD 11 = false →
    pteColour l.e = 0 ∨ pteColour l.e ∈ g.colours
  away : ∀ c z, walk s (s.ctxOf g) (BitVec.ofNat 64 (4096 * p)) = .error (.page 2 c z) → c = 0 ∨ c ∈ g.colours

/-- R80, R99, R242: steps 6 to 8. -/
def RangeChecks : Prop :=
  ∀ (s : State) (g : Group) (c : Crew) (sp : List Span), s.crewOf g = some c →
    let bad1 := fun (x : Span) => x.space = 1 ∧ c.scratchBytes < x.addr + x.n
    let bad2 := fun (x : Span) => x.space = 2 ∧ (2 ^ 21 ≤ x.addr ∨ quadCrew s c = false ∨ c.scratchBytes < x.addr % 2 ^ 19 + x.n)
    let page := fun (p : Nat) => walk s (s.ctxOf g) (BitVec.ofNat 64 (4096 * p))
    (spanScratch s g sp = none ↔ ∀ x ∈ sp, ¬bad1 x ∧ ¬bad2 x) ∧
    (∀ pre x post, sp = pre ++ x :: post → (∀ y ∈ pre, ¬bad1 y ∧ ¬bad2 y) → bad1 x ∨ bad2 x →
      spanScratch s g sp = some (FaultInfo.of 8 x.space)) ∧
    (spanChecks s g sp = none ↔ ∀ p need, pageNeed sp p need → PageOk s g p need) ∧
    (∀ p n k z, pageNeed sp p n → page p = .error (.page 1 k z) →
      (∀ q n', pageNeed sp q n' → q < p → (∀ k' z', page q ≠ .error (.page 1 k' z')) ∧ ∀ pa, page q ≠ .error (.far pa)) →
      spanChecks s g sp = some { FaultInfo.of 7 1 with addr := BitVec.ofNat 64 (4096 * p), replay := true }) ∧
    (∀ f, (∀ p need, pageNeed sp p need → PagePasses s g p need) → spanChecks s g sp = some f →
      f.cause = 13 ∧ f.detail = 1 ∧ f.aux.toNat ≠ 0 ∧ f.aux.toNat ∉ g.colours)

/-! ## Matrix instructions at issue (R236, R240 to R250) -/

/-- The group comes anew to an instruction of R242: neither parked at it for PAGE nor past its checks. -/
def Anew (g : Group) : Prop := g.parkHere = none ∧ g.passedHere = none

/-- The group stands at a matrix instruction of a crew whose matrix group it is or becomes (R236). -/
structure Matrix (s : State) (g : Group) (c : Crew) : Prop where
  issuing : Issuing s g
  fresh : Anew g
  crew : s.crewOf g = some c
  role : ∀ m, c.matrixGroup = some m → m = s.cur

/-- The state with that role taken. -/
def asRole (s : State) (g : Group) (c : Crew) : State :=
  if c.matrixGroup = none then s.modCrew g.crew (fun c => { c with matrixGroup := some s.cur }) else s

/-- The array of the group's core as its crew claims it: where it is new to the crew, zero in every tile, or what the crew's array there held
when the crew was saved (R236, R282). -/
def claimed (s : State) (g : Group) (c : Crew) : ArraySt :=
  let a := (s.core g.core).array
  if a.holder = none then { (SMap.find? c.arrayKept (c.cores.idxOf g.core)).getD ⟨none, [], [], [], false, false⟩ with holder := some g.crew } else a

/-- The array is free, or the crew's own. -/
def Claims (s : State) (g : Group) : Prop := ∀ x, (s.core g.core).array.holder = some x → x = g.crew

/-- The record at `va` can be read, and `r` are its words, as a global load reads them: in a valid L1 copy, at its home in HBM, or in the
home's copy of a window line (R109, R240, R322); none of them is poisoned (R339). -/
def RecordAt (s : State) (g : Group) (va : Word) (r : List (BitVec 64)) : Prop :=
  va.toNat % 64 = 0 ∧ ∃ x, xlate s g.core (s.ctxOf g) va g.sup .read false = .ok x ∧ recordHeld s s.cur g va x.pa = false ∧
    s.farFault x.pa = none ∧ poisoned s x.pa 64 = false ∧ r.length = 8 ∧
    let words := fun (line : BitVec 1024) => ∀ i, i < 8 → rowWord r i = line.toNat / 2 ^ (8 * (x.pa % 128 + 8 * i)) % 2 ^ 64
    match SMap.find? (s.core g.core).l1 (lineOf x.pa) with
    | some l => words l.data
    | none => if inWindow s.lnkid x.pa then ∃ q, SMap.find? s.farCopies (lineOf x.pa) = some q ∧ words q.data
      else ∀ i, i < 8 → rowWord r i = Memory.readNat s.mem (x.pa + 8 * i) 8

/-- The group parked at its instruction for `why`, which has issued, past the checks of R242 with `ws`: its records' words, and its origin word
or barrier object. -/
def passedPark (s : State) (g : Group) (why : Park) (ws : List (List (BitVec 64))) : Group :=
  { g with status := .parked why, issued := true, stamp := s.clock, passed := some (g.pc, g.sup, ws) }

/-- The instruction is accepted: `want`, a matrix operation, joins the queue of the array, in the open batch; the group goes on. -/
structure Enqueued (s t : State) (g h : Group) (c : Crew) (want : MOp) : Prop where
  group : t.group? s.cur = some h
  moved : g.Moved h ∧ h.regs = g.regs ∧ h.pc = g.pcAfter ∧ h.status = .ready
  watches : ∀ k, k ∈ h.opRegs ↔ k ∈ g.opRegs ∨ k ∈ want.regs
  others : ∀ j, j ≠ s.cur → t.group? j = s.group? j
  crew : ∃ k, t.crew? g.crew = some k ∧ k.matrixGroup = some s.cur ∧ k.scratch = c.scratch ∧
    k.mmaqCount = c.mmaqCount + (if want.kind = .mmaq then 1 else 0)
  array : ∃ x, (t.core g.core).array = { claimed s g c with ops := (claimed s g c).ops ++ [x] } ∧
    x = { want with tainted := x.tainted, colours := x.colours } ∧ (c.recent = [] → x.tainted = false)
  mem : t.mem = s.mem

/-- M or N of a code (R243). -/
def tileSize (k : BitVec 2) : Nat := if k = 0 then 16 else if k = 1 then 32 else if k = 2 then 64 else 128

/-- K of a code, by the format of A (R243). -/
def depthOf (t : Fmt) (k : BitVec 2) : Nat :=
  if t = .q4n then 64 else if t = .f16 ∨ t = .bf16 then tileSize k else 2 * tileSize k

/-- A matrix operation that names no record. -/
def emptyOp (s : State) (g : Group) (kind : MKindOp) (d : BitVec 4) (m n : Nat) : MOp :=
  { id := s.nextId, gid := s.cur, kind := kind, d := d.toNat, p := 0, a := none, b := none, origin := 0, mm := m, nn := n, kk := 0,
    fa := .f32, fb := .f32, negA := false, negB := false, noAcc := false, k1 := 0, k2 := 0, joint := 0, batch := none, complete := false,
    tainted := false, colours := [], ready := g.ready, regs := [], sup := g.sup, stuck := false, fault := none }

/-- The `s` registers that sources name. -/
def namedRegs (l : List SSrc) : List Nat := l.filterMap (fun x => match x with
  | .reg k => some k.toNat
  | _ => none)

/-- The operation of an `mma`, `mmas` or `mmaq` whose records are `a` and `b`. -/
def productOp (s : State) (g : Group) (c : Crew) (kind : MKindOp) (m : MmaOp) (a b : Shape) : MOp :=
  { emptyOp s g kind m.d (tileSize m.mc) (tileSize m.nc) with
    a := some a, b := some b, origin := g.sval m.o, kk := depthOf m.fa m.kc, fa := m.fa, fb := m.fb, negA := m.negA, negB := m.negB,
    noAcc := m.noAcc, joint := c.mmaqCount, regs := namedRegs [m.a, m.b, m.o] }

/-- A record does not suit an operand of format `t` (R238, R244). -/
def Unsuited (r : List (BitVec 64)) (t : Fmt) (sparse : Bool) : Prop :=
  Rejected r sparse ∨ (Shape.of r).fmt ≠ t ∨ (if sparse then (Shape.of r).sparse = 0 else (Shape.of r).sparse ≠ 0)

/-- The K coordinate of an operand is not aligned (R241). -/
def OffK (h : Shape) (c0 : Nat) : Prop := (h.fmt = .q4n ∧ c0 % 64 ≠ 0) ∨ (h.sparse ≠ 0 ∧ c0 % 8 ≠ 0)

/-- An operand of `rows` by `k` elements reaches outside a record without ZFILL (R241). -/
def Outside (h : Shape) (c0 c1 k rows : Nat) : Prop := h.zfill = false ∧ (h.e 0 < c0 + k ∨ recRows h < c1 + rows)

/-- What follows the checks of R242, for an operation that reads the ranges `sp`: the claim, room in the queue, and acceptance. A group that
waits for either keeps what it has read (`ws`), and neither reads nor checks it again. -/
def Queues (s : State) (g : Group) (c : Crew) (i : Instr) (want : MOp) (sp : List Span) (ws : List (List (BitVec 64))) : Prop :=
  let u := asRole s g c
  (∀ f, spanScratch u g sp = some f → exec i s = .next (raise u s.cur f)) ∧
  (∀ f, spanScratch u g sp = none → spanChecks u g sp = some f → exec i s = .next (stopWith u s.cur f)) ∧
  (spanScratch u g sp = none → spanChecks u g sp = none →
    (¬Claims s g → ∃ t, exec i s = .next t ∧ t.group? s.cur = some (passedPark s g .arrayClaim ws) ∧
      t.mem = s.mem ∧ (t.core g.core).array = (s.core g.core).array) ∧
    (Claims s g → 64 ≤ ((claimed s g c).ops.filter (fun o => o.gid == s.cur)).length →
      ∃ t, exec i s = .next t ∧ t.group? s.cur = some (passedPark s g .arrayRoom ws) ∧
        t.mem = s.mem ∧ (t.core g.core).array = claimed s g c) ∧
    (Claims s g → ((claimed s g c).ops.filter (fun o => o.gid == s.cur)).length < 64 →
      ∃ t h, exec i s = .next t ∧ Enqueued s t g h c want))

/-- R236, R240 to R245, R248: `mma`, `mmas` and `mmaq` at issue. -/
def ProductIssues : Prop :=
  ∀ (s : State) (g : Group) (c : Crew) (m : MmaOp) (ra rb : List (BitVec 64)) (i : Instr) (kind : MKindOp), i.wf = true →
    (i, kind) ∈ [(Instr.mma m, MKindOp.mma), (.mmas m, .mmas), (.mmaq m, .mmaq)] → Matrix s g c →
    g.sOk m.a = true → g.sOk m.b = true → g.sOk m.o = true → g.eff m.g ≠ 0 →
    (kind = .mmaq → quadCrew s c = false → exec i s = .next (raiseCD (asRole s g c) s.cur 8 2)) ∧
    ((kind = .mmaq → quadCrew s c = true) → RecordAt s g (g.sval m.a) ra → RecordAt s g (g.sval m.b) rb →
      let a := Shape.of ra
      let b := Shape.of rb
      let o := g.sval m.o
      let want := productOp s g c kind m a b
      let cols := if kind = .mmaq then want.nn / 4 else want.nn
      let off := OffK a (originAK o) ∨ OffK b (originBK o)
      let out := Outside a (originAK o) (originAM o) want.kk want.mm ∨ Outside b (originBK o) (originBN o) want.kk cols
      (Unsuited ra m.fa (kind == .mmas) ∨ Unsuited rb m.fb false → exec i s = .next (raiseCD (asRole s g c) s.cur 1 17)) ∧
      (¬(Unsuited ra m.fa (kind == .mmas) ∨ Unsuited rb m.fb false) →
        (off → exec i s = .next (raiseCD (asRole s g c) s.cur 8 7)) ∧
        (¬off → out → exec i s = .next (raiseCD (asRole s g c) s.cur 8 5)) ∧
        (¬off → ¬out → Queues s g c i want
          ((operandBytes a (originAK o) (originAM o) want.kk want.mm).map (fun x => ⟨a.space, x.1, x.2, false⟩) ++
            (operandBytes b (originBK o) (originBN o) want.kk cols).map (fun x => ⟨b.space, x.1, x.2, false⟩)) [ra, rb, [o]])))

/-- R236, R242, R245, R249, R250: `sacc`, `accz` and `accld` at issue. -/
def TileIssues : Prop :=
  ∀ (s : State) (g : Group) (c : Crew) (k d p : BitVec 4) (a x : SSrc) (ty : Fmt) (mc nc : BitVec 2) (na : Bool), Matrix s g c →
    g.eff k ≠ 0 → g.sOk a = true → g.sOk x = true →
    (∀ i n, (i = Instr.accz k d ∧ n = 64) ∨ (i = .acczPair k d ∧ n = 128) → i.wf = true →
      (Claims s g → ∃ t h, exec i s = .next t ∧ Enqueued s t g h c (emptyOp s g .accz d n 64)) ∧
      (¬Claims s g → ∃ t, exec i s = .next t ∧ t.mem = s.mem ∧
        t.group? s.cur = some { g with status := .parked .arrayClaim, issued := true, stamp := s.clock })) ∧
    ((Instr.sacc k d p a x ty mc nc na).wf = true →
      let i := Instr.sacc k d p a x ty mc nc na
      let codes := (g.sval a).toNat
      let supers := (g.sval x).toNat
      let m := tileSize mc
      (c.scratchBytes < codes + m ∨ c.scratchBytes < supers + 4 * m → exec i s = .next (raiseCD (asRole s g c) s.cur 8 1)) ∧
      (codes + m ≤ c.scratchBytes → supers + 4 * m ≤ c.scratchBytes →
        (supers % 4 ≠ 0 → exec i s = .next (raiseCD (asRole s g c) s.cur 6 1)) ∧
        (supers % 4 = 0 → Claims s g → ∃ t h, exec i s = .next t ∧ Enqueued s t g h c
          { emptyOp s g .sacc d m (tileSize nc) with p := p.toNat, k1 := codes, k2 := supers, fa := ty, noAcc := na, regs := namedRegs [a, x] }))) ∧
    (∀ r, (Instr.accld k d a x ty mc nc).wf = true → RecordAt s g (g.sval a) r →
      let i := Instr.accld k d a x ty mc nc
      let h := Shape.of r
      let o := g.sval x &&& 0xFFFFFFFF
      let bad := Unsuited r ty false ∨ h.space = 2
      (bad → exec i s = .next (raiseCD (asRole s g c) s.cur 1 17)) ∧
      (¬bad → Outside h (originAK o) (originAM o) (tileSize nc) (tileSize mc) → exec i s = .next (raiseCD (asRole s g c) s.cur 8 5)) ∧
      (¬bad → ¬Outside h (originAK o) (originAM o) (tileSize nc) (tileSize mc) → Queues s g c i
        { emptyOp s g .accld d (tileSize mc) (tileSize nc) with a := some h, origin := o, fa := ty, regs := namedRegs [a, x] }
        ((operandBytes h (originAK o) (originAM o) (tileSize nc) (tileSize mc)).map (fun x => ⟨h.space, x.1, x.2, false⟩)) [r, [g.sval x]]))

/-- R236, R242, R339: in another group of the crew every matrix instruction raises ILLEGAL 18; a record that is not aligned ALIGN 3. With an
empty mask those that are group-uniform do nothing. The group that reads a poisoned word of a record dies. -/
def MatrixStops : Prop :=
  ∀ (s : State) (g : Group) (c : Crew) (i : Instr) (k : BitVec 4) (recs : List SSrc), i.wf = true → Issuing s g → s.crewOf g = some c →
    (match i with
      | .mma m | .mmas m | .mmaq m => k = m.g ∧ recs = [m.a, m.b] ∧ g.sOk m.a = true ∧ g.sOk m.b = true ∧ g.sOk m.o = true
      | .sacc q _ _ a x _ _ _ _ => k = q ∧ recs = [] ∧ g.sOk a = true ∧ g.sOk x = true
      | .accz q _ | .acczPair q _ => k = q ∧ recs = []
      | .accld q _ a x _ _ _ | .accst q a x _ _ _ _ => k = q ∧ recs = [a] ∧ g.sOk a = true ∧ g.sOk x = true
      | .accdrain q a | .accfill q a => k = q ∧ recs = [] ∧ g.sOk a = true
      | _ => False) →
    (g.eff k = 0 → ∃ t h, exec i s = .next t ∧ Completed s t g h ∧ h.regs = g.regs) ∧
    (g.eff k ≠ 0 → Anew g →
      (∀ m, c.matrixGroup = some m → m ≠ s.cur → exec i s = .next (raiseCD s s.cur 1 18)) ∧
      (Matrix s g c → (∀ m, i = .mmaq m → quadCrew s c = true) → (∃ a ∈ recs, (g.sval a).toNat % 64 ≠ 0) →
        exec i s = .next (raiseCD (asRole s g c) s.cur 6 3)) ∧
      (∀ pre a post x, Matrix s g c → (∀ m, i = .mmaq m → quadCrew s c = true) → recs = pre ++ a :: post →
        (∀ b ∈ recs, (g.sval b).toNat % 64 = 0 ∧ ∃ y, xlate s g.core (s.ctxOf g) (g.sval b) g.sup .read false = .ok y ∧ inHbm y.pa = true ∧
          inWindow s.lnkid y.pa = false ∧ s.farFault y.pa = none ∧ recordHeld s s.cur g (g.sval b) y.pa = false ∧ (b ∈ pre → poisoned s y.pa 64 = false)) →
        xlate s g.core (s.ctxOf g) (g.sval a) g.sup .read false = .ok x → poisoned s x.pa 64 = true →
        exec i s = .next (killLanes (asRole s g c) s.cur g g.live (memSrc s x.pa))))

/-- R121, R245 and R246: `xbatch` closes the open batch, counts it on `xc`, and without an open operation does nothing; `opready` marks the stores
of the group that later operations wait for, and forgets what the crew wrote before. Both wait for the claim of the array. -/
def BatchesAndOpready : Prop :=
  ∀ (s : State) (g : Group) (c : Crew), Matrix s g c →
    (¬Claims s g → ∀ i ∈ [Instr.xbatch, .opready], ∃ t, exec i s = .next t ∧ t.mem = s.mem ∧
      t.group? s.cur = some { g with status := .parked .arrayClaim, issued := true, stamp := s.clock }) ∧
    (Claims s g →
    let isOpen := fun (o : MOp) => o.gid == s.cur && o.batch == none
    ((∀ o ∈ (claimed s g c).ops, isOpen o = false) →
      ∃ t h, exec .xbatch s = .next t ∧ t.group? s.cur = some h ∧ g.Moved h ∧ h.regs = g.regs ∧ h.pc = g.pcAfter ∧ h.status = .ready ∧
        t.mem = s.mem ∧ (t.core g.core).array = claimed s g c) ∧
    ((∃ o ∈ (claimed s g c).ops, isOpen o = true ∧ o.complete = false) →
      ∃ t h pre b, exec .xbatch s = .next t ∧ t.group? s.cur = some h ∧ h.pc = g.pcAfter ∧ h.status = .ready ∧ h.regs = g.regs ∧
        h.xc = pre ++ [⟨b, false⟩] ∧ s.nextId ≤ b ∧ t.mem = s.mem ∧
        ∀ o ∈ (claimed s g c).ops, isOpen o = true → { o with batch := some b } ∈ (t.core g.core).array.ops) ∧
    (∃ t h k, exec .opready s = .next t ∧ t.group? s.cur = some h ∧ h.pc = g.pcAfter ∧ h.status = .ready ∧ h.regs = g.regs ∧
      s.nextId ≤ h.ready ∧ t.crew? g.crew = some k ∧ k.recent = [] ∧ t.mem = s.mem ∧ (t.core g.core).array = claimed s g c)) ∧
    -- an `s` register that an operation names, written before it completes, leaves its result free (R121)
    (∀ r v, r ∈ g.opRegs → r ∈ (g.writeS r v).sHit) ∧
    (∀ gid x r o, s.group? gid = some x → r ∈ x.sHit → o ∈ (s.core x.core).array.ops → o.gid = gid → r ∈ o.regs → o.complete = false →
      { o with tainted := true } ∈ ((noteRegs s gid).core x.core).array.ops)

/-! ## What the array computes (R142 to R144, R244 to R250) -/

/-- Operation `o` of a core may complete: the array is not halted and its band lets it run, no earlier operation that is open uses its
tiles, and the stores that its `opready` covers are performed (R236, R245, R246, R280). -/
structure Enabled (s : State) (core : Nat) (o : MOp) : Prop where
  at_ : ∃ pre post, (s.core core).array.ops = pre ++ o :: post ∧
    ∀ x ∈ pre, x.id ≠ o.id ∧ (x.complete = true ∨ ∀ t ∈ x.tiles, t ∉ o.tiles)
  open_ : o.complete = false ∧ o.stuck = false
  running : (s.core core).array.halted = false ∧ s.cryo.band ≤ 2
  stores : ∀ e ∈ s.reqs, e.2.gid = o.gid → e.2.performed = false → e.2.op < o.ready → e.2.kind = .load ∨ e.2.kind = .frzq
  tiles : ∀ e ∈ s.copies, e.2.gid = o.gid → e.2.vals ≠ none → o.ready ≤ e.2.op

/-- Element (`i`, `j`) of tile `d`; rows from 64 lie in the next one. -/
def tileAt (a : ArraySt) (d i j : Nat) : W32 := SMap.get a.tiles 0 (4096 * (d + i / 64) + 64 * (i % 64) + j)

/-- The array of a core has completed `o` with `v` in its region; all other elements, every register, program counter and scratchpad, and
the bytes of every line that no core leases are as they were. -/
structure Landed (s t : State) (core : Nat) (o : MOp) (v : Nat → Nat → W32) : Prop where
  tile : ∀ i j, i < o.mm → j < o.nn → tileAt (t.core core).array o.d i j = v i j
  rest : ∀ d i j, i < 64 → j < 64 → (∀ x y, x < o.mm → y < o.nn → (d, i, j) ≠ (o.d + x / 64, x % 64, y)) →
    tileAt (t.core core).array d i j = tileAt (s.core core).array d i j
  done : ∀ x ∈ (t.core core).array.ops, x.id = o.id → x.complete = true ∧ x.fault = none
  kept : o.batch = none → ∃ x ∈ (t.core core).array.ops, x.id = o.id
  groups : ∀ j g, s.group? j = some g → ∃ h, t.group? j = some h ∧ h.regs = g.regs ∧ h.pc = g.pc
  pads : ∀ k, (t.crew? k).map Crew.scratch = (s.crew? k).map Crew.scratch
  mem : ∀ a, SMap.find? s.leases (a / 128) = none → Memory.byte t.mem a = Memory.byte s.mem a

/-- The array has completed `o` with a fault that its batch reports, and free values in its region. -/
structure FailedOp (s t : State) (core : Nat) (o : MOp) (cause detail : Nat) : Prop where
  done : ∀ x ∈ (t.core core).array.ops, x.id = o.id → x.complete = true ∧ x.fault = some (FaultInfo.of cause detail)
  kept : o.batch = none → ∃ x ∈ (t.core core).array.ops, x.id = o.id
  rest : ∀ d i j, i < 64 → j < 64 → (∀ x y, x < o.mm → y < o.nn → (d, i, j) ≠ (o.d + x / 64, x % 64, y)) →
    tileAt (t.core core).array d i j = tileAt (s.core core).array d i j
  mem : t.mem = s.mem

/-- The value of an operand element (R138, R143): a code of the q4n book, or a number; `neg` flips its sign. -/
def factor (t : Fmt) (neg : Bool) (e : Option Nat) : XVal :=
  let x := match e with
    | none => XVal.fin false 0 0
    | some c => if t = .q4n then .fin (decide (8 ≤ c % 16)) ([11, 33, 55, 80, 107, 139, 181, 256].getD (c % 8) 0) (-8) else ofCode t c
  if neg then match x with
    | .nan => .nan
    | .inf b => .inf !b
    | .fin b m k => .fin (!b) m k
  else x

/-- An i8 element (R244). -/
def factorI (neg : Bool) (e : Option Nat) : Int :=
  let v : Int := match e with
    | none => 0
    | some c => if c % 256 < 128 then (c % 256 : Nat) else (c % 256 : Nat) - 256
  if neg then -v else v

/-- Elements of a chunk, by the format of A (R142). -/
def chunkSize (t : Fmt) : Nat := if t = .f16 ∨ t = .bf16 then 16 else if t = .q4n then 64 else 32

/-- R143: the exact sum of a chunk's products. It is NaN where a factor is, where a product is of infinity and zero, or where infinities
of both signs meet; an infinity where a product is; else the real sum, whose zero is -0 only where every product is. -/
def ExactSums : Prop :=
  ∀ l : List XVal,
    (XVal.nan ∈ l ∨ (XVal.inf true ∈ l ∧ XVal.inf false ∈ l) → sumExact l = .nan) ∧
    (XVal.nan ∉ l → ∀ b, XVal.inf b ∈ l → XVal.inf (!b) ∉ l → sumExact l = .inf b) ∧
    ((∀ x ∈ l, ∃ b m k, x = .fin b m k) → l ≠ [] → ∃ b m k, sumExact l = .fin b m k ∧ realOf (.fin b m k) = (l.map realOf).sum ∧
      (m = 0 → (b = true ↔ ∀ x ∈ l, ∃ q, x = .fin true 0 q)))

/-- R143: the accumulator after `n` chunks of `w`, `a k` and `b k` being the factors; `none` before the first one under accumulate-disable. -/
def accAfter (a b : Nat → XVal) (w : Nat) (acc : Option Nat) : Nat → Option Nat
  | 0 => acc
  | n + 1 =>
    let t := (roundTo .f32 .rne (sumExact ((List.range w).map (fun k => XVal.mul (a (n * w + k)) (b (n * w + k)))))).code
    match accAfter a b w acc n with
    | none => some t
    | some c => some (roundTo .f32 .rne (XVal.add .rne (ofCode .f32 c) (ofCode .f32 t))).code

/-- R143 and R144: an accumulator element after an operation on a row of A and a column of B. -/
def accValue (o : MOp) (old : W32) (a b : Nat → Option Nat) : W32 :=
  if o.fa = .i8 then
    BitVec.ofInt 32 ((if o.noAcc then 0 else (old.toNat : Int)) + ((List.range o.kk).map (fun k => factorI o.negA (a k) * factorI o.negB (b k))).sum)
  else BitVec.ofNat 32 ((accAfter (fun k => factor o.fa o.negA (a k)) (fun k => factor o.fb o.negB (b k)) (chunkSize o.fa)
    (if o.noAcc then none else some old.toNat) (o.kk / chunkSize o.fa)).getD 0)

/-- The elements of an operand, as read now, from (`c0`, `c1`): `f k i`. -/
def Gives (s : State) (core ctx crew : Nat) (sup : Bool) (h : Shape) (c0 c1 n rows : Nat) (f : Nat → Nat → Option Nat) : Prop :=
  ∀ i k, i < rows → k < n → ∃ b, operandElem s (.tile core) ctx crew sup h (c0 + k) (c1 + i) = .ok (f k i, b)

/-- A member of joint operation `j`: crew `id` has peer index `q`, and `o` is its operation, on core `x` (R248). -/
structure Member (s : State) (c : Crew) (j q id : Nat) (k : Crew) (x : Nat) (o : MOp) : Prop where
  peer : peerCrew s c q = some id
  crew : s.crew? id = some k
  core : x ∈ k.cores ∧ (s.core x).array.holder = some id
  only : ∀ y ∈ k.cores, y ≠ x → (s.core y).array.holder ≠ some id
  op : ∃ pre post, (s.core x).array.ops = pre ++ o :: post ∧ ∀ y ∈ pre, ¬(y.kind = .mmaq ∧ y.joint = j)
  joint : o.kind = .mmaq ∧ o.joint = j ∧ o.mm ≤ 128 ∧ o.nn ≤ 64 ∧ o.nn % 4 = 0 ∧ o.kk % chunkSize o.fa = 0

/-- R142 to R144, R241, R244, R245, R253: `mma` and `mmas`: when the array has read its operands, each element of the region is the sum of
R143 or R144. A field of metadata that is not well-formed ends the operation with ILLEGAL 16, a peer that has retired with PEERGONE 2. At a
page that is not resident, or at a window line that the home has first to read, the operation waits. -/
def Products : Prop :=
  ∀ (s : State) (core crew : Nat) (c : Crew) (o : MOp) (a b : Shape), Enabled s core o → (s.core core).array.holder = some crew →
    s.crew? crew = some c → o.kind = .mma ∨ o.kind = .mmas → o.a = some a → o.b = some b → o.mm ≤ 128 → o.nn ≤ 64 →
    o.kk % chunkSize o.fa = 0 →
    let ea := fun i k => operandElem s (.tile core) c.ctx crew o.sup a (originAK o.origin + k) (originAM o.origin + i)
    let eb := fun j k => operandElem s (.tile core) c.ctx crew o.sup b (originBK o.origin + k) (originBN o.origin + j)
    (∀ A B, o.tainted = false → Gives s core c.ctx crew o.sup a (originAK o.origin) (originAM o.origin) o.kk o.mm A →
      Gives s core c.ctx crew o.sup b (originBK o.origin) (originBN o.origin) o.kk o.nn B →
      ∃ t, exec (.matrixOpComplete core o.id) s = .next t ∧
        Landed s t core o (fun i j => accValue o (tileAt (s.core core).array o.d i j) (fun k => A k i) (fun k => B k j))) ∧
    (∀ (e : TileRead) (f : Nat × Nat), (e = .bad ∧ f = (1, 16)) ∨ (e = .gone ∧ f = (16, 2)) →
      (∃ i k, k < o.kk ∧ ((i < o.mm ∧ ea i k = .error e) ∨ (i < o.nn ∧ eb i k = .error e))) →
      (∀ i k, k < o.kk → (i < o.mm → (∃ v, ea i k = .ok v) ∨ ea i k = .error e) ∧ (i < o.nn → (∃ v, eb i k = .ok v) ∨ eb i k = .error e)) →
      ∃ t, exec (.matrixOpComplete core o.id) s = .next t ∧ FailedOp s t core o f.1 f.2) ∧
    (∀ e : TileRead, (∃ va, e = .wait va) ∨ (∃ pa, e = .far pa) →
      (∃ i k, k < o.kk ∧ ((i < o.mm ∧ ea i k = .error e) ∨ (i < o.nn ∧ eb i k = .error e))) →
      (∀ i k, k < o.kk → (i < o.mm → (∃ v, ea i k = .ok v) ∨ ea i k = .error e) ∧ (i < o.nn → (∃ v, eb i k = .ok v) ∨ eb i k = .error e)) →
      ∃ t, exec (.matrixOpComplete core o.id) s = .next t ∧ t.cores = s.cores ∧ t.crews = s.crews ∧ t.mem = s.mem)

/-- R248: a joint operation completes in its four members at once, each on its own rows of A and all quarters of B, when all have issued it
and may run it. Members that disagree, or one that has retired, make it fail. -/
def JointProducts : Prop :=
  ∀ (s : State) (core crew : Nat) (c : Crew) (o : MOp), Enabled s core o → (s.core core).array.holder = some crew → s.crew? crew = some c →
    o.kind = .mmaq →
    (∀ (id : Nat → Nat) (k : Nat → Crew) (x : Nat → Nat) (p : Nat → MOp),
      (∀ q, q < 4 → Member s c o.joint q (id q) (k q) (x q) (p q) ∧ Enabled s (x q) (p q)) → (∀ q r, q < 4 → r < 4 → x q = x r → q = r) →
      (∀ (a b : Nat → Shape) (A B : Nat → Nat → Nat → Option Nat),
        (∀ q, q < 4 → (p q).tainted = false ∧ (p q).a = some (a q) ∧ (p q).b = some (b q) ∧
          ((p q).mm, (p q).nn, (p q).kk, (p q).fa, (p q).fb) = (o.mm, o.nn, o.kk, o.fa, o.fb) ∧
          ((p q).negA, (p q).negB, (p q).noAcc) = (o.negA, o.negB, o.noAcc) ∧
          Gives s (x q) (k q).ctx (id q) (p q).sup (a q) (originAK (p q).origin) (originAM (p q).origin) o.kk o.mm (A q) ∧
          Gives s (x q) (k q).ctx (id q) (p q).sup (b q) (originBK (p q).origin) (originBN (p q).origin) o.kk (o.nn / 4) (B q)) →
        ∃ t, exec (.matrixOpComplete core o.id) s = .next t ∧ ∀ q, q < 4 →
          Landed s t (x q) (p q) (fun i j => accValue o (tileAt (s.core (x q)).array (p q).d i j) (fun n => A q n i)
            (fun n => B (j / (o.nn / 4)) n (j % (o.nn / 4))))) ∧
      ((∃ q, q < 4 ∧ ((p q).mm, (p q).nn, (p q).kk, (p q).fa, (p q).fb, (p q).negA, (p q).negB, (p q).noAcc) ≠
          (o.mm, o.nn, o.kk, o.fa, o.fb, o.negA, o.negB, o.noAcc)) →
        ∃ t, exec (.matrixOpComplete core o.id) s = .next t ∧ ∀ q, q < 4 → FailedOp s t (x q) (p q) 1 19)) ∧
    -- it fails in each member when that may run it, in the order of its array
    (∀ q, q < 4 → peerCrew s c q = none → ∀ r id k x p, r < 4 → Member s c o.joint r id k x p →
      (∀ r' id' k' x' p', r' < 4 → r' ≠ r → Member s c o.joint r' id' k' x' p' → x' ≠ x) →
      ∃ t, exec (.matrixOpComplete core o.id) s = .next t ∧ (Enabled s x p → FailedOp s t x p 16 2) ∧
        (opEnabled s x p = false → (t.core x).array = (s.core x).array))

/-- R139, R249, R250: `sacc`, `accz` and `accld`. -/
def TileMoves : Prop :=
  ∀ (s : State) (core crew : Nat) (c : Crew) (o : MOp), Enabled s core o → (s.core core).array.holder = some crew → s.crew? crew = some c →
    o.mm ≤ 128 → o.nn ≤ 64 →
    (o.kind = .accz → ∃ t, exec (.matrixOpComplete core o.id) s = .next t ∧ Landed s t core o (fun _ _ => 0)) ∧
    (∀ a A, o.kind = .accld → o.tainted = false → o.a = some a →
      Gives s core c.ctx crew o.sup a (originAK o.origin) (originAM o.origin) o.nn o.mm A →
      ∃ t, exec (.matrixOpComplete core o.id) s = .next t ∧ Landed s t core o (fun i j => BitVec.ofNat 32 ((A j i).getD 0))) ∧
    (o.kind = .sacc → o.tainted = false → ∃ t, exec (.matrixOpComplete core o.id) s = .next t ∧
      Landed s t core o (fun i j =>
        let scale := XVal.mul (ofCode .f32 (Memory.readNat c.scratch (o.k2 + 4 * i) 4)) (.fin false (Memory.readNat c.scratch (o.k1 + i) 1 + 1) (-8))
        let p := tileAt (s.core core).array o.p i j
        let x := XVal.mul (ofCode .f32 (roundTo .f32 .rne scale).code)
          (if o.fa = .i32 then .fin (decide (p.toInt < 0)) p.toInt.natAbs 0 else ofCode .f32 p.toNat)
        BitVec.ofNat 32 (roundTo .f32 .rne
          (if o.noAcc then x else XVal.add .rne (ofCode .f32 (tileAt (s.core core).array o.d i j).toNat) x)).code))

/-- R245 and R247: when its last operation completes, the oldest batch retires on `xc`, and its fault is held for the `xwait` that waits for
it. An operation that may not complete changes nothing. -/
def BatchesRetire : Prop :=
  ∀ (s : State) (core crew : Nat) (c : Crew) (o : MOp) (g : Group) (b : Nat) (d : Bool) (r : List CtrEntry),
    (s.core core).array.holder = some crew → s.crew? crew = some c →
    (Enabled s core o → o.kind = .accz → o.batch = some b → s.group? o.gid = some g → g.core = core → g.xc = ⟨b, d⟩ :: r → (∀ e ∈ r, e.op ≠ b) →
      g.imaged = false → (∀ x ∈ (s.core core).array.ops, x.batch = some b → x.id ≠ o.id → x.complete = true) →
      ∃ t h, exec (.matrixOpComplete core o.id) s = .next t ∧ t.group? o.gid = some h ∧ (∀ e ∈ h.xc, e.op ≠ b) ∧
        (∀ x ∈ (t.core core).array.ops, x.gid = o.gid → x.batch ≠ some b) ∧
        (∀ x f, x ∈ (s.core core).array.ops → x.gid = o.gid → x.batch = some b → x.fault = some f → x.id ≠ o.id →
          ∃ q ∈ h.heldFaults, q.ctr = .xc ∧ q.op = b ∧ q.recs = [f])) ∧
    (∀ pre post, (s.core core).array.ops = pre ++ o :: post → (∀ x ∈ pre, x.id ≠ o.id) → ¬Enabled s core o →
      exec (.matrixOpComplete core o.id) s = .next s)

/-! ## Tiles stored, and images (R251, R252) -/

/-- R251: `accst` reads its region of a tile now, as bits or rounded to f16 or bf16; its elements within the extents are to be written, counted
on `sc`. It waits for the claim and for room on `sc` past its checks. -/
def TileStores : Prop :=
  ∀ (s : State) (g : Group) (c : Crew) (k ti : BitVec 4) (a x : SSrc) (ty : Fmt) (mc nc : BitVec 2) (r : List (BitVec 64)), Matrix s g c →
    (Instr.accst k a x ti ty mc nc).wf = true → g.eff k ≠ 0 → g.sOk a = true → g.sOk x = true → RecordAt s g (g.sval a) r →
    let i := Instr.accst k a x ti ty mc nc
    let h := Shape.of r
    let ak := originAK (g.sval x)
    let am := originAM (g.sval x)
    let inside := fun (e : Nat) => decide (ak + e % tileSize nc < h.e 0 ∧ am + e / tileSize nc < recRows h)
    let todo := (List.range (tileSize mc * tileSize nc)).filter inside
    let sp := todo.map (fun e => (⟨h.space, elemAt h (ak + e % tileSize nc) (am + e / tileSize nc), elemWidth h.fmt, true⟩ : Span))
    let u := asRole s g c
    let bad := Unsuited r ty false ∨ h.space = 2
    (bad → exec i s = .next (raiseCD u s.cur 1 17)) ∧
    (¬bad →
      (∀ f, spanScratch u g sp = some f → exec i s = .next (raise u s.cur f)) ∧
      (∀ f, spanScratch u g sp = none → spanChecks u g sp = some f → exec i s = .next (stopWith u s.cur f)) ∧
      (spanScratch u g sp = none → spanChecks u g sp = none →
        (¬Claims s g → ∃ t, exec i s = .next t ∧ t.mem = s.mem ∧ t.group? s.cur = some (passedPark s g .arrayClaim [r, [g.sval x]])) ∧
        (Claims s g → 255 ≤ g.sc.length → ∃ t, exec i s = .next t ∧ t.mem = s.mem ∧
          t.group? s.cur = some (passedPark s g .counterRoom [r, [g.sval x]])) ∧
        (Claims s g → g.sc.length < 255 → todo ≠ [] → h.ndim < 2 →
          (∀ o ∈ (claimed s g c).ops, o.gid = s.cur → ∀ d ∈ o.tiles, d ≠ ti.toNat ∧ (mc = 3 → d ≠ ti.toNat + 1)) →
          (∀ w ∈ g.unwaited, ∀ d ∈ w.tiles, d ≠ ti.toNat ∧ (mc = 3 → d ≠ ti.toNat + 1)) →
          ∃ t j cid q vals, exec i s = .next t ∧ t.group? s.cur = some j ∧ j.pc = g.pcAfter ∧ j.status = .ready ∧ j.regs = g.regs ∧
            j.sc = g.sc ++ [⟨q.op, false⟩] ∧ t.mem = s.mem ∧ SMap.find? t.copies cid = some q ∧ q.gid = s.cur ∧ q.crew = g.crew ∧
            q.todo = todo ∧ q.vals = some vals ∧ q.dst.space = h.space ∧ q.dst.width = elemWidth ty ∧ q.obj = none ∧
            (∀ e ∈ todo, q.dst.addr (boxCoord q.dst e) = elemAt h (ak + e % tileSize nc) (am + e / tileSize nc) ∧
              SMap.get vals 0 e =
                let v := (tileAt (claimed s g c) ti.toNat (e / tileSize nc) (e % tileSize nc)).toNat
                BitVec.ofNat 64 (if ty = .f16 ∨ ty = .bf16 then (roundTo ty .rne (ofCode .f32 v)).code else v)) ∧
            (∀ d m n, tileAt (t.core g.core).array d m n = tileAt (claimed s g c) d m n))))

/-- The pages of an image at `va` translate, as `pa` says, in the walk-ahead TLB of the copy unit too, through tables that lie apart from the image; they
hold bytes of HBM that are not frozen; `w` says that they are written. -/
structure ImagePages (s : State) (g : Group) (va : Word) (w : Bool) (pa : Nat → Nat) : Prop where
  aligned : va.toNat % 4096 = 0
  pages : ∀ i, i < 69 → ∃ x, xlate s g.core (s.ctxOf g) (va + BitVec.ofNat 64 (4096 * i)) g.sup (if w then .write else .read) false = .ok x ∧
    x.pa = pa i ∧ inHbm (pa i) = true ∧ granuleFrozen s (pa i) = false ∧ x.frz = false ∧ (x.colour = 0 ∨ x.colour ∈ g.colours) ∧
    pa i % 4096 = 0 ∧ inHbm (pa i + 4095) = true
  apart : ∀ i j, i < 69 → j < 69 → pa i = pa j → i = j
  steady : ∀ m fc, (∀ x, (∀ i, i < 69 → x < pa i ∨ pa i + 4096 ≤ x) → Memory.byte m x = Memory.byte s.mem x) → ∀ i, i < 69 →
    ∃ y, imagePage { s with mem := m, farCopies := fc } g va i w = .ok y ∧ y.pa = pa i

/-- No page of an image at `va` is resident: an image that is written there is bound for the bounce buffer, whose next slot lies at `y`. -/
structure ImageAway (s : State) (g : Group) (va : Word) (y : Nat) : Prop where
  aligned : va.toNat % 4096 = 0
  pages : ∀ i, i < 69 → ∃ col z, (col = 0 ∨ col ∈ g.colours) ∧
    xlate s g.core (s.ctxOf g) (va + BitVec.ofNat 64 (4096 * i)) g.sup .write false = .error (.page 2 col z)
  unit : ∀ i, i < 69 → ∃ k col z, imagePage s g va i true = .error (.page k col z)
  slot : ∃ x, xlateWalk s (s.ctxOf g) ((s.ctx (s.ctxOf g)).bbbase + BitVec.ofNat 64 (256 * (s.ctx (s.ctxOf g)).bbtail.toNat)) true .write false = .ok x ∧
    x.pa = y ∧ x.frz = false
  steady : ∀ m fc, (∀ x, x < y ∨ y + 256 ≤ x → Memory.byte m x = Memory.byte s.mem x) →
    ∃ k col z, imagePage { s with mem := m, farCopies := fc } g va 0 true = .error (.page k col z)
  place : y % 256 = 0 ∧ inHbm y = true ∧ granuleFrozen s y = false

/-- No operation of the array that is complete, and none that no `xwait` has waited for, has read the bytes that the image is written to: such a
write would make its result unpredictable (R121). -/
def Unread (s : State) (g : Group) (c : Crew) (va : Nat) : Prop :=
  (∀ o ∈ (claimed s g c).ops, o.complete = true → o.touches s g.crew (0, va, 4096 * 69) = false) ∧
  ∀ e ∈ s.groups, e.2.crew = g.crew → ∀ o ∈ e.2.unwaited, o.touches s g.crew (0, va, 4096 * 69) = false

/-- `n` bytes at an offset of an image. -/
def imageNat (s : State) (pa : Nat → Nat) (o n : Nat) : Nat := Memory.readNat s.mem (pa (o / 4096) + o % 4096) n

/-- R242, R252, R295: `accdrain` waits for the operations of its group, or for the halt that was requested, and writes the tiles and the header; with a
halted array those that are not complete leave it. Lines bound for pages that are not resident bounce, one by one, as far as the bounce buffer has
room. `accfill` reads tiles back; it rejects an image that is not one. What has passed its checks is not checked again. Both raise COLOURENGINE with the
lowest colour that is not held. -/
def ArrayImages : Prop :=
  ∀ (s : State) (g : Group) (c : Crew) (k : BitVec 4) (a : SSrc) (pa : Nat → Nat), Matrix s g c → g.eff k ≠ 0 → g.sOk a = true →
    let va := g.sval a
    let u := asRole s g c
    let mine := (claimed s g c).ops.filter (fun o => o.gid == s.cur && !o.complete)
    (va.toNat % 4096 ≠ 0 → ∀ i ∈ [Instr.accdrain k a, .accfill k a], exec i s = .next (raiseCD u s.cur 6 3)) ∧
    (∀ i w, (i, w) ∈ [(Instr.accdrain k a, Need.write), (.accfill k a, .read)] → va.toNat % 4096 = 0 → ∀ (x : Nat → Xl) (col : Nat),
      (∀ n, n < 69 → xlate s g.core (s.ctxOf g) (va + BitVec.ofNat 64 (4096 * n)) g.sup w false = .ok (x n) ∧ (x n).frz = false) →
      col ≠ 0 → (∃ n, n < 69 ∧ (x n).colour = col) → col ∉ g.colours →
      (∀ n, n < 69 → (x n).colour < col → (x n).colour = 0 ∨ (x n).colour ∈ g.colours) →
      exec i s = .next (stopWith u s.cur { FaultInfo.of 13 1 with aux := BitVec.ofNat 16 col })) ∧
    (ImagePages s g va true pa → ¬Claims s g → ∃ t, exec (.accdrain k a) s = .next t ∧ t.mem = s.mem ∧
      t.group? s.cur = some (passedPark s g .arrayClaim [[0]])) ∧
    -- the first line bounces and fills the ring
    (∀ y, ImageAway s g va y → Claims s g → (claimed s g c).halt = false → mine = [] → ((claimed s g c).tiles.map Prod.fst).Nodup →
      (s.ctx (s.ctxOf g)).bbtail + 2 = (s.ctx (s.ctxOf g)).bbhead →
      ∃ t, exec (.accdrain k a) s = .next t ∧ (t.ctx (s.ctxOf g)).bbtail = (s.ctx (s.ctxOf g)).bbtail + 1 ∧
        t.group? s.cur = some { passedPark s g .image [[1]] with pager := some (g.pager.getD va) } ∧
        Memory.readNat t.mem y 8 = va.toNat ∧ Memory.readNat t.mem (y + 8) 8 = (g.core * 2 ^ 16 + 16) % 2 ^ 64 ∧
        Memory.readNat t.mem (y + 16) 16 = 2 ^ 128 - 1 ∧
        ∀ j, j < 32 → Memory.readNat t.mem (y + 128 + 4 * j) 4 = (tileAt (claimed s g c) 0 0 j).toNat) ∧
    (∀ y, ImageAway s g va y → Claims s g → (claimed s g c).halt = false → mine = [] →
      (s.ctx (s.ctxOf g)).bbtail + 1 = (s.ctx (s.ctxOf g)).bbhead →
      ∃ t, exec (.accdrain k a) s = .next t ∧ t.mem = s.mem ∧ t.group? s.cur = some (passedPark s g .image [[0]])) ∧
    (ImagePages s g va true pa → Claims s g →
      let halted := (claimed s g c).halted
      let halt := (claimed s g c).halt
      ((halt = true ∧ halted = false) ∨ (halt = false ∧ mine ≠ []) →
        ∃ t, exec (.accdrain k a) s = .next t ∧ t.mem = s.mem ∧ t.group? s.cur = some (passedPark s g .image [[0]])) ∧
      ((halt = true ∧ halted = true) ∨ (halt = false ∧ halted = false ∧ mine = []) → ((claimed s g c).tiles.map Prod.fst).Nodup →
        mine.length ≤ 64 → (∀ e ∈ s.farWrites, e.2.owner ≠ .image s.cur) → Unread s g c va.toNat →
        ∃ t h, exec (.accdrain k a) s = .next t ∧ t.group? s.cur = some h ∧ h.pc = g.pcAfter ∧ h.status = .ready ∧ h.regs = g.regs ∧
          (∀ d i j, d < 16 → i < 64 → j < 64 →
            imageNat t pa (0x4000 * d + 256 * i + 4 * j) 4 = (tileAt (claimed s g c) d i j).toNat ∧
            tileAt (t.core g.core).array d i j = tileAt (claimed s g c) d i j) ∧
          (g.xc.length < 256 → imageNat t pa 0x40000 8 = 0x9600 * 2 ^ 48 + mine.length * 2 ^ 32 + g.xc.length * 2 ^ 24 +
            (mine.filter (fun o => o.batch == none)).length * 2 ^ 16 + (if halted then 2 else 0) + 1) ∧
          (∀ o ∈ (t.core g.core).array.ops, o.gid = s.cur → halted = false) ∧
          (∀ x, (∀ i, i < 69 → x < pa i ∨ pa i + 4096 ≤ x) → SMap.find? s.leases (x / 128) = none →
            Memory.byte t.mem x = Memory.byte s.mem x))) ∧
    (ImagePages s g va false pa → Memory.wf s.mem → s.memPoison = [] → (s.core g.core).array.ops.filter (fun o => o.gid == s.cur) = [] →
      let head := imageNat s pa 0x40000 8
      (head / 2 ^ 48 ≠ 0x9600 ∨ head % 2 = 0 ∨ 64 < head / 2 ^ 32 % 256 ∨ head / 2 ^ 32 % 256 < head / 2 ^ 16 % 256 →
        exec (.accfill k a) s = .next (raiseCD (u.setGroup s.cur { g with passed := some (g.pc, g.sup, []) }) s.cur 8 6)) ∧
      (head / 2 ^ 48 = 0x9600 → head % 2 = 1 → head / 2 ^ 32 % 256 = 0 → head / 2 ^ 16 % 256 = 0 → Claims s g →
        ∃ t h, exec (.accfill k a) s = .next t ∧ t.group? s.cur = some h ∧ h.pc = g.pcAfter ∧ h.status = .ready ∧ h.regs = g.regs ∧
          t.mem = s.mem ∧
          ∀ d i j, d < 16 → i < 64 → j < 64 →
            tileAt (t.core g.core).array d i j = BitVec.ofNat 32 (imageNat s pa (0x4000 * d + 256 * i + 4 * j) 4)))

/-! ## Copies (R254 to R256) -/

/-- A copy instruction: its guard, the sources that name its records and its object, and its unit. -/
def copyRow (i : Instr) : Option (BitVec 4 × SSrc × SSrc × Option SSrc × Nat) :=
  match i with
  | .copy k d a => some (k, d, a, none, 16)
  | .copyBar k d a b => some (k, d, a, some b, 16)
  | .xcopy k d a e => some (k, d, a, none, e.toNat)
  | _ => none

/-- A box coordinate (R254), dimension 0 fastest, of the element with an index. -/
def boxAt (h : Shape) (i : Nat) : List Nat := [i % h.b 0, i / h.b 0 % Nat.max 1 (h.b 1), i / (h.b 0 * Nat.max 1 (h.b 1)) % Nat.max 1 (h.b 2),
  i / (h.b 0 * Nat.max 1 (h.b 1) * Nat.max 1 (h.b 2)) % Nat.max 1 (h.b 3)]

/-- Elements of a box. -/
def boxSize (h : Shape) : Nat := h.b 0 * Nat.max 1 (h.b 1) * Nat.max 1 (h.b 2) * Nat.max 1 (h.b 3)

/-- A coordinate lies within the extents (R238). -/
def Inside (h : Shape) (c : List Nat) : Prop := ∀ d, d < 4 → d ≤ h.ndim → c.getD d 0 < h.e d

/-- The byte address of a coordinate (R238). -/
def placeOf (h : Shape) (c : List Nat) : Nat :=
  ((h.base + (c.getD 0 0 : Int) * h.s 0 + (c.getD 1 0 : Int) * h.s 1 + (c.getD 2 0 : Int) * h.s 2 + (c.getD 3 0 : Int) * h.s 3) % 2 ^ 64).toNat

/-- The records of a copy do not fit each other, or their spaces are not those of its unit (R254, R255). -/
def Mismatched (a d : Shape) (unit : Nat) : Prop :=
  a.ndim ≠ d.ndim ∨ (∃ i, i < 4 ∧ i ≤ a.ndim ∧ (a.b i ≠ d.b i ∨ a.b i = 0)) ∨ elemWidth a.fmt ≠ elemWidth d.fmt ∨ a.fmt = .q4n ∨ d.fmt = .q4n ∨
  (if unit = 16 then (a.space, d.space) ∉ [(0, 1), (1, 0), (1, 1), (2, 1)] else (a.space, d.space) ≠ (0, 0))

/-- The ranges of the elements of a box that lie within the extents. -/
def BoxRanges (h : Shape) (w : Bool) (sp : List Span) : Prop :=
  ∀ x : Span, x ∈ sp ↔ ∃ i, i < boxSize h ∧ Inside h (boxAt h i) ∧ x = ⟨h.space, placeOf h (boxAt h i), elemWidth h.fmt, w⟩

/-- What a copy instruction names: its records, the offset of its barrier object, and its unit. -/
structure CopyArgs where
  d : Shape
  a : Shape
  obj : Option Nat
  unit : Nat

/-- A scratchpad line holds a byte of a range. -/
def onLine (x : Span) (l : Nat) : Prop := x.space = 1 ∧ x.addr < 128 * l + 128 ∧ 128 * l < x.addr + x.n

/-- The copy is accepted: it counts on `cc`, the scratchpad lines of its destination ranges `dst` are absent, its elements within the
destination extents are to land, and the group goes on. -/
structure CopyBegun (s t : State) (g h : Group) (c : Crew) (n : CopyArgs) (dst : List Span) (cid : Nat) (q : Copy) : Prop where
  group : t.group? s.cur = some h
  moved : g.Moved { h with cc := g.cc } ∧ h.regs = g.regs ∧ h.pc = g.pcAfter ∧ h.status = .ready ∧ h.cc = g.cc ++ [⟨q.op, false⟩]
  others : ∀ j, j ≠ s.cur → t.group? j = s.group? j
  mem : t.mem = s.mem
  copy : SMap.find? t.copies cid = some q
  what : q.src = n.a ∧ q.dst = n.d ∧ q.unit = n.unit ∧ q.obj = n.obj ∧ q.gid = s.cur ∧ q.crew = g.crew ∧ q.core = g.core ∧
    q.after = g.lastRelease ∧ q.vals = none ∧ q.tainted = false ∧ q.sent = []
  todo : ∀ e, e ∈ q.todo ↔ e < boxSize n.a ∧ Inside n.d (boxAt n.d e)
  queue : n.unit ≠ 16 → SMap.get t.engines [] n.unit = SMap.get s.engines [] n.unit ++ [cid]
  crew : ∃ k, t.crew? g.crew = some k ∧ k.scratch = c.scratch ∧ ∀ l, l ∈ k.absent ↔ l ∈ c.absent ∨ ∃ x ∈ dst, onLine x l

/-- R51, R80, R115, R123, R242, R254, R255: copies at issue. An accepted copy counts on `cc`, and its destination lines are absent. A group that
waits for lines or for room on `cc` keeps what it has read, and neither reads nor checks it again. -/
def CopyIssues : Prop :=
  ∀ (s : State) (g : Group) (c : Crew) (i : Instr) (k : BitVec 4) (sd sa : SSrc) (sb : Option SSrc) (unit : Nat) (rd ra : List (BitVec 64)),
    i.wf = true → copyRow i = some (k, sd, sa, sb, unit) → Issuing s g → Anew g → s.crewOf g = some c →
    g.sOk sd = true → g.sOk sa = true → (∀ b, sb = some b → g.sOk b = true) →
    (g.eff k = 0 → ∃ t h, exec i s = .next t ∧ Completed s t g h ∧ h.regs = g.regs) ∧
    (g.eff k ≠ 0 →
      ((g.sval sd).toNat % 64 ≠ 0 ∨ (g.sval sa).toNat % 64 ≠ 0 → exec i s = .next (raiseCD s s.cur 6 3)) ∧
      (RecordAt s g (g.sval sd) rd → RecordAt s g (g.sval sa) ra →
        let d := Shape.of rd
        let a := Shape.of ra
        let bad := Rejected rd false ∨ Rejected ra false ∨ Mismatched a d unit
        let out := a.zfill = false ∧ ∃ n, n < boxSize a ∧ ¬Inside a (boxAt a n)
        (bad → exec i s = .next (raiseCD s s.cur 1 17)) ∧
        (¬bad → out → exec i s = .next (raiseCD s s.cur 8 5)) ∧
        (¬bad → ¬out → ∃ sp src dst, sp = src ++ dst ∧ BoxRanges a false src ∧ BoxRanges d true dst ∧
          (∀ f, spanScratch s g sp = some f → exec i s = .next (raise s s.cur f)) ∧
          (spanScratch s g sp = none →
            (∀ b, sb = some b → c.scratchBytes < (g.sval b).toNat + 16 → exec i s = .next (raiseCD s s.cur 8 1)) ∧
            (∀ b, sb = some b → (g.sval b).toNat + 16 ≤ c.scratchBytes → (g.sval b).toNat % 16 ≠ 0 → exec i s = .next (raiseCD s s.cur 6 2)) ∧
            ((∀ b, sb = some b → (g.sval b).toNat + 16 ≤ c.scratchBytes ∧ (g.sval b).toNat % 16 = 0) →
              (∀ f, spanChecks s g sp = some f → exec i s = .next (stopWith s s.cur f)) ∧
              (spanChecks s g sp = none →
                let meets := fun (l : Nat) => ∃ x ∈ sp, onLine x l
                let ws := [rd, ra] ++ (sb.map (fun b => [g.sval b])).toList
                ((∃ l ∈ c.absent, meets l) → ∃ t, exec i s = .next t ∧ t.group? s.cur = some (passedPark s g .copyLines ws) ∧
                  t.copies = s.copies ∧ t.mem = s.mem) ∧
                ((∀ l ∈ c.absent, ¬meets l) → 255 ≤ g.cc.length → ∃ t, exec i s = .next t ∧
                  t.group? s.cur = some (passedPark s g .counterRoom ws) ∧ t.copies = s.copies ∧ t.mem = s.mem) ∧
                ((∀ l ∈ c.absent, ¬meets l) → g.cc.length < 255 →
                  ∃ t h cid q, exec i s = .next t ∧ CopyBegun s t g h c ⟨d, a, sb.map (fun b => (g.sval b).toNat), unit⟩ dst cid q)))))))

/-- A range of an operand passes steps 6 to 8 of R242. -/
def RangePasses (s : State) (g : Group) (c : Crew) (x : Span) : Prop :=
  (x.space = 1 → x.addr + x.n ≤ c.scratchBytes) ∧
  (x.space = 2 → x.addr < 2 ^ 21 ∧ quadCrew s c = true ∧ x.addr % 2 ^ 19 + x.n ≤ c.scratchBytes) ∧
  (x.space = 0 → ∀ p, p = x.addr / 4096 ∨ p = (x.addr + x.n - 1) / 4096 → PageOk s g p (if x.write then .write else .read))

/-- The elements of a box that lie within the extents pass, and no scratchpad line that they lie on is absent. -/
def BoxPasses (s : State) (g : Group) (c : Crew) (h : Shape) (w : Bool) : Prop :=
  ∀ n, n < boxSize h → Inside h (boxAt h n) →
    let x : Span := ⟨h.space, placeOf h (boxAt h n), elemWidth h.fmt, w⟩
    RangePasses s g c x ∧ ∀ l ∈ c.absent, ¬onLine x l

/-- R242, R254, R255: where the records of `copy`, `copy.bar` and `xcopy` can be read and fit each other, the source box lies within the
extents or the record fills with zeroes, every range passes its checks, no line is absent and `cc` has room, the instruction completes: the
copy is in flight, counted on `cc`. -/
def CopiesComplete : Prop :=
  ∀ (s : State) (g : Group) (c : Crew) (k : BitVec 4) (sd sa : SSrc) (rd ra : List (BitVec 64)),
    Issuing s g → Anew g → s.crewOf g = some c → g.eff k ≠ 0 → g.sOk sd = true → g.sOk sa = true →
    RecordAt s g (g.sval sd) rd → RecordAt s g (g.sval sa) ra → ¬Rejected rd false → ¬Rejected ra false →
    (Shape.of ra).zfill = true ∨ (∀ n, n < boxSize (Shape.of ra) → Inside (Shape.of ra) (boxAt (Shape.of ra) n)) →
    BoxPasses s g c (Shape.of ra) false → BoxPasses s g c (Shape.of rd) true → g.cc.length < 255 →
    (¬Mismatched (Shape.of ra) (Shape.of rd) 16 → (Instr.copy k sd sa).wf = true →
      ∃ t h dst cid q, exec (.copy k sd sa) s = .next t ∧ BoxRanges (Shape.of rd) true dst ∧
        CopyBegun s t g h c ⟨Shape.of rd, Shape.of ra, none, 16⟩ dst cid q) ∧
    (∀ sb, ¬Mismatched (Shape.of ra) (Shape.of rd) 16 → (Instr.copyBar k sd sa sb).wf = true → g.sOk sb = true →
      (g.sval sb).toNat + 16 ≤ c.scratchBytes → (g.sval sb).toNat % 16 = 0 →
      ∃ t h dst cid q, exec (.copyBar k sd sa sb) s = .next t ∧ BoxRanges (Shape.of rd) true dst ∧
        CopyBegun s t g h c ⟨Shape.of rd, Shape.of ra, some (g.sval sb).toNat, 16⟩ dst cid q) ∧
    (∀ e, ¬Mismatched (Shape.of ra) (Shape.of rd) e.toNat → (Instr.xcopy k sd sa e).wf = true →
      ∃ t h dst cid q, exec (.xcopy k sd sa e) s = .next t ∧ BoxRanges (Shape.of rd) true dst ∧
        CopyBegun s t g h c ⟨Shape.of rd, Shape.of ra, none, e.toNat⟩ dst cid q)

/-- The byte address of element `n` of a copy's destination. -/
def destOf (q : Copy) (n : Nat) : Nat := q.dst.addr (boxCoord q.dst n)

/-- Where an engine finds the global destination of element `n`. -/
def destAt (s : State) (q : Copy) (n : Nat) : Except XErr Xl :=
  xlateAhead s q.engine q.ctx (BitVec.ofNat 64 (destOf q n)) q.sup .write false

/-- Local order lets element `n` of a copy land: no fence and no release before the copy holds it back; an element of an `accst` waits for
earlier accesses of its group to the same bytes, and for its line (R51, R108, R110, R123). -/
structure Unfenced (s : State) (q : Copy) (n : Nat) : Prop where
  fences : ∀ g f, s.group? q.gid = some g → f ∈ g.fences → f.2 ≤ q.op → pendingIn s q.gid f.1 f.2 = false ∧ copiesIn s q.gid f.1 f.2 = false
  release : pendingIn s q.gid 0 q.after = false ∧ ∀ e ∈ s.copies, e.2.gid = q.gid → e.2.vals ≠ none → q.after ≤ e.2.op
  tile : q.vals ≠ none → accstHeld s q (destOf q n) = false ∧
    (q.dst.space = 1 → ∀ k, s.crew? q.crew = some k → destOf q n / 128 ∉ k.absent)

/-- The value that element `n` of a copy takes: of the tile for `accst`, of its source element, or zero outside the source extents. -/
def CopyValue (s : State) (q : Copy) (n v : Nat) : Prop :=
  match q.vals with
  | some m => v = (SMap.get m 0 n).toNat
  | none =>
      if q.src.within (boxCoord q.src n) then
        q.tainted = false ∧
        (∀ sp a, placeIn s q.crew q.dst.space (destOf q n) = some (sp, a) → q.touches s (sp, a, q.dst.width) = false) ∧
        ∃ b, readElem s q.engine q.ctx q.crew q.sup q.src.space (q.src.addr (boxCoord q.src n)) q.src.width = .ok v b
      else v = 0

/-- Element `n` is the one that an engine takes next, of those that it has not sent: the manual gives no order, and the choice is a free value (R254;
DESIGN CHOICE, log 4). -/
def EngineTakes (s : State) (q : Copy) (n : Nat) : Prop :=
  let l := q.todo.filter (fun i => !q.sent.contains i)
  l[(freeAt s.freeCtr 0).toNat % l.length]? = some n

/-- The event for an element of a copy: the core's unit lands them in any order, an engine those of its oldest command (R118, R254), while no pager
request waits for a crew that is saved (R297). -/
inductive LandsBy (s : State) (cid n : Nat) (q : Copy) : Instr → Prop
  | unit : q.unit = 16 → LandsBy s cid n q (.copyBytesLand cid n)
  | engine (e : Nat) (r : List Nat) : SMap.get s.engines [] e = cid :: r → EngineTakes s q n →
      (∀ g, s.group? q.gid = some g → g.pager = none ∨ crewSaved s g = false) → LandsBy s cid n q (.engineCommandPerform e)

/-- Element `n` of copy `q` may land now with the value `v`. -/
structure MayLand (s : State) (cid n v : Nat) (q : Copy) : Prop where
  copy : SMap.find? s.copies cid = some q
  todo : n ∈ q.todo ∧ n ∉ q.sent ∧ q.stuck = false
  order : Unfenced s q n
  value : CopyValue s q n v

/-- The copy has gone on from `s` to `t` past its element `n`: the element is no longer to be landed; with the last one the copy is gone and
its instruction complete on its counter. -/
structure Advanced (s t : State) (cid : Nat) (q : Copy) (n : Nat) : Prop where
  more : q.todo.filter (· != n) ≠ [] → ∃ p, SMap.find? t.copies cid = some p ∧ p.todo = q.todo.filter (· != n) ∧ p.op = q.op
  last : q.todo.filter (· != n) = [] → SMap.find? t.copies cid = none ∧ SMap.find? t.ops q.op = none
  regs : ∀ j g, s.group? j = some g → ∃ h, t.group? j = some h ∧ h.regs = g.regs ∧ h.pc = g.pc

/-- The fault of a copy is held for report on its counter, `sc` for an `accst` and `cc` else (R100, R116, R328). -/
def Reports (s t : State) (q : Copy) (cause detail : Nat) : Prop :=
  ∀ g, s.group? q.gid = some g → (∀ f ∈ g.heldFaults, f.op ≠ q.op) →
    ∃ h, t.group? q.gid = some h ∧ ∃ f ∈ h.heldFaults, f.op = q.op ∧ f.ctr = (if q.vals = none then .cc else .sc) ∧ f.recs = [FaultInfo.of cause detail]

/-- R51, R55, R100, R106, R116, R118, R119, R222, R254 to R256, R295, R322, R328, R339: an element of a copy lands: at its home, in the scratchpad, through
the home of a window line to its far end, or in the bounce buffer; it is taken off the barrier object. A granule that is frozen rejects it, and the copy
reports FROZENALIAS 1; one whose port is down is lost, and reports LINKLOST; one that needs a poisoned word of the freeze table or the stamp map
reports PIPEERR 6. -/
def CopyLands : Prop :=
  ∀ (s : State) (cid n v : Nat) (q : Copy) (i : Instr), MayLand s cid n v q → LandsBy s cid n q i →
    let w := q.dst.width
    let addr := destOf q n
    (∀ x, q.dst.space = 0 → destAt s q n = .ok x → inHbm x.pa = true →
      let frozen := granuleFrozen s x.pa = true ∨ granuleFrozen s (x.pa + w - 1) = true
      (tableBad s x.pa w true = true → ∃ t, exec i s = .next t ∧ Advanced s t cid q n ∧ t.mem = s.mem ∧ Reports s t q 17 6) ∧
      (tableBad s x.pa w true = false → frozen →
        ∃ t, exec i s = .next t ∧ Advanced s t cid q n ∧ t.mem = s.mem ∧ Reports s t q 10 1) ∧
      (tableBad s x.pa w true = false → ¬frozen →
        ∃ t, exec i s = .next t ∧ Advanced s t cid q n ∧ Memory.readNat t.mem x.pa w = v % 2 ^ (8 * w) ∧
        (∀ y, y < x.pa ∨ x.pa + w ≤ y → Memory.byte t.mem y = Memory.byte s.mem y) ∧
        (q.unit = 16 → SMap.find? (t.core q.core).l1 (lineOf x.pa) = none))) ∧
    (∀ k, q.dst.space = 1 → s.crew? q.crew = some k → addr + w ≤ k.scratchBytes → q.obj = none →
      ∃ t p, exec i s = .next t ∧ Advanced s t cid q n ∧ t.crew? q.crew = some p ∧ Memory.readNat p.scratch addr w = v % 2 ^ (8 * w) ∧
        (∀ y, y < addr ∨ addr + w ≤ y → Memory.byte p.scratch y = Memory.byte k.scratch y) ∧ t.mem = s.mem ∧
        (q.vals = none → q.todo.filter (· != n) = [] → addr / 128 ∉ p.absent)) ∧
    -- the barrier object, of a destination in the scratchpad and of one in HBM, where the element is rejected as well
    (∀ k o, q.dst.space = 1 → s.crew? q.crew = some k → addr + w ≤ k.scratchBytes → q.obj = some o → addr + w ≤ o ∨ o + 16 ≤ addr →
      ∃ t p, exec i s = .next t ∧ Advanced s t cid q n ∧ t.crew? q.crew = some p ∧ Memory.readNat p.scratch addr w = v % 2 ^ (8 * w) ∧ t.mem = s.mem ∧
        (padWord p o, padWord p (o + 8)) = objectAfter (padWord k o) ((padWord k (o + 8) + 2 ^ 64 - w) % 2 ^ 64)) ∧
    (∀ k x o, q.dst.space = 0 → destAt s q n = .ok x → inHbm x.pa = true → tableBad s x.pa w true = false → q.obj = some o → s.crew? q.crew = some k →
      ∃ t p, exec i s = .next t ∧ t.crew? q.crew = some p ∧
        (padWord p o, padWord p (o + 8)) = objectAfter (padWord k o) ((padWord k (o + 8) + 2 ^ 64 - w) % 2 ^ 64)) ∧
    (∀ x, q.dst.space = 0 → destAt s q n = .ok x → inWindow s.lnkid x.pa = true →
      ((s.port (farOf s x.pa)).up = true → ∃ t p e, exec i s = .next t ∧ SMap.find? t.copies cid = some p ∧ p.todo = q.todo ∧ n ∈ p.sent ∧
        e ∈ t.farWrites ∧ e.2.owner = .copy cid n ∧ e.2.pa = x.pa ∧ e.2.n = w ∧ e.2.v = v ∧ t.mem = s.mem) ∧
      ((s.port (farOf s x.pa)).up = false → ∃ t, exec i s = .next t ∧ Advanced s t cid q n ∧ t.mem = s.mem ∧ Reports s t q 18 0)) ∧
    (∀ k col z, q.dst.space = 0 → destAt s q n = .error (.page k col z) →
      ((s.ctx q.ctx).bbtail + 1 = (s.ctx q.ctx).bbhead → ∃ t, exec i s = .next t ∧ t = { s with freeCtr := t.freeCtr }) ∧
      (∀ y g, (s.ctx q.ctx).bbtail + 1 ≠ (s.ctx q.ctx).bbhead → q.todo = [n] → q.obj = none → s.group? q.gid = some g →
        xlateWalk s q.ctx ((s.ctx q.ctx).bbbase + BitVec.ofNat 64 (256 * (s.ctx q.ctx).bbtail.toNat)) true .write false = .ok y →
        y.pa % 256 = 0 → inHbm y.pa = true → y.frz = false → granuleFrozen s y.pa = false → addr % 128 + w ≤ 128 →
        ∃ t h, exec i s = .next t ∧ SMap.find? t.copies cid = none ∧ (t.ctx q.ctx).bbtail = (s.ctx q.ctx).bbtail + 1 ∧
          Memory.readNat t.mem y.pa 8 = 128 * (addr / 128) ∧ Memory.readNat t.mem (y.pa + 16) 16 = (2 ^ w - 1) * 2 ^ (addr % 128) ∧
          Memory.readNat t.mem (y.pa + 128 + addr % 128) w = v % 2 ^ (8 * w) ∧ t.group? q.gid = some h ∧
          ((s.ctx q.ctx).bbhead = (s.ctx q.ctx).bbtail → g.pager = none → h.pager = some (BitVec.ofNat 64 (addr - addr % z)))))

/-- R51, R118, R254: the two events complete for an element that goes to a scratchpad or to a page of HBM that is resident and not frozen:
COPY_BYTES_LAND for any element of the copy unit, ENGINE_COMMAND_PERFORM for the one that the engine takes next of its oldest command. -/
def LandingsComplete : Prop :=
  ∀ (s : State) (cid n v : Nat) (q : Copy), MayLand s cid n v q →
    (∀ k, q.unit = 16 → q.dst.space = 1 → s.crew? q.crew = some k → destOf q n + q.dst.width ≤ k.scratchBytes → q.obj = none →
      ∃ t p, exec (.copyBytesLand cid n) s = .next t ∧ Advanced s t cid q n ∧ t.crew? q.crew = some p ∧
        Memory.readNat p.scratch (destOf q n) q.dst.width = v % 2 ^ (8 * q.dst.width)) ∧
    (∀ x, q.unit = 16 → q.dst.space = 0 → destAt s q n = .ok x → inHbm x.pa = true → granuleFrozen s x.pa = false →
      granuleFrozen s (x.pa + q.dst.width - 1) = false → tableBad s x.pa q.dst.width true = false →
      ∃ t, exec (.copyBytesLand cid n) s = .next t ∧ Advanced s t cid q n ∧
        Memory.readNat t.mem x.pa q.dst.width = v % 2 ^ (8 * q.dst.width)) ∧
    (∀ x r, SMap.get s.engines [] q.unit = cid :: r → EngineTakes s q n →
      (∀ g, s.group? q.gid = some g → g.pager = none ∨ crewSaved s g = false) → q.dst.space = 0 →
      destAt s q n = .ok x → inHbm x.pa = true → granuleFrozen s x.pa = false →
      granuleFrozen s (x.pa + q.dst.width - 1) = false → tableBad s x.pa q.dst.width true = false →
      ∃ t, exec (.engineCommandPerform q.unit) s = .next t ∧ Advanced s t cid q n ∧
        Memory.readNat t.mem x.pa q.dst.width = v % 2 ^ (8 * q.dst.width))

/-- R62: FLIT_ARRIVE completes where the target group stands, of another crew or the sender itself, and its port has room: the flit joins the
port, and the sender, which was parked at its send, has completed it, and goes on where it took no trap there. -/
def FlitsComplete : Prop :=
  ∀ (s : State) (fid tid : Nat) (f : FlitMsg) (g x : Group), SMap.find? s.flits fid = some f → s.group? f.gid = some g →
    g.waits (· == .parked .portRoom) = true → g.live ≠ 0 → groupOfCrew s f.tgt f.grp = some (tid, x) → s.group? tid = some x →
    (SMap.get x.queues [] f.port).length < 8 → (∀ c, s.crew? f.tgt = some c → c.saved = false) → (tid = f.gid → f.takes = []) →
    ∃ t y, exec (.flitArrive fid) s = .next t ∧ t.group? tid = some y ∧
      SMap.get y.queues [] f.port = SMap.get x.queues [] f.port ++ [f.flit] ∧ y.regs = x.regs ∧ SMap.find? t.flits fid = none ∧ t.mem = s.mem ∧
      (g.places = [] → ∃ h, t.group? f.gid = some h ∧ h.pc = g.pcAfter ∧ h.status = .ready ∧ h.regs = g.regs)

/-- R46, R48, R217: PEER_ACCESS_ARRIVE completes where the target core still holds the crew, and the lines are present: the access of the lane is
performed in that crew's scratchpad, and a load or an atomic keeps the value that it found. -/
def PeerAccessesComplete : Prop :=
  ∀ (s : State) (rid : Nat) (r : Req) (c : Crew), Pending s rid r → r.kind ≠ .frzq → r.sp = .p → r.tgt ≠ r.crew → r.width = widthOf r.ty →
    r.ty.access = true ∨ r.ty = .f32 → s.crew? r.tgt = some c → c.saved = false → lineAbsent c r.pa r.width = false →
    let old := BitVec.ofNat 64 (Memory.readNat c.scratch r.pa r.width)
    ∃ t k, exec (.peerAccessArrive rid) s = .next t ∧ t.crew? r.tgt = some k ∧ t.mem = s.mem ∧ SameRegs s t ∧
      (r.kind = .load → k.scratch = c.scratch) ∧ (r.kind = .store → Stored c.scratch k.scratch r.pa r.width r.data) ∧
      (r.kind = .atom → ∀ v, atomicNew r.aop r.ty old r.data r.cmp = some v → Stored c.scratch k.scratch r.pa r.width v) ∧
      (r.kind = .atom → atomicNew r.aop r.ty old r.data r.cmp = none → k.scratch = c.scratch) ∧
      (r.kind ≠ .store → r.dst ≠ .none → Done t rid old)

end Sys2Proof.Stmt

/-- R138, R140, R141, R237 to R242, R253: shape records, the elements they name, and the checks of the ranges they span. -/
def Obligations.ShapeRecords : Prop := Stmt.RecordFields ∧ Stmt.OperandReads ∧ Stmt.OperandPlaces ∧ Stmt.RangeChecks

/-- R236, R240 to R250: matrix instructions at issue: their checks in order, the claim of the array, and the queue. -/
def Obligations.MatrixIssue : Prop := Stmt.ProductIssues ∧ Stmt.TileIssues ∧ Stmt.MatrixStops ∧ Stmt.BatchesAndOpready

/-- R138 to R144, R244 to R250: what the array computes, operation by operation, and how batches retire. -/
def Obligations.MatrixResults : Prop :=
  Stmt.ExactSums ∧ Stmt.Products ∧ Stmt.JointProducts ∧ Stmt.TileMoves ∧ Stmt.BatchesRetire

/-- R251 and R252: tiles that `accst` stores, and the images of `accdrain` and `accfill`. -/
def Obligations.TilesInMemory : Prop := Stmt.TileStores ∧ Stmt.ArrayImages

/-- R254 to R256: copies at issue, and their elements landing. -/
def Obligations.Copies : Prop := Stmt.CopyIssues ∧ Stmt.CopyLands

/-- R48, R62, R118, R254, R255: under conditions on the state and the operands alone, `copy`, `copy.bar` and `xcopy`, COPY_BYTES_LAND,
ENGINE_COMMAND_PERFORM, FLIT_ARRIVE and PEER_ACCESS_ARRIVE complete. -/
def Obligations.TransfersComplete : Prop :=
  Stmt.CopiesComplete ∧ Stmt.LandingsComplete ∧ Stmt.FlitsComplete ∧ Stmt.PeerAccessesComplete


end
end

