-- ==== Sys2Proof/Laws/Encode.lean ====
section
/-! SUPPORT. The fields of a word survive being put together and taken apart, and scalar and mask operands survive their encoding. -/

namespace Sys2Proof

theorem extract_low {a b : Nat} (x : BitVec a) (y : BitVec b) (lo n : Nat) (h : lo + n ≤ b) :
    (x ++ y).extractLsb' lo n = y.extractLsb' lo n := BitVec.extractLsb'_append_eq_of_add_le h

theorem extract_high {a b : Nat} (x : BitVec a) (y : BitVec b) (lo n : Nat) (h : b ≤ lo) :
    (x ++ y).extractLsb' lo n = x.extractLsb' (lo - b) n := BitVec.extractLsb'_append_eq_of_le h

/-- The thirteen fields of R155 do not overlap. -/
theorem Fields.ofWord_toWord (f : Fields) : Fields.ofWord f.toWord = f := by
  obtain ⟨opc, grd, dst, nwb, sa, sela, sb, selb, sc, selc, typ, mod, imm⟩ := f
  simp only [Fields.ofWord, Fields.toWord, bitsAt, Fields.mk.injEq]
  refine ⟨?_, ?_, ?_, ?_, ?_, ?_, ?_, ?_, ?_, ?_, ?_, ?_, ?_⟩
  case refine_4 =>
    have bit : ∀ (x : BitVec 96), x.getLsbD 72 = (x.extractLsb' 72 1).getLsbD 0 := fun x => by simp
    rw [bit]
    have field : BitVec.extractLsb' 72 1 (opc ++ grd ++ dst ++ BitVec.ofBool nwb ++ sa ++ sela ++ sb ++ selb ++ sc ++ selc ++ typ ++ mod ++ imm)
        = BitVec.ofBool nwb := by
      repeat' first | refine (extract_high _ _ _ _ (by decide)).trans ?_ | refine (extract_low _ _ _ _ (by decide)).trans ?_
      exact BitVec.extractLsb'_eq_self
    rw [field]; cases nwb <;> rfl
  all_goals
    repeat' first | refine (extract_high _ _ _ _ (by decide)).trans ?_ | refine (extract_low _ _ _ _ (by decide)).trans ?_
    exact BitVec.extractLsb'_eq_self

/-- A scalar operand that is no immediate reads back (R157). -/
theorem srcS_enc (a : SSrc) (v : BitVec 32) (h : a.noImm = true) : srcS false a.enc.1 a.enc.2 v = (a, []) := by
  cases a with
  | reg k =>
    have fields : ∀ k : BitVec 6, k.setWidth 9 ≠ (0x100 : BitVec 9) ∧ bitsAt (k.setWidth 9) 0 6 = k ∧ (bitsAt (k.setWidth 9) 6 3 : BitVec 3) = 0 := by
      decide
    simp [SSrc.enc, srcS, bad, (fields k).2]
  | latch l => cases l <;> rfl
  | imm v => simp [SSrc.noImm] at h

/-- A scalar operand of a row that may hold an immediate reads back with it (R157, R160). -/
theorem srcS_encImm (a : SSrc) : srcS true a.enc.1 a.enc.2 a.encImm = (a, []) := by
  cases a with
  | reg k =>
    have fields : ∀ k : BitVec 6, k.setWidth 9 ≠ (0x100 : BitVec 9) ∧ bitsAt (k.setWidth 9) 0 6 = k ∧ (bitsAt (k.setWidth 9) 6 3 : BitVec 3) = 0 := by
      decide
    have h0 : ¬(BitVec.setWidth 9 k = 256#9) := (fields k).1
    simp [SSrc.enc, srcS, bad, h0, (fields k).2]
  | latch l => cases l <;> rfl
  | imm v => rfl

/-- A mask operand reads back (R157). -/
theorem srcM_enc (a : MSrc) : srcM a.enc.1 a.enc.2 = (a, []) := by
  cases a with
  | reg k =>
    have fields : ∀ k : BitVec 4, bitsAt (k.setWidth 9) 0 4 = k ∧ (bitsAt (k.setWidth 9) 4 5 : BitVec 5) = 0 := by decide
    simp [MSrc.enc, srcM, bad, fields k]
  | latch l => cases l <;> rfl

end Sys2Proof
end

