-- ==== Sys2Proof/Laws/Maps.lean ====
section
/-! SUPPORT. Laws of finite maps and of memory: a read after a write, and that every operation of memory keeps its canonical form. -/

namespace Sys2Proof.Machine

variable {α : Type}

/-! ## Reads after writes -/

@[simp] theorem SMap.find?_ins_self (m : SMap α) (k : Nat) (v : α) : SMap.find? (SMap.ins m k v) k = some v := by
  induction m with
  | nil => simp [SMap.ins, SMap.find?]
  | cons e r ih =>
    simp only [SMap.ins]
    split
    · simp [SMap.find?]
    · split <;> simp [SMap.find?, *]

theorem SMap.find?_ins_ne (m : SMap α) (k j : Nat) (v : α) (h : j ≠ k) :
    SMap.find? (SMap.ins m k v) j = SMap.find? m j := by
  induction m with
  | nil => simp [SMap.ins, SMap.find?, Ne.symm h]
  | cons e r ih =>
    simp only [SMap.ins]
    split
    · next he => subst he; simp [SMap.find?, Ne.symm h]
    · split
      · simp [SMap.find?, Ne.symm h]
      · simp only [SMap.find?, ih]

theorem SMap.find?_ins (m : SMap α) (k j : Nat) (v : α) :
    SMap.find? (SMap.ins m k v) j = if j = k then some v else SMap.find? m j := by
  split
  · next h => subst h; simp
  · next h => exact SMap.find?_ins_ne m k j v h

@[simp] theorem SMap.find?_del_self (m : SMap α) (k : Nat) : SMap.find? (SMap.del m k) k = none := by
  induction m with
  | nil => rfl
  | cons e r ih =>
    simp only [SMap.del]
    split
    · exact ih
    · next h => simp [SMap.find?, h, ih]

theorem SMap.find?_del_ne (m : SMap α) (k j : Nat) (h : j ≠ k) : SMap.find? (SMap.del m k) j = SMap.find? m j := by
  induction m with
  | nil => rfl
  | cons e r ih =>
    simp only [SMap.del]
    split
    · next he => rw [ih]; simp [SMap.find?, he, Ne.symm h]
    · simp only [SMap.find?, ih]

theorem SMap.find?_del (m : SMap α) (k j : Nat) :
    SMap.find? (SMap.del m k) j = if j = k then none else SMap.find? m j := by
  split
  · next h => subst h; simp
  · next h => exact SMap.find?_del_ne m k j h

@[simp] theorem SMap.get_put_self [DecidableEq α] (m : SMap α) (d : α) (k : Nat) (v : α) :
    SMap.get (SMap.put m d k v) d k = v := by
  unfold SMap.get SMap.put
  split
  · next h => simp [h]
  · simp

theorem SMap.get_put_ne [DecidableEq α] (m : SMap α) (d : α) (k j : Nat) (v : α) (h : j ≠ k) :
    SMap.get (SMap.put m d k v) d j = SMap.get m d j := by
  unfold SMap.get SMap.put
  split
  · rw [SMap.find?_del_ne _ _ _ h]
  · rw [SMap.find?_ins_ne _ _ _ _ h]

theorem SMap.get_put [DecidableEq α] (m : SMap α) (d : α) (k j : Nat) (v : α) :
    SMap.get (SMap.put m d k v) d j = if j = k then v else SMap.get m d j := by
  split
  · next h => subst h; simp
  · next h => exact SMap.get_put_ne m d k j v h

theorem SMap.get_ins (m : SMap α) (d : α) (k j : Nat) (v : α) :
    SMap.get (SMap.ins m k v) d j = if j = k then v else SMap.get m d j := by
  unfold SMap.get; rw [SMap.find?_ins]; split <;> rfl

theorem SMap.find?_upd (m : SMap α) (k j : Nat) (f : α → α) :
    SMap.find? (SMap.upd m k f) j = if j = k then (SMap.find? m k).map f else SMap.find? m j := by
  unfold SMap.upd
  cases h : SMap.find? m k with
  | none =>
    by_cases e : j = k
    · subst e; simp [h]
    · simp [e]
  | some v => simp [SMap.find?_ins]

/-! ## The canonical form -/

theorem SMap.above_ins (b : Nat) (m : SMap α) (k : Nat) (v : α) (hk : b < k) (h : SMap.above b m = true) :
    SMap.above b (SMap.ins m k v) = true := by
  induction m with
  | nil => simp [SMap.ins, SMap.above, hk]
  | cons e r ih =>
    simp only [SMap.above, List.all_cons, Bool.and_eq_true, decide_eq_true_eq] at h ih ⊢
    simp only [SMap.ins]
    split
    · simp [hk]; simpa using h.2
    · split
      · simp [hk, h.1]; simpa using h.2
      · simp only [List.all_cons, Bool.and_eq_true, decide_eq_true_eq]; exact ⟨h.1, ih h.2⟩

theorem SMap.above_mono (a b : Nat) (m : SMap α) (hab : a ≤ b) (h : SMap.above b m = true) : SMap.above a m = true := by
  simp only [SMap.above, List.all_eq_true, decide_eq_true_eq] at h ⊢
  intro e he; exact Nat.lt_of_le_of_lt hab (h e he)

theorem SMap.sorted_ins (m : SMap α) (k : Nat) (v : α) (h : SMap.sorted m = true) : SMap.sorted (SMap.ins m k v) = true := by
  induction m with
  | nil => simp [SMap.ins, SMap.sorted, SMap.above]
  | cons e r ih =>
    simp only [SMap.sorted, Bool.and_eq_true] at h
    simp only [SMap.ins]
    split
    · next he => subst he; simp [SMap.sorted, h.1, h.2]
    · next hne =>
      split
      · next hlt =>
        simp only [SMap.sorted, Bool.and_eq_true]
        refine ⟨?_, h.1, h.2⟩
        have := SMap.above_mono k e.1 r (Nat.le_of_lt hlt) h.1
        simp only [SMap.above, List.all_cons, Bool.and_eq_true, decide_eq_true_eq] at this ⊢
        exact ⟨hlt, this⟩
      · next hge =>
        simp only [SMap.sorted, Bool.and_eq_true]
        exact ⟨SMap.above_ins e.1 r k v (by omega) h.1, ih h.2⟩

theorem SMap.mem_of_del (m : SMap α) (k : Nat) (e : Nat × α) (h : e ∈ SMap.del m k) : e ∈ m := by
  induction m with
  | nil => exact h
  | cons x r ih =>
    simp only [SMap.del] at h
    split at h
    · exact List.mem_cons_of_mem _ (ih h)
    · rcases List.mem_cons.1 h with h | h
      · exact h ▸ List.mem_cons_self
      · exact List.mem_cons_of_mem _ (ih h)

theorem SMap.mem_of_ins (m : SMap α) (k : Nat) (v : α) (e : Nat × α) (h : e ∈ SMap.ins m k v) : e = (k, v) ∨ e ∈ m := by
  induction m with
  | nil => simpa [SMap.ins] using h
  | cons x r ih =>
    simp only [SMap.ins] at h
    split at h
    · rcases List.mem_cons.1 h with h | h
      · exact .inl h
      · exact .inr (List.mem_cons_of_mem _ h)
    · split at h
      · rcases List.mem_cons.1 h with h | h
        · exact .inl h
        · exact .inr h
      · rcases List.mem_cons.1 h with h | h
        · exact .inr (h ▸ List.mem_cons_self)
        · rcases ih h with h | h
          · exact .inl h
          · exact .inr (List.mem_cons_of_mem _ h)

theorem SMap.above_del (b : Nat) (m : SMap α) (k : Nat) (h : SMap.above b m = true) : SMap.above b (SMap.del m k) = true := by
  simp only [SMap.above, List.all_eq_true] at h ⊢
  exact fun e he => h e (SMap.mem_of_del m k e he)

theorem SMap.sorted_del (m : SMap α) (k : Nat) (h : SMap.sorted m = true) : SMap.sorted (SMap.del m k) = true := by
  induction m with
  | nil => rfl
  | cons e r ih =>
    simp only [SMap.sorted, Bool.and_eq_true] at h
    simp only [SMap.del]
    split
    · exact ih h.2
    · simp [SMap.sorted, SMap.above_del e.1 r k h.1, ih h.2]

/-- A write keeps the canonical form. -/
theorem SMap.wf_put [DecidableEq α] (m : SMap α) (d : α) (k : Nat) (v : α) (h : SMap.wf m d = true) :
    SMap.wf (SMap.put m d k v) d = true := by
  simp only [SMap.wf, Bool.and_eq_true, List.all_eq_true, decide_eq_true_eq] at h ⊢
  unfold SMap.put
  split
  · exact ⟨SMap.sorted_del m k h.1, fun e he => h.2 e (SMap.mem_of_del m k e he)⟩
  · next hv =>
    refine ⟨SMap.sorted_ins m k v h.1, fun e he => ?_⟩
    rcases SMap.mem_of_ins m k v e he with rfl | he
    · exact hv
    · exact h.2 e he

theorem SMap.sorted_filter (m : SMap α) (p : Nat × α → Bool) (h : SMap.sorted m = true) : SMap.sorted (m.filter p) = true := by
  induction m with
  | nil => rfl
  | cons e r ih =>
    simp only [SMap.sorted, Bool.and_eq_true] at h
    simp only [List.filter]
    split
    · simp only [SMap.sorted, Bool.and_eq_true]
      refine ⟨?_, ih h.2⟩
      simp only [SMap.above, List.all_eq_true] at h ⊢
      exact fun x hx => h.1 x (List.mem_filter.1 hx).1
    · exact ih h.2

/-! ## Memory -/

/-- A read of the byte that was written. -/
@[simp] theorem Memory.byte_setByte_self (m : Memory) (a : Nat) (b : Byte) : Memory.byte (Memory.setByte m a b) a = b := by
  simp [Memory.byte, Memory.setByte]

/-- A byte write leaves every other byte. -/
theorem Memory.byte_setByte_ne (m : Memory) (a c : Nat) (b : Byte) (h : c ≠ a) :
    Memory.byte (Memory.setByte m a b) c = Memory.byte m c := SMap.get_put_ne m unlistedByte a c b h

/-- A write of `n` bytes leaves every byte outside them. -/
theorem Memory.byte_writeNat_out (n : Nat) : ∀ (m : Memory) (a v c : Nat), (c < a ∨ a + n ≤ c) →
    Memory.byte (Memory.writeNat m a v n) c = Memory.byte m c := by
  induction n with
  | zero => intro m a v c _; rfl
  | succ n ih =>
    intro m a v c h
    simp only [Memory.writeNat]
    rw [ih _ _ _ _ (by omega), Memory.byte_setByte_ne _ _ _ _ (by omega)]

/-- Byte `i` of a number written at `a`. -/
theorem Memory.byte_writeNat_in (n : Nat) : ∀ (m : Memory) (a v i : Nat), i < n →
    Memory.byte (Memory.writeNat m a v n) (a + i) = BitVec.ofNat 8 (v / 256 ^ i) := by
  induction n with
  | zero => intro m a v i h; omega
  | succ n ih =>
    intro m a v i h
    simp only [Memory.writeNat]
    cases i with
    | zero => rw [Memory.byte_writeNat_out n _ _ _ _ (by omega)]; simp
    | succ i =>
      rw [show a + (i + 1) = (a + 1) + i by omega, ih _ _ _ _ (by omega), Nat.div_div_eq_div_mul, Nat.pow_succ, Nat.mul_comm]

/-- What was written reads back, cut to `n` bytes (R3). -/
theorem Memory.readNat_writeNat (n : Nat) : ∀ (m : Memory) (a v : Nat),
    Memory.readNat (Memory.writeNat m a v n) a n = v % 256 ^ n := by
  have key : ∀ (k : Nat) (m : Memory) (a v : Nat), (∀ i, i < k → Memory.byte m (a + i) = BitVec.ofNat 8 (v / 256 ^ i)) →
      Memory.readNat m a k = v % 256 ^ k := by
    intro k
    induction k with
    | zero => intro m a v _; simp [Memory.readNat, Nat.mod_one]
    | succ k ih =>
      intro m a v h
      have h0 := h 0 (by omega)
      simp only [Nat.add_zero, Nat.pow_zero, Nat.div_one] at h0
      have h1 := ih m (a + 1) (v / 256) (fun i hi => by
        rw [show a + 1 + i = a + (i + 1) by omega, h (i + 1) (by omega), Nat.div_div_eq_div_mul, Nat.pow_succ, Nat.mul_comm])
      rw [Memory.readNat, h0, h1, Nat.pow_succ, Nat.mul_comm (256 ^ k) 256, Nat.mod_mul]
      simp
  intro m a v
  exact key n _ a v (fun i hi => Memory.byte_writeNat_in n m a v i hi)

theorem Memory.readNat_congr (n : Nat) : ∀ (m m' : Memory) (a : Nat), (∀ i, i < n → Memory.byte m (a + i) = Memory.byte m' (a + i)) →
    Memory.readNat m a n = Memory.readNat m' a n := by
  induction n with
  | zero => intro m m' a _; rfl
  | succ n ih =>
    intro m m' a h
    simp only [Memory.readNat]
    rw [show Memory.byte m a = Memory.byte m' a from h 0 (by omega), ih m m' (a + 1) (fun i hi => by
      rw [show a + 1 + i = a + (i + 1) by omega]; exact h (i + 1) (by omega))]

theorem Memory.setByte_wf (m : Memory) (a : Nat) (b : Byte) (h : Memory.wf m = true) : Memory.wf (Memory.setByte m a b) = true :=
  SMap.wf_put m unlistedByte a b h

theorem Memory.writeNat_wf (n : Nat) : ∀ (m : Memory) (a v : Nat), Memory.wf m = true → Memory.wf (Memory.writeNat m a v n) = true := by
  induction n with
  | zero => intro m a v h; exact h
  | succ n ih => intro m a v h; exact ih _ _ _ (Memory.setByte_wf m a _ h)

theorem Memory.writeBytes_wf (l : List Byte) : ∀ (m : Memory) (a : Nat), Memory.wf m = true → Memory.wf (Memory.writeBytes m a l) = true := by
  induction l with
  | nil => intro m a h; exact h
  | cons b l ih => intro m a h; exact ih _ _ (Memory.setByte_wf m a _ h)

theorem Memory.drop_wf (m : Memory) (lo hi : Nat) (h : Memory.wf m = true) : Memory.wf (Memory.drop m lo hi) = true := by
  simp only [Memory.wf, SMap.wf, Bool.and_eq_true, List.all_eq_true] at h ⊢
  exact ⟨SMap.sorted_filter m _ h.1, fun e he => h.2 e (List.mem_filter.1 he).1⟩

theorem Memory.empty_wf : Memory.wf ([] : Memory) = true := rfl

end Sys2Proof.Machine
end

