-- ==== Sys2Proof/Laws/State.lean ====
section
/-! SUPPORT. What each update of the state leaves of every other field: one lemma per field per update, each true by unfolding, so that
no proof unfolds a record update. And what the readers of one entity see of an update of another. -/

namespace Sys2Proof.Machine

/-! ## `setGroup` -/

@[simp] theorem State.setGroup_agenda (s : State) (k : Nat) (v : Group) : (s.setGroup k v).agenda = s.agenda := rfl
@[simp] theorem State.setGroup_issueNow (s : State) (k : Nat) (v : Group) : (s.setGroup k v).issueNow = s.issueNow := rfl
@[simp] theorem State.setGroup_cur (s : State) (k : Nat) (v : Group) : (s.setGroup k v).cur = s.cur := rfl
@[simp] theorem State.setGroup_autoTurn (s : State) (k : Nat) (v : Group) : (s.setGroup k v).autoTurn = s.autoTurn := rfl
@[simp] theorem State.setGroup_freeCtr (s : State) (k : Nat) (v : Group) : (s.setGroup k v).freeCtr = s.freeCtr := rfl
@[simp] theorem State.setGroup_nextId (s : State) (k : Nat) (v : Group) : (s.setGroup k v).nextId = s.nextId := rfl
@[simp] theorem State.setGroup_clock (s : State) (k : Nat) (v : Group) : (s.setGroup k v).clock = s.clock := rfl
@[simp] theorem State.setGroup_time (s : State) (k : Nat) (v : Group) : (s.setGroup k v).time = s.time := rfl
@[simp] theorem State.setGroup_crews (s : State) (k : Nat) (v : Group) : (s.setGroup k v).crews = s.crews := rfl
@[simp] theorem State.setGroup_launches (s : State) (k : Nat) (v : Group) : (s.setGroup k v).launches = s.launches := rfl
@[simp] theorem State.setGroup_flushed (s : State) (k : Nat) (v : Group) : (s.setGroup k v).flushed = s.flushed := rfl
@[simp] theorem State.setGroup_cores (s : State) (k : Nat) (v : Group) : (s.setGroup k v).cores = s.cores := rfl
@[simp] theorem State.setGroup_ctxs (s : State) (k : Nat) (v : Group) : (s.setGroup k v).ctxs = s.ctxs := rfl
@[simp] theorem State.setGroup_reqs (s : State) (k : Nat) (v : Group) : (s.setGroup k v).reqs = s.reqs := rfl
@[simp] theorem State.setGroup_ops (s : State) (k : Nat) (v : Group) : (s.setGroup k v).ops = s.ops := rfl
@[simp] theorem State.setGroup_copies (s : State) (k : Nat) (v : Group) : (s.setGroup k v).copies = s.copies := rfl
@[simp] theorem State.setGroup_engines (s : State) (k : Nat) (v : Group) : (s.setGroup k v).engines = s.engines := rfl
@[simp] theorem State.setGroup_shoots (s : State) (k : Nat) (v : Group) : (s.setGroup k v).shoots = s.shoots := rfl
@[simp] theorem State.setGroup_fills (s : State) (k : Nat) (v : Group) : (s.setGroup k v).fills = s.fills := rfl
@[simp] theorem State.setGroup_flits (s : State) (k : Nat) (v : Group) : (s.setGroup k v).flits = s.flits := rfl
@[simp] theorem State.setGroup_pends (s : State) (k : Nat) (v : Group) : (s.setGroup k v).pends = s.pends := rfl
@[simp] theorem State.setGroup_mem (s : State) (k : Nat) (v : Group) : (s.setGroup k v).mem = s.mem := rfl
@[simp] theorem State.setGroup_memPoison (s : State) (k : Nat) (v : Group) : (s.setGroup k v).memPoison = s.memPoison := rfl
@[simp] theorem State.setGroup_stampPoison (s : State) (k : Nat) (v : Group) : (s.setGroup k v).stampPoison = s.stampPoison := rfl
@[simp] theorem State.setGroup_freezePoison (s : State) (k : Nat) (v : Group) : (s.setGroup k v).freezePoison = s.freezePoison := rfl
@[simp] theorem State.setGroup_stamps (s : State) (k : Nat) (v : Group) : (s.setGroup k v).stamps = s.stamps := rfl
@[simp] theorem State.setGroup_freezeTable (s : State) (k : Nat) (v : Group) : (s.setGroup k v).freezeTable = s.freezeTable := rfl
@[simp] theorem State.setGroup_sliceSeq (s : State) (k : Nat) (v : Group) : (s.setGroup k v).sliceSeq = s.sliceSeq := rfl
@[simp] theorem State.setGroup_gen (s : State) (k : Nat) (v : Group) : (s.setGroup k v).gen = s.gen := rfl
@[simp] theorem State.setGroup_epoch (s : State) (k : Nat) (v : Group) : (s.setGroup k v).epoch = s.epoch := rfl
@[simp] theorem State.setGroup_thawGen (s : State) (k : Nat) (v : Group) : (s.setGroup k v).thawGen = s.thawGen := rfl
@[simp] theorem State.setGroup_clearing (s : State) (k : Nat) (v : Group) : (s.setGroup k v).clearing = s.clearing := rfl
@[simp] theorem State.setGroup_owners (s : State) (k : Nat) (v : Group) : (s.setGroup k v).owners = s.owners := rfl
@[simp] theorem State.setGroup_rgnidx (s : State) (k : Nat) (v : Group) : (s.setGroup k v).rgnidx = s.rgnidx := rfl
@[simp] theorem State.setGroup_leases (s : State) (k : Nat) (v : Group) : (s.setGroup k v).leases = s.leases := rfl
@[simp] theorem State.setGroup_syncLines (s : State) (k : Nat) (v : Group) : (s.setGroup k v).syncLines = s.syncLines := rfl
@[simp] theorem State.setGroup_scopes (s : State) (k : Nat) (v : Group) : (s.setGroup k v).scopes = s.scopes := rfl
@[simp] theorem State.setGroup_lineHolds (s : State) (k : Nat) (v : Group) : (s.setGroup k v).lineHolds = s.lineHolds := rfl
@[simp] theorem State.setGroup_l2 (s : State) (k : Nat) (v : Group) : (s.setGroup k v).l2 = s.l2 := rfl
@[simp] theorem State.setGroup_pins (s : State) (k : Nat) (v : Group) : (s.setGroup k v).pins = s.pins := rfl
@[simp] theorem State.setGroup_quadTlb (s : State) (k : Nat) (v : Group) : (s.setGroup k v).quadTlb = s.quadTlb := rfl
@[simp] theorem State.setGroup_engineTlb (s : State) (k : Nat) (v : Group) : (s.setGroup k v).engineTlb = s.engineTlb := rfl
@[simp] theorem State.setGroup_thaws (s : State) (k : Nat) (v : Group) : (s.setGroup k v).thaws = s.thaws := rfl
@[simp] theorem State.setGroup_slates (s : State) (k : Nat) (v : Group) : (s.setGroup k v).slates = s.slates := rfl
@[simp] theorem State.setGroup_green (s : State) (k : Nat) (v : Group) : (s.setGroup k v).green = s.green := rfl
@[simp] theorem State.setGroup_backoffs (s : State) (k : Nat) (v : Group) : (s.setGroup k v).backoffs = s.backoffs := rfl
@[simp] theorem State.setGroup_idles (s : State) (k : Nat) (v : Group) : (s.setGroup k v).idles = s.idles := rfl
@[simp] theorem State.setGroup_tvec (s : State) (k : Nat) (v : Group) : (s.setGroup k v).tvec = s.tvec := rfl
@[simp] theorem State.setGroup_migctl (s : State) (k : Nat) (v : Group) : (s.setGroup k v).migctl = s.migctl := rfl
@[simp] theorem State.setGroup_lnkid (s : State) (k : Nat) (v : Group) : (s.setGroup k v).lnkid = s.lnkid := rfl
@[simp] theorem State.setGroup_lktbase (s : State) (k : Nat) (v : Group) : (s.setGroup k v).lktbase = s.lktbase := rfl
@[simp] theorem State.setGroup_ports (s : State) (k : Nat) (v : Group) : (s.setGroup k v).ports = s.ports := rfl
@[simp] theorem State.setGroup_linkStreams (s : State) (k : Nat) (v : Group) : (s.setGroup k v).linkStreams = s.linkStreams := rfl
@[simp] theorem State.setGroup_farRecall (s : State) (k : Nat) (v : Group) : (s.setGroup k v).farRecall = s.farRecall := rfl
@[simp] theorem State.setGroup_farCopies (s : State) (k : Nat) (v : Group) : (s.setGroup k v).farCopies = s.farCopies := rfl
@[simp] theorem State.setGroup_farReads (s : State) (k : Nat) (v : Group) : (s.setGroup k v).farReads = s.farReads := rfl
@[simp] theorem State.setGroup_farWrites (s : State) (k : Nat) (v : Group) : (s.setGroup k v).farWrites = s.farWrites := rfl
@[simp] theorem State.setGroup_asked (s : State) (k : Nat) (v : Group) : (s.setGroup k v).asked = s.asked := rfl
@[simp] theorem State.setGroup_interrupts (s : State) (k : Nat) (v : Group) : (s.setGroup k v).interrupts = s.interrupts := rfl
@[simp] theorem State.setGroup_uc12At (s : State) (k : Nat) (v : Group) : (s.setGroup k v).uc12At = s.uc12At := rfl
@[simp] theorem State.setGroup_barRead (s : State) (k : Nat) (v : Group) : (s.setGroup k v).barRead = s.barRead := rfl
@[simp] theorem State.setGroup_mgmtRead (s : State) (k : Nat) (v : Group) : (s.setGroup k v).mgmtRead = s.mgmtRead := rfl
@[simp] theorem State.setGroup_mgmtBytes (s : State) (k : Nat) (v : Group) : (s.setGroup k v).mgmtBytes = s.mgmtBytes := rfl
@[simp] theorem State.setGroup_spares (s : State) (k : Nat) (v : Group) : (s.setGroup k v).spares = s.spares := rfl
@[simp] theorem State.setGroup_softppr (s : State) (k : Nat) (v : Group) : (s.setGroup k v).softppr = s.softppr := rfl
@[simp] theorem State.setGroup_lanesSpared (s : State) (k : Nat) (v : Group) : (s.setGroup k v).lanesSpared = s.lanesSpared := rfl
@[simp] theorem State.setGroup_pinSpares (s : State) (k : Nat) (v : Group) : (s.setGroup k v).pinSpares = s.pinSpares := rfl
@[simp] theorem State.setGroup_waySpares (s : State) (k : Nat) (v : Group) : (s.setGroup k v).waySpares = s.waySpares := rfl
@[simp] theorem State.setGroup_eseq (s : State) (k : Nat) (v : Group) : (s.setGroup k v).eseq = s.eseq := rfl
@[simp] theorem State.setGroup_box (s : State) (k : Nat) (v : Group) : (s.setGroup k v).box = s.box := rfl
@[simp] theorem State.setGroup_reserved (s : State) (k : Nat) (v : Group) : (s.setGroup k v).reserved = s.reserved := rfl
@[simp] theorem State.setGroup_cryo (s : State) (k : Nat) (v : Group) : (s.setGroup k v).cryo = s.cryo := rfl

/-! ## `modGroup` -/

@[simp] theorem State.modGroup_agenda (s : State) (k : Nat) (f : Group → Group) : (s.modGroup k f).agenda = s.agenda := rfl
@[simp] theorem State.modGroup_issueNow (s : State) (k : Nat) (f : Group → Group) : (s.modGroup k f).issueNow = s.issueNow := rfl
@[simp] theorem State.modGroup_cur (s : State) (k : Nat) (f : Group → Group) : (s.modGroup k f).cur = s.cur := rfl
@[simp] theorem State.modGroup_autoTurn (s : State) (k : Nat) (f : Group → Group) : (s.modGroup k f).autoTurn = s.autoTurn := rfl
@[simp] theorem State.modGroup_freeCtr (s : State) (k : Nat) (f : Group → Group) : (s.modGroup k f).freeCtr = s.freeCtr := rfl
@[simp] theorem State.modGroup_nextId (s : State) (k : Nat) (f : Group → Group) : (s.modGroup k f).nextId = s.nextId := rfl
@[simp] theorem State.modGroup_clock (s : State) (k : Nat) (f : Group → Group) : (s.modGroup k f).clock = s.clock := rfl
@[simp] theorem State.modGroup_time (s : State) (k : Nat) (f : Group → Group) : (s.modGroup k f).time = s.time := rfl
@[simp] theorem State.modGroup_crews (s : State) (k : Nat) (f : Group → Group) : (s.modGroup k f).crews = s.crews := rfl
@[simp] theorem State.modGroup_launches (s : State) (k : Nat) (f : Group → Group) : (s.modGroup k f).launches = s.launches := rfl
@[simp] theorem State.modGroup_flushed (s : State) (k : Nat) (f : Group → Group) : (s.modGroup k f).flushed = s.flushed := rfl
@[simp] theorem State.modGroup_cores (s : State) (k : Nat) (f : Group → Group) : (s.modGroup k f).cores = s.cores := rfl
@[simp] theorem State.modGroup_ctxs (s : State) (k : Nat) (f : Group → Group) : (s.modGroup k f).ctxs = s.ctxs := rfl
@[simp] theorem State.modGroup_reqs (s : State) (k : Nat) (f : Group → Group) : (s.modGroup k f).reqs = s.reqs := rfl
@[simp] theorem State.modGroup_ops (s : State) (k : Nat) (f : Group → Group) : (s.modGroup k f).ops = s.ops := rfl
@[simp] theorem State.modGroup_copies (s : State) (k : Nat) (f : Group → Group) : (s.modGroup k f).copies = s.copies := rfl
@[simp] theorem State.modGroup_engines (s : State) (k : Nat) (f : Group → Group) : (s.modGroup k f).engines = s.engines := rfl
@[simp] theorem State.modGroup_shoots (s : State) (k : Nat) (f : Group → Group) : (s.modGroup k f).shoots = s.shoots := rfl
@[simp] theorem State.modGroup_fills (s : State) (k : Nat) (f : Group → Group) : (s.modGroup k f).fills = s.fills := rfl
@[simp] theorem State.modGroup_flits (s : State) (k : Nat) (f : Group → Group) : (s.modGroup k f).flits = s.flits := rfl
@[simp] theorem State.modGroup_pends (s : State) (k : Nat) (f : Group → Group) : (s.modGroup k f).pends = s.pends := rfl
@[simp] theorem State.modGroup_mem (s : State) (k : Nat) (f : Group → Group) : (s.modGroup k f).mem = s.mem := rfl
@[simp] theorem State.modGroup_memPoison (s : State) (k : Nat) (f : Group → Group) : (s.modGroup k f).memPoison = s.memPoison := rfl
@[simp] theorem State.modGroup_stampPoison (s : State) (k : Nat) (f : Group → Group) : (s.modGroup k f).stampPoison = s.stampPoison := rfl
@[simp] theorem State.modGroup_freezePoison (s : State) (k : Nat) (f : Group → Group) : (s.modGroup k f).freezePoison = s.freezePoison := rfl
@[simp] theorem State.modGroup_stamps (s : State) (k : Nat) (f : Group → Group) : (s.modGroup k f).stamps = s.stamps := rfl
@[simp] theorem State.modGroup_freezeTable (s : State) (k : Nat) (f : Group → Group) : (s.modGroup k f).freezeTable = s.freezeTable := rfl
@[simp] theorem State.modGroup_sliceSeq (s : State) (k : Nat) (f : Group → Group) : (s.modGroup k f).sliceSeq = s.sliceSeq := rfl
@[simp] theorem State.modGroup_gen (s : State) (k : Nat) (f : Group → Group) : (s.modGroup k f).gen = s.gen := rfl
@[simp] theorem State.modGroup_epoch (s : State) (k : Nat) (f : Group → Group) : (s.modGroup k f).epoch = s.epoch := rfl
@[simp] theorem State.modGroup_thawGen (s : State) (k : Nat) (f : Group → Group) : (s.modGroup k f).thawGen = s.thawGen := rfl
@[simp] theorem State.modGroup_clearing (s : State) (k : Nat) (f : Group → Group) : (s.modGroup k f).clearing = s.clearing := rfl
@[simp] theorem State.modGroup_owners (s : State) (k : Nat) (f : Group → Group) : (s.modGroup k f).owners = s.owners := rfl
@[simp] theorem State.modGroup_rgnidx (s : State) (k : Nat) (f : Group → Group) : (s.modGroup k f).rgnidx = s.rgnidx := rfl
@[simp] theorem State.modGroup_leases (s : State) (k : Nat) (f : Group → Group) : (s.modGroup k f).leases = s.leases := rfl
@[simp] theorem State.modGroup_syncLines (s : State) (k : Nat) (f : Group → Group) : (s.modGroup k f).syncLines = s.syncLines := rfl
@[simp] theorem State.modGroup_scopes (s : State) (k : Nat) (f : Group → Group) : (s.modGroup k f).scopes = s.scopes := rfl
@[simp] theorem State.modGroup_lineHolds (s : State) (k : Nat) (f : Group → Group) : (s.modGroup k f).lineHolds = s.lineHolds := rfl
@[simp] theorem State.modGroup_l2 (s : State) (k : Nat) (f : Group → Group) : (s.modGroup k f).l2 = s.l2 := rfl
@[simp] theorem State.modGroup_pins (s : State) (k : Nat) (f : Group → Group) : (s.modGroup k f).pins = s.pins := rfl
@[simp] theorem State.modGroup_quadTlb (s : State) (k : Nat) (f : Group → Group) : (s.modGroup k f).quadTlb = s.quadTlb := rfl
@[simp] theorem State.modGroup_engineTlb (s : State) (k : Nat) (f : Group → Group) : (s.modGroup k f).engineTlb = s.engineTlb := rfl
@[simp] theorem State.modGroup_thaws (s : State) (k : Nat) (f : Group → Group) : (s.modGroup k f).thaws = s.thaws := rfl
@[simp] theorem State.modGroup_slates (s : State) (k : Nat) (f : Group → Group) : (s.modGroup k f).slates = s.slates := rfl
@[simp] theorem State.modGroup_green (s : State) (k : Nat) (f : Group → Group) : (s.modGroup k f).green = s.green := rfl
@[simp] theorem State.modGroup_backoffs (s : State) (k : Nat) (f : Group → Group) : (s.modGroup k f).backoffs = s.backoffs := rfl
@[simp] theorem State.modGroup_idles (s : State) (k : Nat) (f : Group → Group) : (s.modGroup k f).idles = s.idles := rfl
@[simp] theorem State.modGroup_tvec (s : State) (k : Nat) (f : Group → Group) : (s.modGroup k f).tvec = s.tvec := rfl
@[simp] theorem State.modGroup_migctl (s : State) (k : Nat) (f : Group → Group) : (s.modGroup k f).migctl = s.migctl := rfl
@[simp] theorem State.modGroup_lnkid (s : State) (k : Nat) (f : Group → Group) : (s.modGroup k f).lnkid = s.lnkid := rfl
@[simp] theorem State.modGroup_lktbase (s : State) (k : Nat) (f : Group → Group) : (s.modGroup k f).lktbase = s.lktbase := rfl
@[simp] theorem State.modGroup_ports (s : State) (k : Nat) (f : Group → Group) : (s.modGroup k f).ports = s.ports := rfl
@[simp] theorem State.modGroup_linkStreams (s : State) (k : Nat) (f : Group → Group) : (s.modGroup k f).linkStreams = s.linkStreams := rfl
@[simp] theorem State.modGroup_farRecall (s : State) (k : Nat) (f : Group → Group) : (s.modGroup k f).farRecall = s.farRecall := rfl
@[simp] theorem State.modGroup_farCopies (s : State) (k : Nat) (f : Group → Group) : (s.modGroup k f).farCopies = s.farCopies := rfl
@[simp] theorem State.modGroup_farReads (s : State) (k : Nat) (f : Group → Group) : (s.modGroup k f).farReads = s.farReads := rfl
@[simp] theorem State.modGroup_farWrites (s : State) (k : Nat) (f : Group → Group) : (s.modGroup k f).farWrites = s.farWrites := rfl
@[simp] theorem State.modGroup_asked (s : State) (k : Nat) (f : Group → Group) : (s.modGroup k f).asked = s.asked := rfl
@[simp] theorem State.modGroup_interrupts (s : State) (k : Nat) (f : Group → Group) : (s.modGroup k f).interrupts = s.interrupts := rfl
@[simp] theorem State.modGroup_uc12At (s : State) (k : Nat) (f : Group → Group) : (s.modGroup k f).uc12At = s.uc12At := rfl
@[simp] theorem State.modGroup_barRead (s : State) (k : Nat) (f : Group → Group) : (s.modGroup k f).barRead = s.barRead := rfl
@[simp] theorem State.modGroup_mgmtRead (s : State) (k : Nat) (f : Group → Group) : (s.modGroup k f).mgmtRead = s.mgmtRead := rfl
@[simp] theorem State.modGroup_mgmtBytes (s : State) (k : Nat) (f : Group → Group) : (s.modGroup k f).mgmtBytes = s.mgmtBytes := rfl
@[simp] theorem State.modGroup_spares (s : State) (k : Nat) (f : Group → Group) : (s.modGroup k f).spares = s.spares := rfl
@[simp] theorem State.modGroup_softppr (s : State) (k : Nat) (f : Group → Group) : (s.modGroup k f).softppr = s.softppr := rfl
@[simp] theorem State.modGroup_lanesSpared (s : State) (k : Nat) (f : Group → Group) : (s.modGroup k f).lanesSpared = s.lanesSpared := rfl
@[simp] theorem State.modGroup_pinSpares (s : State) (k : Nat) (f : Group → Group) : (s.modGroup k f).pinSpares = s.pinSpares := rfl
@[simp] theorem State.modGroup_waySpares (s : State) (k : Nat) (f : Group → Group) : (s.modGroup k f).waySpares = s.waySpares := rfl
@[simp] theorem State.modGroup_eseq (s : State) (k : Nat) (f : Group → Group) : (s.modGroup k f).eseq = s.eseq := rfl
@[simp] theorem State.modGroup_box (s : State) (k : Nat) (f : Group → Group) : (s.modGroup k f).box = s.box := rfl
@[simp] theorem State.modGroup_reserved (s : State) (k : Nat) (f : Group → Group) : (s.modGroup k f).reserved = s.reserved := rfl
@[simp] theorem State.modGroup_cryo (s : State) (k : Nat) (f : Group → Group) : (s.modGroup k f).cryo = s.cryo := rfl

/-! ## `modCrew` -/

@[simp] theorem State.modCrew_agenda (s : State) (k : Nat) (f : Crew → Crew) : (s.modCrew k f).agenda = s.agenda := rfl
@[simp] theorem State.modCrew_issueNow (s : State) (k : Nat) (f : Crew → Crew) : (s.modCrew k f).issueNow = s.issueNow := rfl
@[simp] theorem State.modCrew_cur (s : State) (k : Nat) (f : Crew → Crew) : (s.modCrew k f).cur = s.cur := rfl
@[simp] theorem State.modCrew_autoTurn (s : State) (k : Nat) (f : Crew → Crew) : (s.modCrew k f).autoTurn = s.autoTurn := rfl
@[simp] theorem State.modCrew_freeCtr (s : State) (k : Nat) (f : Crew → Crew) : (s.modCrew k f).freeCtr = s.freeCtr := rfl
@[simp] theorem State.modCrew_nextId (s : State) (k : Nat) (f : Crew → Crew) : (s.modCrew k f).nextId = s.nextId := rfl
@[simp] theorem State.modCrew_clock (s : State) (k : Nat) (f : Crew → Crew) : (s.modCrew k f).clock = s.clock := rfl
@[simp] theorem State.modCrew_time (s : State) (k : Nat) (f : Crew → Crew) : (s.modCrew k f).time = s.time := rfl
@[simp] theorem State.modCrew_groups (s : State) (k : Nat) (f : Crew → Crew) : (s.modCrew k f).groups = s.groups := rfl
@[simp] theorem State.modCrew_launches (s : State) (k : Nat) (f : Crew → Crew) : (s.modCrew k f).launches = s.launches := rfl
@[simp] theorem State.modCrew_flushed (s : State) (k : Nat) (f : Crew → Crew) : (s.modCrew k f).flushed = s.flushed := rfl
@[simp] theorem State.modCrew_cores (s : State) (k : Nat) (f : Crew → Crew) : (s.modCrew k f).cores = s.cores := rfl
@[simp] theorem State.modCrew_ctxs (s : State) (k : Nat) (f : Crew → Crew) : (s.modCrew k f).ctxs = s.ctxs := rfl
@[simp] theorem State.modCrew_reqs (s : State) (k : Nat) (f : Crew → Crew) : (s.modCrew k f).reqs = s.reqs := rfl
@[simp] theorem State.modCrew_ops (s : State) (k : Nat) (f : Crew → Crew) : (s.modCrew k f).ops = s.ops := rfl
@[simp] theorem State.modCrew_copies (s : State) (k : Nat) (f : Crew → Crew) : (s.modCrew k f).copies = s.copies := rfl
@[simp] theorem State.modCrew_engines (s : State) (k : Nat) (f : Crew → Crew) : (s.modCrew k f).engines = s.engines := rfl
@[simp] theorem State.modCrew_shoots (s : State) (k : Nat) (f : Crew → Crew) : (s.modCrew k f).shoots = s.shoots := rfl
@[simp] theorem State.modCrew_fills (s : State) (k : Nat) (f : Crew → Crew) : (s.modCrew k f).fills = s.fills := rfl
@[simp] theorem State.modCrew_flits (s : State) (k : Nat) (f : Crew → Crew) : (s.modCrew k f).flits = s.flits := rfl
@[simp] theorem State.modCrew_pends (s : State) (k : Nat) (f : Crew → Crew) : (s.modCrew k f).pends = s.pends := rfl
@[simp] theorem State.modCrew_mem (s : State) (k : Nat) (f : Crew → Crew) : (s.modCrew k f).mem = s.mem := rfl
@[simp] theorem State.modCrew_memPoison (s : State) (k : Nat) (f : Crew → Crew) : (s.modCrew k f).memPoison = s.memPoison := rfl
@[simp] theorem State.modCrew_stampPoison (s : State) (k : Nat) (f : Crew → Crew) : (s.modCrew k f).stampPoison = s.stampPoison := rfl
@[simp] theorem State.modCrew_freezePoison (s : State) (k : Nat) (f : Crew → Crew) : (s.modCrew k f).freezePoison = s.freezePoison := rfl
@[simp] theorem State.modCrew_stamps (s : State) (k : Nat) (f : Crew → Crew) : (s.modCrew k f).stamps = s.stamps := rfl
@[simp] theorem State.modCrew_freezeTable (s : State) (k : Nat) (f : Crew → Crew) : (s.modCrew k f).freezeTable = s.freezeTable := rfl
@[simp] theorem State.modCrew_sliceSeq (s : State) (k : Nat) (f : Crew → Crew) : (s.modCrew k f).sliceSeq = s.sliceSeq := rfl
@[simp] theorem State.modCrew_gen (s : State) (k : Nat) (f : Crew → Crew) : (s.modCrew k f).gen = s.gen := rfl
@[simp] theorem State.modCrew_epoch (s : State) (k : Nat) (f : Crew → Crew) : (s.modCrew k f).epoch = s.epoch := rfl
@[simp] theorem State.modCrew_thawGen (s : State) (k : Nat) (f : Crew → Crew) : (s.modCrew k f).thawGen = s.thawGen := rfl
@[simp] theorem State.modCrew_clearing (s : State) (k : Nat) (f : Crew → Crew) : (s.modCrew k f).clearing = s.clearing := rfl
@[simp] theorem State.modCrew_owners (s : State) (k : Nat) (f : Crew → Crew) : (s.modCrew k f).owners = s.owners := rfl
@[simp] theorem State.modCrew_rgnidx (s : State) (k : Nat) (f : Crew → Crew) : (s.modCrew k f).rgnidx = s.rgnidx := rfl
@[simp] theorem State.modCrew_leases (s : State) (k : Nat) (f : Crew → Crew) : (s.modCrew k f).leases = s.leases := rfl
@[simp] theorem State.modCrew_syncLines (s : State) (k : Nat) (f : Crew → Crew) : (s.modCrew k f).syncLines = s.syncLines := rfl
@[simp] theorem State.modCrew_scopes (s : State) (k : Nat) (f : Crew → Crew) : (s.modCrew k f).scopes = s.scopes := rfl
@[simp] theorem State.modCrew_lineHolds (s : State) (k : Nat) (f : Crew → Crew) : (s.modCrew k f).lineHolds = s.lineHolds := rfl
@[simp] theorem State.modCrew_l2 (s : State) (k : Nat) (f : Crew → Crew) : (s.modCrew k f).l2 = s.l2 := rfl
@[simp] theorem State.modCrew_pins (s : State) (k : Nat) (f : Crew → Crew) : (s.modCrew k f).pins = s.pins := rfl
@[simp] theorem State.modCrew_quadTlb (s : State) (k : Nat) (f : Crew → Crew) : (s.modCrew k f).quadTlb = s.quadTlb := rfl
@[simp] theorem State.modCrew_engineTlb (s : State) (k : Nat) (f : Crew → Crew) : (s.modCrew k f).engineTlb = s.engineTlb := rfl
@[simp] theorem State.modCrew_thaws (s : State) (k : Nat) (f : Crew → Crew) : (s.modCrew k f).thaws = s.thaws := rfl
@[simp] theorem State.modCrew_slates (s : State) (k : Nat) (f : Crew → Crew) : (s.modCrew k f).slates = s.slates := rfl
@[simp] theorem State.modCrew_green (s : State) (k : Nat) (f : Crew → Crew) : (s.modCrew k f).green = s.green := rfl
@[simp] theorem State.modCrew_backoffs (s : State) (k : Nat) (f : Crew → Crew) : (s.modCrew k f).backoffs = s.backoffs := rfl
@[simp] theorem State.modCrew_idles (s : State) (k : Nat) (f : Crew → Crew) : (s.modCrew k f).idles = s.idles := rfl
@[simp] theorem State.modCrew_tvec (s : State) (k : Nat) (f : Crew → Crew) : (s.modCrew k f).tvec = s.tvec := rfl
@[simp] theorem State.modCrew_migctl (s : State) (k : Nat) (f : Crew → Crew) : (s.modCrew k f).migctl = s.migctl := rfl
@[simp] theorem State.modCrew_lnkid (s : State) (k : Nat) (f : Crew → Crew) : (s.modCrew k f).lnkid = s.lnkid := rfl
@[simp] theorem State.modCrew_lktbase (s : State) (k : Nat) (f : Crew → Crew) : (s.modCrew k f).lktbase = s.lktbase := rfl
@[simp] theorem State.modCrew_ports (s : State) (k : Nat) (f : Crew → Crew) : (s.modCrew k f).ports = s.ports := rfl
@[simp] theorem State.modCrew_linkStreams (s : State) (k : Nat) (f : Crew → Crew) : (s.modCrew k f).linkStreams = s.linkStreams := rfl
@[simp] theorem State.modCrew_farRecall (s : State) (k : Nat) (f : Crew → Crew) : (s.modCrew k f).farRecall = s.farRecall := rfl
@[simp] theorem State.modCrew_farCopies (s : State) (k : Nat) (f : Crew → Crew) : (s.modCrew k f).farCopies = s.farCopies := rfl
@[simp] theorem State.modCrew_farReads (s : State) (k : Nat) (f : Crew → Crew) : (s.modCrew k f).farReads = s.farReads := rfl
@[simp] theorem State.modCrew_farWrites (s : State) (k : Nat) (f : Crew → Crew) : (s.modCrew k f).farWrites = s.farWrites := rfl
@[simp] theorem State.modCrew_asked (s : State) (k : Nat) (f : Crew → Crew) : (s.modCrew k f).asked = s.asked := rfl
@[simp] theorem State.modCrew_interrupts (s : State) (k : Nat) (f : Crew → Crew) : (s.modCrew k f).interrupts = s.interrupts := rfl
@[simp] theorem State.modCrew_uc12At (s : State) (k : Nat) (f : Crew → Crew) : (s.modCrew k f).uc12At = s.uc12At := rfl
@[simp] theorem State.modCrew_barRead (s : State) (k : Nat) (f : Crew → Crew) : (s.modCrew k f).barRead = s.barRead := rfl
@[simp] theorem State.modCrew_mgmtRead (s : State) (k : Nat) (f : Crew → Crew) : (s.modCrew k f).mgmtRead = s.mgmtRead := rfl
@[simp] theorem State.modCrew_mgmtBytes (s : State) (k : Nat) (f : Crew → Crew) : (s.modCrew k f).mgmtBytes = s.mgmtBytes := rfl
@[simp] theorem State.modCrew_spares (s : State) (k : Nat) (f : Crew → Crew) : (s.modCrew k f).spares = s.spares := rfl
@[simp] theorem State.modCrew_softppr (s : State) (k : Nat) (f : Crew → Crew) : (s.modCrew k f).softppr = s.softppr := rfl
@[simp] theorem State.modCrew_lanesSpared (s : State) (k : Nat) (f : Crew → Crew) : (s.modCrew k f).lanesSpared = s.lanesSpared := rfl
@[simp] theorem State.modCrew_pinSpares (s : State) (k : Nat) (f : Crew → Crew) : (s.modCrew k f).pinSpares = s.pinSpares := rfl
@[simp] theorem State.modCrew_waySpares (s : State) (k : Nat) (f : Crew → Crew) : (s.modCrew k f).waySpares = s.waySpares := rfl
@[simp] theorem State.modCrew_eseq (s : State) (k : Nat) (f : Crew → Crew) : (s.modCrew k f).eseq = s.eseq := rfl
@[simp] theorem State.modCrew_box (s : State) (k : Nat) (f : Crew → Crew) : (s.modCrew k f).box = s.box := rfl
@[simp] theorem State.modCrew_reserved (s : State) (k : Nat) (f : Crew → Crew) : (s.modCrew k f).reserved = s.reserved := rfl
@[simp] theorem State.modCrew_cryo (s : State) (k : Nat) (f : Crew → Crew) : (s.modCrew k f).cryo = s.cryo := rfl

/-! ## `modLaunch` -/

@[simp] theorem State.modLaunch_agenda (s : State) (k : Nat) (f : Launch → Launch) : (s.modLaunch k f).agenda = s.agenda := rfl
@[simp] theorem State.modLaunch_issueNow (s : State) (k : Nat) (f : Launch → Launch) : (s.modLaunch k f).issueNow = s.issueNow := rfl
@[simp] theorem State.modLaunch_cur (s : State) (k : Nat) (f : Launch → Launch) : (s.modLaunch k f).cur = s.cur := rfl
@[simp] theorem State.modLaunch_autoTurn (s : State) (k : Nat) (f : Launch → Launch) : (s.modLaunch k f).autoTurn = s.autoTurn := rfl
@[simp] theorem State.modLaunch_freeCtr (s : State) (k : Nat) (f : Launch → Launch) : (s.modLaunch k f).freeCtr = s.freeCtr := rfl
@[simp] theorem State.modLaunch_nextId (s : State) (k : Nat) (f : Launch → Launch) : (s.modLaunch k f).nextId = s.nextId := rfl
@[simp] theorem State.modLaunch_clock (s : State) (k : Nat) (f : Launch → Launch) : (s.modLaunch k f).clock = s.clock := rfl
@[simp] theorem State.modLaunch_time (s : State) (k : Nat) (f : Launch → Launch) : (s.modLaunch k f).time = s.time := rfl
@[simp] theorem State.modLaunch_groups (s : State) (k : Nat) (f : Launch → Launch) : (s.modLaunch k f).groups = s.groups := rfl
@[simp] theorem State.modLaunch_crews (s : State) (k : Nat) (f : Launch → Launch) : (s.modLaunch k f).crews = s.crews := rfl
@[simp] theorem State.modLaunch_flushed (s : State) (k : Nat) (f : Launch → Launch) : (s.modLaunch k f).flushed = s.flushed := rfl
@[simp] theorem State.modLaunch_cores (s : State) (k : Nat) (f : Launch → Launch) : (s.modLaunch k f).cores = s.cores := rfl
@[simp] theorem State.modLaunch_ctxs (s : State) (k : Nat) (f : Launch → Launch) : (s.modLaunch k f).ctxs = s.ctxs := rfl
@[simp] theorem State.modLaunch_reqs (s : State) (k : Nat) (f : Launch → Launch) : (s.modLaunch k f).reqs = s.reqs := rfl
@[simp] theorem State.modLaunch_ops (s : State) (k : Nat) (f : Launch → Launch) : (s.modLaunch k f).ops = s.ops := rfl
@[simp] theorem State.modLaunch_copies (s : State) (k : Nat) (f : Launch → Launch) : (s.modLaunch k f).copies = s.copies := rfl
@[simp] theorem State.modLaunch_engines (s : State) (k : Nat) (f : Launch → Launch) : (s.modLaunch k f).engines = s.engines := rfl
@[simp] theorem State.modLaunch_shoots (s : State) (k : Nat) (f : Launch → Launch) : (s.modLaunch k f).shoots = s.shoots := rfl
@[simp] theorem State.modLaunch_fills (s : State) (k : Nat) (f : Launch → Launch) : (s.modLaunch k f).fills = s.fills := rfl
@[simp] theorem State.modLaunch_flits (s : State) (k : Nat) (f : Launch → Launch) : (s.modLaunch k f).flits = s.flits := rfl
@[simp] theorem State.modLaunch_pends (s : State) (k : Nat) (f : Launch → Launch) : (s.modLaunch k f).pends = s.pends := rfl
@[simp] theorem State.modLaunch_mem (s : State) (k : Nat) (f : Launch → Launch) : (s.modLaunch k f).mem = s.mem := rfl
@[simp] theorem State.modLaunch_memPoison (s : State) (k : Nat) (f : Launch → Launch) : (s.modLaunch k f).memPoison = s.memPoison := rfl
@[simp] theorem State.modLaunch_stampPoison (s : State) (k : Nat) (f : Launch → Launch) : (s.modLaunch k f).stampPoison = s.stampPoison := rfl
@[simp] theorem State.modLaunch_freezePoison (s : State) (k : Nat) (f : Launch → Launch) : (s.modLaunch k f).freezePoison = s.freezePoison := rfl
@[simp] theorem State.modLaunch_stamps (s : State) (k : Nat) (f : Launch → Launch) : (s.modLaunch k f).stamps = s.stamps := rfl
@[simp] theorem State.modLaunch_freezeTable (s : State) (k : Nat) (f : Launch → Launch) : (s.modLaunch k f).freezeTable = s.freezeTable := rfl
@[simp] theorem State.modLaunch_sliceSeq (s : State) (k : Nat) (f : Launch → Launch) : (s.modLaunch k f).sliceSeq = s.sliceSeq := rfl
@[simp] theorem State.modLaunch_gen (s : State) (k : Nat) (f : Launch → Launch) : (s.modLaunch k f).gen = s.gen := rfl
@[simp] theorem State.modLaunch_epoch (s : State) (k : Nat) (f : Launch → Launch) : (s.modLaunch k f).epoch = s.epoch := rfl
@[simp] theorem State.modLaunch_thawGen (s : State) (k : Nat) (f : Launch → Launch) : (s.modLaunch k f).thawGen = s.thawGen := rfl
@[simp] theorem State.modLaunch_clearing (s : State) (k : Nat) (f : Launch → Launch) : (s.modLaunch k f).clearing = s.clearing := rfl
@[simp] theorem State.modLaunch_owners (s : State) (k : Nat) (f : Launch → Launch) : (s.modLaunch k f).owners = s.owners := rfl
@[simp] theorem State.modLaunch_rgnidx (s : State) (k : Nat) (f : Launch → Launch) : (s.modLaunch k f).rgnidx = s.rgnidx := rfl
@[simp] theorem State.modLaunch_leases (s : State) (k : Nat) (f : Launch → Launch) : (s.modLaunch k f).leases = s.leases := rfl
@[simp] theorem State.modLaunch_syncLines (s : State) (k : Nat) (f : Launch → Launch) : (s.modLaunch k f).syncLines = s.syncLines := rfl
@[simp] theorem State.modLaunch_scopes (s : State) (k : Nat) (f : Launch → Launch) : (s.modLaunch k f).scopes = s.scopes := rfl
@[simp] theorem State.modLaunch_lineHolds (s : State) (k : Nat) (f : Launch → Launch) : (s.modLaunch k f).lineHolds = s.lineHolds := rfl
@[simp] theorem State.modLaunch_l2 (s : State) (k : Nat) (f : Launch → Launch) : (s.modLaunch k f).l2 = s.l2 := rfl
@[simp] theorem State.modLaunch_pins (s : State) (k : Nat) (f : Launch → Launch) : (s.modLaunch k f).pins = s.pins := rfl
@[simp] theorem State.modLaunch_quadTlb (s : State) (k : Nat) (f : Launch → Launch) : (s.modLaunch k f).quadTlb = s.quadTlb := rfl
@[simp] theorem State.modLaunch_engineTlb (s : State) (k : Nat) (f : Launch → Launch) : (s.modLaunch k f).engineTlb = s.engineTlb := rfl
@[simp] theorem State.modLaunch_thaws (s : State) (k : Nat) (f : Launch → Launch) : (s.modLaunch k f).thaws = s.thaws := rfl
@[simp] theorem State.modLaunch_slates (s : State) (k : Nat) (f : Launch → Launch) : (s.modLaunch k f).slates = s.slates := rfl
@[simp] theorem State.modLaunch_green (s : State) (k : Nat) (f : Launch → Launch) : (s.modLaunch k f).green = s.green := rfl
@[simp] theorem State.modLaunch_backoffs (s : State) (k : Nat) (f : Launch → Launch) : (s.modLaunch k f).backoffs = s.backoffs := rfl
@[simp] theorem State.modLaunch_idles (s : State) (k : Nat) (f : Launch → Launch) : (s.modLaunch k f).idles = s.idles := rfl
@[simp] theorem State.modLaunch_tvec (s : State) (k : Nat) (f : Launch → Launch) : (s.modLaunch k f).tvec = s.tvec := rfl
@[simp] theorem State.modLaunch_migctl (s : State) (k : Nat) (f : Launch → Launch) : (s.modLaunch k f).migctl = s.migctl := rfl
@[simp] theorem State.modLaunch_lnkid (s : State) (k : Nat) (f : Launch → Launch) : (s.modLaunch k f).lnkid = s.lnkid := rfl
@[simp] theorem State.modLaunch_lktbase (s : State) (k : Nat) (f : Launch → Launch) : (s.modLaunch k f).lktbase = s.lktbase := rfl
@[simp] theorem State.modLaunch_ports (s : State) (k : Nat) (f : Launch → Launch) : (s.modLaunch k f).ports = s.ports := rfl
@[simp] theorem State.modLaunch_linkStreams (s : State) (k : Nat) (f : Launch → Launch) : (s.modLaunch k f).linkStreams = s.linkStreams := rfl
@[simp] theorem State.modLaunch_farRecall (s : State) (k : Nat) (f : Launch → Launch) : (s.modLaunch k f).farRecall = s.farRecall := rfl
@[simp] theorem State.modLaunch_farCopies (s : State) (k : Nat) (f : Launch → Launch) : (s.modLaunch k f).farCopies = s.farCopies := rfl
@[simp] theorem State.modLaunch_farReads (s : State) (k : Nat) (f : Launch → Launch) : (s.modLaunch k f).farReads = s.farReads := rfl
@[simp] theorem State.modLaunch_farWrites (s : State) (k : Nat) (f : Launch → Launch) : (s.modLaunch k f).farWrites = s.farWrites := rfl
@[simp] theorem State.modLaunch_asked (s : State) (k : Nat) (f : Launch → Launch) : (s.modLaunch k f).asked = s.asked := rfl
@[simp] theorem State.modLaunch_interrupts (s : State) (k : Nat) (f : Launch → Launch) : (s.modLaunch k f).interrupts = s.interrupts := rfl
@[simp] theorem State.modLaunch_uc12At (s : State) (k : Nat) (f : Launch → Launch) : (s.modLaunch k f).uc12At = s.uc12At := rfl
@[simp] theorem State.modLaunch_barRead (s : State) (k : Nat) (f : Launch → Launch) : (s.modLaunch k f).barRead = s.barRead := rfl
@[simp] theorem State.modLaunch_mgmtRead (s : State) (k : Nat) (f : Launch → Launch) : (s.modLaunch k f).mgmtRead = s.mgmtRead := rfl
@[simp] theorem State.modLaunch_mgmtBytes (s : State) (k : Nat) (f : Launch → Launch) : (s.modLaunch k f).mgmtBytes = s.mgmtBytes := rfl
@[simp] theorem State.modLaunch_spares (s : State) (k : Nat) (f : Launch → Launch) : (s.modLaunch k f).spares = s.spares := rfl
@[simp] theorem State.modLaunch_softppr (s : State) (k : Nat) (f : Launch → Launch) : (s.modLaunch k f).softppr = s.softppr := rfl
@[simp] theorem State.modLaunch_lanesSpared (s : State) (k : Nat) (f : Launch → Launch) : (s.modLaunch k f).lanesSpared = s.lanesSpared := rfl
@[simp] theorem State.modLaunch_pinSpares (s : State) (k : Nat) (f : Launch → Launch) : (s.modLaunch k f).pinSpares = s.pinSpares := rfl
@[simp] theorem State.modLaunch_waySpares (s : State) (k : Nat) (f : Launch → Launch) : (s.modLaunch k f).waySpares = s.waySpares := rfl
@[simp] theorem State.modLaunch_eseq (s : State) (k : Nat) (f : Launch → Launch) : (s.modLaunch k f).eseq = s.eseq := rfl
@[simp] theorem State.modLaunch_box (s : State) (k : Nat) (f : Launch → Launch) : (s.modLaunch k f).box = s.box := rfl
@[simp] theorem State.modLaunch_reserved (s : State) (k : Nat) (f : Launch → Launch) : (s.modLaunch k f).reserved = s.reserved := rfl
@[simp] theorem State.modLaunch_cryo (s : State) (k : Nat) (f : Launch → Launch) : (s.modLaunch k f).cryo = s.cryo := rfl

/-! ## `setCore` -/

@[simp] theorem State.setCore_agenda (s : State) (k : Nat) (v : CoreSt) : (s.setCore k v).agenda = s.agenda := rfl
@[simp] theorem State.setCore_issueNow (s : State) (k : Nat) (v : CoreSt) : (s.setCore k v).issueNow = s.issueNow := rfl
@[simp] theorem State.setCore_cur (s : State) (k : Nat) (v : CoreSt) : (s.setCore k v).cur = s.cur := rfl
@[simp] theorem State.setCore_autoTurn (s : State) (k : Nat) (v : CoreSt) : (s.setCore k v).autoTurn = s.autoTurn := rfl
@[simp] theorem State.setCore_freeCtr (s : State) (k : Nat) (v : CoreSt) : (s.setCore k v).freeCtr = s.freeCtr := rfl
@[simp] theorem State.setCore_nextId (s : State) (k : Nat) (v : CoreSt) : (s.setCore k v).nextId = s.nextId := rfl
@[simp] theorem State.setCore_clock (s : State) (k : Nat) (v : CoreSt) : (s.setCore k v).clock = s.clock := rfl
@[simp] theorem State.setCore_time (s : State) (k : Nat) (v : CoreSt) : (s.setCore k v).time = s.time := rfl
@[simp] theorem State.setCore_groups (s : State) (k : Nat) (v : CoreSt) : (s.setCore k v).groups = s.groups := rfl
@[simp] theorem State.setCore_crews (s : State) (k : Nat) (v : CoreSt) : (s.setCore k v).crews = s.crews := rfl
@[simp] theorem State.setCore_launches (s : State) (k : Nat) (v : CoreSt) : (s.setCore k v).launches = s.launches := rfl
@[simp] theorem State.setCore_flushed (s : State) (k : Nat) (v : CoreSt) : (s.setCore k v).flushed = s.flushed := rfl
@[simp] theorem State.setCore_ctxs (s : State) (k : Nat) (v : CoreSt) : (s.setCore k v).ctxs = s.ctxs := rfl
@[simp] theorem State.setCore_reqs (s : State) (k : Nat) (v : CoreSt) : (s.setCore k v).reqs = s.reqs := rfl
@[simp] theorem State.setCore_ops (s : State) (k : Nat) (v : CoreSt) : (s.setCore k v).ops = s.ops := rfl
@[simp] theorem State.setCore_copies (s : State) (k : Nat) (v : CoreSt) : (s.setCore k v).copies = s.copies := rfl
@[simp] theorem State.setCore_engines (s : State) (k : Nat) (v : CoreSt) : (s.setCore k v).engines = s.engines := rfl
@[simp] theorem State.setCore_shoots (s : State) (k : Nat) (v : CoreSt) : (s.setCore k v).shoots = s.shoots := rfl
@[simp] theorem State.setCore_fills (s : State) (k : Nat) (v : CoreSt) : (s.setCore k v).fills = s.fills := rfl
@[simp] theorem State.setCore_flits (s : State) (k : Nat) (v : CoreSt) : (s.setCore k v).flits = s.flits := rfl
@[simp] theorem State.setCore_pends (s : State) (k : Nat) (v : CoreSt) : (s.setCore k v).pends = s.pends := rfl
@[simp] theorem State.setCore_mem (s : State) (k : Nat) (v : CoreSt) : (s.setCore k v).mem = s.mem := rfl
@[simp] theorem State.setCore_memPoison (s : State) (k : Nat) (v : CoreSt) : (s.setCore k v).memPoison = s.memPoison := rfl
@[simp] theorem State.setCore_stampPoison (s : State) (k : Nat) (v : CoreSt) : (s.setCore k v).stampPoison = s.stampPoison := rfl
@[simp] theorem State.setCore_freezePoison (s : State) (k : Nat) (v : CoreSt) : (s.setCore k v).freezePoison = s.freezePoison := rfl
@[simp] theorem State.setCore_stamps (s : State) (k : Nat) (v : CoreSt) : (s.setCore k v).stamps = s.stamps := rfl
@[simp] theorem State.setCore_freezeTable (s : State) (k : Nat) (v : CoreSt) : (s.setCore k v).freezeTable = s.freezeTable := rfl
@[simp] theorem State.setCore_sliceSeq (s : State) (k : Nat) (v : CoreSt) : (s.setCore k v).sliceSeq = s.sliceSeq := rfl
@[simp] theorem State.setCore_gen (s : State) (k : Nat) (v : CoreSt) : (s.setCore k v).gen = s.gen := rfl
@[simp] theorem State.setCore_epoch (s : State) (k : Nat) (v : CoreSt) : (s.setCore k v).epoch = s.epoch := rfl
@[simp] theorem State.setCore_thawGen (s : State) (k : Nat) (v : CoreSt) : (s.setCore k v).thawGen = s.thawGen := rfl
@[simp] theorem State.setCore_clearing (s : State) (k : Nat) (v : CoreSt) : (s.setCore k v).clearing = s.clearing := rfl
@[simp] theorem State.setCore_owners (s : State) (k : Nat) (v : CoreSt) : (s.setCore k v).owners = s.owners := rfl
@[simp] theorem State.setCore_rgnidx (s : State) (k : Nat) (v : CoreSt) : (s.setCore k v).rgnidx = s.rgnidx := rfl
@[simp] theorem State.setCore_leases (s : State) (k : Nat) (v : CoreSt) : (s.setCore k v).leases = s.leases := rfl
@[simp] theorem State.setCore_syncLines (s : State) (k : Nat) (v : CoreSt) : (s.setCore k v).syncLines = s.syncLines := rfl
@[simp] theorem State.setCore_scopes (s : State) (k : Nat) (v : CoreSt) : (s.setCore k v).scopes = s.scopes := rfl
@[simp] theorem State.setCore_lineHolds (s : State) (k : Nat) (v : CoreSt) : (s.setCore k v).lineHolds = s.lineHolds := rfl
@[simp] theorem State.setCore_l2 (s : State) (k : Nat) (v : CoreSt) : (s.setCore k v).l2 = s.l2 := rfl
@[simp] theorem State.setCore_pins (s : State) (k : Nat) (v : CoreSt) : (s.setCore k v).pins = s.pins := rfl
@[simp] theorem State.setCore_quadTlb (s : State) (k : Nat) (v : CoreSt) : (s.setCore k v).quadTlb = s.quadTlb := rfl
@[simp] theorem State.setCore_engineTlb (s : State) (k : Nat) (v : CoreSt) : (s.setCore k v).engineTlb = s.engineTlb := rfl
@[simp] theorem State.setCore_thaws (s : State) (k : Nat) (v : CoreSt) : (s.setCore k v).thaws = s.thaws := rfl
@[simp] theorem State.setCore_slates (s : State) (k : Nat) (v : CoreSt) : (s.setCore k v).slates = s.slates := rfl
@[simp] theorem State.setCore_green (s : State) (k : Nat) (v : CoreSt) : (s.setCore k v).green = s.green := rfl
@[simp] theorem State.setCore_backoffs (s : State) (k : Nat) (v : CoreSt) : (s.setCore k v).backoffs = s.backoffs := rfl
@[simp] theorem State.setCore_idles (s : State) (k : Nat) (v : CoreSt) : (s.setCore k v).idles = s.idles := rfl
@[simp] theorem State.setCore_tvec (s : State) (k : Nat) (v : CoreSt) : (s.setCore k v).tvec = s.tvec := rfl
@[simp] theorem State.setCore_migctl (s : State) (k : Nat) (v : CoreSt) : (s.setCore k v).migctl = s.migctl := rfl
@[simp] theorem State.setCore_lnkid (s : State) (k : Nat) (v : CoreSt) : (s.setCore k v).lnkid = s.lnkid := rfl
@[simp] theorem State.setCore_lktbase (s : State) (k : Nat) (v : CoreSt) : (s.setCore k v).lktbase = s.lktbase := rfl
@[simp] theorem State.setCore_ports (s : State) (k : Nat) (v : CoreSt) : (s.setCore k v).ports = s.ports := rfl
@[simp] theorem State.setCore_linkStreams (s : State) (k : Nat) (v : CoreSt) : (s.setCore k v).linkStreams = s.linkStreams := rfl
@[simp] theorem State.setCore_farRecall (s : State) (k : Nat) (v : CoreSt) : (s.setCore k v).farRecall = s.farRecall := rfl
@[simp] theorem State.setCore_farCopies (s : State) (k : Nat) (v : CoreSt) : (s.setCore k v).farCopies = s.farCopies := rfl
@[simp] theorem State.setCore_farReads (s : State) (k : Nat) (v : CoreSt) : (s.setCore k v).farReads = s.farReads := rfl
@[simp] theorem State.setCore_farWrites (s : State) (k : Nat) (v : CoreSt) : (s.setCore k v).farWrites = s.farWrites := rfl
@[simp] theorem State.setCore_asked (s : State) (k : Nat) (v : CoreSt) : (s.setCore k v).asked = s.asked := rfl
@[simp] theorem State.setCore_interrupts (s : State) (k : Nat) (v : CoreSt) : (s.setCore k v).interrupts = s.interrupts := rfl
@[simp] theorem State.setCore_uc12At (s : State) (k : Nat) (v : CoreSt) : (s.setCore k v).uc12At = s.uc12At := rfl
@[simp] theorem State.setCore_barRead (s : State) (k : Nat) (v : CoreSt) : (s.setCore k v).barRead = s.barRead := rfl
@[simp] theorem State.setCore_mgmtRead (s : State) (k : Nat) (v : CoreSt) : (s.setCore k v).mgmtRead = s.mgmtRead := rfl
@[simp] theorem State.setCore_mgmtBytes (s : State) (k : Nat) (v : CoreSt) : (s.setCore k v).mgmtBytes = s.mgmtBytes := rfl
@[simp] theorem State.setCore_spares (s : State) (k : Nat) (v : CoreSt) : (s.setCore k v).spares = s.spares := rfl
@[simp] theorem State.setCore_softppr (s : State) (k : Nat) (v : CoreSt) : (s.setCore k v).softppr = s.softppr := rfl
@[simp] theorem State.setCore_lanesSpared (s : State) (k : Nat) (v : CoreSt) : (s.setCore k v).lanesSpared = s.lanesSpared := rfl
@[simp] theorem State.setCore_pinSpares (s : State) (k : Nat) (v : CoreSt) : (s.setCore k v).pinSpares = s.pinSpares := rfl
@[simp] theorem State.setCore_waySpares (s : State) (k : Nat) (v : CoreSt) : (s.setCore k v).waySpares = s.waySpares := rfl
@[simp] theorem State.setCore_eseq (s : State) (k : Nat) (v : CoreSt) : (s.setCore k v).eseq = s.eseq := rfl
@[simp] theorem State.setCore_box (s : State) (k : Nat) (v : CoreSt) : (s.setCore k v).box = s.box := rfl
@[simp] theorem State.setCore_reserved (s : State) (k : Nat) (v : CoreSt) : (s.setCore k v).reserved = s.reserved := rfl
@[simp] theorem State.setCore_cryo (s : State) (k : Nat) (v : CoreSt) : (s.setCore k v).cryo = s.cryo := rfl

/-! ## `modCore` -/

@[simp] theorem State.modCore_agenda (s : State) (k : Nat) (f : CoreSt → CoreSt) : (s.modCore k f).agenda = s.agenda := rfl
@[simp] theorem State.modCore_issueNow (s : State) (k : Nat) (f : CoreSt → CoreSt) : (s.modCore k f).issueNow = s.issueNow := rfl
@[simp] theorem State.modCore_cur (s : State) (k : Nat) (f : CoreSt → CoreSt) : (s.modCore k f).cur = s.cur := rfl
@[simp] theorem State.modCore_autoTurn (s : State) (k : Nat) (f : CoreSt → CoreSt) : (s.modCore k f).autoTurn = s.autoTurn := rfl
@[simp] theorem State.modCore_freeCtr (s : State) (k : Nat) (f : CoreSt → CoreSt) : (s.modCore k f).freeCtr = s.freeCtr := rfl
@[simp] theorem State.modCore_nextId (s : State) (k : Nat) (f : CoreSt → CoreSt) : (s.modCore k f).nextId = s.nextId := rfl
@[simp] theorem State.modCore_clock (s : State) (k : Nat) (f : CoreSt → CoreSt) : (s.modCore k f).clock = s.clock := rfl
@[simp] theorem State.modCore_time (s : State) (k : Nat) (f : CoreSt → CoreSt) : (s.modCore k f).time = s.time := rfl
@[simp] theorem State.modCore_groups (s : State) (k : Nat) (f : CoreSt → CoreSt) : (s.modCore k f).groups = s.groups := rfl
@[simp] theorem State.modCore_crews (s : State) (k : Nat) (f : CoreSt → CoreSt) : (s.modCore k f).crews = s.crews := rfl
@[simp] theorem State.modCore_launches (s : State) (k : Nat) (f : CoreSt → CoreSt) : (s.modCore k f).launches = s.launches := rfl
@[simp] theorem State.modCore_flushed (s : State) (k : Nat) (f : CoreSt → CoreSt) : (s.modCore k f).flushed = s.flushed := rfl
@[simp] theorem State.modCore_ctxs (s : State) (k : Nat) (f : CoreSt → CoreSt) : (s.modCore k f).ctxs = s.ctxs := rfl
@[simp] theorem State.modCore_reqs (s : State) (k : Nat) (f : CoreSt → CoreSt) : (s.modCore k f).reqs = s.reqs := rfl
@[simp] theorem State.modCore_ops (s : State) (k : Nat) (f : CoreSt → CoreSt) : (s.modCore k f).ops = s.ops := rfl
@[simp] theorem State.modCore_copies (s : State) (k : Nat) (f : CoreSt → CoreSt) : (s.modCore k f).copies = s.copies := rfl
@[simp] theorem State.modCore_engines (s : State) (k : Nat) (f : CoreSt → CoreSt) : (s.modCore k f).engines = s.engines := rfl
@[simp] theorem State.modCore_shoots (s : State) (k : Nat) (f : CoreSt → CoreSt) : (s.modCore k f).shoots = s.shoots := rfl
@[simp] theorem State.modCore_fills (s : State) (k : Nat) (f : CoreSt → CoreSt) : (s.modCore k f).fills = s.fills := rfl
@[simp] theorem State.modCore_flits (s : State) (k : Nat) (f : CoreSt → CoreSt) : (s.modCore k f).flits = s.flits := rfl
@[simp] theorem State.modCore_pends (s : State) (k : Nat) (f : CoreSt → CoreSt) : (s.modCore k f).pends = s.pends := rfl
@[simp] theorem State.modCore_mem (s : State) (k : Nat) (f : CoreSt → CoreSt) : (s.modCore k f).mem = s.mem := rfl
@[simp] theorem State.modCore_memPoison (s : State) (k : Nat) (f : CoreSt → CoreSt) : (s.modCore k f).memPoison = s.memPoison := rfl
@[simp] theorem State.modCore_stampPoison (s : State) (k : Nat) (f : CoreSt → CoreSt) : (s.modCore k f).stampPoison = s.stampPoison := rfl
@[simp] theorem State.modCore_freezePoison (s : State) (k : Nat) (f : CoreSt → CoreSt) : (s.modCore k f).freezePoison = s.freezePoison := rfl
@[simp] theorem State.modCore_stamps (s : State) (k : Nat) (f : CoreSt → CoreSt) : (s.modCore k f).stamps = s.stamps := rfl
@[simp] theorem State.modCore_freezeTable (s : State) (k : Nat) (f : CoreSt → CoreSt) : (s.modCore k f).freezeTable = s.freezeTable := rfl
@[simp] theorem State.modCore_sliceSeq (s : State) (k : Nat) (f : CoreSt → CoreSt) : (s.modCore k f).sliceSeq = s.sliceSeq := rfl
@[simp] theorem State.modCore_gen (s : State) (k : Nat) (f : CoreSt → CoreSt) : (s.modCore k f).gen = s.gen := rfl
@[simp] theorem State.modCore_epoch (s : State) (k : Nat) (f : CoreSt → CoreSt) : (s.modCore k f).epoch = s.epoch := rfl
@[simp] theorem State.modCore_thawGen (s : State) (k : Nat) (f : CoreSt → CoreSt) : (s.modCore k f).thawGen = s.thawGen := rfl
@[simp] theorem State.modCore_clearing (s : State) (k : Nat) (f : CoreSt → CoreSt) : (s.modCore k f).clearing = s.clearing := rfl
@[simp] theorem State.modCore_owners (s : State) (k : Nat) (f : CoreSt → CoreSt) : (s.modCore k f).owners = s.owners := rfl
@[simp] theorem State.modCore_rgnidx (s : State) (k : Nat) (f : CoreSt → CoreSt) : (s.modCore k f).rgnidx = s.rgnidx := rfl
@[simp] theorem State.modCore_leases (s : State) (k : Nat) (f : CoreSt → CoreSt) : (s.modCore k f).leases = s.leases := rfl
@[simp] theorem State.modCore_syncLines (s : State) (k : Nat) (f : CoreSt → CoreSt) : (s.modCore k f).syncLines = s.syncLines := rfl
@[simp] theorem State.modCore_scopes (s : State) (k : Nat) (f : CoreSt → CoreSt) : (s.modCore k f).scopes = s.scopes := rfl
@[simp] theorem State.modCore_lineHolds (s : State) (k : Nat) (f : CoreSt → CoreSt) : (s.modCore k f).lineHolds = s.lineHolds := rfl
@[simp] theorem State.modCore_l2 (s : State) (k : Nat) (f : CoreSt → CoreSt) : (s.modCore k f).l2 = s.l2 := rfl
@[simp] theorem State.modCore_pins (s : State) (k : Nat) (f : CoreSt → CoreSt) : (s.modCore k f).pins = s.pins := rfl
@[simp] theorem State.modCore_quadTlb (s : State) (k : Nat) (f : CoreSt → CoreSt) : (s.modCore k f).quadTlb = s.quadTlb := rfl
@[simp] theorem State.modCore_engineTlb (s : State) (k : Nat) (f : CoreSt → CoreSt) : (s.modCore k f).engineTlb = s.engineTlb := rfl
@[simp] theorem State.modCore_thaws (s : State) (k : Nat) (f : CoreSt → CoreSt) : (s.modCore k f).thaws = s.thaws := rfl
@[simp] theorem State.modCore_slates (s : State) (k : Nat) (f : CoreSt → CoreSt) : (s.modCore k f).slates = s.slates := rfl
@[simp] theorem State.modCore_green (s : State) (k : Nat) (f : CoreSt → CoreSt) : (s.modCore k f).green = s.green := rfl
@[simp] theorem State.modCore_backoffs (s : State) (k : Nat) (f : CoreSt → CoreSt) : (s.modCore k f).backoffs = s.backoffs := rfl
@[simp] theorem State.modCore_idles (s : State) (k : Nat) (f : CoreSt → CoreSt) : (s.modCore k f).idles = s.idles := rfl
@[simp] theorem State.modCore_tvec (s : State) (k : Nat) (f : CoreSt → CoreSt) : (s.modCore k f).tvec = s.tvec := rfl
@[simp] theorem State.modCore_migctl (s : State) (k : Nat) (f : CoreSt → CoreSt) : (s.modCore k f).migctl = s.migctl := rfl
@[simp] theorem State.modCore_lnkid (s : State) (k : Nat) (f : CoreSt → CoreSt) : (s.modCore k f).lnkid = s.lnkid := rfl
@[simp] theorem State.modCore_lktbase (s : State) (k : Nat) (f : CoreSt → CoreSt) : (s.modCore k f).lktbase = s.lktbase := rfl
@[simp] theorem State.modCore_ports (s : State) (k : Nat) (f : CoreSt → CoreSt) : (s.modCore k f).ports = s.ports := rfl
@[simp] theorem State.modCore_linkStreams (s : State) (k : Nat) (f : CoreSt → CoreSt) : (s.modCore k f).linkStreams = s.linkStreams := rfl
@[simp] theorem State.modCore_farRecall (s : State) (k : Nat) (f : CoreSt → CoreSt) : (s.modCore k f).farRecall = s.farRecall := rfl
@[simp] theorem State.modCore_farCopies (s : State) (k : Nat) (f : CoreSt → CoreSt) : (s.modCore k f).farCopies = s.farCopies := rfl
@[simp] theorem State.modCore_farReads (s : State) (k : Nat) (f : CoreSt → CoreSt) : (s.modCore k f).farReads = s.farReads := rfl
@[simp] theorem State.modCore_farWrites (s : State) (k : Nat) (f : CoreSt → CoreSt) : (s.modCore k f).farWrites = s.farWrites := rfl
@[simp] theorem State.modCore_asked (s : State) (k : Nat) (f : CoreSt → CoreSt) : (s.modCore k f).asked = s.asked := rfl
@[simp] theorem State.modCore_interrupts (s : State) (k : Nat) (f : CoreSt → CoreSt) : (s.modCore k f).interrupts = s.interrupts := rfl
@[simp] theorem State.modCore_uc12At (s : State) (k : Nat) (f : CoreSt → CoreSt) : (s.modCore k f).uc12At = s.uc12At := rfl
@[simp] theorem State.modCore_barRead (s : State) (k : Nat) (f : CoreSt → CoreSt) : (s.modCore k f).barRead = s.barRead := rfl
@[simp] theorem State.modCore_mgmtRead (s : State) (k : Nat) (f : CoreSt → CoreSt) : (s.modCore k f).mgmtRead = s.mgmtRead := rfl
@[simp] theorem State.modCore_mgmtBytes (s : State) (k : Nat) (f : CoreSt → CoreSt) : (s.modCore k f).mgmtBytes = s.mgmtBytes := rfl
@[simp] theorem State.modCore_spares (s : State) (k : Nat) (f : CoreSt → CoreSt) : (s.modCore k f).spares = s.spares := rfl
@[simp] theorem State.modCore_softppr (s : State) (k : Nat) (f : CoreSt → CoreSt) : (s.modCore k f).softppr = s.softppr := rfl
@[simp] theorem State.modCore_lanesSpared (s : State) (k : Nat) (f : CoreSt → CoreSt) : (s.modCore k f).lanesSpared = s.lanesSpared := rfl
@[simp] theorem State.modCore_pinSpares (s : State) (k : Nat) (f : CoreSt → CoreSt) : (s.modCore k f).pinSpares = s.pinSpares := rfl
@[simp] theorem State.modCore_waySpares (s : State) (k : Nat) (f : CoreSt → CoreSt) : (s.modCore k f).waySpares = s.waySpares := rfl
@[simp] theorem State.modCore_eseq (s : State) (k : Nat) (f : CoreSt → CoreSt) : (s.modCore k f).eseq = s.eseq := rfl
@[simp] theorem State.modCore_box (s : State) (k : Nat) (f : CoreSt → CoreSt) : (s.modCore k f).box = s.box := rfl
@[simp] theorem State.modCore_reserved (s : State) (k : Nat) (f : CoreSt → CoreSt) : (s.modCore k f).reserved = s.reserved := rfl
@[simp] theorem State.modCore_cryo (s : State) (k : Nat) (f : CoreSt → CoreSt) : (s.modCore k f).cryo = s.cryo := rfl

/-! ## `setCtx` -/

@[simp] theorem State.setCtx_agenda (s : State) (k : Nat) (v : Ctx) : (s.setCtx k v).agenda = s.agenda := rfl
@[simp] theorem State.setCtx_issueNow (s : State) (k : Nat) (v : Ctx) : (s.setCtx k v).issueNow = s.issueNow := rfl
@[simp] theorem State.setCtx_cur (s : State) (k : Nat) (v : Ctx) : (s.setCtx k v).cur = s.cur := rfl
@[simp] theorem State.setCtx_autoTurn (s : State) (k : Nat) (v : Ctx) : (s.setCtx k v).autoTurn = s.autoTurn := rfl
@[simp] theorem State.setCtx_freeCtr (s : State) (k : Nat) (v : Ctx) : (s.setCtx k v).freeCtr = s.freeCtr := rfl
@[simp] theorem State.setCtx_nextId (s : State) (k : Nat) (v : Ctx) : (s.setCtx k v).nextId = s.nextId := rfl
@[simp] theorem State.setCtx_clock (s : State) (k : Nat) (v : Ctx) : (s.setCtx k v).clock = s.clock := rfl
@[simp] theorem State.setCtx_time (s : State) (k : Nat) (v : Ctx) : (s.setCtx k v).time = s.time := rfl
@[simp] theorem State.setCtx_groups (s : State) (k : Nat) (v : Ctx) : (s.setCtx k v).groups = s.groups := rfl
@[simp] theorem State.setCtx_crews (s : State) (k : Nat) (v : Ctx) : (s.setCtx k v).crews = s.crews := rfl
@[simp] theorem State.setCtx_launches (s : State) (k : Nat) (v : Ctx) : (s.setCtx k v).launches = s.launches := rfl
@[simp] theorem State.setCtx_flushed (s : State) (k : Nat) (v : Ctx) : (s.setCtx k v).flushed = s.flushed := rfl
@[simp] theorem State.setCtx_cores (s : State) (k : Nat) (v : Ctx) : (s.setCtx k v).cores = s.cores := rfl
@[simp] theorem State.setCtx_reqs (s : State) (k : Nat) (v : Ctx) : (s.setCtx k v).reqs = s.reqs := rfl
@[simp] theorem State.setCtx_ops (s : State) (k : Nat) (v : Ctx) : (s.setCtx k v).ops = s.ops := rfl
@[simp] theorem State.setCtx_copies (s : State) (k : Nat) (v : Ctx) : (s.setCtx k v).copies = s.copies := rfl
@[simp] theorem State.setCtx_engines (s : State) (k : Nat) (v : Ctx) : (s.setCtx k v).engines = s.engines := rfl
@[simp] theorem State.setCtx_shoots (s : State) (k : Nat) (v : Ctx) : (s.setCtx k v).shoots = s.shoots := rfl
@[simp] theorem State.setCtx_fills (s : State) (k : Nat) (v : Ctx) : (s.setCtx k v).fills = s.fills := rfl
@[simp] theorem State.setCtx_flits (s : State) (k : Nat) (v : Ctx) : (s.setCtx k v).flits = s.flits := rfl
@[simp] theorem State.setCtx_pends (s : State) (k : Nat) (v : Ctx) : (s.setCtx k v).pends = s.pends := rfl
@[simp] theorem State.setCtx_mem (s : State) (k : Nat) (v : Ctx) : (s.setCtx k v).mem = s.mem := rfl
@[simp] theorem State.setCtx_memPoison (s : State) (k : Nat) (v : Ctx) : (s.setCtx k v).memPoison = s.memPoison := rfl
@[simp] theorem State.setCtx_stampPoison (s : State) (k : Nat) (v : Ctx) : (s.setCtx k v).stampPoison = s.stampPoison := rfl
@[simp] theorem State.setCtx_freezePoison (s : State) (k : Nat) (v : Ctx) : (s.setCtx k v).freezePoison = s.freezePoison := rfl
@[simp] theorem State.setCtx_stamps (s : State) (k : Nat) (v : Ctx) : (s.setCtx k v).stamps = s.stamps := rfl
@[simp] theorem State.setCtx_freezeTable (s : State) (k : Nat) (v : Ctx) : (s.setCtx k v).freezeTable = s.freezeTable := rfl
@[simp] theorem State.setCtx_sliceSeq (s : State) (k : Nat) (v : Ctx) : (s.setCtx k v).sliceSeq = s.sliceSeq := rfl
@[simp] theorem State.setCtx_gen (s : State) (k : Nat) (v : Ctx) : (s.setCtx k v).gen = s.gen := rfl
@[simp] theorem State.setCtx_epoch (s : State) (k : Nat) (v : Ctx) : (s.setCtx k v).epoch = s.epoch := rfl
@[simp] theorem State.setCtx_thawGen (s : State) (k : Nat) (v : Ctx) : (s.setCtx k v).thawGen = s.thawGen := rfl
@[simp] theorem State.setCtx_clearing (s : State) (k : Nat) (v : Ctx) : (s.setCtx k v).clearing = s.clearing := rfl
@[simp] theorem State.setCtx_owners (s : State) (k : Nat) (v : Ctx) : (s.setCtx k v).owners = s.owners := rfl
@[simp] theorem State.setCtx_rgnidx (s : State) (k : Nat) (v : Ctx) : (s.setCtx k v).rgnidx = s.rgnidx := rfl
@[simp] theorem State.setCtx_leases (s : State) (k : Nat) (v : Ctx) : (s.setCtx k v).leases = s.leases := rfl
@[simp] theorem State.setCtx_syncLines (s : State) (k : Nat) (v : Ctx) : (s.setCtx k v).syncLines = s.syncLines := rfl
@[simp] theorem State.setCtx_scopes (s : State) (k : Nat) (v : Ctx) : (s.setCtx k v).scopes = s.scopes := rfl
@[simp] theorem State.setCtx_lineHolds (s : State) (k : Nat) (v : Ctx) : (s.setCtx k v).lineHolds = s.lineHolds := rfl
@[simp] theorem State.setCtx_l2 (s : State) (k : Nat) (v : Ctx) : (s.setCtx k v).l2 = s.l2 := rfl
@[simp] theorem State.setCtx_pins (s : State) (k : Nat) (v : Ctx) : (s.setCtx k v).pins = s.pins := rfl
@[simp] theorem State.setCtx_quadTlb (s : State) (k : Nat) (v : Ctx) : (s.setCtx k v).quadTlb = s.quadTlb := rfl
@[simp] theorem State.setCtx_engineTlb (s : State) (k : Nat) (v : Ctx) : (s.setCtx k v).engineTlb = s.engineTlb := rfl
@[simp] theorem State.setCtx_thaws (s : State) (k : Nat) (v : Ctx) : (s.setCtx k v).thaws = s.thaws := rfl
@[simp] theorem State.setCtx_slates (s : State) (k : Nat) (v : Ctx) : (s.setCtx k v).slates = s.slates := rfl
@[simp] theorem State.setCtx_green (s : State) (k : Nat) (v : Ctx) : (s.setCtx k v).green = s.green := rfl
@[simp] theorem State.setCtx_backoffs (s : State) (k : Nat) (v : Ctx) : (s.setCtx k v).backoffs = s.backoffs := rfl
@[simp] theorem State.setCtx_idles (s : State) (k : Nat) (v : Ctx) : (s.setCtx k v).idles = s.idles := rfl
@[simp] theorem State.setCtx_tvec (s : State) (k : Nat) (v : Ctx) : (s.setCtx k v).tvec = s.tvec := rfl
@[simp] theorem State.setCtx_migctl (s : State) (k : Nat) (v : Ctx) : (s.setCtx k v).migctl = s.migctl := rfl
@[simp] theorem State.setCtx_lnkid (s : State) (k : Nat) (v : Ctx) : (s.setCtx k v).lnkid = s.lnkid := rfl
@[simp] theorem State.setCtx_lktbase (s : State) (k : Nat) (v : Ctx) : (s.setCtx k v).lktbase = s.lktbase := rfl
@[simp] theorem State.setCtx_ports (s : State) (k : Nat) (v : Ctx) : (s.setCtx k v).ports = s.ports := rfl
@[simp] theorem State.setCtx_linkStreams (s : State) (k : Nat) (v : Ctx) : (s.setCtx k v).linkStreams = s.linkStreams := rfl
@[simp] theorem State.setCtx_farRecall (s : State) (k : Nat) (v : Ctx) : (s.setCtx k v).farRecall = s.farRecall := rfl
@[simp] theorem State.setCtx_farCopies (s : State) (k : Nat) (v : Ctx) : (s.setCtx k v).farCopies = s.farCopies := rfl
@[simp] theorem State.setCtx_farReads (s : State) (k : Nat) (v : Ctx) : (s.setCtx k v).farReads = s.farReads := rfl
@[simp] theorem State.setCtx_farWrites (s : State) (k : Nat) (v : Ctx) : (s.setCtx k v).farWrites = s.farWrites := rfl
@[simp] theorem State.setCtx_asked (s : State) (k : Nat) (v : Ctx) : (s.setCtx k v).asked = s.asked := rfl
@[simp] theorem State.setCtx_interrupts (s : State) (k : Nat) (v : Ctx) : (s.setCtx k v).interrupts = s.interrupts := rfl
@[simp] theorem State.setCtx_uc12At (s : State) (k : Nat) (v : Ctx) : (s.setCtx k v).uc12At = s.uc12At := rfl
@[simp] theorem State.setCtx_barRead (s : State) (k : Nat) (v : Ctx) : (s.setCtx k v).barRead = s.barRead := rfl
@[simp] theorem State.setCtx_mgmtRead (s : State) (k : Nat) (v : Ctx) : (s.setCtx k v).mgmtRead = s.mgmtRead := rfl
@[simp] theorem State.setCtx_mgmtBytes (s : State) (k : Nat) (v : Ctx) : (s.setCtx k v).mgmtBytes = s.mgmtBytes := rfl
@[simp] theorem State.setCtx_spares (s : State) (k : Nat) (v : Ctx) : (s.setCtx k v).spares = s.spares := rfl
@[simp] theorem State.setCtx_softppr (s : State) (k : Nat) (v : Ctx) : (s.setCtx k v).softppr = s.softppr := rfl
@[simp] theorem State.setCtx_lanesSpared (s : State) (k : Nat) (v : Ctx) : (s.setCtx k v).lanesSpared = s.lanesSpared := rfl
@[simp] theorem State.setCtx_pinSpares (s : State) (k : Nat) (v : Ctx) : (s.setCtx k v).pinSpares = s.pinSpares := rfl
@[simp] theorem State.setCtx_waySpares (s : State) (k : Nat) (v : Ctx) : (s.setCtx k v).waySpares = s.waySpares := rfl
@[simp] theorem State.setCtx_eseq (s : State) (k : Nat) (v : Ctx) : (s.setCtx k v).eseq = s.eseq := rfl
@[simp] theorem State.setCtx_box (s : State) (k : Nat) (v : Ctx) : (s.setCtx k v).box = s.box := rfl
@[simp] theorem State.setCtx_reserved (s : State) (k : Nat) (v : Ctx) : (s.setCtx k v).reserved = s.reserved := rfl
@[simp] theorem State.setCtx_cryo (s : State) (k : Nat) (v : Ctx) : (s.setCtx k v).cryo = s.cryo := rfl

/-! ## `modCtx` -/

@[simp] theorem State.modCtx_agenda (s : State) (k : Nat) (f : Ctx → Ctx) : (s.modCtx k f).agenda = s.agenda := rfl
@[simp] theorem State.modCtx_issueNow (s : State) (k : Nat) (f : Ctx → Ctx) : (s.modCtx k f).issueNow = s.issueNow := rfl
@[simp] theorem State.modCtx_cur (s : State) (k : Nat) (f : Ctx → Ctx) : (s.modCtx k f).cur = s.cur := rfl
@[simp] theorem State.modCtx_autoTurn (s : State) (k : Nat) (f : Ctx → Ctx) : (s.modCtx k f).autoTurn = s.autoTurn := rfl
@[simp] theorem State.modCtx_freeCtr (s : State) (k : Nat) (f : Ctx → Ctx) : (s.modCtx k f).freeCtr = s.freeCtr := rfl
@[simp] theorem State.modCtx_nextId (s : State) (k : Nat) (f : Ctx → Ctx) : (s.modCtx k f).nextId = s.nextId := rfl
@[simp] theorem State.modCtx_clock (s : State) (k : Nat) (f : Ctx → Ctx) : (s.modCtx k f).clock = s.clock := rfl
@[simp] theorem State.modCtx_time (s : State) (k : Nat) (f : Ctx → Ctx) : (s.modCtx k f).time = s.time := rfl
@[simp] theorem State.modCtx_groups (s : State) (k : Nat) (f : Ctx → Ctx) : (s.modCtx k f).groups = s.groups := rfl
@[simp] theorem State.modCtx_crews (s : State) (k : Nat) (f : Ctx → Ctx) : (s.modCtx k f).crews = s.crews := rfl
@[simp] theorem State.modCtx_launches (s : State) (k : Nat) (f : Ctx → Ctx) : (s.modCtx k f).launches = s.launches := rfl
@[simp] theorem State.modCtx_flushed (s : State) (k : Nat) (f : Ctx → Ctx) : (s.modCtx k f).flushed = s.flushed := rfl
@[simp] theorem State.modCtx_cores (s : State) (k : Nat) (f : Ctx → Ctx) : (s.modCtx k f).cores = s.cores := rfl
@[simp] theorem State.modCtx_reqs (s : State) (k : Nat) (f : Ctx → Ctx) : (s.modCtx k f).reqs = s.reqs := rfl
@[simp] theorem State.modCtx_ops (s : State) (k : Nat) (f : Ctx → Ctx) : (s.modCtx k f).ops = s.ops := rfl
@[simp] theorem State.modCtx_copies (s : State) (k : Nat) (f : Ctx → Ctx) : (s.modCtx k f).copies = s.copies := rfl
@[simp] theorem State.modCtx_engines (s : State) (k : Nat) (f : Ctx → Ctx) : (s.modCtx k f).engines = s.engines := rfl
@[simp] theorem State.modCtx_shoots (s : State) (k : Nat) (f : Ctx → Ctx) : (s.modCtx k f).shoots = s.shoots := rfl
@[simp] theorem State.modCtx_fills (s : State) (k : Nat) (f : Ctx → Ctx) : (s.modCtx k f).fills = s.fills := rfl
@[simp] theorem State.modCtx_flits (s : State) (k : Nat) (f : Ctx → Ctx) : (s.modCtx k f).flits = s.flits := rfl
@[simp] theorem State.modCtx_pends (s : State) (k : Nat) (f : Ctx → Ctx) : (s.modCtx k f).pends = s.pends := rfl
@[simp] theorem State.modCtx_mem (s : State) (k : Nat) (f : Ctx → Ctx) : (s.modCtx k f).mem = s.mem := rfl
@[simp] theorem State.modCtx_memPoison (s : State) (k : Nat) (f : Ctx → Ctx) : (s.modCtx k f).memPoison = s.memPoison := rfl
@[simp] theorem State.modCtx_stampPoison (s : State) (k : Nat) (f : Ctx → Ctx) : (s.modCtx k f).stampPoison = s.stampPoison := rfl
@[simp] theorem State.modCtx_freezePoison (s : State) (k : Nat) (f : Ctx → Ctx) : (s.modCtx k f).freezePoison = s.freezePoison := rfl
@[simp] theorem State.modCtx_stamps (s : State) (k : Nat) (f : Ctx → Ctx) : (s.modCtx k f).stamps = s.stamps := rfl
@[simp] theorem State.modCtx_freezeTable (s : State) (k : Nat) (f : Ctx → Ctx) : (s.modCtx k f).freezeTable = s.freezeTable := rfl
@[simp] theorem State.modCtx_sliceSeq (s : State) (k : Nat) (f : Ctx → Ctx) : (s.modCtx k f).sliceSeq = s.sliceSeq := rfl
@[simp] theorem State.modCtx_gen (s : State) (k : Nat) (f : Ctx → Ctx) : (s.modCtx k f).gen = s.gen := rfl
@[simp] theorem State.modCtx_epoch (s : State) (k : Nat) (f : Ctx → Ctx) : (s.modCtx k f).epoch = s.epoch := rfl
@[simp] theorem State.modCtx_thawGen (s : State) (k : Nat) (f : Ctx → Ctx) : (s.modCtx k f).thawGen = s.thawGen := rfl
@[simp] theorem State.modCtx_clearing (s : State) (k : Nat) (f : Ctx → Ctx) : (s.modCtx k f).clearing = s.clearing := rfl
@[simp] theorem State.modCtx_owners (s : State) (k : Nat) (f : Ctx → Ctx) : (s.modCtx k f).owners = s.owners := rfl
@[simp] theorem State.modCtx_rgnidx (s : State) (k : Nat) (f : Ctx → Ctx) : (s.modCtx k f).rgnidx = s.rgnidx := rfl
@[simp] theorem State.modCtx_leases (s : State) (k : Nat) (f : Ctx → Ctx) : (s.modCtx k f).leases = s.leases := rfl
@[simp] theorem State.modCtx_syncLines (s : State) (k : Nat) (f : Ctx → Ctx) : (s.modCtx k f).syncLines = s.syncLines := rfl
@[simp] theorem State.modCtx_scopes (s : State) (k : Nat) (f : Ctx → Ctx) : (s.modCtx k f).scopes = s.scopes := rfl
@[simp] theorem State.modCtx_lineHolds (s : State) (k : Nat) (f : Ctx → Ctx) : (s.modCtx k f).lineHolds = s.lineHolds := rfl
@[simp] theorem State.modCtx_l2 (s : State) (k : Nat) (f : Ctx → Ctx) : (s.modCtx k f).l2 = s.l2 := rfl
@[simp] theorem State.modCtx_pins (s : State) (k : Nat) (f : Ctx → Ctx) : (s.modCtx k f).pins = s.pins := rfl
@[simp] theorem State.modCtx_quadTlb (s : State) (k : Nat) (f : Ctx → Ctx) : (s.modCtx k f).quadTlb = s.quadTlb := rfl
@[simp] theorem State.modCtx_engineTlb (s : State) (k : Nat) (f : Ctx → Ctx) : (s.modCtx k f).engineTlb = s.engineTlb := rfl
@[simp] theorem State.modCtx_thaws (s : State) (k : Nat) (f : Ctx → Ctx) : (s.modCtx k f).thaws = s.thaws := rfl
@[simp] theorem State.modCtx_slates (s : State) (k : Nat) (f : Ctx → Ctx) : (s.modCtx k f).slates = s.slates := rfl
@[simp] theorem State.modCtx_green (s : State) (k : Nat) (f : Ctx → Ctx) : (s.modCtx k f).green = s.green := rfl
@[simp] theorem State.modCtx_backoffs (s : State) (k : Nat) (f : Ctx → Ctx) : (s.modCtx k f).backoffs = s.backoffs := rfl
@[simp] theorem State.modCtx_idles (s : State) (k : Nat) (f : Ctx → Ctx) : (s.modCtx k f).idles = s.idles := rfl
@[simp] theorem State.modCtx_tvec (s : State) (k : Nat) (f : Ctx → Ctx) : (s.modCtx k f).tvec = s.tvec := rfl
@[simp] theorem State.modCtx_migctl (s : State) (k : Nat) (f : Ctx → Ctx) : (s.modCtx k f).migctl = s.migctl := rfl
@[simp] theorem State.modCtx_lnkid (s : State) (k : Nat) (f : Ctx → Ctx) : (s.modCtx k f).lnkid = s.lnkid := rfl
@[simp] theorem State.modCtx_lktbase (s : State) (k : Nat) (f : Ctx → Ctx) : (s.modCtx k f).lktbase = s.lktbase := rfl
@[simp] theorem State.modCtx_ports (s : State) (k : Nat) (f : Ctx → Ctx) : (s.modCtx k f).ports = s.ports := rfl
@[simp] theorem State.modCtx_linkStreams (s : State) (k : Nat) (f : Ctx → Ctx) : (s.modCtx k f).linkStreams = s.linkStreams := rfl
@[simp] theorem State.modCtx_farRecall (s : State) (k : Nat) (f : Ctx → Ctx) : (s.modCtx k f).farRecall = s.farRecall := rfl
@[simp] theorem State.modCtx_farCopies (s : State) (k : Nat) (f : Ctx → Ctx) : (s.modCtx k f).farCopies = s.farCopies := rfl
@[simp] theorem State.modCtx_farReads (s : State) (k : Nat) (f : Ctx → Ctx) : (s.modCtx k f).farReads = s.farReads := rfl
@[simp] theorem State.modCtx_farWrites (s : State) (k : Nat) (f : Ctx → Ctx) : (s.modCtx k f).farWrites = s.farWrites := rfl
@[simp] theorem State.modCtx_asked (s : State) (k : Nat) (f : Ctx → Ctx) : (s.modCtx k f).asked = s.asked := rfl
@[simp] theorem State.modCtx_interrupts (s : State) (k : Nat) (f : Ctx → Ctx) : (s.modCtx k f).interrupts = s.interrupts := rfl
@[simp] theorem State.modCtx_uc12At (s : State) (k : Nat) (f : Ctx → Ctx) : (s.modCtx k f).uc12At = s.uc12At := rfl
@[simp] theorem State.modCtx_barRead (s : State) (k : Nat) (f : Ctx → Ctx) : (s.modCtx k f).barRead = s.barRead := rfl
@[simp] theorem State.modCtx_mgmtRead (s : State) (k : Nat) (f : Ctx → Ctx) : (s.modCtx k f).mgmtRead = s.mgmtRead := rfl
@[simp] theorem State.modCtx_mgmtBytes (s : State) (k : Nat) (f : Ctx → Ctx) : (s.modCtx k f).mgmtBytes = s.mgmtBytes := rfl
@[simp] theorem State.modCtx_spares (s : State) (k : Nat) (f : Ctx → Ctx) : (s.modCtx k f).spares = s.spares := rfl
@[simp] theorem State.modCtx_softppr (s : State) (k : Nat) (f : Ctx → Ctx) : (s.modCtx k f).softppr = s.softppr := rfl
@[simp] theorem State.modCtx_lanesSpared (s : State) (k : Nat) (f : Ctx → Ctx) : (s.modCtx k f).lanesSpared = s.lanesSpared := rfl
@[simp] theorem State.modCtx_pinSpares (s : State) (k : Nat) (f : Ctx → Ctx) : (s.modCtx k f).pinSpares = s.pinSpares := rfl
@[simp] theorem State.modCtx_waySpares (s : State) (k : Nat) (f : Ctx → Ctx) : (s.modCtx k f).waySpares = s.waySpares := rfl
@[simp] theorem State.modCtx_eseq (s : State) (k : Nat) (f : Ctx → Ctx) : (s.modCtx k f).eseq = s.eseq := rfl
@[simp] theorem State.modCtx_box (s : State) (k : Nat) (f : Ctx → Ctx) : (s.modCtx k f).box = s.box := rfl
@[simp] theorem State.modCtx_reserved (s : State) (k : Nat) (f : Ctx → Ctx) : (s.modCtx k f).reserved = s.reserved := rfl
@[simp] theorem State.modCtx_cryo (s : State) (k : Nat) (f : Ctx → Ctx) : (s.modCtx k f).cryo = s.cryo := rfl

/-! ## `modOp` -/

@[simp] theorem State.modOp_agenda (s : State) (k : Nat) (f : Op → Op) : (s.modOp k f).agenda = s.agenda := rfl
@[simp] theorem State.modOp_issueNow (s : State) (k : Nat) (f : Op → Op) : (s.modOp k f).issueNow = s.issueNow := rfl
@[simp] theorem State.modOp_cur (s : State) (k : Nat) (f : Op → Op) : (s.modOp k f).cur = s.cur := rfl
@[simp] theorem State.modOp_autoTurn (s : State) (k : Nat) (f : Op → Op) : (s.modOp k f).autoTurn = s.autoTurn := rfl
@[simp] theorem State.modOp_freeCtr (s : State) (k : Nat) (f : Op → Op) : (s.modOp k f).freeCtr = s.freeCtr := rfl
@[simp] theorem State.modOp_nextId (s : State) (k : Nat) (f : Op → Op) : (s.modOp k f).nextId = s.nextId := rfl
@[simp] theorem State.modOp_clock (s : State) (k : Nat) (f : Op → Op) : (s.modOp k f).clock = s.clock := rfl
@[simp] theorem State.modOp_time (s : State) (k : Nat) (f : Op → Op) : (s.modOp k f).time = s.time := rfl
@[simp] theorem State.modOp_groups (s : State) (k : Nat) (f : Op → Op) : (s.modOp k f).groups = s.groups := rfl
@[simp] theorem State.modOp_crews (s : State) (k : Nat) (f : Op → Op) : (s.modOp k f).crews = s.crews := rfl
@[simp] theorem State.modOp_launches (s : State) (k : Nat) (f : Op → Op) : (s.modOp k f).launches = s.launches := rfl
@[simp] theorem State.modOp_flushed (s : State) (k : Nat) (f : Op → Op) : (s.modOp k f).flushed = s.flushed := rfl
@[simp] theorem State.modOp_cores (s : State) (k : Nat) (f : Op → Op) : (s.modOp k f).cores = s.cores := rfl
@[simp] theorem State.modOp_ctxs (s : State) (k : Nat) (f : Op → Op) : (s.modOp k f).ctxs = s.ctxs := rfl
@[simp] theorem State.modOp_reqs (s : State) (k : Nat) (f : Op → Op) : (s.modOp k f).reqs = s.reqs := rfl
@[simp] theorem State.modOp_copies (s : State) (k : Nat) (f : Op → Op) : (s.modOp k f).copies = s.copies := rfl
@[simp] theorem State.modOp_engines (s : State) (k : Nat) (f : Op → Op) : (s.modOp k f).engines = s.engines := rfl
@[simp] theorem State.modOp_shoots (s : State) (k : Nat) (f : Op → Op) : (s.modOp k f).shoots = s.shoots := rfl
@[simp] theorem State.modOp_fills (s : State) (k : Nat) (f : Op → Op) : (s.modOp k f).fills = s.fills := rfl
@[simp] theorem State.modOp_flits (s : State) (k : Nat) (f : Op → Op) : (s.modOp k f).flits = s.flits := rfl
@[simp] theorem State.modOp_pends (s : State) (k : Nat) (f : Op → Op) : (s.modOp k f).pends = s.pends := rfl
@[simp] theorem State.modOp_mem (s : State) (k : Nat) (f : Op → Op) : (s.modOp k f).mem = s.mem := rfl
@[simp] theorem State.modOp_memPoison (s : State) (k : Nat) (f : Op → Op) : (s.modOp k f).memPoison = s.memPoison := rfl
@[simp] theorem State.modOp_stampPoison (s : State) (k : Nat) (f : Op → Op) : (s.modOp k f).stampPoison = s.stampPoison := rfl
@[simp] theorem State.modOp_freezePoison (s : State) (k : Nat) (f : Op → Op) : (s.modOp k f).freezePoison = s.freezePoison := rfl
@[simp] theorem State.modOp_stamps (s : State) (k : Nat) (f : Op → Op) : (s.modOp k f).stamps = s.stamps := rfl
@[simp] theorem State.modOp_freezeTable (s : State) (k : Nat) (f : Op → Op) : (s.modOp k f).freezeTable = s.freezeTable := rfl
@[simp] theorem State.modOp_sliceSeq (s : State) (k : Nat) (f : Op → Op) : (s.modOp k f).sliceSeq = s.sliceSeq := rfl
@[simp] theorem State.modOp_gen (s : State) (k : Nat) (f : Op → Op) : (s.modOp k f).gen = s.gen := rfl
@[simp] theorem State.modOp_epoch (s : State) (k : Nat) (f : Op → Op) : (s.modOp k f).epoch = s.epoch := rfl
@[simp] theorem State.modOp_thawGen (s : State) (k : Nat) (f : Op → Op) : (s.modOp k f).thawGen = s.thawGen := rfl
@[simp] theorem State.modOp_clearing (s : State) (k : Nat) (f : Op → Op) : (s.modOp k f).clearing = s.clearing := rfl
@[simp] theorem State.modOp_owners (s : State) (k : Nat) (f : Op → Op) : (s.modOp k f).owners = s.owners := rfl
@[simp] theorem State.modOp_rgnidx (s : State) (k : Nat) (f : Op → Op) : (s.modOp k f).rgnidx = s.rgnidx := rfl
@[simp] theorem State.modOp_leases (s : State) (k : Nat) (f : Op → Op) : (s.modOp k f).leases = s.leases := rfl
@[simp] theorem State.modOp_syncLines (s : State) (k : Nat) (f : Op → Op) : (s.modOp k f).syncLines = s.syncLines := rfl
@[simp] theorem State.modOp_scopes (s : State) (k : Nat) (f : Op → Op) : (s.modOp k f).scopes = s.scopes := rfl
@[simp] theorem State.modOp_lineHolds (s : State) (k : Nat) (f : Op → Op) : (s.modOp k f).lineHolds = s.lineHolds := rfl
@[simp] theorem State.modOp_l2 (s : State) (k : Nat) (f : Op → Op) : (s.modOp k f).l2 = s.l2 := rfl
@[simp] theorem State.modOp_pins (s : State) (k : Nat) (f : Op → Op) : (s.modOp k f).pins = s.pins := rfl
@[simp] theorem State.modOp_quadTlb (s : State) (k : Nat) (f : Op → Op) : (s.modOp k f).quadTlb = s.quadTlb := rfl
@[simp] theorem State.modOp_engineTlb (s : State) (k : Nat) (f : Op → Op) : (s.modOp k f).engineTlb = s.engineTlb := rfl
@[simp] theorem State.modOp_thaws (s : State) (k : Nat) (f : Op → Op) : (s.modOp k f).thaws = s.thaws := rfl
@[simp] theorem State.modOp_slates (s : State) (k : Nat) (f : Op → Op) : (s.modOp k f).slates = s.slates := rfl
@[simp] theorem State.modOp_green (s : State) (k : Nat) (f : Op → Op) : (s.modOp k f).green = s.green := rfl
@[simp] theorem State.modOp_backoffs (s : State) (k : Nat) (f : Op → Op) : (s.modOp k f).backoffs = s.backoffs := rfl
@[simp] theorem State.modOp_idles (s : State) (k : Nat) (f : Op → Op) : (s.modOp k f).idles = s.idles := rfl
@[simp] theorem State.modOp_tvec (s : State) (k : Nat) (f : Op → Op) : (s.modOp k f).tvec = s.tvec := rfl
@[simp] theorem State.modOp_migctl (s : State) (k : Nat) (f : Op → Op) : (s.modOp k f).migctl = s.migctl := rfl
@[simp] theorem State.modOp_lnkid (s : State) (k : Nat) (f : Op → Op) : (s.modOp k f).lnkid = s.lnkid := rfl
@[simp] theorem State.modOp_lktbase (s : State) (k : Nat) (f : Op → Op) : (s.modOp k f).lktbase = s.lktbase := rfl
@[simp] theorem State.modOp_ports (s : State) (k : Nat) (f : Op → Op) : (s.modOp k f).ports = s.ports := rfl
@[simp] theorem State.modOp_linkStreams (s : State) (k : Nat) (f : Op → Op) : (s.modOp k f).linkStreams = s.linkStreams := rfl
@[simp] theorem State.modOp_farRecall (s : State) (k : Nat) (f : Op → Op) : (s.modOp k f).farRecall = s.farRecall := rfl
@[simp] theorem State.modOp_farCopies (s : State) (k : Nat) (f : Op → Op) : (s.modOp k f).farCopies = s.farCopies := rfl
@[simp] theorem State.modOp_farReads (s : State) (k : Nat) (f : Op → Op) : (s.modOp k f).farReads = s.farReads := rfl
@[simp] theorem State.modOp_farWrites (s : State) (k : Nat) (f : Op → Op) : (s.modOp k f).farWrites = s.farWrites := rfl
@[simp] theorem State.modOp_asked (s : State) (k : Nat) (f : Op → Op) : (s.modOp k f).asked = s.asked := rfl
@[simp] theorem State.modOp_interrupts (s : State) (k : Nat) (f : Op → Op) : (s.modOp k f).interrupts = s.interrupts := rfl
@[simp] theorem State.modOp_uc12At (s : State) (k : Nat) (f : Op → Op) : (s.modOp k f).uc12At = s.uc12At := rfl
@[simp] theorem State.modOp_barRead (s : State) (k : Nat) (f : Op → Op) : (s.modOp k f).barRead = s.barRead := rfl
@[simp] theorem State.modOp_mgmtRead (s : State) (k : Nat) (f : Op → Op) : (s.modOp k f).mgmtRead = s.mgmtRead := rfl
@[simp] theorem State.modOp_mgmtBytes (s : State) (k : Nat) (f : Op → Op) : (s.modOp k f).mgmtBytes = s.mgmtBytes := rfl
@[simp] theorem State.modOp_spares (s : State) (k : Nat) (f : Op → Op) : (s.modOp k f).spares = s.spares := rfl
@[simp] theorem State.modOp_softppr (s : State) (k : Nat) (f : Op → Op) : (s.modOp k f).softppr = s.softppr := rfl
@[simp] theorem State.modOp_lanesSpared (s : State) (k : Nat) (f : Op → Op) : (s.modOp k f).lanesSpared = s.lanesSpared := rfl
@[simp] theorem State.modOp_pinSpares (s : State) (k : Nat) (f : Op → Op) : (s.modOp k f).pinSpares = s.pinSpares := rfl
@[simp] theorem State.modOp_waySpares (s : State) (k : Nat) (f : Op → Op) : (s.modOp k f).waySpares = s.waySpares := rfl
@[simp] theorem State.modOp_eseq (s : State) (k : Nat) (f : Op → Op) : (s.modOp k f).eseq = s.eseq := rfl
@[simp] theorem State.modOp_box (s : State) (k : Nat) (f : Op → Op) : (s.modOp k f).box = s.box := rfl
@[simp] theorem State.modOp_reserved (s : State) (k : Nat) (f : Op → Op) : (s.modOp k f).reserved = s.reserved := rfl
@[simp] theorem State.modOp_cryo (s : State) (k : Nat) (f : Op → Op) : (s.modOp k f).cryo = s.cryo := rfl

end Sys2Proof.Machine
end

