-- ==== Sys2Proof/Laws/Passage.lean ====
section
/-! SUPPORT. What the passage of a group to its next instruction does, said once: `finish`, `park`, `releaseStream`, and the checks
before a register instruction. -/

namespace Sys2Proof.Machine

/-! ## One entity after an update -/

@[simp] theorem State.group?_setGroup_self (s : State) (k : Nat) (g : Group) : (s.setGroup k g).group? k = some g := by
  simp [State.group?, State.setGroup]

theorem State.group?_setGroup (s : State) (k j : Nat) (g : Group) :
    (s.setGroup k g).group? j = if j = k then some g else s.group? j := by
  simp [State.group?, State.setGroup, SMap.find?_ins]

theorem State.group?_setGroup_ne (s : State) (k j : Nat) (g : Group) (h : j ≠ k) : (s.setGroup k g).group? j = s.group? j := by
  simp [State.group?_setGroup, h]

theorem State.group?_modGroup (s : State) (k j : Nat) (f : Group → Group) :
    (s.modGroup k f).group? j = if j = k then (s.group? k).map f else s.group? j := by
  simp [State.group?, State.modGroup, SMap.find?_upd]

@[simp] theorem State.group?_setCore (s : State) (k j : Nat) (v : CoreSt) : (s.setCore k v).group? j = s.group? j := rfl
@[simp] theorem State.group?_modCore (s : State) (k j : Nat) (f : CoreSt → CoreSt) : (s.modCore k f).group? j = s.group? j := rfl
@[simp] theorem State.core_setGroup (s : State) (k c : Nat) (g : Group) : (s.setGroup k g).core c = s.core c := rfl

theorem State.core_setCore (s : State) (k c : Nat) (v : CoreSt) : (s.setCore k v).core c = if c = k then v else s.core c := by
  simp [State.core, State.setCore, SMap.get_ins]

theorem State.core_modCore (s : State) (k c : Nat) (f : CoreSt → CoreSt) :
    (s.modCore k f).core c = if c = k then f (s.core k) else s.core c := by
  simp [State.modCore, State.core_setCore]

theorem State.ctx_setCtx (s : State) (k c : Nat) (v : Ctx) : (s.setCtx k v).ctx c = if c = k then v else s.ctx c := by
  simp [State.ctx, State.setCtx, SMap.get_ins]

theorem State.ctx_modCtx (s : State) (k c : Nat) (f : Ctx → Ctx) : (s.modCtx k f).ctx c = if c = k then f (s.ctx k) else s.ctx c := by
  simp [State.modCtx, State.ctx_setCtx]

/-! ## Streams -/

/-- A group that its stream releases keeps everything but its stamp, and nothing else changes but the streams of its core. -/
theorem releaseStream_spec (s : State) (gid : Nat) (g : Group) (h : s.group? gid = some g) :
    (releaseStream s gid).group? gid = some { g with stamp := s.clock } ∧
    (∀ k, k ≠ gid → (releaseStream s gid).group? k = s.group? k) ∧
    (∀ c, (releaseStream s gid).core c = { s.core c with streams := ((releaseStream s gid).core c).streams }) ∧
    releaseStream s gid = { s with groups := (releaseStream s gid).groups, cores := (releaseStream s gid).cores } := by
  unfold releaseStream
  rw [h]
  refine ⟨by simp, fun k hk => by simp [State.group?_setGroup, hk], fun c => ?_, rfl⟩
  simp only [State.core_modCore, State.core_setGroup]
  by_cases e : c = g.core
  · simp [e]
  · simp [e]

/-- `park` changes its group's status, and nothing else of the machine but a stream. -/
theorem park_spec (s : State) (g : Group) (why : Park) : Waits s (park s s.cur g why) g why := by
  obtain ⟨h1, h2, h3, h4⟩ := releaseStream_spec (s.setGroup s.cur { g with status := .parked why, issued := true }) s.cur _
    (State.group?_setGroup_self s s.cur { g with status := .parked why, issued := true })
  refine ⟨⟨?_, ?_, ?_, ?_, ?_⟩⟩
  · unfold park; rw [h4]; rfl
  · simpa [park] using h1
  · intro k hk; simpa [park, State.group?_setGroup, hk] using h2 k hk
  · intro c; simpa [park] using h3 c
  · intro a; unfold park; rw [h4]; rfl

/-! ## Completion -/

theorem Group.advance_pc (g : Group) : g.advance.pc = g.pcAfter := by
  unfold Group.advance Group.pcAfter
  dsimp only
  cases g.afterPair.find? (fun p => p.here g) with
  | some p => dsimp only; split <;> rfl
  | none =>
    dsimp only
    split
    · next hs => simp [pcNext, hs]
    · next hs => simp [pcNext, hs, Group.enter]

/-- Advancing moves a group on, and touches no register. -/
theorem Group.advance_moved (g : Group) : g.Moved g.advance ∧ g.advance.regs = g.regs := by
  unfold Group.advance Group.Moved
  dsimp only
  cases g.afterPair.find? (fun p => p.here g) with
  | some p => dsimp only; split <;> exact ⟨rfl, rfl⟩
  | none => dsimp only; split <;> exact ⟨rfl, rfl⟩

theorem Group.advance_latches (g : Group) (h : g.advance.entered = true) :
    g.advance.latches = g.latches ∧ g.advance.window = g.window := by
  revert h
  unfold Group.advance
  dsimp only
  cases g.afterPair.find? (fun p => p.here g) with
  | some p => dsimp only; split <;> simp [Group.enter]
  | none => dsimp only; split <;> simp [Group.enter]

theorem Group.Moved.trans {a b c : Group} (h1 : a.Moved b) (h2 : b.Moved c) : a.Moved c := by
  unfold Group.Moved at *
  rw [h2, h1]

/-- Changing registers only moves a group on. -/
theorem Group.Moved.withRegs {g h : Group} {r : Regs} {x : List Nat} (m : Group.Moved { g with regs := r, sHit := x } h) : g.Moved h := by
  unfold Group.Moved at *
  rw [m]

/-- `finish` completes the instruction of the group: it goes on, and its latches shift in place. -/
theorem finish_spec (s : State) (g : Group) (r : LatchVal) (blocking : Bool) :
    ∃ h, Completed s (finish s s.cur g r blocking) g h ∧ h.regs = g.regs ∧
      (h.entered = true → h.latches = (r :: g.latches).take 3 ∧ h.window = if blocking then 0 else g.window + 1) := by
  have key : ∀ (h : Group), g.Moved h → h.pc = g.pcAfter → h.status = .ready → h.regs = g.regs →
      (h.entered = true → h.latches = (r :: g.latches).take 3 ∧ h.window = if blocking then 0 else g.window + 1) → ∀ (b : Bool),
      ∃ h', Completed s (if b then releaseStream (s.setGroup s.cur h) s.cur else s.setGroup s.cur h) g h' ∧ h'.regs = g.regs ∧
        (h'.entered = true → h'.latches = (r :: g.latches).take 3 ∧ h'.window = if blocking then 0 else g.window + 1) := by
    intro h hm hp hs hr hl b
    cases b with
    | false =>
      refine ⟨h, ⟨⟨rfl, by simp, fun k hk => State.group?_setGroup_ne s _ k h hk, fun c => rfl, fun a => rfl⟩, hm, hp, hs⟩, hr, hl⟩
    | true =>
      obtain ⟨h1, h2, h3, h4⟩ := releaseStream_spec (s.setGroup s.cur h) s.cur h (State.group?_setGroup_self s s.cur h)
      refine ⟨{ h with stamp := s.clock }, ⟨⟨?_, h1, ?_, fun c => h3 c, ?_⟩, ?_, hp, hs⟩, hr, hl⟩
      · show releaseStream _ _ = _
        rw [h4]; rfl
      · intro k hk; rw [← State.group?_setGroup_ne s s.cur k h hk]; exact h2 k hk
      · intro a; show Memory.byte (releaseStream _ _).mem a = _; rw [h4]; rfl
      · unfold Group.Moved at *; rw [hm]
  obtain ⟨m1, m2⟩ := Group.advance_moved (g.shift r blocking)
  have m3 : g.Moved (g.shift r blocking).advance := by
    unfold Group.Moved at *; rw [m1]; rfl
  have mp : (g.shift r blocking).advance.pc = g.pcAfter := by rw [Group.advance_pc]; rfl
  have ml := Group.advance_latches (g.shift r blocking)
  unfold finish
  dsimp only
  cases he : (g.shift r blocking).advance.entered with
  | true =>
    have := key { (g.shift r blocking).advance with status := .ready, passed := none } (by unfold Group.Moved at *; rw [m3]) mp rfl m2
      (fun _ => ⟨(ml he).1, (ml he).2⟩) blocking
    simpa [he] using this
  | false =>
    have := key { (g.shift r blocking).advance with status := .ready, passed := none }
      (by unfold Group.Moved at *; rw [m3]) mp rfl m2 (fun h => absurd h (by simp [he])) true
    simpa [he] using this

/-! ## Transfers -/

/-- The group goes to its target, or to the higher member of its pair first. -/
theorem Group.goto_spec (g : Group) (t : Word) :
    g.Moved (g.goto t) ∧ (g.goto t).regs = g.regs ∧
    (if g.pair.map PairOld.pc = some (g.pc + 1) then (g.goto t).pc = g.pc + 1 ∧
        (g.goto t).afterPair.head?.map (fun p => (p.at_, p.depth, p.sup, p.target))
          = some (g.pc + 1, (g.goto t).frames.length, (g.goto t).sup, t)
      else (g.goto t).pc = t ∧ (g.goto t).entered = false ∧ (g.goto t).latches = [] ∧ (g.goto t).window = 0) := by
  obtain ⟨p, hp⟩ : ∃ p, g.pair = p := ⟨_, rfl⟩
  unfold Group.goto Group.gotoWith Group.Moved
  dsimp only
  rw [hp]
  cases p with
  | none => simp [Group.enter]
  | some p =>
    dsimp only
    by_cases h : p.pc = g.pc + 1
    · have h' : (p.pc == g.pc + 1) = true := by simp [h]
      rw [if_pos h', if_pos (by simp [h])]
      exact ⟨rfl, rfl, h, by simp [h]⟩
    · simp only [beq_iff_eq, if_neg h, Option.map_some, Option.some.injEq, Group.enter]
      simp

/-- `finishGoto` completes the instruction of the group with a transfer. -/
theorem finishGoto_spec (s : State) (g : Group) (t : Word) (blocking : Bool) :
    ∃ h, Transferred s (finishGoto s s.cur g t blocking) g h t := by
  obtain ⟨m1, m2, m3⟩ := Group.goto_spec (g.shift .none blocking) t
  obtain ⟨h1, h2, h3, h4⟩ := releaseStream_spec (s.setGroup s.cur { ((g.shift .none blocking).goto t) with status := .ready }) s.cur _
    (State.group?_setGroup_self s s.cur _)
  refine ⟨_, ⟨⟨?_, h1, fun k hk => ?_, fun c => ?_, fun a => ?_⟩, ?_, m2, rfl, ?_⟩⟩
  · unfold finishGoto; rw [h4]; rfl
  · rw [← State.group?_setGroup_ne s s.cur k _ hk]; exact h2 k hk
  · unfold finishGoto; rw [h3 c]; rfl
  · unfold finishGoto; rw [h4]; rfl
  · unfold Group.Moved at *; rw [m1]; rfl
  · exact m3

end Sys2Proof.Machine
end

