-- ==== Sys2Proof/Laws/PerInstr.lean ====
section
/-! SUPPORT. Per instruction: the instructions that have an encoding are the rows of the opcode map; an event has none. -/

namespace Sys2Proof.Laws

/-- An instruction has an encoding exactly when it is no event. -/
def Encoding.Statement (i : Instr) : Prop := (encodeFields i).isSome = !i.isEvent

theorem Encoding.nop : Encoding.Statement .nop := rfl
theorem Encoding.bra (g : BitVec 4) (t : BitVec 32) : Encoding.Statement (.bra g t) := rfl
theorem Encoding.call (g : BitVec 4) (t : BitVec 32) : Encoding.Statement (.call g t) := rfl
theorem Encoding.ret (g : BitVec 4) : Encoding.Statement (.ret g) := rfl
theorem Encoding.exit (g : BitVec 4) : Encoding.Statement (.exit g) := rfl
theorem Encoding.trap (g : BitVec 4) (code : BitVec 16) : Encoding.Statement (.trap g code) := rfl
theorem Encoding.ifm (a : MSrc) (t : BitVec 32) : Encoding.Statement (.ifm a t) := rfl
theorem Encoding.elsem (t : BitVec 32) : Encoding.Statement (.elsem t) := rfl
theorem Encoding.endif : Encoding.Statement .endif := rfl
theorem Encoding.loop (t : BitVec 32) : Encoding.Statement (.loop t) := rfl
theorem Encoding.brk (g : BitVec 4) (t : BitVec 32) : Encoding.Statement (.brk g t) := rfl
theorem Encoding.cont (g : BitVec 4) (t : BitVec 32) : Encoding.Statement (.cont g t) := rfl
theorem Encoding.endloop (t : BitVec 32) : Encoding.Statement (.endloop t) := rfl
theorem Encoding.trigger (g : BitVec 4) : Encoding.Statement (.trigger g) := rfl
theorem Encoding.gets (g : BitVec 4) (d : GDst) (n : BitVec 8) : Encoding.Statement (.gets g d n) := rfl
theorem Encoding.sadd (o : SOp2) : Encoding.Statement (.sadd o) := rfl
theorem Encoding.ssub (o : SOp2) : Encoding.Statement (.ssub o) := rfl
theorem Encoding.smul (o : SOp2) : Encoding.Statement (.smul o) := rfl
theorem Encoding.smad (o : SOp3) : Encoding.Statement (.smad o) := rfl
theorem Encoding.smulhi (o : SOp2) : Encoding.Statement (.smulhi o) := rfl
theorem Encoding.smin (o : SOp2) : Encoding.Statement (.smin o) := rfl
theorem Encoding.smax (o : SOp2) : Encoding.Statement (.smax o) := rfl
theorem Encoding.sand (o : SOp2) : Encoding.Statement (.sand o) := rfl
theorem Encoding.sor (o : SOp2) : Encoding.Statement (.sor o) := rfl
theorem Encoding.sxor (o : SOp2) : Encoding.Statement (.sxor o) := rfl
theorem Encoding.sshl (o : SOp2) : Encoding.Statement (.sshl o) := rfl
theorem Encoding.sshr (o : SOp2) : Encoding.Statement (.sshr o) := rfl
theorem Encoding.ssar (o : SOp2) : Encoding.Statement (.ssar o) := rfl
theorem Encoding.scmp (o : SOp2) (cc : Cond) : Encoding.Statement (.scmp o cc) := rfl
theorem Encoding.ssel (o : SOp3) : Encoding.Statement (.ssel o) := rfl
theorem Encoding.smov (o : SOp1) : Encoding.Statement (.smov o) := rfl
theorem Encoding.sli (g : BitVec 4) (d : SDst) (ty : Fmt) (v : BitVec 32) : Encoding.Statement (.sli g d ty v) := rfl
theorem Encoding.sliPc (g : BitVec 4) (d : SDst) (v : BitVec 32) : Encoding.Statement (.sliPc g d v) := rfl
theorem Encoding.sbfe (o : SOp2) : Encoding.Statement (.sbfe o) := rfl
theorem Encoding.spopc (o : SOp1) : Encoding.Statement (.spopc o) := rfl
theorem Encoding.sclz (o : SOp1) : Encoding.Statement (.sclz o) := rfl
theorem Encoding.add (o : VOp2) : Encoding.Statement (.add o) := rfl
theorem Encoding.sub (o : VOp2) : Encoding.Statement (.sub o) := rfl
theorem Encoding.mul (o : VOp2) : Encoding.Statement (.mul o) := rfl
theorem Encoding.mulhi (o : VOp2) : Encoding.Statement (.mulhi o) := rfl
theorem Encoding.mad (o : VOp3) : Encoding.Statement (.mad o) := rfl
theorem Encoding.min (o : VOp2) : Encoding.Statement (.min o) := rfl
theorem Encoding.max (o : VOp2) : Encoding.Statement (.max o) := rfl
theorem Encoding.abs (o : VOp1) : Encoding.Statement (.abs o) := rfl
theorem Encoding.neg (o : VOp1) : Encoding.Statement (.neg o) := rfl
theorem Encoding.and (o : VOp2) : Encoding.Statement (.and o) := rfl
theorem Encoding.or (o : VOp2) : Encoding.Statement (.or o) := rfl
theorem Encoding.xor (o : VOp2) : Encoding.Statement (.xor o) := rfl
theorem Encoding.not (o : VOp1) : Encoding.Statement (.not o) := rfl
theorem Encoding.shl (o : VOp2) : Encoding.Statement (.shl o) := rfl
theorem Encoding.shr (o : VOp2) : Encoding.Statement (.shr o) := rfl
theorem Encoding.sar (o : VOp2) : Encoding.Statement (.sar o) := rfl
theorem Encoding.rot (o : VOp2) : Encoding.Statement (.rot o) := rfl
theorem Encoding.bfe (o : VOp2) : Encoding.Statement (.bfe o) := rfl
theorem Encoding.bfi (o : VOp3) : Encoding.Statement (.bfi o) := rfl
theorem Encoding.popc (o : VOp1) : Encoding.Statement (.popc o) := rfl
theorem Encoding.clz (o : VOp1) : Encoding.Statement (.clz o) := rfl
theorem Encoding.brev (o : VOp1) : Encoding.Statement (.brev o) := rfl
theorem Encoding.cmp (o : CmpOp) : Encoding.Statement (.cmp o) := rfl
theorem Encoding.sel (o : VOp2) (c : MSrc) : Encoding.Statement (.sel o c) := rfl
theorem Encoding.mov (o : VOp1) : Encoding.Statement (.mov o) := rfl
theorem Encoding.movi (g : BitVec 4) (d : VDst) (ty : Fmt) (v : BitVec 32) : Encoding.Statement (.movi g d ty v) := rfl
theorem Encoding.movs (g : BitVec 4) (d : VDst) (a : SSrc) (ty : Fmt) : Encoding.Statement (.movs g d a ty) := rfl
theorem Encoding.fadd (o : FOp2) : Encoding.Statement (.fadd o) := rfl
theorem Encoding.fsub (o : FOp2) : Encoding.Statement (.fsub o) := rfl
theorem Encoding.fmul (o : FOp2) : Encoding.Statement (.fmul o) := rfl
theorem Encoding.ffma (o : FOp3) : Encoding.Statement (.ffma o) := rfl
theorem Encoding.fmin (o : VOp2) : Encoding.Statement (.fmin o) := rfl
theorem Encoding.fmax (o : VOp2) : Encoding.Statement (.fmax o) := rfl
theorem Encoding.fcmp (o : CmpOp) : Encoding.Statement (.fcmp o) := rfl
theorem Encoding.fclass (o : VOp1) : Encoding.Statement (.fclass o) := rfl
theorem Encoding.fround (o : FOp1) : Encoding.Statement (.fround o) := rfl
theorem Encoding.frcp (o : FOp1) : Encoding.Statement (.frcp o) := rfl
theorem Encoding.frsq (o : FOp1) : Encoding.Statement (.frsq o) := rfl
theorem Encoding.fsqrt (o : FOp1) : Encoding.Statement (.fsqrt o) := rfl
theorem Encoding.fex2 (o : FOp1) : Encoding.Statement (.fex2 o) := rfl
theorem Encoding.flg2 (o : FOp1) : Encoding.Statement (.flg2 o) := rfl
theorem Encoding.fsin (o : FOp1) : Encoding.Statement (.fsin o) := rfl
theorem Encoding.fcos (o : FOp1) : Encoding.Statement (.fcos o) := rfl
theorem Encoding.cvt (g : BitVec 4) (d : VDst) (a : VSrc) (toF frm : Fmt) (rm : RMode) : Encoding.Statement (.cvt g d a toF frm rm) := rfl
theorem Encoding.pack2 (o : VOp2) : Encoding.Statement (.pack2 o) := rfl
theorem Encoding.unpk2 (o : VOp1) : Encoding.Statement (.unpk2 o) := rfl
theorem Encoding.shfl (g : BitVec 4) (d : VDst) (a : VSrc) (ty : Fmt) (mode : ShflMode) (seg : BitVec 3) : Encoding.Statement (.shfl g d a ty mode seg) := rfl
theorem Encoding.vote (g : BitVec 4) (op : VoteOp) (a : MSrc) : Encoding.Statement (.vote g op a) := rfl
theorem Encoding.matchv (g : BitVec 4) (op : MatchOp) (a : VSrc) (ty : Fmt) : Encoding.Statement (.matchv g op a ty) := rfl
theorem Encoding.redux (g : BitVec 4) (op : RedOp) (d : SDst) (a : VSrc) (ty : Fmt) : Encoding.Statement (.redux g op d a ty) := rfl
theorem Encoding.vscan (g : BitVec 4) (op : RedOp) (excl : Bool) (d : VDst) (a : VSrc) (ty : Fmt) : Encoding.Statement (.vscan g op excl d a ty) := rfl
theorem Encoding.ld (g : BitVec 4) (d : BitVec 9) (m : MAddr) (ty : Fmt) : Encoding.Statement (.ld g d m ty) := rfl
theorem Encoding.st (g : BitVec 4) (m : MAddr) (c : VSrc) (ty : Fmt) : Encoding.Statement (.st g m c ty) := rfl
theorem Encoding.sld (g : BitVec 4) (d : BitVec 6) (sp : Space) (a : SSrc) (disp : BitVec 32) (ty : Fmt) : Encoding.Statement (.sld g d sp a disp ty) := rfl
theorem Encoding.sst (g : BitVec 4) (sp : Space) (a : SSrc) (disp : BitVec 32) (c : SSrc) (ty : Fmt) : Encoding.Statement (.sst g sp a disp c ty) := rfl
theorem Encoding.pref (g : BitVec 4) (m : MAddr) (ty : Fmt) : Encoding.Statement (.pref g m ty) := rfl
theorem Encoding.atom (g : BitVec 4) (d : BitVec 9) (m : AtomCtl) (c : VSrc) : Encoding.Statement (.atom g d m c) := rfl
theorem Encoding.red (g : BitVec 4) (m : AtomCtl) (c : VSrc) : Encoding.Statement (.red g m c) := rfl
theorem Encoding.redFar (g : BitVec 4) (m : AtomCtl) (c : VSrc) : Encoding.Statement (.redFar g m c) := rfl
theorem Encoding.waitc (k : Ctr) (n : BitVec 8) : Encoding.Statement (.waitc k n) := rfl
theorem Encoding.bar (id : BitVec 4) (count : BitVec 6) : Encoding.Statement (.bar id count) := rfl
theorem Encoding.arrive (d : BitVec 6) (a : SSrc) : Encoding.Statement (.arrive d a) := rfl
theorem Encoding.arrivex (d : BitVec 6) (a b : SSrc) : Encoding.Statement (.arrivex d a b) := rfl
theorem Encoding.bwait (a b : SSrc) : Encoding.Statement (.bwait a b) := rfl
theorem Encoding.paint (g : BitVec 4) (a n : SSrc) (c : BitVec 12) : Encoding.Statement (.paint g a n c) := rfl
theorem Encoding.unpaint (g : BitVec 4) (a n : SSrc) : Encoding.Statement (.unpaint g a n) := rfl
theorem Encoding.mwait (g : BitVec 4) (c : BitVec 12) : Encoding.Statement (.mwait g c) := rfl
theorem Encoding.mnotify (g : BitVec 4) (c : BitVec 12) : Encoding.Statement (.mnotify g c) := rfl
theorem Encoding.mnotifyall (g : BitVec 4) (c : BitVec 12) : Encoding.Statement (.mnotifyall g c) := rfl
theorem Encoding.mheld (g : BitVec 4) (d : BitVec 6) (i : BitVec 4) : Encoding.Statement (.mheld g d i) := rfl
theorem Encoding.freeze (g : BitVec 4) (a n : SSrc) : Encoding.Statement (.freeze g a n) := rfl
theorem Encoding.thaw (g : BitVec 4) (a n : SSrc) : Encoding.Statement (.thaw g a n) := rfl
theorem Encoding.frzq (g : BitVec 4) (d : BitVec 6) (a : SSrc) : Encoding.Statement (.frzq g d a) := rfl
theorem Encoding.spawn (g : BitVec 4) (a : SSrc) (b : VSrc) : Encoding.Statement (.spawn g a b) := rfl
theorem Encoding.binflush (g : BitVec 4) (a : SSrc) : Encoding.Statement (.binflush g a) := rfl
theorem Encoding.fget (g : BitVec 4) (d : BitVec 6) (a : SSrc) : Encoding.Statement (.fget g d a) := rfl
theorem Encoding.fput (g : BitVec 4) (a b : SSrc) : Encoding.Statement (.fput g a b) := rfl
theorem Encoding.launch (g : BitVec 4) (d : BitVec 6) (a : SSrc) : Encoding.Statement (.launch g d a) := rfl
theorem Encoding.retake (g : BitVec 4) (d : BitVec 6) (a : SSrc) : Encoding.Statement (.retake g d a) := rfl
theorem Encoding.rdcnt (g : BitVec 4) (d : BitVec 6) (k : BitVec 2) : Encoding.Statement (.rdcnt g d k) := rfl
theorem Encoding.mma (o : MmaOp) : Encoding.Statement (.mma o) := rfl
theorem Encoding.mmas (o : MmaOp) : Encoding.Statement (.mmas o) := rfl
theorem Encoding.mmaq (o : MmaOp) : Encoding.Statement (.mmaq o) := rfl
theorem Encoding.sacc (g d p : BitVec 4) (c s : SSrc) (ty : Fmt) (mc nc : BitVec 2) (noAcc : Bool) : Encoding.Statement (.sacc g d p c s ty mc nc noAcc) := rfl
theorem Encoding.accz (g d : BitVec 4) : Encoding.Statement (.accz g d) := rfl
theorem Encoding.acczPair (g d : BitVec 4) : Encoding.Statement (.acczPair g d) := rfl
theorem Encoding.accld (g d : BitVec 4) (a o : SSrc) (ty : Fmt) (mc nc : BitVec 2) : Encoding.Statement (.accld g d a o ty mc nc) := rfl
theorem Encoding.accst (g : BitVec 4) (a o : SSrc) (t : BitVec 4) (ty : Fmt) (mc nc : BitVec 2) : Encoding.Statement (.accst g a o t ty mc nc) := rfl
theorem Encoding.accdrain (g : BitVec 4) (a : SSrc) : Encoding.Statement (.accdrain g a) := rfl
theorem Encoding.accfill (g : BitVec 4) (a : SSrc) : Encoding.Statement (.accfill g a) := rfl
theorem Encoding.xbatch : Encoding.Statement .xbatch := rfl
theorem Encoding.xwait (n : BitVec 8) : Encoding.Statement (.xwait n) := rfl
theorem Encoding.opready : Encoding.Statement .opready := rfl
theorem Encoding.copy (g : BitVec 4) (d s : SSrc) : Encoding.Statement (.copy g d s) := rfl
theorem Encoding.copyBar (g : BitVec 4) (d s b : SSrc) : Encoding.Statement (.copyBar g d s b) := rfl
theorem Encoding.xcopy (g : BitVec 4) (d s : SSrc) (e : BitVec 4) : Encoding.Statement (.xcopy g d s e) := rfl
theorem Encoding.srd (g : BitVec 4) (d : SDst) (num : BitVec 12) : Encoding.Statement (.srd g d num) := rfl
theorem Encoding.swr (g : BitVec 4) (a : SSrc) (num : BitVec 12) : Encoding.Statement (.swr g a num) := rfl
theorem Encoding.eret : Encoding.Statement .eret := rfl
theorem Encoding.tlbinv (a n : SSrc) : Encoding.Statement (.tlbinv a n) := rfl
theorem Encoding.idle (n : BitVec 16) : Encoding.Statement (.idle n) := rfl
theorem Encoding.halt : Encoding.Statement .halt := rfl
theorem Encoding.lineFetch (gid : Nat) (err : BitVec 512) : Encoding.Statement (.lineFetch gid err) := rfl
theorem Encoding.lineRefetch (gid : Nat) (err : BitVec 512) : Encoding.Statement (.lineRefetch gid err) := rfl
theorem Encoding.issueSelect (first : Nat) : Encoding.Statement (.issueSelect first) := rfl
theorem Encoding.stampMapCleared : Encoding.Statement .stampMapCleared := rfl
theorem Encoding.retakeDecision (launch : Nat) : Encoding.Statement (.retakeDecision launch) := rfl
theorem Encoding.mailboxEntryTake (ctx : Nat) : Encoding.Statement (.mailboxEntryTake ctx) := rfl
theorem Encoding.crewPlace (spawned : Bool) (id : Nat) (cores : List Nat) : Encoding.Statement (.crewPlace spawned id cores) := rfl
theorem Encoding.priorityAgeing (launch : Nat) : Encoding.Statement (.priorityAgeing launch) := rfl
theorem Encoding.headReservation (ctx : Nat) (cores : List Nat) : Encoding.Statement (.headReservation ctx cores) := rfl
theorem Encoding.crewMigrate (crew : Nat) : Encoding.Statement (.crewMigrate crew) := rfl
theorem Encoding.triggerComplete (gid : Nat) : Encoding.Statement (.triggerComplete gid) := rfl
theorem Encoding.groupRetire (gid : Nat) : Encoding.Statement (.groupRetire gid) := rfl
theorem Encoding.spawnBinTimerExpire (core : Nat) (entry : Word) : Encoding.Statement (.spawnBinTimerExpire core entry) := rfl
theorem Encoding.greenRoomBackoffExpire (gid : Nat) : Encoding.Statement (.greenRoomBackoffExpire gid) := rfl
theorem Encoding.monitorGrant (ctx colour : Nat) : Encoding.Statement (.monitorGrant ctx colour) := rfl
theorem Encoding.monitorRelease (gid : Nat) : Encoding.Statement (.monitorRelease gid) := rfl
theorem Encoding.mwaitBackoffExpire (gid : Nat) : Encoding.Statement (.mwaitBackoffExpire gid) := rfl
theorem Encoding.homeAccess (req : Nat) : Encoding.Statement (.homeAccess req) := rfl
theorem Encoding.loadReturn (req : Nat) : Encoding.Statement (.loadReturn req) := rfl
theorem Encoding.leaseGrant (req : Nat) : Encoding.Statement (.leaseGrant req) := rfl
theorem Encoding.leaseRecall (line : Nat) : Encoding.Statement (.leaseRecall line) := rfl
theorem Encoding.l1Evict (core line : Nat) : Encoding.Statement (.l1Evict core line) := rfl
theorem Encoding.writeRejectReturn (req : Nat) : Encoding.Statement (.writeRejectReturn req) := rfl
theorem Encoding.copyBytesLand (copy elem : Nat) : Encoding.Statement (.copyBytesLand copy elem) := rfl
theorem Encoding.engineCommandPerform (engine : Nat) : Encoding.Statement (.engineCommandPerform engine) := rfl
theorem Encoding.matrixOpComplete (core op : Nat) : Encoding.Statement (.matrixOpComplete core op) := rfl
theorem Encoding.flitArrive (flit : Nat) : Encoding.Statement (.flitArrive flit) := rfl
theorem Encoding.peerAccessArrive (req : Nat) : Encoding.Statement (.peerAccessArrive req) := rfl
theorem Encoding.peerReplyReturn (gid op : Nat) : Encoding.Statement (.peerReplyReturn gid op) := rfl
theorem Encoding.faultRecordWrite (id : Nat) : Encoding.Statement (.faultRecordWrite id) := rfl
theorem Encoding.preemptRequest (crew : Nat) : Encoding.Statement (.preemptRequest crew) := rfl
theorem Encoding.crewSave (crew : Nat) : Encoding.Statement (.crewSave crew) := rfl
theorem Encoding.arrayHalt (core : Nat) : Encoding.Statement (.arrayHalt core) := rfl
theorem Encoding.crewRestore (crew : Nat) (cores : List Nat) : Encoding.Statement (.crewRestore crew cores) := rfl
theorem Encoding.quantumExpire (ctx : Nat) : Encoding.Statement (.quantumExpire ctx) := rfl
theorem Encoding.tlbWalkComplete (core ctx : Nat) (va : Word) : Encoding.Statement (.tlbWalkComplete core ctx va) := rfl
theorem Encoding.shootdownComplete (id : Nat) : Encoding.Statement (.shootdownComplete id) := rfl
theorem Encoding.pagerRequest (gid : Nat) (va : Word) : Encoding.Statement (.pagerRequest gid va) := rfl
theorem Encoding.thawRecallArrive (granule holder : Nat) : Encoding.Statement (.thawRecallArrive granule holder) := rfl
theorem Encoding.thawRecallComplete (granule : Nat) : Encoding.Statement (.thawRecallComplete granule) := rfl
theorem Encoding.fillArrive (fill : Nat) : Encoding.Statement (.fillArrive fill) := rfl
theorem Encoding.uc0Snapshot (read : PortRead) : Encoding.Statement (.uc0Snapshot read) := rfl
theorem Encoding.uc12Sample : Encoding.Statement .uc12Sample := rfl
theorem Encoding.linkRead (p : Packet) : Encoding.Statement (.linkRead p) := rfl
theorem Encoding.linkWrite (p : Packet) : Encoding.Statement (.linkWrite p) := rfl
theorem Encoding.linkAtomic (p : Packet) : Encoding.Statement (.linkAtomic p) := rfl
theorem Encoding.linkReadData (x : ReadAnswer) (data : List Byte) : Encoding.Statement (.linkReadData x data) := rfl
theorem Encoding.linkWriteAck (x : Answer) : Encoding.Statement (.linkWriteAck x) := rfl
theorem Encoding.linkAtomicResult (x : Answer) (old : Word) : Encoding.Statement (.linkAtomicResult x old) := rfl
theorem Encoding.linkAck (port lseq : Nat) : Encoding.Statement (.linkAck port lseq) := rfl
theorem Encoding.linkNack (port lseq : Nat) : Encoding.Statement (.linkNack port lseq) := rfl
theorem Encoding.linkRecall (x : FromPeer) (slice granule rseq : Nat) : Encoding.Statement (.linkRecall x slice granule rseq) := rfl
theorem Encoding.linkRecallAck (x : FromPeer) (granule rseq : Nat) : Encoding.Statement (.linkRecallAck x granule rseq) := rfl
theorem Encoding.linkInterrupt : Encoding.Statement .linkInterrupt := rfl
theorem Encoding.linkRefuse (x : Answer) (code : Nat) : Encoding.Statement (.linkRefuse x code) := rfl
theorem Encoding.linkRetrain (port : Nat) (ok : Bool) : Encoding.Statement (.linkRetrain port ok) := rfl
theorem Encoding.portDown (port : Nat) : Encoding.Statement (.portDown port) := rfl
theorem Encoding.portUp (port : Nat) : Encoding.Statement (.portUp port) := rfl
theorem Encoding.jqcmdWrite (ctx : Nat) (v : Word) : Encoding.Statement (.jqcmdWrite ctx v) := rfl
theorem Encoding.journalQueryComplete (ctx : Nat) (result : BitVec 3) (old : Word) : Encoding.Statement (.journalQueryComplete ctx result old) := rfl
theorem Encoding.featgntWrite (ctx k : Nat) (v : Word) : Encoding.Statement (.featgntWrite ctx k v) := rfl
theorem Encoding.hostBarAccess (ctx : Nat) (num : BitVec 12) (x : BarAccess) : Encoding.Statement (.hostBarAccess ctx num x) := rfl
theorem Encoding.lmboxWrite (ctx : Nat) (x : Posted) : Encoding.Statement (.lmboxWrite ctx x) := rfl
theorem Encoding.rgnownWrite (v : Word) : Encoding.Statement (.rgnownWrite v) := rfl
theorem Encoding.vfcfgWrite (ctx : Nat) (v : Word) : Encoding.Statement (.vfcfgWrite ctx v) := rfl
theorem Encoding.svcountWrite (ctx : Nat) (v : Word) : Encoding.Statement (.svcountWrite ctx v) := rfl
theorem Encoding.arrctlWrite (core : Nat) (v : Word) : Encoding.Statement (.arrctlWrite core v) := rfl
theorem Encoding.bandhiWrite (v : Word) : Encoding.Statement (.bandhiWrite v) := rfl
theorem Encoding.triplimWrite (v : Word) : Encoding.Statement (.triplimWrite v) := rfl
theorem Encoding.registerWrite (ctx : Nat) (num : BitVec 12) (v : Word) : Encoding.Statement (.registerWrite ctx num v) := rfl
theorem Encoding.checkerMismatch (gid unit datapath : Nat) (out : CheckerOutcome) : Encoding.Statement (.checkerMismatch gid unit datapath out) := rfl
theorem Encoding.scoreboardMismatch (core : Nat) : Encoding.Statement (.scoreboardMismatch core) := rfl
theorem Encoding.softError (site : ErrSite) : Encoding.Statement (.softError site) := rfl
theorem Encoding.coreReplace (core : Nat) : Encoding.Statement (.coreReplace core) := rfl
theorem Encoding.hbmPinSwap (stack : Nat) : Encoding.Statement (.hbmPinSwap stack) := rfl
theorem Encoding.softPostPackageRepair (stack : Nat) : Encoding.Statement (.softPostPackageRepair stack) := rfl
theorem Encoding.sensorReading (cores : List (Nat × Nat)) (hub hbm : List Nat) : Encoding.Statement (.sensorReading cores hub hbm) := rfl
theorem Encoding.bandChange : Encoding.Statement .bandChange := rfl
theorem Encoding.scrubSweep (bad : List Nat) : Encoding.Statement (.scrubSweep bad) := rfl
theorem Encoding.soakTimerExpire (b : BringUp) : Encoding.Statement (.soakTimerExpire b) := rfl
theorem Encoding.retreatHoldExpire : Encoding.Statement .retreatHoldExpire := rfl
theorem Encoding.coolholdRelease : Encoding.Statement .coolholdRelease := rfl
theorem Encoding.cmdCool : Encoding.Statement .cmdCool := rfl
theorem Encoding.cmdWarm : Encoding.Statement .cmdWarm := rfl
theorem Encoding.cmdService (die : BitVec 4) : Encoding.Statement (.cmdService die) := rfl
theorem Encoding.cmdOff : Encoding.Statement .cmdOff := rfl
theorem Encoding.cmdClear : Encoding.Statement .cmdClear := rfl
theorem Encoding.cmdInvalid (v : Word) : Encoding.Statement (.cmdInvalid v) := rfl
theorem Encoding.powerUp (bank0 bank1 : List Byte) : Encoding.Statement (.powerUp bank0 bank1) := rfl
theorem Encoding.warmReset : Encoding.Statement .warmReset := rfl
theorem Encoding.coldReset : Encoding.Statement .coldReset := rfl
theorem Encoding.firmwareUpdate (img : SignedImage) : Encoding.Statement (.firmwareUpdate img) := rfl
theorem Encoding.attestationReport (nonce : BitVec 256) : Encoding.Statement (.attestationReport nonce) := rfl
theorem Encoding.idleExpire (gid : Nat) : Encoding.Statement (.idleExpire gid) := rfl

end Sys2Proof.Laws
end

