-- ==== Sys2Proof/Laws/Reads.lean ====
section
/-! SUPPORT. What `withReads` does for a group none of whose registers is poisoned, and what writing a result does. -/

namespace Sys2Proof.Machine

/-! ## The checks before a register instruction -/

/-- With nothing poisoned nothing is noted. -/
theorem Issuing.note {s : State} {g : Group} (h : Issuing s g) (r : Reads) : r.note g s = s := by
  simp [Reads.note, Reads.spared, h.srcClean.1]

theorem Issuing.dying {s : State} {g : Group} (h : Issuing s g) (r : Reads) : r.dying g = 0 := by
  have hm : ∀ x : MSrc, g.mBad x = false := by intro x; cases x <;> simp [Group.mBad, h.srcClean.2.2]
  have hs : ∀ x : SSrc, g.sBad x = false := by intro x; cases x <;> simp [Group.sBad, Group.sWords, wordMarks, h.srcClean.2.1]
  unfold Reads.dying
  dsimp only
  split
  · rfl
  · simp [hm, hs, h.srcClean.1]

/-- With the sources readable, no flit missing and no port forbidden, the instruction runs on the effective mask of its guard. -/
theorem withReads_clean {s : State} {g : Group} (h : Issuing s g) (r : Reads) (body : Nat → Group → Mask → State → Out)
    (hs : r.sendBad s g = false) (hl : r.latchesOk g = true) (hp : g.eff r.g = 0 ∨ g.portsReady r.vs = true) :
    withReads r s body = body s.cur g (g.eff r.g) s := by
  unfold withReads withGroup
  rw [h.group]
  simp only [hs, hl, h.dying r, h.note r]
  rcases hp with hp | hp <;> simp [hp]

/-- An instruction that names a latch which may not be read raises LATCH (R164). -/
theorem withReads_latch {s : State} {g : Group} (h : s.group? s.cur = some g) (r : Reads) (body : Nat → Group → Mask → State → Out)
    (hs : r.sendBad s g = false) (hl : r.latchesOk g = false) : withReads r s body = .next (raiseCD s s.cur 3 0) := by
  unfold withReads withGroup
  rw [h]
  simp [hs, hl]

/-- A source names no port. -/
def noPort (l : List (VSrc × Bool)) : Bool := l.all (fun x => !x.1.isPort)

theorem portsOf_noPort (l : List (VSrc × Bool)) (h : noPort l = true) : portsOf l = [] := by
  induction l with
  | nil => rfl
  | cons x r ih =>
    simp only [noPort, List.all_cons, Bool.and_eq_true] at h
    obtain ⟨v, b⟩ := x
    cases v with
    | port k => simp [VSrc.isPort] at h
    | reg k => simpa [portsOf] using ih h.2
    | latch k => simpa [portsOf] using ih h.2

theorem portsReady_noPort (g : Group) (l : List (VSrc × Bool)) (h : noPort l = true) : g.portsReady l = true := by
  simp [Group.portsReady, portsOf_noPort l h]

/-! ## Registers -/

@[simp] theorem Regs.wrS_v (x : Regs) (r : Nat) (v : Word) : (x.wrS r v).v = x.v := rfl
@[simp] theorem Regs.wrS_m (x : Regs) (r : Nat) (v : Word) : (x.wrS r v).m = x.m := rfl
@[simp] theorem Regs.wrV_s (x : Regs) (r l : Nat) (v : W32) : (x.wrV r l v).s = x.s := rfl
@[simp] theorem Regs.wrV_m (x : Regs) (r l : Nat) (v : W32) : (x.wrV r l v).m = x.m := rfl
@[simp] theorem Regs.wrM_v (x : Regs) (r : Nat) (v : Mask) : (x.wrM r v).v = x.v := by unfold Regs.wrM; split <;> rfl
@[simp] theorem Regs.wrM_s (x : Regs) (r : Nat) (v : Mask) : (x.wrM r v).s = x.s := by unfold Regs.wrM; split <;> rfl

/-- An `s` register after a write. -/
theorem Regs.rdS_wrS (x : Regs) (r j : Nat) (v : Word) : (x.wrS r v).rdS j = if j = r then v else x.rdS j := by
  simp [Regs.rdS, Regs.wrS, SMap.get_put]

/-- An `m` register other than `m0` after a write. -/
theorem Regs.rdM_wrM (x : Regs) (a : Mask) (r j : Nat) (v : Mask) :
    (x.wrM r v).rdM a j = if j = r ∧ r ≠ 0 then v else x.rdM a j := by
  unfold Regs.rdM Regs.wrM
  by_cases hj : j = 0
  · subst hj; by_cases hr : r = 0
    · simp [hr]
    · simp [Ne.symm hr]
  · by_cases hr : r = 0
    · simp [hr]
    · simp [hj, hr, SMap.get_put]

/-- A lane of a `v` register after a write of a lane. -/
theorem Regs.rdV_wrV (x : Regs) (r l j k : Nat) (v : W32) (hl : l < 64) (hk : k < 64) :
    (x.wrV r l v).rdV j k = if j = r ∧ k = l then v else x.rdV j k := by
  simp only [Regs.rdV, Regs.wrV, SMap.get_put]
  by_cases h : 64 * j + k = 64 * r + l
  · rw [if_pos h, if_pos (by omega)]
  · rw [if_neg h, if_neg (by omega)]

/-! ## Results -/

theorem cleanWords_nil (k : Nat) : cleanWords [] k = [] := rfl

/-- What `finishS` does: the instruction completes; under a non-empty effective mask its destination and its latch result take the
value, and under an empty one nothing is written. -/
theorem finishS_spec {s : State} {g : Group} (hc : g.sPoison = []) (eff : Mask) (d : SDst) (v : Word) :
    ∃ h, Completed s (finishS s s.cur g eff d v) g h ∧ h.regs.v = g.regs.v ∧ h.regs.m = g.regs.m ∧
      (∀ k, h.regs.rdS k = if eff ≠ 0 ∧ destS d k = true then v else g.regs.rdS k) ∧
      (h.entered = true → h.window = g.window + 1 ∧ h.latches.tail = g.latches.take 2 ∧ (eff ≠ 0 → h.latches.head? = some (.s v))) := by
  unfold finishS
  by_cases he : eff = 0
  · rw [if_pos he]
    obtain ⟨h, hcmp, hr, hl⟩ := finish_spec { s with freeCtr := s.freeCtr + 1 } g (.s (freeAt s.freeCtr 0)) false
    refine ⟨h, ⟨⟨?_, hcmp.only.group, hcmp.only.others, hcmp.only.cores, hcmp.only.mem⟩, hcmp.moved, hcmp.pc, hcmp.ready⟩, by rw [hr], by rw [hr], ?_, ?_⟩
    · have := hcmp.only.state; simpa [State.draw] using this
    · intro k; simp [he, hr]
    · intro e; rw [(hl e).1]; simp [(hl e).2, he, List.take]
  · rw [if_neg he]
    cases d with
    | reg r =>
      dsimp only
      obtain ⟨h, hcmp, hr, hl⟩ := finish_spec s (g.writeS r.toNat v) (.s v) false
      have hw : g.writeS r.toNat v = { g with regs := g.regs.wrS r.toNat v, sHit := (g.writeS r.toNat v).sHit } := by
        simp [Group.writeS, hc, cleanWords_nil]
      rw [hw] at hcmp hr hl ⊢
      refine ⟨h, ⟨hcmp.only, hcmp.moved.withRegs, hcmp.pc, hcmp.ready⟩, by rw [hr]; rfl, by rw [hr]; rfl, ?_, ?_⟩
      · intro k; rw [hr]; by_cases hk : k = r.toNat <;> simp [Regs.rdS_wrS, destS, hk]
        intro h0; exact absurd h0 he
      · intro e; rw [(hl e).1]; simp [(hl e).2, List.take]
    | dash =>
      obtain ⟨h, hcmp, hr, hl⟩ := finish_spec s g (.s v) false
      refine ⟨h, hcmp, by rw [hr], by rw [hr], ?_, ?_⟩
      · intro k; rw [hr]; simp [destS]
      · intro e; rw [(hl e).1]; simp [(hl e).2, List.take]

/-- What `finishM` does where no port is read. -/
theorem finishM_spec {s : State} {g : Group} (hc : g.mPoison = []) (eff : Mask) (d : MDst) (v : Mask) :
    ∃ h, Completed s (finishM s s.cur g eff d [] v) g h ∧ h.regs.v = g.regs.v ∧ h.regs.s = g.regs.s ∧
      (∀ a k, h.regs.rdM a k = if eff ≠ 0 ∧ destM d k = true then v else g.regs.rdM a k) ∧
      (h.entered = true → h.window = g.window + 1 ∧ h.latches.tail = g.latches.take 2 ∧
        ∃ fr, h.latches.head? = some (.m eff v fr)) := by
  have key : ∀ (r : Regs), r.v = g.regs.v → r.s = g.regs.s →
      (∀ a k, r.rdM a k = if eff ≠ 0 ∧ destM d k = true then v else g.regs.rdM a k) →
      ∃ h, Completed s (finish { s with freeCtr := s.freeCtr + 1 } s.cur { g with regs := r } (.m eff v s.freeCtr) false) g h ∧
        h.regs.v = g.regs.v ∧ h.regs.s = g.regs.s ∧ (∀ a k, h.regs.rdM a k = if eff ≠ 0 ∧ destM d k = true then v else g.regs.rdM a k) ∧
        (h.entered = true → h.window = g.window + 1 ∧ h.latches.tail = g.latches.take 2 ∧
          ∃ fr, h.latches.head? = some (.m eff v fr)) := by
    intro r h1 h2 h3
    obtain ⟨h, hcmp, hr, hl⟩ := finish_spec { s with freeCtr := s.freeCtr + 1 } { g with regs := r } (.m eff v s.freeCtr) false
    refine ⟨h, ⟨⟨?_, hcmp.only.group, hcmp.only.others, hcmp.only.cores, hcmp.only.mem⟩, hcmp.moved.withRegs, hcmp.pc, hcmp.ready⟩,
      by rw [hr]; exact h1, by rw [hr]; exact h2, fun a k => by rw [hr]; exact h3 a k, fun e => ?_⟩
    · have := hcmp.only.state; simpa using this
    · rw [(hl e).1]; simp [(hl e).2, List.take]
  have hw : ∀ k, g.writeM k v = { g with regs := g.regs.wrM k v } := by intro k; simp [Group.writeM, hc, cleanWords_nil]
  unfold finishM
  simp only [List.isEmpty_nil, if_true, State.draw]
  cases d with
  | dash => exact key g.regs rfl rfl (fun a k => by simp [destM])
  | reg r =>
    by_cases he : eff = 0
    · simp only [he, if_true]; rw [he] at key; exact key g.regs rfl rfl (fun a k => by simp)
    · simp only [he, if_false]
      rw [hw]
      refine key (g.regs.wrM r.toNat v) (by simp) (by simp) (fun a k => ?_)
      rw [Regs.rdM_wrM]
      have he' : ¬eff = 0#64 := he
      by_cases h1 : k = r.toNat
      · subst h1; by_cases h2 : r.toNat = 0 <;> simp [he', destM, h2]
      · simp [destM, h1]

/-! ## Vector results -/

theorem mem_lanesOf (m : Mask) (l : Nat) : l ∈ lanesOf m ↔ l < 64 ∧ m.getLsbD l = true := by
  simp [lanesOf, allLanes]

theorem lanesOf_zero : lanesOf 0 = [] := by
  simp [lanesOf]

/-- Lanes of a single register after a fold of writes. -/
theorem rdV_writes (ls : List Nat) (f : Nat → W32) (r j k : Nat) (hb : ∀ l ∈ ls, l < 64) (hk : k < 64) : ∀ (x : Regs),
    (ls.foldl (fun x l => x.wrV r l (f l)) x).rdV j k = if j = r ∧ k ∈ ls then f k else x.rdV j k := by
  induction ls with
  | nil => intro x; simp
  | cons l ls ih =>
    intro x
    rw [List.foldl_cons, ih (fun l h => hb l (List.mem_cons_of_mem _ h)), Regs.rdV_wrV _ _ _ _ _ _ (hb l List.mem_cons_self) hk]
    by_cases h1 : j = r <;> by_cases h2 : k ∈ ls <;> by_cases h3 : k = l <;> simp [h1, h2, h3]

/-- Lanes of a pair after a fold of writes. -/
theorem rdV_writes64 (ls : List Nat) (f : Nat → BitVec 64) (r j k : Nat) (hb : ∀ l ∈ ls, l < 64) (hk : k < 64) : ∀ (x : Regs),
    (ls.foldl (fun x l => x.wrV64 r l (f l)) x).rdV j k =
      if k ∈ ls then (if j = r then (f k).extractLsb' 0 32 else if j = r + 1 then (f k).extractLsb' 32 32 else x.rdV j k)
      else x.rdV j k := by
  induction ls with
  | nil => intro x; simp
  | cons l ls ih =>
    intro x
    rw [List.foldl_cons, ih (fun l h => hb l (List.mem_cons_of_mem _ h)), Regs.wrV64,
      Regs.rdV_wrV _ _ _ _ _ _ (hb l List.mem_cons_self) hk, Regs.rdV_wrV _ _ _ _ _ _ (hb l List.mem_cons_self) hk]
    by_cases h1 : j = r
    · subst h1; by_cases h2 : k ∈ ls <;> by_cases h3 : k = l <;> simp [h2, h3]
    · by_cases h0 : j = r + 1 <;> by_cases h2 : k ∈ ls <;> by_cases h3 : k = l <;> simp [h1, h0, h2, h3]

theorem writes_sm (ls : List Nat) (g : Regs → Nat → Regs) (h : ∀ x l, (g x l).s = x.s ∧ (g x l).m = x.m) : ∀ (x : Regs),
    (ls.foldl g x).s = x.s ∧ (ls.foldl g x).m = x.m := by
  induction ls with
  | nil => intro x; exact ⟨rfl, rfl⟩
  | cons l ls ih =>
    intro x
    rw [List.foldl_cons, (ih _).1, (ih _).2]
    exact h x l

/-- The word that lane `l` of register `k` takes when `d` is written with `v`: of a pair, the low register takes bits 31:0. -/
def wordOf (d : VDst) (wide : Bool) (k : Nat) (v : BitVec 64) : W32 :=
  match d with
  | .reg r => if wide && k == r.toNat + 1 then v.extractLsb' 32 32 else v.extractLsb' 0 32
  | _ => 0

/-- What `finishV` does where no port is read or written. -/
theorem finishV_spec {s : State} {g : Group} (hc : g.vPoison = []) (eff : Mask) (d : VDst) (wide : Bool) (f : Nat → BitVec 64) :
    ∃ h, Completed s (finishV s s.cur g eff d wide [] f) g h ∧ h.regs.s = g.regs.s ∧ h.regs.m = g.regs.m ∧
      (∀ k l, l < 64 → h.regs.rdV k l = if eff.getLsbD l = true ∧ destV d wide k = true then wordOf d wide k (f l) else g.regs.rdV k l) ∧
      (h.entered = true → h.window = g.window + 1 ∧ h.latches.tail = g.latches.take 2 ∧
        ∃ vals fr, h.latches.head? = some (.vec wide eff vals fr) ∧ ∀ l, l < 64 → eff.getLsbD l = true →
          SMap.get vals 0 l = if wide then f l else ((f l).extractLsb' 0 32).setWidth 64) := by
  have hget : ∀ (ls : List Nat) (q : Nat → BitVec 64) (l : Nat), l ∈ ls →
      SMap.get ((laneMap ls q).filter (fun e => e.2 ≠ 0)) 0 l = q l := by
    intro ls q l
    induction ls with
    | nil => intro h; simp at h
    | cons a ls ih =>
      intro h
      simp only [laneMap, List.map_cons, List.filter_cons]
      by_cases ha : a = l
      · subst ha
        by_cases hz : q a = 0
        · simp only [hz, ne_eq, not_true_eq_false, decide_false, Bool.false_eq_true, if_false]
          by_cases hm : a ∈ ls
          · have := ih hm; simp only [laneMap] at this; rw [this, hz]
          · have : ∀ (ls : List Nat), a ∉ ls → SMap.get (((ls.map (fun l => (l, q l))) : SMap (BitVec 64)).filter (fun e => e.2 ≠ 0)) 0 a = 0 := by
              intro ls
              induction ls with
              | nil => intro _; rfl
              | cons b ls ih =>
                intro hb
                simp only [List.mem_cons, not_or] at hb
                simp only [List.map_cons, List.filter_cons]
                have := ih hb.2
                split
                · simp only [SMap.get, SMap.find?] at this ⊢
                  rw [if_neg (Ne.symm hb.1)]; exact this
                · exact this
            exact this ls hm
        · have hz' : ¬q a = 0#64 := hz
          simp [hz', SMap.get, SMap.find?]
      · have hm : l ∈ ls := by simpa [Ne.symm ha] using h
        have := ih hm
        split
        · simp only [SMap.get, SMap.find?] at this ⊢
          rw [if_neg ha]; exact this
        · exact this
  have key : ∀ (r : Regs), r.s = g.regs.s → r.m = g.regs.m →
      (∀ k l, l < 64 → r.rdV k l = if eff.getLsbD l = true ∧ destV d wide k = true then wordOf d wide k (f l) else g.regs.rdV k l) →
      ∃ h, Completed s (finish { s with freeCtr := s.freeCtr + 1 } s.cur { g with regs := r }
          (.vec wide eff ((laneMap (lanesOf eff) (fun l => if wide then f l else ((f l).extractLsb' 0 32).setWidth 64)).filter (fun e => e.2 ≠ 0)) s.freeCtr) false) g h ∧
        h.regs.s = g.regs.s ∧ h.regs.m = g.regs.m ∧
        (∀ k l, l < 64 → h.regs.rdV k l = if eff.getLsbD l = true ∧ destV d wide k = true then wordOf d wide k (f l) else g.regs.rdV k l) ∧
        (h.entered = true → h.window = g.window + 1 ∧ h.latches.tail = g.latches.take 2 ∧
          ∃ vals fr, h.latches.head? = some (.vec wide eff vals fr) ∧ ∀ l, l < 64 → eff.getLsbD l = true →
            SMap.get vals 0 l = if wide then f l else ((f l).extractLsb' 0 32).setWidth 64) := by
    intro r h1 h2 h3
    obtain ⟨h, hcmp, hr, hl⟩ := finish_spec { s with freeCtr := s.freeCtr + 1 } { g with regs := r }
      (.vec wide eff ((laneMap (lanesOf eff) (fun l => if wide then f l else ((f l).extractLsb' 0 32).setWidth 64)).filter (fun e => e.2 ≠ 0)) s.freeCtr) false
    refine ⟨h, ⟨⟨?_, hcmp.only.group, hcmp.only.others, hcmp.only.cores, hcmp.only.mem⟩, hcmp.moved.withRegs, hcmp.pc, hcmp.ready⟩,
      by rw [hr]; exact h1, by rw [hr]; exact h2, fun k l hl => by rw [hr]; exact h3 k l hl, fun e => ?_⟩
    · have := hcmp.only.state; simpa using this
    · refine ⟨by simpa using (hl e).2, by rw [(hl e).1]; simp [List.take], _, _, by rw [(hl e).1]; rfl, fun l hl he => ?_⟩
      exact hget (lanesOf eff) _ l ((mem_lanesOf eff l).2 ⟨hl, he⟩)
  have hlt : ∀ l ∈ lanesOf eff, l < 64 := fun l h => ((mem_lanesOf eff l).1 h).1
  unfold finishV
  simp only [List.isEmpty_nil, if_true, State.draw]
  cases d with
  | dash => exact key g.regs rfl rfl (fun k l hl => by simp [destV])
  | port p => exact key g.regs rfl rfl (fun k l hl => by simp [destV])
  | reg r =>
    simp only [Group.writeV, hc, List.isEmpty_nil, if_true]
    cases wide with
    | false =>
      simp only [Bool.false_eq_true, if_false, laneMap, List.foldl_map]
      simp only [Bool.false_eq_true, if_false, laneMap] at key
      obtain ⟨e1, e2⟩ := writes_sm (lanesOf eff) (fun x l => x.wrV r.toNat l ((((f l).extractLsb' 0 32).setWidth 64).extractLsb' 0 32)) (fun x l => ⟨rfl, rfl⟩) g.regs
      have e3 := key _ e1 e2 (fun k l hl => by
        rw [rdV_writes (lanesOf eff) _ r.toNat k l hlt hl]
        have : (((f l).extractLsb' 0 32).setWidth 64).extractLsb' 0 32 = (f l).extractLsb' 0 32 := by
          ext i hi; simp [hi]; omega
        by_cases h1 : k = r.toNat <;> by_cases h2 : eff.getLsbD l = true <;> simp [mem_lanesOf, destV, wordOf, h1, h2, hl, this])
      simpa [hc] using e3
    | true =>
      simp only [if_true, laneMap, List.foldl_map]
      simp only [if_true, laneMap] at key
      obtain ⟨e1, e2⟩ := writes_sm (lanesOf eff) (fun x l => x.wrV64 r.toNat l (f l)) (fun x l => ⟨rfl, rfl⟩) g.regs
      have e3 := key _ e1 e2 (fun k l hl => by
        rw [rdV_writes64 (lanesOf eff) _ r.toNat k l hlt hl]
        by_cases h1 : k = r.toNat
        · subst h1; by_cases h2 : eff.getLsbD l = true <;> simp [mem_lanesOf, destV, wordOf, h2, hl]
        · by_cases h3 : k = r.toNat + 1 <;> by_cases h2 : eff.getLsbD l = true <;> simp [mem_lanesOf, destV, wordOf, h1, h3, h2, hl])
      simpa [hc] using e3

end Sys2Proof.Machine
end

