-- ==== Sys2Proof/Laws/Shared.lean ====
section
/-! SUPPORT. What the shared operations do, said once: counters of events and usage, L1 lines and leases, writes at their home, and the
entry into a trap or into the user fault handler. -/

namespace Sys2Proof.Machine

/-! ## Counters -/

/-- Adding to a usage counter changes contexts only. -/
theorem addUc_frame (s : State) (x k n : Nat) : addUc s x k n = { s with ctxs := (addUc s x k n).ctxs } := rfl

theorem charge_frame (s : State) (x k n : Nat) : charge s x k n = { s with ctxs := (charge s x k n).ctxs } := rfl

/-- One counter that takes events changes contexts and interrupts only. -/
theorem bumpCnt_frame (s : State) (x k n : Nat) :
    bumpCnt s x k n = { s with ctxs := (bumpCnt s x k n).ctxs, interrupts := (bumpCnt s x k n).interrupts } := by
  unfold bumpCnt
  dsimp only
  split
  · rfl
  · split <;> rfl

/-- Counting events changes contexts and interrupts only. -/
theorem countEvent_frame (s : State) (x code n : Nat) (sup own : Bool) :
    countEvent s x code n sup own =
      { s with ctxs := (countEvent s x code n sup own).ctxs, interrupts := (countEvent s x code n sup own).interrupts } := by
  have fold : ∀ (l : List Nat) (p : State → Nat → Bool) (s : State),
      l.foldl (fun s k => if p s k then bumpCnt s x k n else s) s =
        { s with ctxs := (l.foldl (fun s k => if p s k then bumpCnt s x k n else s) s).ctxs,
                 interrupts := (l.foldl (fun s k => if p s k then bumpCnt s x k n else s) s).interrupts } := by
    intro l p
    induction l with
    | nil => intro s; rfl
    | cons k r ih =>
      intro s
      simp only [List.foldl_cons]
      split
      · have h := ih (bumpCnt s x k n)
        rw [bumpCnt_frame s x k n] at h ⊢
        exact h
      · exact ih s
  unfold countEvent
  split
  · rfl
  · exact fold [0, 1, 2, 3] (fun s k =>
      (SMap.get (s.ctx x).cntcfg 0 k).getLsbD 15 && ((SMap.get (s.ctx x).cntcfg 0 k).extractLsb' 0 8 : BitVec 8).toNat == code &&
        (!own || !sup || (SMap.get (s.ctx x).cntcfg 0 k).getLsbD 13) && (!fabricCode code || (s.ctx x).cntgrant)) s

/-! ## L1 lines and leases -/

/-- Invalidating lines changes the L1 of that core only. -/
theorem l1Drop_spec (s : State) (core : Nat) (p : Nat → L1Line → Bool) :
    l1Drop s core p = { s with cores := (l1Drop s core p).cores } ∧
    ∀ c, (l1Drop s core p).core c = if c = core then { s.core core with l1 := (s.core core).l1.filter (fun e => !p e.1 e.2) } else s.core c :=
  ⟨rfl, fun c => by simp [l1Drop, State.core_modCore]⟩

/-- A store that passes through an L1 changes the data of a valid line there, and no lease. -/
theorem l1Update_frame (s : State) (core pa n v : Nat) : l1Update s core pa n v = { s with cores := (l1Update s core pa n v).cores } := by
  unfold l1Update
  dsimp only
  split
  · split <;> rfl
  · rfl

/-- A recall changes leases and L1 lines only; afterwards the line is leased to no core but the one that keeps it. -/
theorem recallLease_spec (s : State) (keep : Option Nat) (line : Nat) :
    recallLease s keep line = { s with leases := (recallLease s keep line).leases, cores := (recallLease s keep line).cores } ∧
    (∀ l, l ≠ line → SMap.find? (recallLease s keep line).leases l = SMap.find? s.leases l) ∧
    (∀ h, SMap.find? (recallLease s keep line).leases line = some h → keep = some h) := by
  unfold recallLease
  split
  · next e => exact ⟨rfl, fun _ _ => rfl, fun h hh => by rw [e] at hh; cases hh⟩
  · next h e =>
    split
    · next k =>
      refine ⟨rfl, fun _ _ => rfl, fun j hj => ?_⟩
      rw [e] at hj
      cases hj
      exact (beq_iff_eq.mp k)
    · dsimp only
      split
      · exact ⟨rfl, fun l hl => SMap.find?_del_ne _ _ _ hl, fun j hj => by
          have hj' : SMap.find? (SMap.del s.leases line) line = some j := hj
          rw [SMap.find?_del_self] at hj'; cases hj'⟩
      · exact ⟨rfl, fun l hl => SMap.find?_del_ne _ _ _ hl, fun j hj => by
          have hj' : SMap.find? (SMap.del s.leases line) line = some j := hj
          rw [SMap.find?_del_self] at hj'; cases hj'⟩

/-! ## Writes at their home -/

/-- A stamp changes no other field. -/
theorem stampTile_frame (s : State) (pa : Nat) : stampTile s pa = { s with stamps := (stampTile s pa).stamps } := by
  unfold stampTile
  split <;> rfl

/-- A stamp never falls below the generation by a write of its tile, and no other tile's changes (R85). -/
theorem stampTile_spec (s : State) (pa t : Nat) :
    SMap.get (stampTile s pa).stamps 0 t =
      if t = tileOf pa ∧ inHbm pa = true ∧ (SMap.get s.stamps 0 t).toNat < s.gen.toNat then s.gen else SMap.get s.stamps 0 t := by
  unfold stampTile
  by_cases hc : inHbm pa = true ∧ (SMap.get s.stamps 0 (tileOf pa)).toNat < s.gen.toNat
  · rw [if_pos (by rw [hc.1, decide_eq_true hc.2]; rfl)]
    show SMap.get (SMap.ins s.stamps (tileOf pa) s.gen) 0 t = _
    rw [SMap.get_ins]
    by_cases ht : t = tileOf pa
    · subst ht; rw [if_pos rfl, if_pos ⟨rfl, hc⟩]
    · rw [if_neg ht, if_neg (fun h => ht h.1)]
  · rw [if_neg (by rw [Bool.and_eq_true, decide_eq_true_eq]; exact hc), if_neg (by rintro ⟨rfl, h⟩; exact hc h)]

/-- Noting what predecessors read changes launches only. -/
theorem notePreds_frame (s : State) (pa n : Nat) : notePreds s pa n = { s with launches := (notePreds s pa n).launches } := by
  unfold notePreds
  split <;> rfl

/-- A raw write changes memory, its poison markers, the stamps of its tiles, and what launches note of their predecessors. -/
theorem rawWrite_spec (s : State) (pa n v bad : Nat) :
    rawWrite s pa n v bad = { s with mem := Memory.writeNat s.mem pa v n, memPoison := markWrite s.memPoison pa n bad,
                                     stamps := (rawWrite s pa n v bad).stamps, launches := (rawWrite s pa n v bad).launches } := by
  unfold rawWrite
  rw [notePreds_frame, stampTile_frame, stampTile_frame { s with mem := _, memPoison := _ }]

/-- Counting an event of the fabric changes contexts and interrupts only. -/
theorem countFabric_frame (s : State) (code n : Nat) :
    countFabric s code n = { s with ctxs := (countFabric s code n).ctxs, interrupts := (countFabric s code n).interrupts } := by
  have fold : ∀ (l : List (Nat × Ctx)) (s : State),
      l.foldl (fun s e => countEvent s e.1 code n false false) s =
        { s with ctxs := (l.foldl (fun s e => countEvent s e.1 code n false false) s).ctxs,
                 interrupts := (l.foldl (fun s e => countEvent s e.1 code n false false) s).interrupts } := by
    intro l
    induction l with
    | nil => intro s; rfl
    | cons e r ih =>
      intro s
      simp only [List.foldl_cons]
      have h := ih (countEvent s e.1 code n false false)
      rw [countEvent_frame s e.1 code n false false] at h ⊢
      exact h
  exact fold s.ctxs s

/-- Sending a packet changes the ports, and contexts and interrupts with the events that it counts. -/
theorem sendPacket_frame (s : State) (far : Nat) (p : OutPacket) :
    sendPacket s far p =
      { s with ports := (sendPacket s far p).ports, ctxs := (sendPacket s far p).ctxs, interrupts := (sendPacket s far p).interrupts } := by
  unfold sendPacket
  dsimp only
  split
  · rfl
  · rw [countFabric_frame, countFabric_frame { s with ports := _ }]

/-- A write that passes the home of a window line changes the home's copies, their L2 tags, and reads. -/
theorem passCopy_frame (s : State) (pa : Nat) :
    passCopy s pa = { s with farCopies := (passCopy s pa).farCopies, l2 := (passCopy s pa).l2, farReads := (passCopy s pa).farReads } := rfl

/-- The 9600's own write to a window changes the home's copies and their tags, the reads and writes that are on their way, ports, and contexts and
interrupts with the events that it counts. -/
theorem ownFar_frame (s : State) (owner : FarOwner) (ctx pa n v : Nat) :
    ownFar s owner ctx pa n v =
      { s with farCopies := (ownFar s owner ctx pa n v).farCopies, l2 := (ownFar s owner ctx pa n v).l2,
               farReads := (ownFar s owner ctx pa n v).farReads, farWrites := (ownFar s owner ctx pa n v).farWrites,
               nextId := (ownFar s owner ctx pa n v).nextId, ports := (ownFar s owner ctx pa n v).ports,
               ctxs := (ownFar s owner ctx pa n v).ctxs, interrupts := (ownFar s owner ctx pa n v).interrupts } := by
  unfold ownFar
  dsimp only
  split
  · rfl
  · rw [sendPacket_frame]
    rfl

/-- A write at its home in this package: rejected where its granule is frozen, and then nothing changes; else memory holds the value, and only
leases, L1 lines, poison markers, stamps, scope records and notes of launches changed besides (R85, R100, R114). -/
theorem homeWrite_spec (s : State) (ctx : Nat) (keep : Option Nat) (atomic : Bool) (pa n v bad : Nat)
    (hw : inWindow s.lnkid pa = false) :
    ((granuleFrozen s pa || granuleFrozen s (pa + n - 1)) = true → homeWrite s ctx keep atomic pa n v bad = (false, s)) ∧
    ((granuleFrozen s pa || granuleFrozen s (pa + n - 1)) = false →
      ∃ t, homeWrite s ctx keep atomic pa n v bad = (true, t) ∧ t.mem = Memory.writeNat s.mem pa v n ∧
        t = { s with mem := t.mem, memPoison := t.memPoison, stamps := t.stamps, leases := t.leases, cores := t.cores, scopes := t.scopes,
                     launches := t.launches } ∧
        (atomic = false → SMap.find? t.scopes (lineOf pa) = none) ∧ (atomic = true → t.scopes = s.scopes)) := by
  constructor
  · intro h; unfold homeWrite; rw [if_neg (by simp [hw]), if_pos h]
  · intro h
    obtain ⟨r1, -, -⟩ := recallLease_spec s keep (lineOf pa)
    obtain ⟨r2, -, -⟩ := recallLease_spec (recallLease s keep (lineOf pa)) keep (lineOf (pa + n - 1))
    generalize hu : recallLease (recallLease s keep (lineOf pa)) keep (lineOf (pa + n - 1)) = u at r2
    have hu' : u = { s with leases := u.leases, cores := u.cores } := by rw [r2, r1]
    have hr := rawWrite_spec u pa n v bad
    have hm : (rawWrite u pa n v bad).mem = Memory.writeNat s.mem pa v n := by
      rw [hr]; show Memory.writeNat u.mem pa v n = _; rw [hu']
    have hs : (rawWrite u pa n v bad).scopes = s.scopes := by
      rw [hr]; show u.scopes = _; rw [hu']
    unfold homeWrite
    rw [if_neg (by simp [hw]), if_neg (by simp [h])]
    dsimp only
    rw [hu]
    cases atomic with
    | true => exact ⟨_, rfl, hm, by rw [if_pos rfl, hr, hu'], by simp, fun _ => hs⟩
    | false =>
      refine ⟨_, rfl, hm, by rw [if_neg (by simp), hr, hu'], fun _ => ?_, by simp⟩
      show SMap.find? (SMap.del (SMap.del _ (lineOf pa)) _) (lineOf pa) = none
      rw [SMap.find?_del]
      split <;> simp

/-- A write to a window is forwarded: nothing of this package's memory changes, nor of its groups and crews (R322). -/
theorem homeWrite_window (s : State) (ctx : Nat) (keep : Option Nat) (atomic : Bool) (pa n v bad : Nat)
    (hw : inWindow s.lnkid pa = true) :
    ∃ t, homeWrite s ctx keep atomic pa n v bad = (true, t) ∧
      t = { s with farCopies := t.farCopies, l2 := t.l2, farReads := t.farReads, farWrites := t.farWrites, nextId := t.nextId,
                   ports := t.ports, ctxs := t.ctxs, interrupts := t.interrupts } :=
  ⟨_, by unfold homeWrite; rw [if_pos hw], ownFar_frame s .own ctx pa n v⟩

/-- A write at its home keeps the canonical form of memory. -/
theorem homeWrite_wf (s : State) (ctx : Nat) (keep : Option Nat) (atomic : Bool) (pa n v bad : Nat) (h : Memory.wf s.mem = true) :
    Memory.wf (homeWrite s ctx keep atomic pa n v bad).2.mem = true := by
  cases hw : inWindow s.lnkid pa with
  | true =>
    obtain ⟨t, ht, hr⟩ := homeWrite_window s ctx keep atomic pa n v bad hw
    rw [ht, hr]; exact h
  | false =>
    obtain ⟨h1, h2⟩ := homeWrite_spec s ctx keep atomic pa n v bad hw
    cases hf : granuleFrozen s pa || granuleFrozen s (pa + n - 1) with
    | true => rw [h1 hf]; exact h
    | false =>
      obtain ⟨t, ht, hm, -⟩ := h2 hf
      rw [ht, hm]
      exact Memory.writeNat_wf n s.mem pa v h

/-- So do the words that the machine writes itself, and no byte outside them changes. -/
theorem ownWords_spec (ws : List Nat) : ∀ (s : State) (ctx pa : Nat),
    (Memory.wf s.mem = true → Memory.wf (ownWords s ctx pa ws).mem = true) ∧
    (∀ a, a < pa ∨ pa + 8 * ws.length ≤ a → Memory.byte (ownWords s ctx pa ws).mem a = Memory.byte s.mem a) ∧
    (ownWords s ctx pa ws).groups = s.groups ∧ (ownWords s ctx pa ws).crews = s.crews := by
  induction ws with
  | nil => intro s ctx pa; exact ⟨id, fun _ _ => rfl, rfl, rfl⟩
  | cons w r ih =>
    intro s ctx pa
    obtain ⟨i1, i2, i3, i4⟩ := ih (homeWrite s ctx none false pa 8 w 0).2 ctx (pa + 8)
    have key : (∀ a, a < pa ∨ pa + 8 ≤ a → Memory.byte (homeWrite s ctx none false pa 8 w 0).2.mem a = Memory.byte s.mem a) ∧
        (homeWrite s ctx none false pa 8 w 0).2.groups = s.groups ∧ (homeWrite s ctx none false pa 8 w 0).2.crews = s.crews := by
      cases hw : inWindow s.lnkid pa with
      | true =>
        obtain ⟨t, ht, hr⟩ := homeWrite_window s ctx none false pa 8 w 0 hw
        rw [ht]
        refine ⟨fun a _ => ?_, ?_, ?_⟩
        · show Memory.byte t.mem a = _; rw [hr]
        · show t.groups = _; rw [hr]
        · show t.crews = _; rw [hr]
      | false =>
        obtain ⟨h1, h2⟩ := homeWrite_spec s ctx none false pa 8 w 0 hw
        cases hf : granuleFrozen s pa || granuleFrozen s (pa + 8 - 1) with
        | true => rw [h1 hf]; exact ⟨fun _ _ => rfl, rfl, rfl⟩
        | false =>
          obtain ⟨t, ht, hm, hr, -⟩ := h2 hf
          rw [ht]
          refine ⟨fun a ha => ?_, ?_, ?_⟩
          · show Memory.byte t.mem a = _
            rw [hm]; exact Memory.byte_writeNat_out 8 s.mem pa w a ha
          · show t.groups = _; rw [hr]
          · show t.crews = _; rw [hr]
    refine ⟨fun h => i1 (homeWrite_wf s ctx none false pa 8 w 0 h), fun a ha => ?_, i3.trans key.2.1, i4.trans key.2.2⟩
    show Memory.byte (ownWords (homeWrite s ctx none false pa 8 w 0).2 ctx (pa + 8) r).mem a = _
    simp only [List.length_cons] at ha
    rw [i2 a (by omega)]
    exact key.1 a (by omega)

/-! ## Exceptions -/

/-- Trap entry (R271): what is saved, what the group becomes, and that nothing else changes but its usage counter and its stream. -/
theorem trapEnter_spec (s : State) (gid : Nat) (g : Group) (cause detail code : Nat) (rec pc : Word) :
    ∃ h, (trapEnter s gid g cause detail code rec pc).group? gid = some h ∧
      h.sup = true ∧ h.pc = s.tvec ∧ h.entered = false ∧ h.tpc = pc ∧ h.trec = rec ∧
      h.tcause = BitVec.ofNat 64 (code * 2 ^ 32 + detail % 256 * 2 ^ 16 + cause % 256) ∧ h.tmask = g.active ∧ h.active = g.live ∧
      h.trapE = g.stack.length ∧ h.trapD = g.frames.length ∧ h.trapLatch = some (g.latches, g.window) ∧ h.status = .ready ∧
      h.regs = g.regs ∧ h.stack = g.stack ∧ h.frames = g.frames ∧ h.held = g.held ∧
      (∀ k, k ≠ gid → (trapEnter s gid g cause detail code rec pc).group? k = s.group? k) ∧
      (trapEnter s gid g cause detail code rec pc).mem = s.mem := by
  obtain ⟨h1, h2, -, h4⟩ := releaseStream_spec (addUc (s.setGroup gid (({ g with
    tcause := BitVec.ofNat 64 (code * 2 ^ 32 + detail % 256 * 2 ^ 16 + cause % 256), tpc := pc, trec := rec,
    tmask := g.active, trapLatch := some (g.latches, g.window), trapE := g.stack.length, trapD := g.frames.length,
    trapRun := (cause, 1), trapAt := pc, active := g.live, sup := true, issued := false, pair := none, status := .ready, stopped := false } : Group).enter s.tvec true))
    (s.ctxOf g) 14 1) gid _ (State.group?_setGroup_self s gid _)
  refine ⟨_, h1, rfl, rfl, rfl, rfl, rfl, rfl, rfl, rfl, rfl, rfl, rfl, rfl, rfl, rfl, rfl, rfl, fun k hk => ?_, ?_⟩
  · exact (h2 k hk).trans (State.group?_setGroup_ne s gid k _ hk)
  · show (releaseStream _ _).mem = _
    rw [h4]; rfl

/-- An L1 that gives up lines changes its core and leases only. -/
theorem l1Trim_frame (s : State) (core : Nat) :
    l1Trim s core = { s with cores := (l1Trim s core).cores, leases := (l1Trim s core).leases } := by
  unfold l1Trim
  dsimp only
  split <;> rfl

theorem State.group?_l1Trim (s : State) (core k : Nat) : (l1Trim s core).group? k = s.group? k := by
  unfold State.group?; rw [l1Trim_frame]

/-- Entry into the user fault handler (R43, R165). -/
theorem enterHandler_spec (s : State) (gid : Nat) (g : Group) (rec : Word) :
    ∃ h, (enterHandler s gid g rec).group? gid = some h ∧ h.pc = handlerOf s g ∧ h.entered = false ∧
      h.frames = ⟨g.pc, g.stack.length, g.active, s.nextId, true⟩ :: g.frames ∧ h.handlerLatch = some (g.latches, g.window) ∧
      h.handler = some ⟨g.frames.length + 1, rec, g.pc⟩ ∧ h.sup = g.sup ∧ h.active = g.active ∧ h.regs = g.regs ∧ h.stack = g.stack ∧
      h.status = .ready ∧ (∀ k, k ≠ gid → (enterHandler s gid g rec).group? k = s.group? k) ∧ (enterHandler s gid g rec).mem = s.mem := by
  obtain ⟨h1, h2, -, h4⟩ := releaseStream_spec (s.setGroup gid (({ g with
    frames := ⟨g.pc, g.stack.length, g.active, s.nextId, true⟩ :: g.frames, handlerLatch := some (g.latches, g.window),
    handler := some ⟨g.frames.length + 1, rec, g.pc⟩, issued := false, pair := none, passed := none,
    status := .ready } : Group).enter (handlerOf s g) true))
    gid _ (State.group?_setGroup_self s gid _)
  refine ⟨_, (State.group?_l1Trim _ _ _).trans h1, rfl, rfl, rfl, rfl, rfl, rfl, rfl, rfl, rfl, rfl, fun k hk => ?_, ?_⟩
  · exact (State.group?_l1Trim _ _ _).trans ((h2 k hk).trans (State.group?_setGroup_ne s gid k _ hk))
  · unfold enterHandler; rw [l1Trim_frame]; show (releaseStream _ _).mem = _
    rw [h4]; rfl

/-- A group that leaves keeps its registers and its colours; it waits for its counters. -/
theorem leave_spec (s : State) (gid : Nat) (g : Group) (why : Leaving) :
    ∃ h, (leave s gid g why).group? gid = some h ∧ h.leaving = some why ∧ h.status = .parked .counters ∧ h.regs = g.regs ∧ h.held = g.held ∧
      (∀ k, k ≠ gid → (leave s gid g why).group? k = s.group? k) ∧ (leave s gid g why).mem = s.mem := by
  obtain ⟨h1, h2, -, h4⟩ := releaseStream_spec (s.setGroup gid { g with leaving := some why, status := .parked .counters, issued := true })
    gid _ (State.group?_setGroup_self s gid _)
  refine ⟨_, h1, rfl, rfl, rfl, rfl, fun k hk => ?_, ?_⟩
  · exact (h2 k hk).trans (State.group?_setGroup_ne s gid k _ hk)
  · show (releaseStream _ _).mem = _
    rw [h4]; rfl

end Sys2Proof.Machine
end

