-- ==== Sys2Proof/Tests/Slice0.lean ====
section
/-! SUPPORT. Tests: ill-formed terms, words written out from the encodings of spec/, single steps on a small state with results that the
rules give, and for the statements the states and operands that meet their hypotheses (theorems `meets_…`). -/

namespace Sys2Proof.Tests

set_option Elab.async false

open Sys2Proof Sys2Proof.Machine Sys2Proof.Stmt

/-! ## The small state -/

/-- Registers of the group of the tests: `v1` is 5, -1, 0, …; `v2` is 7, 1, 0, …; `v4`, `v5` a pair; `s1` an address, `s2` 3, `s3` -1. -/
def someRegs : Regs :=
  ⟨[(64, 5), (65, 0xFFFFFFFF), (128, 7), (129, 1), (256, 0x80000000), (320, 1)], [(1, 0x2000), (2, 3), (3, 0xFFFFFFFFFFFFFFFF)], [(1, 3)]⟩

/-- A group of crew 1 with four live lanes, at slot 0 of a line that it has entered. -/
def aGroup : Group := { newGroup 1 0 0 64 512 0xF someRegs 0 0 with entered := true, needBt := false }

/-- Page tables at 0x100000: addresses below 1 GiB are mapped to themselves by one leaf, for every access. -/
def tables (leaf : Nat) : Memory :=
  Memory.writeNat (Memory.writeNat (Memory.writeNat [] 0x100000 0x101001 8) 0x101000 0x102001 8) 0x102000 leaf 8

/-- The leaf: V, P, R, W, X, U, S, LEAF. -/
def leafBits : Nat := 0x1FB

/-- The crew of the group. -/
def aCrew : Crew := { probeCrew 0 2 with scratchBytes := 65536 }

/-- Group 2 of crew 1 of launch 0, in context 0, whose fault queue of 128 records stands at 0x9000. -/
def st : State :=
  { State.reset with nextId := 10, cur := 2, launches := [(0, probeLaunch)], crews := [(1, aCrew)], groups := [(2, aGroup)],
                     ctxs := [(0, { Ctx.reset with ptroot := 0x100000, fqbase := 0x9000 })], mem := tables leafBits }

/-- COLD, in band 0. -/
def coldCryo : Cryo := { Cryo.reset with st := 4, band := 0, wantBand := 0 }

/-- `st` with another group. -/
def stG (g : Group) : State := { st with groups := [(2, g)] }

/-- What the group is after a step. -/
def after (o : Out) (f : State → Group → Bool) : Bool :=
  match o with
  | .next t => (t.group? 2).any (f t)
  | _ => false

/-- What the state is after a step. -/
def next (o : Out) (f : State → Bool) : Bool :=
  match o with
  | .next t => f t
  | _ => false

theorem issuing_of {s : State} {g : Group} (h : s.group? s.cur = some g ∧ g.vPoison = [] ∧ g.sPoison = [] ∧ g.mPoison = []) (p : g.pair = none := by rfl) :
    Issuing s g :=
  ⟨h.1, h.2.1, h.2.2.1, h.2.2.2, by simp [Group.srcV, p, h.2.1], by simp [Group.srcS, p, h.2.2.1], by simp [Group.srcM, p, h.2.2.2]⟩

/-- The group of `st` issues. -/
theorem meets_Issuing : Issuing st aGroup := issuing_of ⟨by decide +kernel, rfl, rfl, rfl⟩

/-- So does a group without poison in `stG`. -/
theorem issuing_stG (g : Group) (h : g.vPoison = [] ∧ g.sPoison = [] ∧ g.mPoison = []) (p : g.pair = none := by rfl) : Issuing (stG g) g :=
  issuing_of ⟨rfl, h⟩ p

/-- A store of the group to 0x2000, in flight. -/
def aReq : Req :=
  { gid := 2, crew := 1, core := 0, ctx := 0, op := 5, lane := 0, kind := .store, sp := .g, va := 0x2000, pa := 0x2000, tgt := 0, width := 4,
    colour := 0, tracked := false, frozen := false, sup := false, far := false, data := 0x01020304, cmp := 0, dPoison := 0, aop := .add,
    ty := .n32, ord := .relaxed, scope := .cr, dst := .none, sent := true, forwarded := false, aseq := 0, performed := false, val := 0,
    vPoison := 0 }

/-- Its operation. -/
def anOp : Op := { gid := 2, pc := 0, ctrs := [.sc], left := 1, gone := none, precise := false, acq := none, cls := 0, hits := true, sup := false }

/-- `s` with a request in flight. -/
def withReq (s : State) (q : Req) (o : Op) : State := { s with reqs := [(6, q)], ops := [(5, o)] }

/-- A queue with room, whose place translates, in no frozen granule. -/
theorem ringReady_of {s : State} (h : 1 ≤ fqRoom (s.ctx 0) ∧ (s.ctx 0).fqtail < fqSize (s.ctx 0) ∧
    xlateWalk s 0 ((s.ctx 0).fqbase + BitVec.ofNat 64 (32 * (s.ctx 0).fqtail)) true .write true = .ok ⟨0x9000, 0, false, false⟩ ∧
    ∀ i, i < 32 → inWindow s.lnkid (0x9000 + i) = false ∧ granuleFrozen s (0x9000 + i) = false) : RingReady s 0 0x9000 :=
  ⟨h.1, h.2.1, ⟨_, h.2.2.1, rfl⟩, h.2.2.2⟩
/-! ## Ill-formed terms, one for each check of WellFormed -/

theorem test_wf_scalar : (Instr.sadd ⟨0, .reg 1, .imm 1, .reg 2, .i64⟩).wf = false ∧ (Instr.sadd ⟨0, .reg 1, .reg 1, .reg 2, .i32⟩).wf = false ∧
    (Instr.smad ⟨0, .reg 1, .reg 1, .reg 2, .imm 1, .i64⟩).wf = false ∧ (Instr.smov ⟨0, .reg 1, .imm 1, .i64⟩).wf = false ∧
    (Instr.scmp ⟨0, .reg 1, .reg 1, .reg 2, .i64⟩ .un).wf = false ∧ (Instr.sli 0 (.reg 1) .n32 0).wf = false := by decide
theorem test_wf_vector : (Instr.add ⟨0, .reg 1, .reg 2, .reg 4, .n64⟩).wf = false ∧ (Instr.add ⟨0, .reg 2, .reg 1, .reg 4, .n64⟩).wf = false ∧
    (Instr.add ⟨0, .reg 2, .reg 2, .port 1, .n64⟩).wf = false ∧ (Instr.add ⟨0, .dash, .reg 2, .port 1, .n32⟩).wf = false ∧
    (Instr.add ⟨0, .reg 2, .reg 2, .reg 4, .f32⟩).wf = false ∧ (Instr.mulhi ⟨0, .reg 2, .reg 2, .reg 4, .n64⟩).wf = false ∧
    (Instr.abs ⟨0, .reg 2, .reg 2, .n32⟩).wf = false ∧ (Instr.mad ⟨0, .reg 2, .reg 2, .reg 4, .reg 5, .n64⟩).wf = false ∧
    (Instr.movi 0 (.port 1) .n32 0).wf = false ∧ (Instr.movs 0 (.reg 1) (.imm 0) .n32).wf = false := by decide
theorem test_wf_float : (Instr.fadd ⟨0, .reg 2, .reg 2, .reg 4, .f8a, .rne⟩).wf = false ∧ (Instr.frcp ⟨0, .reg 2, .reg 2, .f16, .rne⟩).wf = false ∧
    (Instr.ffma ⟨0, .dash, .reg 2, .reg 4, .port 0, .f32, .rne⟩).wf = false ∧ (Instr.fclass ⟨0, .reg 2, .reg 2, .n32⟩).wf = false ∧
    (Instr.fcmp ⟨0, .reg 0, .reg 1, .reg 2, .f32, .lt⟩).wf = false := by decide
theorem test_wf_compare : (Instr.cmp ⟨0, .reg 0, .reg 1, .reg 2, .n32, .lt⟩).wf = false ∧ (Instr.cmp ⟨0, .reg 1, .reg 1, .reg 2, .b32, .lt⟩).wf = false ∧
    (Instr.cmp ⟨0, .reg 1, .reg 1, .reg 2, .n32, .ord⟩).wf = false := by decide
theorem test_wf_lanes : (Instr.cvt 0 (.reg 1) (.reg 2) .q4n .f32 .rne).wf = false ∧ (Instr.pack2 ⟨0, .reg 1, .reg 2, .reg 3, .n32⟩).wf = false ∧
    (Instr.unpk2 ⟨0, .reg 1, .reg 2, .n16⟩).wf = false ∧ (Instr.shfl 0 (.reg 1) (.reg 2) .n32 .rev 7).wf = false ∧
    (Instr.vote 0 (.some (.reg 0)) (.reg 1)).wf = false ∧ (Instr.matchv 0 (.mask (.reg 1)) (.reg 2) .n32).wf = false ∧
    (Instr.redux 0 .min (.reg 1) (.reg 2) .b32).wf = false ∧ (Instr.vscan 0 .argmin false (.reg 1) (.reg 2) .n32).wf = false := by decide
theorem test_wf_gets : (Instr.gets 0 (.s (.reg 1)) 0).wf = false ∧ (Instr.gets 0 (.v (.reg 1)) 2).wf = false ∧ (Instr.gets 0 (.s (.reg 1)) 20).wf = false := by
  decide
theorem test_wf_memory : (Instr.ld 0 1 ⟨.g, .reg 1, none, 0⟩ .n64).wf = false ∧ (Instr.ld 0 2 ⟨.g, .imm 1, none, 0⟩ .n32).wf = false ∧
    (Instr.ld 0 2 ⟨.g, .reg 1, some (.port 0), 0⟩ .n32).wf = false ∧ (Instr.st 0 ⟨.g, .reg 1, none, 0⟩ (.reg 3) .n64).wf = false ∧
    (Instr.st 0 ⟨.g, .reg 1, none, 0⟩ (.reg 3) .f32).wf = false ∧ (Instr.pref 0 ⟨.l, .reg 1, none, 0⟩ .n32).wf = false := by decide
theorem test_wf_atomic : (Instr.atom 0 1 ⟨.g, .reg 1, none, 0, .cas, .relaxed, .dv, .n32⟩ (.reg 3)).wf = false ∧
    (Instr.atom 0 1 ⟨.l, .reg 1, none, 0, .add, .relaxed, .dv, .n32⟩ (.reg 2)).wf = false ∧
    (Instr.red 0 ⟨.g, .reg 1, none, 0, .exch, .relaxed, .dv, .n32⟩ (.reg 2)).wf = false ∧
    (Instr.red 0 ⟨.g, .reg 1, none, 0, .add, .acq, .dv, .n32⟩ (.reg 2)).wf = false ∧
    (Instr.redFar 0 ⟨.p, .reg 1, none, 0, .add, .relaxed, .dv, .n32⟩ (.reg 2)).wf = false ∧
    (Instr.atom 0 1 ⟨.g, .reg 1, none, 0, .cas, .relaxed, .dv, .n32⟩ (.latch .b0)).wf = false := by decide
theorem test_wf_sync : (Instr.bar 0 0).wf = false ∧ (Instr.bar 0 33).wf = false ∧ (Instr.paint 0 (.reg 1) (.reg 2) 0).wf = false ∧
    (Instr.mwait 0 0).wf = false ∧ (Instr.spawn 0 (.reg 1) (.reg 6)).wf = false ∧ (Instr.fput 0 (.reg 1) (.imm 0)).wf = false := by decide
theorem test_wf_matrix : (Instr.mma ⟨0, 0, .reg 1, .reg 2, .reg 3, .f16, .bf16, 0, 0, 0, false, false, false⟩).wf = false ∧
    (Instr.mma ⟨0, 0, .reg 1, .reg 2, .reg 3, .f16, .f16, 3, 0, 0, false, false, false⟩).wf = false ∧
    (Instr.mma ⟨0, 0, .reg 1, .reg 2, .reg 3, .q4n, .f16, 0, 0, 1, false, false, false⟩).wf = false ∧ (Instr.acczPair 0 1).wf = false ∧
    (Instr.accld 0 1 (.reg 1) (.reg 2) .f32 3 0).wf = false ∧ (Instr.sacc 0 0 1 (.reg 1) (.reg 2) .f16 0 0 false).wf = false ∧
    (Instr.accst 0 (.reg 1) (.reg 2) 0 .n32 0 0).wf = false := by decide
theorem test_wf_system : (Instr.srd 0 (.reg 1) 0x030).wf = false ∧ (Instr.swr 0 (.imm 1) 0x000).wf = false ∧ (Instr.idle 0).wf = false ∧
    Instr.coldReset.wf = false := by decide

/-! ## Words written out from the encodings (R155 to R161, R170, R182 to R274)

Field by field from bit 95 down: OPC, GRD, DST, NWB, SA, SELA, SB, SELB, SC, SELC, TYP, MOD, IMM. -/

/-- Each word decodes to its instruction. -/
def reads (l : List (Nat × Instr)) : Bool :=
  l.all (fun p => match decode 512 64 (BitVec.ofNat 96 p.1) with
    | .ok i => decide (i = p.2)
    | .error _ => false)

theorem test_decode_control : reads [
    (0x004000000000000000000000, .nop),
    (0x0088000000000000FFFFFFC3, .bra 2 0xFFFFFFC3),
    (0x00C00000000000000000000B, .call 0 0x0B),
    (0x013C00000000000000000000, .ret 15),
    (0x014400000000000000000000, .exit 1),
    (0x018C0000000000000000ABCD, .trap 3 0xABCD),
    (0x01C000004000000000000008, .ifm (.latch .b1) 8),
    (0x020000000000000000000011, .elsem 0x11),
    (0x024000000000000000000000, .endif),
    (0x02800000000000000000001A, .loop 0x1A),
    (0x02D000000000000000000004, .brk 4 4),
    (0x031400000000000000000009, .cont 5 9),
    (0x0340000000000000FFFFFFF8, .endloop 0xFFFFFFF8),
    (0x039800000000000000000000, .trigger 6),
    (0x03C412000000000000000012, .gets 1 (.s (.reg 9)) 18)] = true := by decide +kernel
theorem test_decode_scalar : reads [
    (0x2000780190000038FFFFFFFB, .sadd ⟨0, .reg 60, .reg 3, .imm 0xFFFFFFFB, .i64⟩),
    (0x20447A0190000038FFFFFFFB, .ssub ⟨1, .reg 61, .reg 3, .imm 0xFFFFFFFB, .i64⟩),
    (0x20887C0190000038FFFFFFFB, .smul ⟨2, .reg 62, .reg 3, .imm 0xFFFFFFFB, .i64⟩),
    (0x20C0020100307E1800000000, .smad ⟨0, .reg 1, .reg 2, .reg 3, .reg 63, .n64⟩),
    (0x210001002280001800000000, .smulhi ⟨0, .dash, .latch .b0, .reg 40, .n64⟩),
    (0x214001002280001800000000, .smin ⟨0, .dash, .latch .b0, .reg 40, .n64⟩),
    (0x218001002280001800000000, .smax ⟨0, .dash, .latch .b0, .reg 40, .n64⟩),
    (0x21C001002280001800000000, .sand ⟨0, .dash, .latch .b0, .reg 40, .n64⟩),
    (0x220001002280001800000000, .sor ⟨0, .dash, .latch .b0, .reg 40, .n64⟩),
    (0x224001002280001800000000, .sxor ⟨0, .dash, .latch .b0, .reg 40, .n64⟩),
    (0x228001002280001800000000, .sshl ⟨0, .dash, .latch .b0, .reg 40, .n64⟩),
    (0x22C001002280001800000000, .sshr ⟨0, .dash, .latch .b0, .reg 40, .n64⟩),
    (0x230001002280001800000000, .ssar ⟨0, .dash, .latch .b0, .reg 40, .n64⟩),
    (0x244001002280001800000000, .sbfe ⟨0, .dash, .latch .b0, .reg 40, .n64⟩),
    (0x23400A03000C003D00000000, .scmp ⟨0, .reg 5, .reg 6, .latch .b2, .i64⟩ .ge),
    (0x23800A031000013800000007, .ssel ⟨0, .reg 5, .reg 6, .imm 7, .latch .b1, .i64⟩),
    (0x23C042100000003800000000, .smov ⟨0, .reg 33, .reg 32, .i64⟩),
    (0x248042100000003800000000, .spopc ⟨0, .reg 33, .reg 32, .i64⟩),
    (0x24C042100000003800000000, .sclz ⟨0, .reg 33, .reg 32, .i64⟩),
    (0x240004000000001880000000, .sli 0 (.reg 2) .n64 0x80000000),
    (0x240004000000003900000040, .sliPc 0 (.reg 2) 0x40)] = true := by decide +kernel
theorem test_decode_integer : reads [
    (0x401FE8FA9FF0001000000000, .add ⟨7, .reg 500, .reg 501, .reg 511, .n32⟩),
    (0x405FE8FA9FF0001000000000, .sub ⟨7, .reg 500, .reg 501, .reg 511, .n32⟩),
    (0x409FE8FA9FF0001000000000, .mul ⟨7, .reg 500, .reg 501, .reg 511, .n32⟩),
    (0x40C002010030003000000000, .mulhi ⟨0, .reg 1, .reg 2, .reg 3, .i32⟩),
    (0x410004020060104800000000, .mad ⟨0, .reg 2, .reg 4, .reg 6, .reg 8, .b64⟩),
    (0x414001002008003800000000, .min ⟨0, .dash, .latch .b0, .latch .b1, .i64⟩),
    (0x418001002008003800000000, .max ⟨0, .dash, .latch .b0, .latch .b1, .i64⟩),
    (0x41C002010000003000000000, .abs ⟨0, .reg 1, .reg 2, .i32⟩),
    (0x42000601000000400000000C, .neg ⟨0, .port 3, .port 2, .b32⟩),
    (0x424002018020004000000002, .and ⟨0, .reg 1, .reg 3, .port 2, .b32⟩),
    (0x428002018020004000000002, .or ⟨0, .reg 1, .reg 3, .port 2, .b32⟩),
    (0x42C002018020004000000002, .xor ⟨0, .reg 1, .reg 3, .port 2, .b32⟩),
    (0x430002010000001000000000, .not ⟨0, .reg 1, .reg 2, .n32⟩),
    (0x434004020050003800000000, .shl ⟨0, .reg 2, .reg 4, .reg 5, .i64⟩),
    (0x438004020050003800000000, .shr ⟨0, .reg 2, .reg 4, .reg 5, .i64⟩),
    (0x43C004020050003800000000, .sar ⟨0, .reg 2, .reg 4, .reg 5, .i64⟩),
    (0x440002010030004000000000, .rot ⟨0, .reg 1, .reg 2, .reg 3, .b32⟩),
    (0x444002010030003000000000, .bfe ⟨0, .reg 1, .reg 2, .reg 3, .i32⟩),
    (0x448002010030081000000000, .bfi ⟨0, .reg 1, .reg 2, .reg 3, .reg 4, .n32⟩),
    (0x44C002010000001000000000, .popc ⟨0, .reg 1, .reg 2, .n32⟩),
    (0x450002010000001000000000, .clz ⟨0, .reg 1, .reg 2, .n32⟩),
    (0x454002010000001000000000, .brev ⟨0, .reg 1, .reg 2, .n32⟩),
    (0x45801E010030004100000000, .cmp ⟨0, .reg 15, .reg 2, .reg 3, .b32, .ne⟩),
    (0x45C0020100301C1000000000, .sel ⟨0, .reg 1, .reg 2, .reg 3, .n32⟩ (.reg 14)),
    (0x460004020000001800000000, .mov ⟨0, .reg 2, .reg 4, .n64⟩),
    (0x4640040000000038FFFFFFFE, .movi 0 (.reg 2) .i64 0xFFFFFFFE),
    (0x4680041F8000001800000000, .movs 0 (.reg 2) (.reg 63) .n64)] = true := by decide +kernel
theorem test_decode_float : reads [
    (0x600002010030005100000000, .fadd ⟨0, .reg 1, .reg 2, .reg 3, .f16, .rtz⟩),
    (0x604002010030005200000000, .fsub ⟨0, .reg 1, .reg 2, .reg 3, .f16, .rup⟩),
    (0x608002010030005300000000, .fmul ⟨0, .reg 1, .reg 2, .reg 3, .f16, .rdn⟩),
    (0x60C002010030085C00000000, .ffma ⟨0, .reg 1, .reg 2, .reg 3, .reg 4, .bf16, .rto⟩),
    (0x610002010030006000000000, .fmin ⟨0, .reg 1, .reg 2, .reg 3, .f32⟩),
    (0x614002010030006000000000, .fmax ⟨0, .reg 1, .reg 2, .reg 3, .f32⟩),
    (0x618004010030006700000000, .fcmp ⟨0, .reg 2, .reg 2, .reg 3, .f32, .ord⟩),
    (0x61C002010000007000000000, .fclass ⟨0, .reg 1, .reg 2, .f8b⟩),
    (0x620002010000005A00000000, .fround ⟨0, .reg 1, .reg 2, .bf16, .rup⟩),
    (0x624002010000006000000000, .frcp ⟨0, .reg 1, .reg 2, .f32, .rne⟩),
    (0x628002010000006000000000, .frsq ⟨0, .reg 1, .reg 2, .f32, .rne⟩),
    (0x62C002010000006000000000, .fsqrt ⟨0, .reg 1, .reg 2, .f32, .rne⟩),
    (0x630002010000006000000000, .fex2 ⟨0, .reg 1, .reg 2, .f32, .rne⟩),
    (0x634002010000006000000000, .flg2 ⟨0, .reg 1, .reg 2, .f32, .rne⟩),
    (0x638002010000006000000000, .fsin ⟨0, .reg 1, .reg 2, .f32, .rne⟩),
    (0x63C002010000006000000000, .fcos ⟨0, .reg 1, .reg 2, .f32, .rne⟩)] = true := by decide +kernel
theorem test_decode_crosslane : reads [
    (0x80000401800000190000000D, .cvt 0 (.reg 2) (.reg 3) .n64 .f8a .rtz),
    (0x804002010030000000000000, .pack2 ⟨0, .reg 1, .reg 2, .reg 3, .n8⟩),
    (0x808004018000002800000000, .unpk2 ⟨0, .reg 2, .reg 3, .i16⟩),
    (0x820002010030004000000300, .shfl 0 (.reg 1) (.reg 2) .b32 (.pick (.reg 3)) 3),
    (0x820002010000006300000021, .shfl 0 (.reg 1) (.reg 2) .f32 (.flip 33) 0),
    (0x824012010000004500000000, .vote 0 (.first (.reg 9)) (.reg 2)),
    (0x824012010000004200000000, .vote 0 (.none (.reg 9)) (.reg 2)),
    (0x828008010000001800000000, .matchv 0 (.mask (.reg 4)) (.reg 2) .n64),
    (0x828008018000001100000000, .matchv 0 (.lead (.reg 4)) (.reg 3) .n32),
    (0x82C008018000006700000000, .redux 0 .argmax (.reg 4) (.reg 3) .f32),
    (0x830008018000004500000001, .vscan 0 .xor true (.reg 4) (.reg 3) .b32)] = true := by decide +kernel
theorem test_decode_memory : reads [
    (0xA0000C020090001CFFFFFFF0, .ld 0 6 ⟨.g, .reg 4, some (.reg 9), 0xFFFFFFF0⟩ .n64),
    (0xA04000020000120100000000, .st 0 ⟨.l, .reg 4, none, 0⟩ (.reg 9) .n8),
    (0xA0800E020000002A00000002, .sld 0 7 .p (.reg 4) 2 .i16),
    (0xA0C000020000101100000004, .sst 0 .l (.reg 4) 4 (.reg 8) .n32),
    (0xA10000020000001000000000, .pref 0 ⟨.g, .reg 4, none, 0⟩ .n32),
    (0xA1400402000010187E7FFFF8, .atom 0 2 ⟨.g, .reg 4, none, 0x7FFFF8, .cas, .ar, .sy, .n64⟩ (.reg 8)),
    (0xA18000020000106208000000, .red 0 ⟨.p, .reg 4, none, 0, .add, .rel, .cr, .f32⟩ (.reg 8)),
    (0xA18000020000103021800000, .redFar 0 ⟨.g, .reg 4, none, 0, .max, .relaxed, .dv, .i32⟩ (.reg 8)),
    (0xA1C0000000000000000002FF, .waitc .cc 255)] = true := by decide +kernel
theorem test_decode_sync : reads [
    (0xC0000000000000000000200F, .bar 15 32),
    (0xC04008028000000000000000, .arrive 4 (.reg 5)),
    (0xC08008029000000000000040, .arrivex 4 (.reg 5) (.imm 64)),
    (0xC0C000028004000000000000, .bwait (.reg 5) (.latch .b0)),
    (0xC10000028060000000000FFF, .paint 0 (.reg 5) (.reg 6) 0xFFF),
    (0xC14000028060000000000000, .unpaint 0 (.reg 5) (.reg 6)),
    (0xC18400000000000000000001, .mwait 1 1),
    (0xC1C400000000000000000001, .mnotify 1 1),
    (0xC20400000000000000000001, .mnotifyall 1 1),
    (0xC2400800000000000000000F, .mheld 0 4 15),
    (0xC28000028060000000000000, .freeze 0 (.reg 5) (.reg 6)),
    (0xC2C000028060000000000000, .thaw 0 (.reg 5) (.reg 6)),
    (0xC30008028000000000000000, .frzq 0 4 (.reg 5)),
    (0xC40000029FC0000000000000, .spawn 0 (.reg 5) (.reg 508)),
    (0xC44000028000000000000000, .binflush 0 (.reg 5)),
    (0xC48008028000000000000000, .fget 0 4 (.reg 5)),
    (0xC4C000028060000000000000, .fput 0 (.reg 5) (.reg 6)),
    (0xC50008028000000000000000, .launch 0 4 (.reg 5)),
    (0xC54008028000000000000000, .retake 0 4 (.reg 5)),
    (0xC58008000000000000000003, .rdcnt 0 4 3)] = true := by decide +kernel
theorem test_decode_matrix_system : reads [
    (0xE0001E008020066D00000E26, .mma ⟨0, 15, .reg 1, .reg 2, .reg 3, .f8a, .f8b, 2, 1, 2, true, false, true⟩),
    (0xE0401E008020066D00000E26, .mmas ⟨0, 15, .reg 1, .reg 2, .reg 3, .f8a, .f8b, 2, 1, 2, true, false, true⟩),
    (0xE0801E008020066D00000E26, .mmaq ⟨0, 15, .reg 1, .reg 2, .reg 3, .f8a, .f8b, 2, 1, 2, true, false, true⟩),
    (0xE0C002010030083100000006, .sacc 0 1 2 (.reg 3) (.reg 4) .i32 2 1 true),
    (0xE10006000000000000000000, .accz 0 3),
    (0xE10008000000000000000001, .acczPair 0 4),
    (0xE1400800802000600000000B, .accld 0 4 (.reg 1) (.reg 2) .f32 3 2),
    (0xE180000080200C5800000007, .accst 0 (.reg 1) (.reg 2) 6 .bf16 3 1),
    (0xE1C000008000000000000000, .accdrain 0 (.reg 1)),
    (0xE20000008000000000000000, .accfill 0 (.reg 1)),
    (0xE24000000000000000000000, .xbatch),
    (0xE280000000000000000000FF, .xwait 255),
    (0xE2C000000000000000000000, .opready),
    (0xE30000008020000000000000, .copy 0 (.reg 1) (.reg 2)),
    (0xE30000008020060000000001, .copyBar 0 (.reg 1) (.reg 2) (.reg 3)),
    (0xE3400000802000000000000F, .xcopy 0 (.reg 1) (.reg 2) 15),
    (0xE4000A000000000000000185, .srd 0 (.reg 5) 0x185),
    (0xE44000028000000000000050, .swr 0 (.reg 5) 0x050),
    (0xE48000000000000000000000, .eret),
    (0xE4C000028060000000000000, .tlbinv (.reg 5) (.reg 6)),
    (0xE5000000000000000000FFFF, .idle 65535),
    (0xE54000000000000000000000, .halt)] = true := by decide +kernel
/-- Words worked in spec/ (R198, R202, R220, R234, R268). -/
theorem test_decode_worked : reads [
    (0x80000600200000680000000B, .cvt 0 (.reg 3) (.latch .b0) .f8a .bf16 .rne),
    (0xA080180A0000001200000000, .sld 0 12 .p (.reg 20) 0 .n32),
    (0x82000C01800000410000003F, .shfl 0 (.reg 6) (.reg 3) .b32 (.rot 63) 0),
    (0xE440000400000000000000D8, .swr 0 (.reg 8) 0x0D8),
    (0xC5801A000000000000000001, .rdcnt 0 13 1)] = true := by decide +kernel
/-! ## Scalar, vector and float instructions: every row completes for the group of the tests (ScalarResults … ReductionResults) -/

/-- Every scalar instruction: well formed, its row, its sources readable. -/
theorem meets_ScalarResults : let o : SOp2 := ⟨0, .reg 4, .reg 1, .imm 64, .i64⟩; let o1 : SOp1 := ⟨1, .reg 4, .reg 3, .n64⟩
    let o3 : SOp3 := ⟨0, .dash, .reg 1, .reg 2, .reg 3, .n64⟩
    ([.sadd o, .ssub o, .smul o, .smad o3, .smulhi o, .smin o, .smax o, .sand o, .sor o, .sxor o, .sshl o, .sshr o, .ssar o, .scmp o .ge, .ssel o3,
      .smov o1, .sli 0 (.reg 4) .n64 7, .sliPc 0 (.reg 4) 7, .sbfe o, .spopc o1, .sclz o1] : List Instr).all
      (fun i => i.wf && (scalarRow aGroup i).any (fun r => r.srcs.all aGroup.sOk)) = true := by decide +kernel

/-- Every integer vector instruction. -/
theorem meets_VectorIntegerResults : let o : VOp2 := ⟨0, .reg 6, .reg 1, .reg 2, .i32⟩; let w : VOp2 := ⟨1, .reg 6, .reg 4, .reg 4, .i64⟩
    let o1 : VOp1 := ⟨0, .reg 6, .reg 1, .i32⟩; let o3 : VOp3 := ⟨0, .dash, .reg 1, .reg 2, .reg 4, .i32⟩
    ([.add o, .sub w, .mul o, .mulhi o, .mad o3, .min o, .max w, .abs o1, .neg o1, .and o, .or w, .xor o, .not o1, .shl o, .shr w, .sar o, .rot o, .bfe o,
      .bfi o3, .popc o1, .clz o1, .brev o1, .sel o (.reg 1), .mov o1, .movi 0 (.reg 6) .i64 7, .movs 0 (.reg 6) (.reg 1) .n32] : List Instr).all
      (fun i => i.wf && (intRow aGroup i).any (fun r => r.plain aGroup)) = true := by decide +kernel

/-- Every float instruction that rounds. -/
theorem meets_FloatResults : let o : FOp2 := ⟨0, .reg 6, .reg 1, .reg 2, .f16, .rto⟩; let o1 : FOp1 := ⟨1, .reg 6, .reg 1, .f32, .rdn⟩
    let o3 : FOp3 := ⟨0, .dash, .reg 1, .reg 2, .reg 4, .bf16, .rne⟩
    ([.fadd o, .fsub o, .fmul o, .ffma o3, .frcp o1, .frsq o1, .fsqrt o1, .fex2 o1, .flg2 o1, .fsin o1, .fcos o1] : List Instr).all
      (fun i => i.wf && (floatRow aGroup i).any (fun r =>
        VRow.plain ⟨r.g, r.d, r.vs.map (fun v => (v, false)), [], [], false, fun _ => 0⟩ aGroup)) = true := by decide +kernel

/-- A finite value of each float format, one NaN and, but for f8a, one infinity. -/
theorem meets_RoundTo : ([.f32, .f16, .bf16, .f8a, .f8b] : List Fmt).all (fun t => isFloatFmt t && !isNaNOf t 1 && !isInfOf t 1 &&
    isNaNOf t (topMag t + if t = .f8a then 0 else 1) && (t == .f8a || isInfOf t (topMag t))) = true := by decide +kernel

/-- 1 and -1 in f32. -/
theorem meets_RootsAndSpecials : [0x3F800000, 0xBF800000].all (fun c => !isNaNOf .f32 c && !isInfOf .f32 c && magOf .f32 c != 0) = true ∧
    signOf .f32 0x3F800000 = false ∧ signOf .f32 0xBF800000 = true := by decide +kernel

/-- `fmin`, `fmax`, `fclass`, `pack2`, `unpk2`. -/
theorem meets_FloatBitResults : let o : VOp2 := ⟨0, .reg 6, .reg 1, .reg 2, .f32⟩; let o1 : VOp1 := ⟨1, .reg 6, .reg 1, .bf16⟩
    ([.fmin o, .fmax o, .fclass o1, .pack2 { o with ty := .b32 }, .unpk2 o1] : List Instr).all
      (fun i => i.wf && (bitRow aGroup i).any (fun r => r.plain aGroup)) = true := by decide +kernel

/-- `cmp` and `fcmp`. -/
theorem meets_CompareResults : let o : CmpOp := ⟨0, .reg 2, .reg 1, .reg 2, .n32, .lt⟩; let f : CmpOp := ⟨1, .dash, .reg 1, .reg 2, .f32, .ord⟩
    (Instr.cmp o).wf = true ∧ (Instr.fcmp f).wf = true ∧ [o, f].all (fun o => !o.a.isPort && !o.b.isPort &&
      aGroup.vOk (o.a, o.ty.wide) && aGroup.vOk (o.b, o.ty.wide)) = true := by decide +kernel

/-- `fround` and `cvt`. -/
theorem meets_ConversionResults : let o : FOp1 := ⟨0, .reg 6, .reg 1, .f16, .rtz⟩
    (Instr.fround o).wf = true ∧ VRow.plain ⟨o.g, o.d, [(o.a, false)], [], [], false, fun _ => 0⟩ aGroup = true ∧
    ([(.f8a, .f32), (.i16, .bf16), (.f32, .q4n), (.n64, .i8), (.f16, .n32)] : List (Fmt × Fmt)).all (fun p =>
      (Instr.cvt 0 (.reg 6) (.reg 4) p.1 p.2 .rne).wf && aGroup.vOk (.reg 4, p.2.wide)) = true := by decide +kernel

/-- `shfl` in each mode, `vote` in each form, `match` in each mode. -/
theorem meets_LaneExchangeResults :
    ([.pick (.reg 2), .rot 63, .rev, .flip 3, .one 1, .zip, .unzip] : List ShflMode).all (fun m => (Instr.shfl 0 (.reg 6) (.reg 1) .n32 m 2).wf) = true ∧
    aGroup.vOk (.reg 1, false) = true ∧ aGroup.vOk (.reg 2, false) = true ∧ aGroup.mOk (.reg 1) = true ∧
    ([.some (.reg 2), .every (.reg 2), .none .dash, .bits (.reg 4), .count (.reg 4), .first (.reg 4)] : List VoteOp).all
      (fun o => (Instr.vote 0 o (.reg 1)).wf) = true ∧
    ([.mask (.reg 6), .lead (.reg 2), .cnt (.reg 6)] : List MatchOp).all (fun o => (Instr.matchv 0 o (.reg 1) .n32).wf) = true := by decide +kernel

/-- `redux` in each operation, on a mask that is not empty, and `vscan`. -/
theorem meets_ReductionResults : aGroup.eff 1 ≠ 0 ∧ aGroup.vOk (.reg 1, false) = true ∧
    ([.add, .min, .max, .and, .or, .xor, .argmin, .argmax] : List RedOp).all (fun o => (Instr.redux 1 o (.reg 4) (.reg 1) .i32).wf) = true ∧
    ([.add, .min, .max, .and, .or, .xor] : List RedOp).all (fun o => (Instr.vscan 1 o true (.reg 6) (.reg 1) .i32).wf) = true := by decide +kernel

/-- A well-formed instruction; a word that decodes. -/
theorem meets_DecodeOfEncode : (Instr.add ⟨0, .reg 511, .reg 0, .latch .b2, .n32⟩).wf = true ∧ decode 512 64 (BitVec.ofNat 96 (2 ^ 86)) = .ok .nop := by
  decide +kernel

/-- The step from the small state answers a next state, and its memory and scratchpads are canonical. -/
theorem meets_MemoryFormKept : Memory.wf st.mem = true ∧ (∀ e ∈ st.crews, Memory.wf e.2.scratch = true) ∧
    next (step { st with issueNow := [2] }) (fun _ => true) = true := by decide +kernel

/-- A group whose slot 0 holds `nop`, and one whose slot holds no instruction. -/
theorem meets_StepOfDecoded (w : Nat) (h : w = 2 ^ 86 ∨ w = 0) :
    Next { stG { aGroup with line := probeLine w } with issueNow := [2] } 2 [] { aGroup with line := probeLine w } := by
  rcases h with h | h <;> subst h <;> exact ⟨rfl, rfl, by decide +kernel, rfl⟩

theorem meets_StepOfDecoded_words : decode aGroup.nregs aGroup.w (slotWord (probeLine (2 ^ 86)) (pcSlot aGroup.pc)) = .ok .nop ∧
    decode aGroup.nregs aGroup.w (slotWord (probeLine 0) (pcSlot aGroup.pc)) = .error 1 := by decide +kernel

/-- An agenda with an event at its head; neither an agenda nor a group to issue. -/
theorem meets_StepTakesEvents : ({ st with agenda := [.warmReset] } : State).agenda = .warmReset :: [] ∧ Instr.warmReset.isEvent = true ∧
    ({ st with agenda := [.warmReset] } : State).issueNow = [] ∧ st.agenda = [] ∧ st.issueNow = [] := by decide +kernel
/-! ## Control instructions (StructuredControl … SpecialValues) -/

/-- The word of `loop` with its target, and one with a guard. -/
theorem meets_StructuredWords : (Fields.ofWord (BitVec.ofNat 96 0x28000000000000000000028)) = { Fields.op 0x00A with imm := 0x28 } ∧
    decode 512 64 (BitVec.ofNat 96 0x28000000000000000000028) = .ok (.loop 0x28) ∧
    (Fields.ofWord (BitVec.ofNat 96 0x28400000000000000000000)).opc = 0x00A ∧ (Fields.ofWord (BitVec.ofNat 96 0x28400000000000000000000)).grd ≠ 0 := by decide +kernel

/-- Mask-stack entries of the four kinds. -/
def ent (k : MKind) : MaskEntry := ⟨k, 0xFF, 0⟩

/-- The group with a mask stack. -/
def stk (l : List MaskEntry) : Group := { aGroup with stack := l }

theorem meets_if : Issuing (stG (stk (List.replicate 32 (ent .ifK)))) (stk (List.replicate 32 (ent .ifK))) ∧
    (stk (List.replicate 32 (ent .ifK))).stack.length = 32 ∧ Issuing (stG (stk (List.replicate 31 (ent .ifK)))) (stk (List.replicate 31 (ent .ifK))) ∧
    (stk (List.replicate 31 (ent .ifK))).stack.length < 32 ∧ aGroup.mOk (.reg 1) = true ∧
    aGroup.active &&& aGroup.mval (.reg 1) ≠ 0 ∧ aGroup.active &&& aGroup.mval (.reg 2) = 0 :=
  ⟨issuing_stG _ ⟨rfl, rfl, rfl⟩, rfl, issuing_stG _ ⟨rfl, rfl, rfl⟩, by decide +kernel⟩

theorem meets_else_endif : callers (stk [ent .ifK]) < (stk [ent .ifK]).stack.length ∧
    (ent .ifK).mask &&& ~~~(stk [ent .ifK]).active &&& (stk [ent .ifK]).live = 0 ∧
    (ent .ifK).mask &&& ~~~({ stk [ent .ifK] with active := 1 } : Group).active &&& (stk [ent .ifK]).live ≠ 0 ∧
    (ent .exitK).kind ≠ .ifK ∧ (ent .exitK).kind ≠ .elseK ∧ (stk []).stack = [] ∧
    ({ stk [ent .ifK] with frames := [⟨0, 1, 0xF, 0, false⟩] } : Group).stack.length ≤
      callers { stk [ent .ifK] with frames := [⟨0, 1, 0xF, 0, false⟩] } := by decide +kernel

theorem meets_loop : 30 < (stk (List.replicate 31 (ent .ifK))).stack.length ∧ (stk (List.replicate 30 (ent .ifK))).stack.length ≤ 30 ∧
    aGroup.active ≠ 0 ∧ ({ aGroup with active := 0 } : Group).active = 0 := by decide +kernel

theorem meets_endloop : callers (stk [ent .iterK, ent .exitK]) + 1 < (stk [ent .iterK, ent .exitK]).stack.length ∧
    (ent .iterK).mask &&& aGroup.live ≠ 0 ∧ ({ ent .iterK with mask := 0 } : MaskEntry).mask &&& aGroup.live = 0 ∧
    (stk [ent .ifK, ent .exitK]).stack.head? = some (ent .ifK) ∧ (stk [ent .iterK]).stack = [ent .iterK] := by decide +kernel

/-- `break` under an `if` inside the loop, directly inside it, and outside any loop. -/
theorem meets_break : let g := stk [ent .ifK, ent .iterK, ent .exitK]
    (g.stack[1]? = some (ent .iterK) ∧ (ent .iterK).kind = .iterK ∧ 1 + callers g < g.stack.length ∧
      (∀ j x, j < 1 → g.stack[j]? = some x → x.kind ≠ .iterK)) ∧
    ((stk [ent .iterK, ent .exitK]).stack[0]? = some (ent .iterK) ∧ aGroup.active &&& ~~~aGroup.eff 0 = 0) ∧
    (∀ n e, (stk [ent .ifK]).stack[n]? = some e → n + callers (stk [ent .ifK]) < (stk [ent .ifK]).stack.length → e.kind ≠ .iterK) := by
  refine ⟨⟨rfl, rfl, by decide +kernel, ?_⟩, ⟨rfl, by decide +kernel⟩, ?_⟩
  · intro j x hj h
    obtain rfl : j = 0 := by omega
    cases h; decide
  · intro n e h _
    cases n with
    | zero => cases h; decide
    | succ n => simp [stk] at h

/-- The line of 0x40 has the BT bits of its slots 0 and 4. -/
def stBt : State := { stG aGroup with mem := Memory.writeNat st.mem 0x7C (2 ^ 22 + 2 ^ 26) 4 }

/-- In package 1, the first page is a page of package 0's window, or its tables are; `q` is the home's copy of the line. -/
def stWinCode (tabs : Bool) (q : Option FarCopy) : State :=
  { stBt with lnkid := 0x10, mem := if tabs then Memory.writeNat [] 0x100000 (0xC10000000001 + 0x1000) 8 else tables (leafBits + 0xC10000000000),
              farCopies := q.elim [] (fun q => [(0xC10000000040 / 128, q)]) }

theorem reaches : Reaches stBt aGroup 0x44 :=
  ⟨by decide, by decide, ⟨0x40, 0, false, false⟩, (stBt.homeNat? 0x40 64).getD 0, by decide +kernel, by decide +kernel, by decide +kernel, by decide +kernel⟩

/-- A target in slot 5, one with bits 5:3 set, one whose BT bit is clear; a page that is not mapped and one without X; a table in a window; and a
line in one, which the home has not read, and whose read was refused. -/
theorem meets_TransferChecks : 4 < (0x45 : Word).toNat % 8 ∧ (0x48 : Word).toNat % 64 / 8 ≠ 0 ∧ (0x44 : Word).toNat % 8 ≤ 4 ∧
    (0x44 : Word).toNat % 64 / 8 = 0 ∧ checkTarget stBt aGroup 0x44 true = none ∧ checkTarget stBt aGroup 0x41 true = some (FaultInfo.of 1 10) ∧
    stBt.farFault 0x40 = none ∧ (stBt.homeNat? 0x40 64).isSome = true ∧
    (match xlate stBt aGroup.core (stBt.ctxOf aGroup) 0x4000000000 aGroup.sup .exec false with | .error (.page d _ _) => d | _ => 0) = 1 ∧
    (match xlate { stBt with mem := tables 0x1DB } 0 0 0x40 false .exec false with | .error (.fault 8 _) => true | _ => false) = true ∧
    (match xlate (stWinCode true none) 0 0 0x40 false .exec false with | .error (.far _) => true | _ => false) = true ∧
    (∀ q ∈ [none, some ⟨7, false, some (8, 18)⟩], (match xlate (stWinCode false q) 0 0 0x40 false .exec false with
      | .ok x => decide (x.pa = 0xC10000000040) | _ => false) = true) ∧ (stWinCode false none).homeNat? 0xC10000000040 64 = none ∧
    (stWinCode false none).farFault 0xC10000000040 = none ∧
    (stWinCode false (some ⟨7, false, some (8, 18)⟩)).farFault 0xC10000000040 = some (8, 18) := by
  decide +kernel

theorem meets_BranchAndCall : aGroup.eff 2 = 0 ∧ aGroup.eff 0 ≠ 0 ∧ aGroup.eff 0 = aGroup.srcActive ∧ aGroup.eff 1 ≠ 0 ∧
    aGroup.eff 1 ≠ aGroup.srcActive ∧ (List.replicate 64 (⟨0, 0, 0xF, 0, false⟩ : Frame)).length = 64 ∧ aGroup.frames.length < 64 := by decide +kernel

/-- A frame that returns to 0x40, and the group in it, holding colour 5 from that frame. -/
def aFrame : Frame := ⟨0x40, 0, 0xF, 0, false⟩
def inFrame : Group := { aGroup with frames := [aFrame], held := [(5, 1)] }

theorem meets_ret : Issuing stBt aGroup ∧ aGroup.frames = [] ∧ Issuing (stG inFrame) inFrame ∧ inFrame.frames = aFrame :: [] ∧
    -- lanes stay; none stays
    inFrame.active &&& ~~~inFrame.eff 1 ≠ 0 ∧ inFrame.active &&& ~~~inFrame.eff 0 = 0 ∧ (without inFrame.stack 0 (inFrame.eff 0)).take 0 = [] ∧
    -- the target refused, and passed
    checkTarget (stG inFrame) inFrame aFrame.ret true = some (FaultInfo.of 1 10) ∧
    checkTarget { stBt with groups := [(2, inFrame)] } inFrame aFrame.ret true = none ∧
    -- a handler's frame returns to a slot without BT
    checkTarget (stG inFrame) inFrame aFrame.ret false = none ∧
    -- the colour busy, and not
    coloursBusy (withReq { stBt with groups := [(2, inFrame)] } { aReq with colour := 5 } anOp) 2 [5] = true ∧
    coloursBusy { stBt with groups := [(2, inFrame)] } 2 [5] = false ∧ ({ aFrame with handler := true } : Frame).handler = true :=
  ⟨issuing_of (by decide +kernel), rfl, issuing_stG _ ⟨rfl, rfl, rfl⟩, rfl, by decide +kernel⟩

theorem meets_exit : aGroup.eff 2 = 0 ∧ aGroup.eff 1 ≠ 0 ∧ aGroup.live &&& ~~~aGroup.eff 1 ≠ 0 ∧ aGroup.eff 0 ≠ 0 ∧
    aGroup.live &&& ~~~aGroup.eff 0 = 0 := by decide +kernel

theorem meets_trigger : storesPending (withReq st aReq anOp) 2 = true ∧ storesPending st 2 = false ∧ st.crew? aGroup.crew = some aCrew := by
  decide +kernel

/-- Words of `gets` with number 20, with number 1 and `m16`, and with number 2 and `s64`. -/
theorem meets_gets_words : [(0, 20), (16, 1), (64, 2)].all (fun (p : Nat × Nat) =>
    let x := BitVec.ofNat 96 (0x00F * 2 ^ 86 + p.1 * 2 ^ 73 + p.2)
    let f := Fields.ofWord x
    decide (f = { Fields.op 0x00F with grd := f.grd, dst := f.dst, nwb := f.nwb, imm := (BitVec.ofNat 8 p.2).setWidth 32 } ∧ f.nwb = false ∧
      f.dst.toNat = p.1)) = true := by decide +kernel

theorem meets_gets : (Instr.gets 0 (.v (.reg 1)) 0).wf = true ∧ (Instr.gets 0 (.m (.reg 1)) 1).wf = true ∧
    ((List.range 18).all (fun n => (Instr.gets 0 (.s (.reg 1)) (BitVec.ofNat 8 (n + 2))).wf)) = true ∧
    st.crew? aGroup.crew = some aCrew ∧ st.launch? aCrew.launch = some probeLaunch := by decide +kernel

/-! ## Exceptions and system registers (FaultTraps … SystemRegisterMaps) -/

theorem ringReady : RingReady st 0 0x9000 := ringReady_of (by decide +kernel)

/-- A launch with a user fault handler. -/
def stH : State := { st with launches := [(0, { probeLaunch with handler := 0x40 })] }

theorem meets_FaultTraps : st.group? 2 = some aGroup ∧ aGroup.sup = false ∧ aGroup.parkHere = none ∧ (FaultInfo.of 35 1).cause < 36 ∧ handlerTakes st aGroup = false ∧
    supervisorOnly 7 = true ∧ RingReady st (st.ctxOf aGroup) 0x9000 := ⟨by decide +kernel, rfl, rfl, by decide, by decide +kernel, rfl, ringReady⟩

theorem meets_FaultEntersHandler : handlerOf stH aGroup ≠ 0 ∧ aGroup.handler = none ∧ aGroup.frames.length < 64 ∧ aGroup.sup = false ∧
    supervisorOnly 1 = false ∧ aGroup.parkHere = none ∧ RingReady stH (stH.ctxOf aGroup) 0x9000 :=
  ⟨by decide +kernel, rfl, by decide +kernel, rfl, rfl, rfl, ringReady_of (by decide +kernel)⟩

/-- The group in a trap routine. -/
def inTrap : Group := { aGroup with sup := true, trapLatch := some ([], 0), tpc := 0x41, tmask := 0x3 }

theorem meets_DoubleFault : (stG inTrap).group? 2 = some inTrap ∧ inTrap.sup = true ∧ inTrap.parkHere = none ∧
    RingReady (stG inTrap) ((stG inTrap).ctxOf inTrap) 0x9000 :=
  ⟨rfl, rfl, rfl, ringReady_of (by decide +kernel)⟩

/-- A queue of 128 records with 127 of them taken. -/
def stFull : State := { st with ctxs := [(0, { st.ctx 0 with fqtail := 127 })] }

theorem meets_FaultWaitsForRoom : stFull.group? 2 = some aGroup ∧ fqRoom (stFull.ctx (stFull.ctxOf aGroup)) = 0 ∧
    (stFull.ctx (stFull.ctxOf aGroup)).fqtail < fqSize (stFull.ctx (stFull.ctxOf aGroup)) ∧
    xlateWalk stFull (stFull.ctxOf aGroup) ((stFull.ctx (stFull.ctxOf aGroup)).fqbase + BitVec.ofNat 64 (32 * (stFull.ctx (stFull.ctxOf aGroup)).fqtail))
      true .write false = .ok ⟨0x9FE0, 0, false, false⟩ := by decide +kernel

/-- What `eret` finds: a stack that has moved; a plain return; a PAGE to forward; a trap taken where the group stood. -/
theorem meets_ReturnFromTrap : (stG inTrap).group? 2 = some inTrap ∧ inTrap.sup = true ∧
    ({ inTrap with stack := [ent .ifK] } : Group).stack.length ≠ inTrap.trapE ∧ inTrap.stack.length = inTrap.trapE ∧
    inTrap.frames.length = inTrap.trapD ∧ inTrap.parks = [] ∧ inTrap.trapLatch = some ([], 0) ∧ inTrap.pipe = [] ∧ inTrap.places = [] ∧
    inTrap.tfwd = false ∧
    (let p : Group := { inTrap with tfwd := true, trapRun := (7, 0) }
     p.tfwd = true ∧ p.trapRun.1 = 7 ∧ handlerOf stH p ≠ 0 ∧ p.handler = none ∧ p.frames.length < 64 ∧
       (p.places.head?.bind Place.nest).isSome = false) ∧
    (let p : Place := ⟨0x41, .parked .counters, [], none, 0, none, none, none, true, false, none, none⟩
     p.nest = none ∧ p.done = false ∧ p.pc = inTrap.tpc) := by decide +kernel

theorem meets_SystemInstructions : aGroup.sup = false ∧ Issuing (stG inTrap) inTrap ∧ inTrap.parks = [] ∧
    inTrap.sOk (.reg 1) = true ∧ inTrap.sOk (.reg 4) = true ∧
    -- `tlbinv`: a length that is no multiple of 4 KiB; a range at 0x2000 of length 0, with an access pending and with none
    (inTrap.sval (.reg 2)).toNat % 4096 ≠ 0 ∧ (inTrap.sval (.reg 1)).toNat % 4096 = 0 ∧ (inTrap.sval (.reg 4)).toNat % 4096 = 0 ∧
    quiet (withReq (stG inTrap) aReq anOp) 2 = false ∧ quiet (stG inTrap) 2 = true :=
  ⟨rfl, issuing_stG _ ⟨rfl, rfl, rfl⟩, by decide +kernel⟩

theorem meets_Undisturbed : Undisturbed (stG inTrap) inTrap :=
  ⟨rfl, by intro c h; cases h; rfl⟩

/-- A register that a level may read and one that it may not; a value with a reserved bit; a register that may not be written. -/
theorem meets_SystemRegisters : srAssigned 0x000 = true ∧ ((regRow 0x000).acc false).readable = true ∧ srAssigned 0x024 = true ∧
    ((regRow 0x060).acc false).readable = false ∧ srAssigned 0x060 = true ∧ aGroup.sOk (.reg 3) = true ∧
    (aGroup.sval (.reg 3) &&& ~~~(regRow 0).bits) ≠ 0 ∧ (aGroup.sval (.reg 2) &&& ~~~(regRow 0).bits) = 0 ∧ mapRefuses 0 (aGroup.sval (.reg 2)) = false ∧
    ((regRow 0).acc false).writable = true ∧ ((regRow 0x060).acc false).writable = false ∧ mapRefuses 0x060 (aGroup.sval (.reg 1)) = false ∧
    (aGroup.sval (.reg 1) &&& ~~~(regRow 0x060).bits) = 0 ∧ mapRefuses 0x061 0x15 = true ∧ mapRefuses 0x061 0x14 = false ∧
    aGroup.eff 0 ≠ 0 ∧ aGroup.eff 2 = 0 ∧
    -- a CNT register, with a fence before which a store is not performed, and with none
    srAssigned 0x0DC = true ∧ ((regRow 0x0DC).acc false).readable = true ∧
    fencesHold (withReq st aReq anOp) 2 { aGroup with fences := [(0, 8)] } = true ∧ fencesHold st 2 aGroup = false := by decide +kernel

/-- Every plain register takes a value that is not 0. -/
theorem meets_SystemRegisterMaps : (List.range 0x200).all (fun n => !plainReg n || plainOk n (if n = 0x061 then 7 else plainBits n &&& 0xFFFFFFFFFFFFFF00 ||| 1 &&& plainBits n)) = true ∧
    st.group? 2 = some aGroup := by decide +kernel
/-! ## Memory instructions at issue (GlobalAccessIssues … PrefetchAndWaits) -/

/-- The group holds an address in `s1`; every memory instruction here uses it, in a space. -/
def memInstrs (sp : Space) : List Instr :=
  let a : MAddr := ⟨sp, .reg 1, none, 0⟩
  let m : AtomCtl := ⟨sp, .reg 1, some (.reg 9), 0, .add, .relaxed, .cr, .n32⟩
  [.ld 0 4 a .n32, .st 0 a (.reg 2) .i32, .sld 0 4 sp (.reg 1) 8 .n64, .sst 0 sp (.reg 1) 8 (.reg 2) .b32, .atom 0 4 m (.reg 2), .red 0 m (.reg 2)]
    ++ if sp = .g then [.redFar 0 m (.reg 2), .frzq 0 4 (.reg 1)] else []

theorem mayIssue_of {s : State} {g : Group} {r : MRow} (h : Issuing s g) (k : (r.vs.all g.vOk = true ∧ r.ss.all g.sOk = true) ∧ g.parkHere = none ∧
    (∀ k ∈ r.ctrs, (g.ctr k).length < 255) ∧ r.lanes ≠ []) : MayIssue s g r := ⟨h, k.1.1, k.1.2, k.2.1, k.2.2.1, k.2.2.2⟩

/-- What the hypotheses of GlobalAccessIssues ask of an instruction, on `s`, where each address is its own translation with colour `c`. -/
def globalOk (s : State) (g : Group) (c : Nat) (i : Instr) : Bool :=
  match memRow g i with
  | none => false
  | some r => i.wf && decide (r.sp = .g ∧ r.vs.all g.vOk = true ∧ r.ss.all g.sOk = true ∧ g.parkHere = none ∧ (∀ k ∈ r.ctrs, (g.ctr k).length < 255) ∧
      r.lanes ≠ [] ∧ s.reqs = [] ∧ s.lineHolds = [] ∧ s.scopes = [] ∧
      ∀ l ∈ r.lanes, (r.ea l).toNat % widthOf r.ty = 0 ∧ inWindow s.lnkid (r.ea l).toNat = false ∧
        xlate (filled s g r) g.core (s.ctxOf g) (r.ea l) g.sup r.need true = .ok ⟨(r.ea l).toNat, c, false, false⟩)

theorem globalOk_spec {s : State} {g : Group} {c : Nat} {i : Instr} (hi : Issuing s g) (h : globalOk s g c i = true) :
    ∃ r, i.wf = true ∧ memRow g i = some r ∧ r.sp = .g ∧ MayIssue s g r ∧ Translates s g r (fun l => ⟨(r.ea l).toNat, c, false, false⟩) ∧
      AtomFree s g r (fun l => ⟨(r.ea l).toNat, c, false, false⟩) := by
  unfold globalOk at h
  split at h
  · simp at h
  · next r hr =>
    simp only [Bool.and_eq_true, decide_eq_true_eq] at h
    obtain ⟨hw, h1, h2, h3, h4, h5, h6, h7, h8, h9, h10⟩ := h
    refine ⟨r, hw, hr, h1, mayIssue_of hi ⟨⟨h2, h3⟩, h4, h5, h6⟩, fun l hl => ⟨(h10 l hl).1, (h10 l hl).2.2⟩, ?_⟩
    intro _ l hl
    refine ⟨by simp [h8, SMap.find?], by simp [scopeOk, h9, SMap.find?], by simp [h7], fun hw => ?_⟩
    exact absurd hw (by simp [(h10 l hl).2.1])

/-- Every memory instruction in `.g` meets the hypotheses, with no colour needed. -/
theorem meets_GlobalAccessIssues : ∀ i ∈ memInstrs .g, ∃ r, ∃ x : Nat → Xl, i.wf = true ∧ memRow aGroup i = some r ∧ r.sp = .g ∧
    MayIssue st aGroup r ∧ Translates st aGroup r x ∧ AtomFree st aGroup r x ∧ ∀ c, ¬needs aGroup r x c := by
  intro i hi
  have h : (memInstrs .g).all (globalOk st aGroup 0) = true := by decide +kernel
  obtain ⟨r, h1, h2, h3, h4, h5, h6⟩ := globalOk_spec meets_Issuing (List.all_eq_true.mp h i hi)
  refine ⟨r, _, h1, h2, h3, h4, h5, h6, ?_⟩
  rintro c ⟨_, _, l, _, hc, hn, _⟩
  exact hn hc.symm

/-- With an empty effective mask (guard `m2`) a row has no lanes. -/
theorem meets_GlobalAccessIssues_empty : (memRow aGroup (.ld 2 4 ⟨.g, .reg 1, none, 0⟩ .n32)).map MRow.lanes = some [] ∧
    (memRow aGroup (.frzq 2 4 (.reg 1))).map MRow.lanes = some [] := by decide +kernel

/-- A group with the address 0x80 in `s1`, and the crew of a quad set beside another of its launch. -/
def padGroup : Group := { aGroup with regs := { someRegs with s := [(1, 0x80), (2, 3)] } }
def quadSt : State :=
  { stG padGroup with launches := [(0, { probeLaunch with quad := true, gx := 4 })],
                      crews := [(1, aCrew), (5, { aCrew with idx := 1, cores := [1], gids := [] })] }

/-- The rows of a space whose lanes lie in the scratchpad, in present lines. -/
def padOk (s : State) (g : Group) (c : Crew) (i : Instr) : Bool :=
  match memRow g i with
  | none => false
  | some r => i.wf && decide (r.vs.all g.vOk = true ∧ r.ss.all g.sOk = true ∧ g.parkHere = none ∧ (∀ k ∈ r.ctrs, (g.ctr k).length < 255) ∧ r.lanes ≠ [] ∧
      s.crewOf g = some c ∧ ∀ l ∈ r.lanes, (r.ea l).toNat % widthOf r.ty = 0 ∧ (r.ea l).toNat < 2 ^ 21 ∧ (r.ea l).toNat % 2 ^ 19 + widthOf r.ty ≤ c.scratchBytes ∧
        (r.sp = .l → (r.ea l).toNat + widthOf r.ty ≤ c.scratchBytes ∧ lineAbsent c (r.ea l).toNat (widthOf r.ty) = false) ∧
        ∀ e ∈ s.crews, lineAbsent e.2 ((r.ea l).toNat % 2 ^ 19) (widthOf r.ty) = false)

theorem meets_ScratchpadAccessIssues : Issuing quadSt padGroup ∧ (memInstrs .l).all (padOk quadSt padGroup aCrew) = true ∧
    (memInstrs .p).all (padOk quadSt padGroup aCrew) = true ∧ quadCrew quadSt aCrew = true ∧
    -- a line that is absent; an address in the scratchpad of peer 1
    lineAbsent { aCrew with absent := [1] } 0x80 4 = true ∧ peerCrew quadSt aCrew 1 = some 5 ∧ (0x80080 : Nat) / 2 ^ 19 = 1 ∧ (0x80080 : Nat) < 2 ^ 21 :=
  ⟨issuing_of (by decide +kernel), by decide +kernel⟩

/-- `lc` full; an offset beyond the scratchpad; an address that is not aligned; one that is not mapped for writing. -/
theorem meets_AccessChecks : 255 ≤ (({ aGroup with lc := List.replicate 255 ⟨0, false⟩ } : Group).ctr .lc).length ∧
    (memRow aGroup (.ld 0 4 ⟨.l, .reg 3, none, 0⟩ .n32)).any (fun r => r.lanes == [0, 1, 2, 3] && decide (aCrew.scratchBytes < (r.ea 0).toNat + 4)) = true ∧
    (memRow aGroup (.ld 0 4 ⟨.g, .reg 2, none, 0⟩ .n32)).any (fun r => decide ((r.ea 0).toNat % 4 ≠ 0)) = true ∧
    (let s : State := { st with mem := tables 0x1EB }
     (memRow aGroup (.st 0 ⟨.g, .reg 1, none, 0⟩ (.reg 2) .n32)).any (fun r => decide (∀ l ∈ r.lanes, (r.ea l).toNat % 4 = 0 ∧
       xlate (filled s aGroup r) aGroup.core (s.ctxOf aGroup) (r.ea l) aGroup.sup r.need true = .error (.fault 8 21))) = true) ∧
    -- in `.p`, a crew of no quad set; an address above 2^21; an address that is not aligned, in `.l` and in `.p`
    (memRow padGroup (.sld 0 4 .p (.reg 1) 8 .n32)).any (fun r => r.lanes == [0] && !peerOk (stG padGroup) aCrew r 0) = true ∧
    (memRow padGroup (.sld 0 4 .p (.reg 3) 0x7FFFFF .n32)).any (fun r => !peerOk quadSt aCrew r 0) = true ∧
    (memRow padGroup (.sld 0 4 .l (.reg 1) 2 .n32)).any (fun r => decide ((r.ea 0).toNat % 4 ≠ 0 ∧ (r.ea 0).toNat + 4 ≤ aCrew.scratchBytes)) = true ∧
    (memRow padGroup (.sld 0 4 .p (.reg 1) 2 .n32)).any (fun r => decide ((r.ea 0).toNat % 4 ≠ 0) && peerOk quadSt aCrew r 0) = true := by decide +kernel

/-- The same page with colour 5. -/
def stCol : State := { st with mem := tables (leafBits + 5 * 2 ^ 52) }

theorem meets_ColouredAccess : ∀ i ∈ (memInstrs .g).dropLast, ∃ r, ∃ x : Nat → Xl, i.wf = true ∧ memRow aGroup i = some r ∧ r.sp = .g ∧
    MayIssue stCol aGroup r ∧ Translates stCol aGroup r x ∧ needs aGroup r x 5 ∧ (∀ d, needs aGroup r x d → 5 ≤ d) ∧
    (∀ l ∈ r.lanes, (x l).colour < 4096) ∧ (∀ d ∈ aGroup.held.map Prod.fst, d < 5) ∧ AtomFree stCol aGroup r x := by
  intro i hi
  have h : (memInstrs .g).dropLast.all (fun i => globalOk stCol aGroup 5 i && (memRow aGroup i).any (fun r => r.kind != .frzq)) = true := by decide +kernel
  have hi' := List.all_eq_true.mp h i hi
  simp only [Bool.and_eq_true] at hi'
  obtain ⟨r, h1, h2, h3, h4, h5, h6⟩ := globalOk_spec (issuing_of (by decide +kernel)) hi'.1
  have hk : r.kind ≠ .frzq := by have := hi'.2; rw [h2] at this; simpa using this
  refine ⟨r, _, h1, h2, h3, h4, h5, ?_, ?_, fun l _ => (by decide : (5 : Nat) < 4096), by decide, h6⟩
  · obtain ⟨l, hl⟩ := List.exists_mem_of_ne_nil _ h4.some_
    exact ⟨hk, by decide, l, hl, rfl, by decide, rfl⟩
  · rintro d ⟨_, _, l, _, hc, _⟩
    exact Nat.le_of_eq hc

/-- Another colour that is held. -/
theorem meets_ColouredAccess_order : ∃ d ∈ ({ aGroup with held := [(7, 0)] } : Group).held.map Prod.fst, 5 < d := by decide

/-- A group that holds sixteen colours below the one of the page, 100. -/
def fullHeld : Group := { aGroup with held := (List.range 16).map (fun i => (i + 1, 0)) }
def stFullHeld : State := { stG fullHeld with mem := tables (leafBits + 100 * 2 ^ 52) }

theorem meets_ColouredAccess_cap : ∃ r, ∃ x : Nat → Xl, memRow fullHeld (.sld 0 4 .g (.reg 1) 8 .n32) = some r ∧ r.sp = .g ∧ MayIssue stFullHeld fullHeld r ∧
    Translates stFullHeld fullHeld r x ∧ needs fullHeld r x 100 ∧ (∀ d, needs fullHeld r x d → 100 ≤ d) ∧
    (∀ l ∈ r.lanes, (x l).colour < 4096) ∧ (∀ d ∈ fullHeld.held.map Prod.fst, d < 100) ∧ fullHeld.held.length = 16 ∧
    16 < fullHeld.held.length + (newColours fullHeld r x).length := by
  have h : globalOk stFullHeld fullHeld 100 (.sld 0 4 .g (.reg 1) 8 .n32) = true := by decide +kernel
  obtain ⟨r, _, h2, h3, h4, h5, _⟩ := globalOk_spec (issuing_of (by decide +kernel)) h
  obtain ⟨l, hl⟩ := List.exists_mem_of_ne_nil _ h4.some_
  have hk : r.kind ≠ .frzq := by cases h2; decide
  have hn : needs fullHeld r (fun l => (⟨(r.ea l).toNat, 100, false, false⟩ : Xl)) 100 := ⟨hk, by decide, l, hl, rfl, by decide, rfl⟩
  refine ⟨r, _, h2, h3, h4, h5, hn, ?_, fun l _ => (by decide : (100 : Nat) < 4096), by decide, rfl, ?_⟩
  · rintro d ⟨_, _, l, _, hc, _⟩
    exact Nat.le_of_eq hc
  · have : (100 : Nat) ∈ newColours fullHeld r (fun l => (⟨(r.ea l).toNat, 100, false, false⟩ : Xl)) := by
      simp only [newColours, List.mem_filter, List.mem_range, Bool.and_eq_true, decide_eq_true_eq, Bool.not_eq_true']
      exact ⟨by decide, ⟨l, hl, by decide, by decide, by decide⟩, by decide⟩
    have := List.length_pos_of_mem this
    show 16 < 16 + _
    omega

theorem test_seventeenth_colour : after (exec (.sld 0 4 .g (.reg 1) 8 .n32) stFullHeld) (fun _ g => g.tcause == 0x1000C) = true := by decide +kernel

theorem meets_PrefetchAndWaits : (Instr.pref 0 ⟨.g, .reg 1, none, 0⟩ .n32).wf = true ∧ aGroup.sOk (.reg 1) = true ∧
    xlate st 0 0 0x2000 false .read true = .ok ⟨0x2000, 0, false, false⟩ ∧ l1Valid st 0 (lineOf 0x2000) = false ∧
    SMap.find? st.leases (lineOf 0x2000) = none ∧
    -- `waitc lc, 0` with one load out; with none; with a fault held
    (0#8).toNat < (({ aGroup with lc := [⟨5, false⟩] } : Group).ctr .lc).length ∧ (aGroup.ctr .lc).length ≤ (0#8).toNat ∧ aGroup.dueFault .lc = none ∧
    ({ aGroup with heldFaults := [⟨.lc, 5, false, [FaultInfo.of 18 0]⟩] } : Group).dueFault .lc = some ⟨.lc, 5, false, [FaultInfo.of 18 0]⟩ ∧
    ({ aGroup with heldFaults := [⟨.xc, 5, false, [FaultInfo.of 1 16]⟩] } : Group).dueFault .xc = some ⟨.xc, 5, false, [FaultInfo.of 1 16]⟩ ∧
    -- `pref` through tables in a window; on a page with a colour that is held
    (match xlate (stWinCode true none) 0 0 0x2000 false .read true with | .error (.far _) => true | _ => false) = true ∧
    xlate stCol 0 0 0x2000 false .read true = .ok ⟨0x2000, 5, false, false⟩ ∧ 5 ∈ ({ aGroup with held := [(5, 0)] } : Group).held.map Prod.fst ∧
    (st.core aGroup.core).array.holder = none ∧
    -- `xwait`: the matrix group, and another group
    aCrew.matrixGroup.getD 2 = 2 ∧ ({ st with cores := [(0, { CoreSt.reset with array := { ArraySt.idle with holder := some 1 } })] } : State).core 0 =
      { CoreSt.reset with array := { ArraySt.idle with holder := some 1 } } ∧ ({ aCrew with matrixGroup := some 9 } : Crew).matrixGroup = some 9 := by
  decide +kernel
/-! ## Memory events (LoadsPerformed … Ports) -/

/-- A request alone in flight, which local order lets be performed. -/
def stReq (q : Req) : State := withReq st q anOp

theorem pending_of {s : State} {rid : Nat} {r : Req} (h : SMap.find? s.reqs rid = some r ∧ r.performed = false ∧ orderFree s r = true ∧
    passedBefore s rid r = false ∧ s.freezePoison = [] ∧ s.stampPoison = []) : Pending s rid r :=
  ⟨h.1, h.2.1, h.2.2.1, fun _ => h.2.2.2.1, h.2.2.2.2⟩

/-- A load, an atomic, a freeze query beside the store. -/
def aLoad : Req := { aReq with kind := .load, dst := .v 4 }
def anAtom : Req := { aReq with kind := .atom, dst := .v 4, aop := .add }
def aQuery : Req := { aReq with kind := .frzq, dst := .s 4, ty := .n8, width := 1 }
/-- One to the scratchpad. -/
def aPad (k : ReqKind) (d : Dst) (sp : Space) (tgt : Nat) : Req := { aReq with kind := k, dst := d, sp := sp, pa := 0x80, tgt := tgt }

/-- A valid copy of the line of 0x2000 in core 0. -/
def aLine : L1Line := ⟨0x11223344, 0, false, false⟩
def stL1 (q : Req) : State := { stReq q with cores := [(0, { CoreSt.reset with l1 := [(64, aLine)] })] }

theorem meets_LoadPerformed : Pending (stReq aLoad) 6 aLoad ∧ aLoad.kind = .load ∧ aLoad.sp = .g ∧ aLoad.dst ≠ .none ∧
    inWindow (stReq aLoad).lnkid aLoad.pa = false ∧ Pending (stL1 aLoad) 6 aLoad ∧
    SMap.find? ((stL1 aLoad).core aLoad.core).l1 (lineOf aLoad.pa) = some aLine ∧ l1Valid (stReq aLoad) aLoad.core (lineOf aLoad.pa) = false ∧
    storePassed (stReq aLoad) aLoad.core (lineOf aLoad.pa) = false :=
  ⟨pending_of (by decide +kernel), rfl, rfl, by decide, by decide +kernel, pending_of (by decide +kernel), by decide +kernel⟩

/-- The granule of 0x2000 is frozen. -/
def frozenIn (s : State) : State := { s with freezeTable := [(0, ⟨1, false, 0⟩)] }

/-- A group with a fault held for report on an earlier lane of the store, and a store of 4 bytes over the end of the granule. -/
def heldStore : Group := { aGroup with heldFaults := [⟨.sc, aReq.op, false, [FaultInfo.of 10 1]⟩] }
def edgeStore : Req := { aReq with pa := 0xFFFE }

theorem meets_StorePerformed : Pending (stReq aReq) 6 aReq ∧ aReq.dst = .none ∧ plainOp (stReq aReq) aReq = true ∧
    inWindow (stReq aReq).lnkid aReq.pa = false ∧ granuleFrozen (stReq aReq) aReq.pa = false ∧
    granuleFrozen (stReq aReq) (aReq.pa + aReq.width - 1) = false ∧ Pending (frozenIn (stReq aReq)) 6 aReq ∧
    granuleFrozen (frozenIn (stReq aReq)) aReq.pa = true ∧ (frozenIn (stReq aReq)).group? aReq.gid = some aGroup ∧ aGroup.heldFaults = [] ∧
    -- only the granule of the last byte is frozen; a fault of an earlier lane is held
    Pending { stReq edgeStore with freezeTable := [(1, ⟨1, false, 0⟩)] } 6 edgeStore ∧
    granuleFrozen { stReq edgeStore with freezeTable := [(1, ⟨1, false, 0⟩)] } edgeStore.pa = false ∧
    granuleFrozen { stReq edgeStore with freezeTable := [(1, ⟨1, false, 0⟩)] } (edgeStore.pa + edgeStore.width - 1) = true ∧
    ∀ e ∈ heldStore.heldFaults, e.recs ≠ [] ∧ e.op = aReq.op ∧ ∀ y ∈ e.recs, y.cause = 10 → y.detail = 1 :=
  ⟨pending_of (by decide +kernel), rfl, by decide +kernel, by decide +kernel, by decide +kernel, by decide +kernel, pending_of (by decide +kernel),
    by decide +kernel, by decide +kernel, rfl, pending_of (by decide +kernel), by decide +kernel⟩

theorem test_store_edge_rejected : after (exec (.homeAccess 6) { stReq edgeStore with freezeTable := [(1, ⟨1, false, 0⟩)] })
    (fun t g => t.mem == st.mem && g.heldFaults.any (fun h => h.recs.any (fun x => x.cause == 10 && x.detail == 1))) = true := by decide +kernel

theorem meets_AtomicPerformed : Pending (stReq anAtom) 6 anAtom ∧ plainOp (stReq anAtom) anAtom = true ∧ anAtom.width = widthOf anAtom.ty ∧
    anAtom.ty.access = true ∧ inWindow (stReq anAtom).lnkid anAtom.pa = false ∧ granuleFrozen (stReq anAtom) anAtom.pa = false ∧
    (grantLease (stReq anAtom) anAtom.core anAtom.pa anAtom.colour).isSome = true ∧ ({ anAtom with far := true } : Req).far = true ∧
    -- a compare that fails, and one that does not
    atomicNew .cas .n32 0 9 1 = none ∧ atomicNew .cas .n32 1 9 1 = some 9 :=
  ⟨pending_of (by decide +kernel), by decide +kernel⟩

/-- The operation of a `.p` instruction that waits for its replies, with what a retired crew has refused of it. -/
def goneOp (x : Option (Nat × Word)) : Op := { anOp with precise := true, gone := x }
def stGone (x : Option (Nat × Word)) (q : Req) : State := withReq st q (goneOp x)

theorem meets_ScratchpadPerformed : (∀ q ∈ [aPad .load (.v 4) .l 1, aPad .store .none .l 1, aPad .atom (.v 4) .p 1],
      Pending (stReq q) 6 q ∧ q.kind ≠ .frzq ∧ q.sp ≠ .g ∧ q.tgt = q.crew ∧ q.width = widthOf q.ty ∧ q.ty.access = true ∧
      (stReq q).crew? q.tgt = some aCrew ∧ lineAbsent aCrew q.pa q.width = false) ∧ aCrew.saved = false ∧
    -- a peer's access to a crew that is there, and to one that has retired
    (∀ q ∈ [aPad .load (.v 4) .p 1, aPad .atom .none .p 1].map (fun q => { q with crew := 7 }), Pending (stReq q) 6 q ∧ q.sp = .p ∧ q.tgt ≠ q.crew ∧
      (stReq q).crew? q.tgt = some aCrew) ∧
    (∀ q ∈ [aPad .load (.v 4) .p 7, aPad .store .none .p 7], Pending (stGone none q) 6 q ∧ q.sp = .p ∧ q.tgt ≠ q.crew ∧ (stGone none q).crew? q.tgt = none ∧
      SMap.find? (stGone none q).ops q.op = some (goneOp none)) ∧ (goneOp none).precise = true ∧ (goneOp none).gone = none ∧
    -- a lower lane that was refused before, and a higher one
    (let q := { aPad .load (.v 4) .p 7 with lane := 3 }
     (goneOp (some (1, 9))).gone = some (1, 9) ∧ 1 < q.lane ∧ (goneOp (some (5, 9))).gone = some (5, 9) ∧ q.lane ≤ 5) := by
  refine ⟨?_, rfl, ?_, ?_, rfl, rfl, by decide⟩ <;> intro q hq <;>
    simp only [List.map_cons, List.map_nil, List.mem_cons, List.not_mem_nil, or_false] at hq
  · rcases hq with rfl | rfl | rfl <;> exact ⟨pending_of (by decide +kernel), by decide +kernel⟩
  · rcases hq with rfl | rfl <;> exact ⟨pending_of (by decide +kernel), by decide +kernel⟩
  · rcases hq with rfl | rfl <;> exact ⟨pending_of (by decide +kernel), by decide +kernel⟩

theorem test_peer_gone_lowest : (match exec (.peerAccessArrive 6) (stGone (some (5, 9)) { aPad .load (.v 4) .p 7 with lane := 3 }) with
    | .next t => (SMap.find? t.ops 5).map Op.gone == some (some (3, aReq.va))
    | _ => false) = true := by decide +kernel

theorem meets_FreezeQueryPerformed : Pending (frozenIn (stReq aQuery)) 6 aQuery ∧ aQuery.kind = .frzq := ⟨pending_of (by decide +kernel), rfl⟩

/-- A load performed, of 32 bits to `v4`, of 64 bits to the pair `v4`, and of 16 bits to `s4`. -/
theorem meets_LoadReturns : ∀ q ∈ [{ aLoad with performed := true }, { aLoad with performed := true, ty := .n64, width := 8 },
      { aLoad with performed := true, dst := .s 4, ty := .i16, width := 2 }],
    SMap.find? (stReq q).reqs 6 = some q ∧ q.performed = true ∧ plainOp (stReq q) q = true ∧ (stReq q).group? q.gid = some aGroup ∧
      q.vPoison = 0 ∧ q.kind ≠ .frzq ∧ q.lane < 64 := by decide +kernel

/-- A `.p` load that has its reply, and one that was refused. -/
def stReply (o : Op) : State :=
  { withReq (stG { aGroup with status := .parked .reply }) { aLoad with sp := .p, performed := true, dst := .s 4 } o with nextId := 10 }

theorem meets_PeerReplies : ∀ o ∈ [{ anOp with precise := true }, { anOp with precise := true, gone := some (3, 0x80080) }],
    SMap.find? (stReply o).ops 5 = some o ∧ (stReply o).group? 2 = some { aGroup with status := .parked .reply } ∧ o.gid = 2 ∧ o.precise = true ∧
      aGroup.places = [] ∧ aGroup.leaving = none ∧ ∀ e ∈ (stReply o).reqs, e.2.op = 5 → e.2.performed = true ∧ e.2.vPoison = 0 := by
  decide +kernel

theorem meets_CacheEvents : Pending (stReq anAtom) 6 anAtom ∧ anAtom.far = false ∧ inHbm anAtom.pa = true ∧ granuleFrozen (stReq anAtom) anAtom.pa = false ∧
    storePassed (stReq anAtom) anAtom.core (lineOf anAtom.pa) = false ∧
    SMap.find? (stReq anAtom).leases (lineOf anAtom.pa) ≠ some anAtom.core ∧ l1Room (stReq anAtom) anAtom.core (lineOf anAtom.pa) = true ∧
    (let s : State := { st with fills := [(7, ⟨0, 64, 0, 3, 0, false⟩)] }
     SMap.find? s.fills 7 = some ⟨0, 64, 0, 3, 0, false⟩ ∧ l1Valid s 0 64 = false ∧ storePassed s 0 64 = false ∧ l1Room s 0 64 = true ∧
      (SMap.get (s.core 0).recallSeq 0 0).toNat ≤ (3#32).toNat) ∧
    (let q : Req := { aReq with performed := true }
     SMap.find? (stReq q).reqs 6 = some q ∧ q.performed = true ∧ q.dst = .none ∧ q.sp = .g) :=
  ⟨pending_of (by decide +kernel), by decide +kernel⟩

/-- A group whose port 1 is enabled and names group 0 of its own crew. -/
def portGroup : Group := { aGroup with ptgt := [(1, 0x8000)] }

/-- With a flit at the head of port 2, and a second one behind it. -/
def flitA : Flit := ⟨0xF, [(0, 9), (1, 8)], 0⟩
def fedGroup : Group := { portGroup with queues := [(2, [flitA, ⟨0xF, [(0, 5)], 0⟩])] }

theorem meets_PortInstructions : let i : Instr := .add ⟨0, .port 1, .reg 1, .reg 2, .n32⟩
    i.wf = true ∧ (portRow portGroup i).any (fun r => decide (r.1.d = .port 1) && r.1.vs.all portGroup.vOk && portNames r.1.vs == []) = true ∧
    portGroup.eff 0 ≠ 0 ∧ portGroup.eff 2 = 0 ∧ portAllowed (stG portGroup) portGroup 1 = true ∧ portAllowed st aGroup 1 = false ∧ Fed portGroup [] ∧
    -- a port source: empty; one flit for two sources; both fed; to a register, and on to a port
    (∀ j ∈ [Instr.mov ⟨0, .reg 6, .port 2, .n32⟩, .mov ⟨0, .port 1, .port 2, .n32⟩, .frcp ⟨0, .reg 6, .port 2, .f32, .rne⟩,
        .fround ⟨0, .reg 6, .port 2, .f32, .rne⟩],
      j.wf = true ∧ (portRow fedGroup j).any (fun r => portNames r.1.vs == [2] && r.1.vs.all fedGroup.vOk) = true) ∧
    (let j : Instr := .fadd ⟨0, .reg 6, .port 2, .port 2, .f32, .rne⟩
     j.wf = true ∧ (portRow fedGroup j).any (fun r => portNames r.1.vs == [2, 2] && r.2.1 == 0) = true) ∧
    ¬Fed portGroup [2] ∧ Fed fedGroup [2] ∧ Fed fedGroup [2, 2] ∧ ¬Fed { portGroup with queues := [(2, [flitA])] } [2, 2] ∧
    -- compares
    (let o : CmpOp := ⟨0, .reg 1, .port 2, .reg 1, .n32, .eq⟩
     let v := [(o.a, o.ty.wide), (o.b, o.ty.wide)]
     (Instr.cmp o).wf = true ∧ v.all fedGroup.vOk = true ∧ portNames v = [2] ∧ (Instr.fcmp { o with ty := .f32 }).wf = true) := by
  unfold Fed
  decide +kernel

/-- The flit at the head is taken, and no other. -/
theorem test_port_source : after (exec (.mov ⟨0, .reg 6, .port 2, .n32⟩) (stG fedGroup)) (fun _ g => g.pc == 1 && g.regs.rdV 6 0 == 9 &&
    g.regs.rdV 6 1 == 8 && SMap.get g.queues [] 2 == [⟨0xF, [(0, 5)], 0⟩]) = true := by decide +kernel

/-- A flit on its way from group 2 to port 0 of group 1 of its crew. -/
def aFlit : FlitMsg := ⟨2, 0, 1, 1, ⟨0xF, [(0, 9)], 0⟩, [], 0, []⟩
def sender : Group := { aGroup with status := .parked .portRoom }
def receiver : Group := { aGroup with idx := 1 }
def stFlit : State := { st with groups := [(2, sender), (3, receiver)], flits := [(7, aFlit)] }

theorem meets_FlitDelivery : SMap.find? stFlit.flits 7 = some aFlit ∧ stFlit.group? aFlit.gid = some sender ∧ sender.places = [] ∧ sender.live ≠ 0 ∧
    groupOfCrew stFlit aFlit.tgt aFlit.grp = some (3, receiver) ∧ stFlit.group? 3 = some receiver ∧
    (SMap.get receiver.queues [] aFlit.port).length < 8 ∧ stFlit.crew? aFlit.tgt = some aCrew ∧ aCrew.saved = false ∧
    groupOfCrew { stFlit with groups := [(2, sender)] } aFlit.tgt aFlit.grp = none ∧ sender.status = .parked .portRoom ∧
    -- the sender is the receiver
    (let m := { aFlit with grp := 0, takes := [2] }
     groupOfCrew stFlit m.tgt m.grp = some (2, sender) ∧ (SMap.get sender.queues [] m.port).length < 8) ∧
    dieOfCore sender.core = dieOfCore receiver.core := by decide +kernel

theorem test_flit_accepted : after (exec (.flitArrive 7) stFlit) (fun t g => g.pc == 1 && g.status == .ready && t.flits.isEmpty &&
    (t.group? 3).any (fun y => SMap.get y.queues [] 0 == [aFlit.flit])) = true := by decide +kernel
theorem test_flit_refused : after (exec (.flitArrive 7) { stFlit with groups := [(2, sender)] }) (fun t g => g.tcause == 0x30010 && t.flits.isEmpty) = true := by
  decide +kernel

/-! ## Poison, latches and exception counters (RegisterReadChecks, ExceptionCounters) -/

/-- A group with a poisoned lane, and one with a poisoned scalar. -/
def poisonedGroup : Group := { aGroup with vPoison := [64 * 1 + 2] }

theorem meets_RegisterReadChecks : let i : Instr := .add ⟨0, .reg 6, .reg 1, .reg 2, .n32⟩
    i.wf = true ∧ (named poisonedGroup i).any (fun n => n.vs.all poisonedGroup.vOk && n.ss.all poisonedGroup.sOk && n.ms.all poisonedGroup.mOk &&
      decide (n.d = .reg 6) && decide (maskWhere (poisonedGroup.eff n.g) (fun l => n.vs.any (fun x => eats poisonedGroup x l)) = 4)) = true ∧
    poisonedGroup.live &&& ~~~(4 : Mask) ≠ 0 ∧
    -- a latch that holds nothing
    aGroup.vOk (.latch .b0, false) = false ∧ (Instr.ld 0 4 ⟨.g, .latch .b0, none, 0⟩ .n32).wf = true ∧
    poisonedGroup.eff 0 ≠ 0 ∧
    -- a poisoned scalar, in its low or in its high word, kills every live lane
    badWord [2] 1 = true ∧ badWord [3] 1 = true ∧ badWord [3] 2 = false ∧
    ({ aGroup with sPoison := [3] } : Group).srcS = [3] ∧ (named aGroup (.sadd ⟨0, .reg 4, .reg 1, .reg 2, .i64⟩)).isSome = true ∧
    aGroup.live &&& ~~~aGroup.live = 0 ∧
    -- no lane consumes one, and an active lane outside the effective mask holds one
    (let g : Group := { aGroup with vPoison := [64 * 1 + 2] }
     maskWhere (g.eff 1) (fun l => eats g (.reg 1, false) l || eats g (.reg 2, false) l) = 0 ∧ g.eff 1 ≠ 0 ∧
     (g.srcActive &&& ~~~g.eff 1).getLsbD 2 = true ∧ eats g (.reg 1, false) 2 = true) := by decide +kernel

theorem test_poison_kills_lane : after (exec (.add ⟨0, .reg 6, .reg 1, .reg 2, .n32⟩) (stG poisonedGroup)) (fun t g =>
    g.live == 0xB && g.dead == 4 && g.regs.rdV 6 0 == 12 && g.pc == 1 && t.box.length == 1) = true := by decide +kernel
theorem test_poison_spared : after (exec (.add ⟨1, .reg 6, .reg 1, .reg 2, .n32⟩) (stG { aGroup with vPoison := [64 * 1 + 2] })) (fun t g =>
    g.live == aGroup.live && g.pc == 1 && t.box.map (fun e => (e.sev, e.src)) == [(0, 1)]) = true := by decide +kernel
theorem test_poison_kills_group : after (exec (.sadd ⟨0, .reg 4, .reg 1, .reg 2, .i64⟩) (stG { aGroup with sPoison := [3] })) (fun t g =>
    g.live == 0 && g.leaving == some .dead && t.box.map BoxEntry.sev == [2, 4]) = true := by decide +kernel

/-- Counting chosen (FPXKSEL 0), and not: the launch's entry line is another. -/
theorem meets_ExceptionCounters : (∀ e ∈ [0, 3, 3], e < 4) ∧ (st.ctx (st.ctxOf aGroup)).fpxksel = 0 ∧ st.launchOf aGroup = some probeLaunch ∧
    (0x1000 : Word).toNat ≠ probeLaunch.entry.toNat / 64 * 64 := by decide +kernel

theorem test_fpx_crosses : let c : Ctx := { st.ctx 0 with fpxctl := 0x200000080, fpxc := [(7, 1)] }
    let t := countFpx { st with ctxs := [(0, c)] } aGroup 1 [3, 3, 0]
    SMap.get (t.ctx 0).fpxc 0 7 = 3 ∧ SMap.get (t.ctx 0).fpxc 0 4 = 1 ∧ (t.ctx 0).fpxstat = 0x80 ∧ t.interrupts = [(0, 1)] := by decide +kernel
theorem test_fpx_not_chosen : let c : Ctx := { st.ctx 0 with fpxksel := 0x1000 }
    countFpx { st with ctxs := [(0, c)] } aGroup 1 [3] = { st with ctxs := [(0, c)] } := by decide +kernel

/-! ## Barriers (Barriers) -/

/-- A second group of the crew that waits at barrier 3, and the crew with that barrier's round of two. -/
def atBarrier : Group := { aGroup with idx := 1, status := .parked .barrier, pc := 0x81, bars := [(0, 3)] }
def crewBar (r : BarRound) : Crew := { aCrew with started := 2, gids := [2, 3], bars := [(3, r)] }
def stBar (g : Group) (r : BarRound) : State := { stG g with groups := [(2, g), (3, atBarrier)], crews := [(1, crewBar r)] }

theorem meets_NamedBarriers : Issuing (stBar aGroup ⟨2, [3]⟩) aGroup ∧ aGroup.parkHere = none ∧
    (stBar aGroup ⟨2, [3]⟩).crewOf aGroup = some (crewBar ⟨2, [3]⟩) ∧
    -- too few groups; another count; the first to arrive; the last, with and without accesses in flight
    aCrew.started < (2 : BitVec 6).toNat ∧ (2 : BitVec 6).toNat ≤ (crewBar ⟨2, [3]⟩).started ∧
    (SMap.get (crewBar ⟨2, [3]⟩).bars ⟨1, []⟩ 3).k ≠ (1 : BitVec 6).toNat ∧
    (SMap.get (crewBar ⟨2, []⟩).bars ⟨2, []⟩ 4).arrived.length + 1 < Nat.min 2 2 ∧ quiet (withReq (stBar aGroup ⟨2, [3]⟩) aReq anOp) 2 = false ∧
    Nat.min 2 2 ≤ [3].length + 1 ∧ quiet (stBar aGroup ⟨2, [3]⟩) 2 = true ∧ aGroup.places = [] ∧ [3].Nodup ∧
    quiet (stBar aGroup ⟨2, [3]⟩) 3 = true ∧ (stBar aGroup ⟨2, [3]⟩).group? 3 = some atBarrier ∧ atBarrier.places = [] ∧
    (2 : Nat) ∉ [3] ∧ (aGroup.places.length, (3 : BitVec 4).toNat) ∉ aGroup.bars ∧ aGroup.leaving = none ∧ atBarrier.leaving = none ∧
    aGroup.bars.filter (fun e => e.2 == 3) = [] ∧ atBarrier.bars.filter (fun e => e.2 == 3) = [(0, 3)] :=
  ⟨issuing_of (by decide +kernel), by decide +kernel⟩

theorem test_bar_passes : after (exec (.bar 3 2) (stBar aGroup ⟨2, [3]⟩)) (fun t g => g.pc == 1 && g.status == .ready &&
    (t.group? 3).any (fun y => y.pc == 0x82 && y.status == .ready) && (t.crew? 1).any (fun k => k.bars.isEmpty)) = true := by decide +kernel
theorem test_bar_waits : after (exec (.bar 4 2) (stBar aGroup ⟨2, [3]⟩)) (fun t g => g.pc == 0 && g.status == .parked .barrier &&
    (t.group? 3).any (fun y => y.pc == 0x81) && (t.crew? 1).any (fun k => SMap.find? k.bars 4 == some ⟨2, [2]⟩)) = true := by decide +kernel

/-- A barrier object at 0x40 of the scratchpad: PHASE 7, GOAL 2, COUNT `n`, BYTES `b`. -/
def objCrew (n b : Nat) : Crew := { aCrew with scratch := Memory.writeNat (Memory.writeNat [] 0x40 (7 * 2 ^ 32 + 2 * 2 ^ 16 + n) 8) 0x48 b 8 }
def objGroup (a : Word) : Group := { aGroup with regs := { someRegs with s := [(1, a), (2, 3), (3, 0xFFFFFFFFFFFFFFFF), (5, 6), (6, 7)] } }
def stObj (a : Word) (k : Crew) : State := { stG (objGroup a) with crews := [(1, k)] }

theorem object_of {s : State} {g : Group} {c : Crew} {a : Nat}
    (h : s.crewOf g = some c ∧ a + 16 ≤ c.scratchBytes ∧ a % 16 = 0 ∧ c.absent.contains (a / 128) = false ∧ scratchBad c a 16 = false) :
    Object s g c a :=
  ⟨h.1, h.2.1, h.2.2.1, h.2.2.2.1, h.2.2.2.2⟩

theorem meets_BarrierObjects : Issuing (stObj 0x40 (objCrew 1 0)) (objGroup 0x40) ∧ Object (stObj 0x40 (objCrew 1 0)) (objGroup 0x40) (objCrew 1 0) 0x40 ∧
    (objGroup 0x40).sOk (.reg 1) = true ∧ (objGroup 0x40).sOk (.reg 2) = true ∧ quiet (stObj 0x40 (objCrew 1 0)) 2 = true ∧
    quiet (withReq (stObj 0x40 (objCrew 1 0)) aReq anOp) 2 = false ∧
    -- in use with room; full; not in use
    (let ctl := padWord (objCrew 1 0) 0x40
     ctl / 2 ^ 44 = 0 ∧ ctl / 2 ^ 16 % 2 ^ 16 ≠ 0 ∧ ctl % 2 ^ 16 < ctl / 2 ^ 16 % 2 ^ 16) ∧
    ¬(padWord (objCrew 2 5) 0x40 % 2 ^ 16 < padWord (objCrew 2 5) 0x40 / 2 ^ 16 % 2 ^ 16) ∧ padWord aCrew 0x40 / 2 ^ 16 % 2 ^ 16 = 0 ∧
    -- the checks of the address
    aCrew.scratchBytes < 0x10000 + 16 ∧ 0x48 + 16 ≤ aCrew.scratchBytes ∧ 0x48 % 16 ≠ 0 ∧ ({ aCrew with absent := [0] } : Crew).absent.contains (0x40 / 128) = true ∧
    -- a phase waited for that is the object's, and one that has passed
    (7 + 4096 - 7 % 4096) % 4096 = 0 ∧ (7 + 4096 - 6 % 4096) % 4096 ≠ 0 ∧ (7 + 4096 - 6 % 4096) % 4096 ≤ 2048 ∧ (crewBar ⟨2, [3]⟩).cores.length ≠ 2 :=
  ⟨issuing_of (by decide +kernel), object_of (by decide +kernel), by decide +kernel⟩

/-- The second of two arrives: d holds COUNT and PHASE as they were, and the phase ends. -/
theorem test_arrive_ends_phase : after (exec (.arrive 4 (.reg 1)) (stObj 0x40 (objCrew 1 0))) (fun t g => g.pc == 1 && g.regs.rdS 4 == 0x10007 &&
    (t.crew? 1).any (fun k => padWord k 0x40 == 8 * 2 ^ 32 + 2 * 2 ^ 16 && padWord k 0x48 == 0)) = true := by decide +kernel
/-- Bytes are still expected: the phase stays. -/
theorem test_arrivex_adds_bytes : after (exec (.arrivex 4 (.reg 1) (.reg 2)) (stObj 0x40 (objCrew 1 0))) (fun t g => g.pc == 1 && g.regs.rdS 4 == 0x10007 &&
    (t.crew? 1).any (fun k => padWord k 0x40 == 7 * 2 ^ 32 + 2 * 2 ^ 16 + 2 && padWord k 0x48 == 3)) = true := by decide +kernel
theorem test_arrive_full : after (exec (.arrive 4 (.reg 1)) (stObj 0x40 (objCrew 2 5))) (fun _ g => g.pc != 1 && g.tcause == 0x3000F) = true := by decide +kernel
theorem test_bwait_passes : after (exec (.bwait (.reg 1) (.reg 5)) (stObj 0x40 (objCrew 1 0))) (fun _ g => g.pc == 1) = true := by decide +kernel
theorem test_bwait_parks : after (exec (.bwait (.reg 1) (.reg 6)) (stObj 0x40 (objCrew 1 0))) (fun _ g => g.pc == 0 && g.status == .parked .object) = true := by
  decide +kernel

/-! ## Painting, freezing, shootdowns (PaintingFreezing, ShootdownsAndRecalls) -/

/-- The pages at 0x20000 to 0x2FFFF, of 4 KiB, are mapped to themselves; their leaves stand at 0x104100 on; so is the fault queue's page. -/
def pagedMem (hi lo : BitVec 8) : Memory :=
  [(0x100000, 1), (0x100001, 0x10), (0x100002, 0x10), (0x101000, 1), (0x101001, 0x20), (0x101002, 0x10), (0x102000, 1), (0x102001, 0x30),
   (0x102002, 0x10), (0x103000, 1), (0x103001, 0x40), (0x103002, 0x10), (0x104048, 0xFB), (0x104049, 0x91)] ++
  (List.range 16).flatMap (fun k => [(0x104100 + 8 * k, 0xFB), (0x104101 + 8 * k, BitVec.ofNat 8 (16 * k + 1) + lo), (0x104102 + 8 * k, 2)] ++
    if hi = 0 then [] else [(0x104106 + 8 * k, hi)])

/-- A group that names the range of `n` bytes at `a`, in the context of those pages. -/
def rangeGroup (a n : Word) : Group := { aGroup with regs := { someRegs with s := [(1, a), (2, n)] } }
def stPaged (a n : Word) (hi lo : BitVec 8) : State := { stG (rangeGroup a n) with mem := pagedMem hi lo }

/-- Every page of the range translates as a write and is covered as a whole, and the first 4 KiB past it does not. -/
def rangeFine (s : State) (g : Group) (a n : Word) : Bool :=
  (pagesIn s g a n).all (fun p => match p.2 with
    | .ok l => decide (l.size = 4096) && !l.e.getLsbD 9 && (match checkLeaf s.lnkid (BitVec.ofNat 64 p.1) g.sup .write false l.e l.size with
        | .ok _ => true
        | .error _ => false) && decide (a.toNat ≤ p.1 - p.1 % 4096 ∧ p.1 - p.1 % 4096 + 4096 ≤ a.toNat + n.toNat)
    | .error _ => false)

theorem rangeOk_of {s : State} {g : Group} {a n : Word} {gran : Nat} (h : rangeFine s g a n = true) (k : a.toNat % gran = 0 ∧ n.toNat % gran = 0 ∧ n ≠ 0) :
    RangeOk s g a n gran := by
  refine ⟨k.1, k.2.1, k.2.2, fun p hp => ?_⟩
  have := List.all_eq_true.mp h p hp
  split at this
  · next l hl =>
    split at this
    · next x hx => exact ⟨l, x, hl, hx⟩
    · simp at this
  · simp at this

theorem wholePages_of {s : State} {g : Group} {a n : Word} {l : Leaf} (h : rangeFine s g a n = true) (hw : walk s (s.ctxOf g) (a + n - 4096) = .ok l)
    (hl : l.size = 4096 ∧ l.e.getLsbD 9 = false ∧ a.toNat ≤ (a + n - 4096).toNat - (a + n - 4096).toNat % 4096 ∧
      (a + n - 4096).toNat - (a + n - 4096).toNat % 4096 + 4096 ≤ a.toNat + n.toNat) : WholePages s g a n := by
  have whole (v k : Nat) (l : Leaf) (h1 : l.size = 4096 ∧ l.e.getLsbD 9 = false ∧ a.toNat ≤ v - v % 4096 ∧ v - v % 4096 + 4096 ≤ a.toNat + n.toNat)
      (hk : (∃ l', (.ok l : Except XErr Leaf) = .ok l' ∧ k = if l'.size = 4096 ∧ l'.e.getLsbD 9 = true then 65536 else l'.size) ∨
        ∃ d x, (.ok l : Except XErr Leaf) = .error (.page d x k)) : a.toNat ≤ v - v % k ∧ v - v % k + k ≤ a.toNat + n.toNat := by
    rcases hk with ⟨l', hl', rfl⟩ | ⟨d, x, hx⟩
    · cases hl'; rw [h1.2.1, h1.1]; simpa using h1.2.2
    · cases hx
  refine ⟨fun p hp k hk => ?_, fun k hk => ?_, fun pa hp => ?_⟩
  · have := List.all_eq_true.mp h p hp
    split at this
    · next l hl =>
      rw [hl] at hk
      simp only [Bool.and_eq_true, Bool.not_eq_eq_eq_not, Bool.not_true, decide_eq_true_eq] at this
      exact whole p.1 k l ⟨this.1.1.1, this.1.1.2, this.2⟩ hk
    · simp at this
  · rw [hw] at hk; exact whole _ k l hl hk
  · rw [hw] at hp; cases hp

/-- Two pages. -/
theorem meets_Painting : Issuing (stPaged 0x20000 0x2000 0 0) (rangeGroup 0x20000 0x2000) ∧ (rangeGroup 0x20000 0x2000).parkHere = none ∧
    (rangeGroup 0x20000 0x2000).eff 0 ≠ 0 ∧ RangeOk (stPaged 0x20000 0x2000 0 0) (rangeGroup 0x20000 0x2000) 0x20000 0x2000 4096 ∧
    WholePages (stPaged 0x20000 0x2000 0 0) (rangeGroup 0x20000 0x2000) 0x20000 0x2000 ∧
    (∀ p ∈ leavesIn (stPaged 0x20000 0x2000 0 0) (rangeGroup 0x20000 0x2000) 0x20000 0x2000, p.2.e.getLsbD 11 = false) ∧
    (∃ p ∈ leavesIn (stPaged 0x20000 0x2000 0 8) (rangeGroup 0x20000 0x2000) 0x20000 0x2000, p.2.e.getLsbD 11 = true) ∧
    -- misaligned; a page that is not there; one that may not be written
    (0x2001 : Word).toNat % 4096 ≠ 0 ∧
    (pagesIn (stPaged 0x1F000 0x2000 0 0) (rangeGroup 0x1F000 0x2000) 0x1F000 0x2000).any
      (fun p => match p.2 with | .error (.page _ _ _) => true | _ => false) = true ∧
    (match walk (stPaged 0x1F000 0x2000 0 0) 0 0x1F000 with | .error (.page _ _ k) => k | _ => 0) = 4096 ∧
    (match checkLeaf (stPaged 0x20000 0x2000 0 0).lnkid 0x20000 false .write false 0x201EB 4096 with | .error (.fault 8 _) => true | _ => false) = true := by
  refine ⟨issuing_of (by decide +kernel), by decide +kernel, by decide +kernel, rangeOk_of (by decide +kernel) (by decide +kernel),
    wholePages_of (l := ⟨0x211FB, 0x104108, 4096⟩) (by decide +kernel) (by decide +kernel) (by decide +kernel), by decide +kernel⟩

theorem test_paint : after (exec (.paint 0 (.reg 1) (.reg 2) 5) (stPaged 0x20000 0x2000 0 0)) (fun t g => g.pc == 0 && g.status == .parked .maintenance &&
    Memory.readNat t.mem 0x104100 8 == 5 * 2 ^ 52 + 0x201FB && Memory.readNat t.mem 0x104108 8 == 5 * 2 ^ 52 + 0x211FB &&
    Memory.readNat t.mem 0x104110 8 == 0x221FB && SMap.find? t.shoots 10 == some ⟨0, 2, .paint, 0x20000, 0x22000, [(0x20000, 0x21000), (0x21000, 0x22000)], [], [], [], false⟩) = true := by
  decide +kernel
theorem test_paint_misaligned : after (exec (.paint 0 (.reg 1) (.reg 2) 5) (stPaged 0x20000 0x2001 0 0)) (fun t g => g.tcause == 0x50006 &&
    Memory.readNat t.mem 0x104100 8 == 0x201FB) = true := by decide +kernel
theorem test_paint_frozen : after (exec (.paint 0 (.reg 1) (.reg 2) 5) (stPaged 0x20000 0x2000 0 8)) (fun _ g => g.tcause == 0x20009) = true := by
  decide +kernel
theorem test_unpaint_frozen : after (exec (.unpaint 0 (.reg 1) (.reg 2)) (stPaged 0x20000 0x2000 0x10 8)) (fun t g => g.status == .parked .maintenance &&
    Memory.readNat t.mem 0x104100 8 == 0x209FB) = true := by decide +kernel

/-- One granule. -/
def stGran (lo : BitVec 8) (e : FreezeEntry) : State := { stPaged 0x20000 0x10000 0 lo with freezeTable := [(2, e)] }

theorem meets_FreezeAndThaw : Issuing (stGran 0 .none) (rangeGroup 0x20000 0x10000) ∧ RangeOk (stGran 0 .none) (rangeGroup 0x20000 0x10000) 0x20000 0x10000 65536 ∧
    blocksAligned (leavesIn (stGran 0 .none) (rangeGroup 0x20000 0x10000) 0x20000 0x10000) = true ∧
    (∀ p ∈ leavesIn (stGran 0 .none) (rangeGroup 0x20000 0x10000) 0x20000 0x10000, inHbm (pteAddr p.2.e) = true) ∧
    rangeGranules 0x30000 (leavesIn (stGran 0 .none) (rangeGroup 0x20000 0x10000) 0x20000 0x10000) = [2] ∧
    (∀ c ∈ [0, 1, 255], (stGran 0 ⟨c, false, 0⟩).shoots = [] ∧ (entry (stGran 0 ⟨c, false, 0⟩) 2).thawing = false ∧ (entry (stGran 0 ⟨c, false, 0⟩) 2).count = c) ∧
    (entry (stGran 0 ⟨0, true, 1⟩) 2).thawing = true ∧ (0x2000 : Word).toNat % 65536 ≠ 0 ∧
    -- another `freeze` holds the granule
    (∃ e ∈ ({ stGran 0 .none with shoots := [(8, ⟨0, 9, .freeze, 0x20000, 0x30000, [], [], [], [2], false⟩)] } : State).shoots, 2 ∈ e.2.locks) ∧
    (2 : Nat) ∈ ({ stGran 0 .none with freezePoison := [2] } : State).freezePoison ∧ (stGran 0 .none).freezePoison = [] := by
  refine ⟨issuing_of (by decide +kernel), rangeOk_of (by decide +kernel) (by decide +kernel), by decide +kernel⟩

theorem test_freeze : after (exec (.freeze 0 (.reg 1) (.reg 2)) { stGran 0 .none with leases := [(1024, 3)] }) (fun t g =>
    g.status == .parked .maintenance && (SMap.get t.freezeTable FreezeEntry.none 2).count == 1 && t.leases.isEmpty && t.shoots.map (fun e => e.2.locks) == [[2]] &&
    Memory.readNat t.mem 0x104100 8 == 0x209FB && Memory.readNat t.mem 0x104178 8 == 0x2F9FB) = true := by decide +kernel
theorem test_thaw : after (exec (.thaw 0 (.reg 1) (.reg 2)) (stGran 8 ⟨1, false, 5⟩)) (fun t g => g.status == .parked .maintenance &&
    (SMap.get t.freezeTable FreezeEntry.none 2).thawing && (SMap.get t.freezeTable FreezeEntry.none 2).count == 0 &&
    (SMap.find? t.thaws 2).any (fun q => q.2.getLsbD 0 && !q.2.getLsbD 1 && q.2.getLsbD 2) && Memory.readNat t.mem 0x104100 8 == 0x201FB) = true := by
  decide +kernel

/-- A shootdown of 0x2000 to 0x2FFF, begun by group 2, with a TLB entry that it meets, one that it does not, and an access in it. -/
def aShoot : Shoot := ⟨0, 2, .paint, 0x2000, 0x3000, [(0x2000, 0x3000)], [], [], [], false⟩
def shotCore : CoreSt :=
  { CoreSt.reset with tlb := [⟨0, 0x2000, 0x1000, 0x21FB⟩, ⟨0, 0x3000, 0x1000, 0x31FB⟩], l1 := [(64, ⟨0, 0, false, false⟩), (96, ⟨0, 0, false, false⟩)] }
def stShoot (sh : Shoot) : State :=
  { (withReq (stG { aGroup with status := .parked .maintenance }) { aReq with gid := 9 } { anOp with gid := 9 }) with
    shoots := [(8, sh)], cores := [(0, shotCore)] }

/-- A granule that thaws: package 0 still has to acknowledge; and with every acknowledgement, and a group that waits for it. -/
def stThaw (w : BitVec 22) : State :=
  { stG { aGroup with status := .parked .granule } with
    freezeTable := [(2, ⟨0, true, 1⟩)], thaws := [(2, (7, w))],
    cores := [(3, { CoreSt.reset with l1 := [(1024, ⟨0, 0, true, false⟩), (9, ⟨0, 0, false, false⟩)] })] }

theorem meets_ShootdownsAndRecalls : SMap.find? (stShoot aShoot).shoots 8 = some aShoot ∧ aShoot.shot = false ∧ aShoot.lo < aShoot.hi ∧ aShoot.hi ≤ 2 ^ 56 ∧
    (∀ e ∈ ((stShoot aShoot).core 0).tlb, e.base + e.size ≤ 2 ^ 56) ∧
    (let s := { stShoot { aShoot with shot := true, waits := [6] } with reqs := [(6, { aReq with performed := true })] }
     stillOut s 6 = false ∧ (∀ e ∈ s.shoots, e.2.ctx = 0 → 8 ≤ e.1) ∧
       s.group? 2 = some { aGroup with status := .parked .maintenance }) ∧
    SMap.find? (stThaw 1).thaws 2 = some (7, 1#22) ∧ (1#22).getLsbD 0 = true ∧ SMap.find? (stThaw 0).thaws 2 = some (7, 0#22) ∧
    (stThaw 0).group? 2 = some { aGroup with status := .parked .granule } ∧
    -- the lines 64 to 95 are the range's, 96 is not; slice 15 homes lines of the stack of granule 2 too
    (∃ p ∈ aShoot.phys, p.1 < 128 * (64 + 1) ∧ 128 * 64 < p.2) ∧ ¬(∃ p ∈ aShoot.phys, p.1 < 128 * (96 + 1) ∧ 128 * 96 < p.2) ∧
    homeSlice (65536 * 2) / 8 = (homeSlice (65536 * 2) / 8 * 8 + 7) / 8 := by decide +kernel

theorem test_shootdown : next (exec (.shootdownComplete 8) (stShoot aShoot)) (fun t => (t.core 0).tlb == [⟨0, 0x3000, 0x1000, 0x31FB⟩] &&
    (t.core 0).l1.map Prod.fst == [96] &&
    SMap.find? t.shoots 8 == some { aShoot with shot := true, waits := [6] }) = true := by decide +kernel
theorem test_shootdown_ends : after (exec (.shootdownComplete 8) { stShoot { aShoot with shot := true, waits := [6] } with reqs := [] })
    (fun t g => g.pc == 1 && g.status == .ready && t.shoots.isEmpty) = true := by decide +kernel
theorem test_recall_acknowledged : next (exec (.thawRecallArrive 2 0) (stThaw 1)) (fun t => ((t.core 3).l1.map Prod.fst) == [9] &&
    SMap.find? t.thaws 2 == some (7, 0) &&
    (List.range 8).all (fun i => SMap.get (t.core 3).recallSeq 0 (homeSlice (65536 * 2) / 8 * 8 + i) == 7)) = true := by decide +kernel
theorem test_thawed : after (exec (.thawRecallComplete 2) (stThaw 0)) (fun t g => g.status == .ready && t.freezeTable.isEmpty && t.thaws.isEmpty &&
    t.thawGen == t.gen) = true := by decide +kernel

/-! ## Monitors (Monitors) -/

/-- The group holds colour 5 from the outermost frame; groups 3 and 4 wait at it, registered. -/
def holder : Group := { aGroup with held := [(5, 0)] }
def waiter (i : Nat) : Group := { aGroup with idx := i, status := .waiting (.colour 0 5), rewait := some (5, 0) }
def stMon : State :=
  { stG holder with groups := [(2, holder), (3, waiter 1), (4, waiter 2)], crews := [(1, { aCrew with started := 3, gids := [2, 3, 4] })],
                    slates := [(5, ⟨some 2, [], false⟩)], green := [⟨0, 3, .colour 0 5⟩, ⟨0, 4, .colour 0 5⟩] }

theorem meets_MonitorInstructions : Issuing stMon holder ∧ holder.parkHere = none ∧ holder.places = [] ∧ holder.eff 2 = 0 ∧ holder.eff 0 ≠ 0 ∧
    7 ∉ holder.held.map Prod.fst ∧ holder.held.find? (fun e => e.1 == 5) = some (5, 0) ∧
    -- a higher colour is held too; none is, with an access of the colour in flight and with none
    (∃ x ∈ ({ holder with held := [(5, 0), (6, 0)] } : Group).held, 5 < x.1) ∧ (∀ x ∈ holder.held, x.1 ≤ 5) ∧
    coloursBusy (withReq stMon { aReq with colour := 5 } anOp) 2 [5] = true ∧ coloursBusy stMon 2 [5] = false ∧
    (stMon.green.filter (fun e => e.key == .colour (stMon.ctxOf holder) 5)).Nodup ∧
    ((stMon.green.filter (fun e => e.key == .colour (stMon.ctxOf holder) 5)).map Green.gid).Nodup ∧
    (∀ e ∈ stMon.green, e.gid ≠ 2 ∧ e.gid ∉ (slate stMon 0 5).queue) ∧ (waiter 1).places = [] ∧
    (∀ e ∈ stMon.green, (stMon.group? e.gid).any (fun y => y.places == [] && y.status == .waiting (.colour 0 5)) = true) ∧
    (stMon.green.filter (fun x => x.die == slateSlice 0 5 / 16)).length < 4096 :=
  ⟨issuing_of (by decide +kernel), by decide +kernel⟩

theorem test_mwait : after (exec (.mwait 0 5) stMon) (fun t g => g.held.isEmpty && g.pc == 0 && g.status == .waiting (.colour 0 5) &&
    g.rewait == some (5, 0) && (SMap.get t.slates Slate.free 5).owner == none && t.green.length == 3) = true := by decide +kernel
theorem test_mwait_not_held : after (exec (.mwait 0 7) stMon) (fun _ g => g.tcause == 0x2000B) = true := by decide +kernel
theorem test_mnotify_takes_the_first : after (exec (.mnotify 0 5) stMon) (fun t g => g.pc == 1 && t.green == [⟨0, 4, .colour 0 5⟩] &&
    (SMap.get t.slates Slate.free 5).queue == [3] && (t.group? 3).any (fun y => y.status == .parked .monitor)) = true := by decide +kernel
theorem test_mnotifyall : after (exec (.mnotifyall 0 5) stMon) (fun t _ => t.green.isEmpty && (SMap.get t.slates Slate.free 5).queue == [3, 4]) = true := by
  decide +kernel
/-- Entries in the order of their taking, and in that of their colours. -/
theorem meets_mheld : [(5, 0), (9, 1)].Perm [(9, 1), (5, 0)] ∧ ([(5, 0), (9, 1)] : List (Nat × Nat)).Pairwise (fun x y => x.1 < y.1) := by decide
theorem test_mheld : after (exec (.mheld 0 4 0) stMon) (fun _ g => g.regs.rdS 4 == 0x10005) = true ∧
    after (exec (.mheld 0 4 0) (stG { holder with held := [(9, 1), (5, 0)] })) (fun _ g => g.regs.rdS 4 == 0x20005) = true := by decide +kernel

/-- The monitor of colour 5 is free and group 2, which needs `ws` after it, stands at the head of its queue. -/
def asking (re : Option (Nat × Nat)) (ws : List Nat) : Group := { aGroup with status := .parked .monitor, rewait := re, wants := 5 :: ws }
def stGrant (re : Option (Nat × Nat)) (ws : List Nat) : State :=
  { stG (asking re ws) with
    slates := [(5, ⟨none, [2, 9], false⟩)], cores := [(0, { CoreSt.reset with l1 := [(64, ⟨0, 5, false, false⟩), (65, ⟨0, 5, true, false⟩)] })] }
/-- A group whose back-off ends at 0, not in the queue. -/
def stBackoff : State := { stG (waiter 0) with backoffs := [(2, ⟨64, 0⟩)] }

theorem meets_MonitorEvents : (∀ w ∈ [(none, []), (none, [7]), (some (5, 1), [])], let g := asking w.1 w.2
      (stGrant w.1 w.2).group? 2 = some g ∧ slate (stGrant w.1 w.2) 0 5 = ⟨none, 2 :: [9], false⟩ ∧
      g.places = [] ∧ g.leaving = none ∧ g.wants = 5 :: w.2 ∧ w.2.head? ≠ some 5 ∧ (stGrant w.1 w.2).crew? 1 = some aCrew ∧ aCrew.saved = false) ∧
    slateKey 0 7 ≠ slateKey 0 5 ∧
    stBackoff.group? 2 = some (waiter 0) ∧ SMap.find? stBackoff.backoffs 2 = some ⟨64, 0⟩ ∧ (0 : Nat) ≤ stBackoff.clock ∧
    2 ∉ (slate stBackoff 0 5).queue ∧ ({ aGroup with status := .parked .drain } : Group).status = .parked .drain := by decide +kernel

theorem test_monitor_granted : after (exec (.monitorGrant 0 5) (stGrant none [])) (fun t g => g.held == [(5, 0)] && g.pc == 0 && g.status == .ready &&
    SMap.find? t.slates 5 == some ⟨some 2, [9], false⟩ && ((t.core 0).l1.map Prod.fst) == [65] && (t.crew? 1).any (fun k => k.rcd.vcause == 2)) = true := by
  decide +kernel
theorem test_monitor_regained : after (exec (.monitorGrant 0 5) (stGrant (some (5, 1)) [])) (fun _ g => g.held == [(5, 1)] && g.pc == 1 && g.status == .ready &&
    g.rewait == none) = true := by decide +kernel
theorem test_backoff_ends : after (exec (.mwaitBackoffExpire 2) stBackoff) (fun t g => g.status == .parked .monitor && (slate t 0 5).queue == [2]) = true := by
  decide +kernel

/-! ## Futures and spawn bins (FuturesAndSpawns) -/

/-- A future at 0x2000 that holds `w`, where group 3 waits, registered. -/
def sleeper : Group := { aGroup with idx := 1, status := .waiting (.future 0x2000) }
def stFut (w : Nat) : State :=
  { stG aGroup with groups := [(2, aGroup), (3, sleeper)], mem := Memory.writeNat st.mem 0x2000 w 8, green := [⟨0, 3, .future 0x2000⟩] }

theorem meets_Futures : Issuing (stFut 5) aGroup ∧ aGroup.sOk (.reg 1) = true ∧ aGroup.sOk (.reg 2) = true ∧ aGroup.eff 0 ≠ 0 ∧
    quiet (stFut 5) 2 = true ∧ quiet (withReq (stFut 5) aReq anOp) 2 = false ∧ (aGroup.sval (.reg 2)).toNat % 8 ≠ 0 ∧
    (aGroup.sval (.reg 1)).toNat % 8 = 0 ∧ (∀ need ∈ [Need.read, .write], futureXl (stFut 5) aGroup 0x2000 need = .ok ⟨0x2000, 0, false, false⟩) ∧
    -- a coloured page
    (match futureXl { stFut 5 with mem := tables (5 * 2 ^ 52 + leafBits) } aGroup 0x2000 .read with | .ok x => x.colour | .error _ => 0) = 5 ∧
    inHbm 0x2000 = true ∧ poisoned (stFut 5) 0x2000 8 = false ∧ 2 ^ 63 ≤ Memory.readNat (stFut (2 ^ 63 + 9)).mem 0x2000 8 ∧
    Memory.readNat (stFut 5).mem 0x2000 8 < 2 ^ 63 ∧ ((stFut 5).green.filter (fun e => e.die == homeSlice 0x2000 / 16)).length < 4096 ∧
    fencesHold (stFut 5) 2 aGroup = false ∧ granuleFrozen { stFut 5 with freezeTable := [(0, ⟨1, false, 0⟩)] } 0x2000 = true ∧ granuleFrozen (stFut 5) 0x2000 = false ∧
    (∀ e ∈ (stFut 5).green, e.key = .future 0x2000 → e.gid ≠ 2) ∧ sleeper.places = [] ∧ (stFut 5).freezePoison = [] ∧ (stFut 5).stampPoison = [] ∧
    -- a page that may not be read
    (match futureXl { stFut 5 with mem := tables (leafBits - 8) } aGroup 0x2000 .read with | .error (.fault c _) => c | _ => 0) = 8 :=
  ⟨issuing_of (by decide +kernel), by decide +kernel⟩

theorem test_fget_full : after (exec (.fget 0 4 (.reg 1)) (stFut (2 ^ 63 + 9))) (fun _ g => g.pc == 1 && g.regs.rdS 4 == 9) = true := by decide +kernel
theorem test_fget_waits : after (exec (.fget 0 4 (.reg 1)) (stFut 5)) (fun t g => g.pc == 0 && g.status == .waiting (.future 0x2000) && t.green.length == 2) = true := by
  decide +kernel
theorem test_fput : after (exec (.fput 0 (.reg 1) (.reg 2)) (stFut 5)) (fun t g => g.pc == 1 && Memory.readNat t.mem 0x2000 8 == 2 ^ 63 + 3 &&
    t.green.isEmpty && (t.group? 3).any (fun y => y.status == .ready && y.pc == 0)) = true := by decide +kernel
theorem test_rdcnt : let c : Ctx := { st.ctx 0 with cnt := [(3, 77)], cntcfg := [(3, 33)] }
    after (exec (.rdcnt 0 4 3) { st with ctxs := [(0, { c with cntgrant := true })] }) (fun _ g => g.regs.rdS 4 == 77) = true ∧
    after (exec (.rdcnt 0 4 3) { st with ctxs := [(0, c)] }) (fun _ g => g.regs.rdS 4 == 0) = true := by decide +kernel

/-- A group that found the green room full and checks again. -/
def stFutBack (w : Nat) : State := { stFut w with groups := [(2, { sleeper with idx := 0 })], green := [], backoffs := [(2, ⟨64, 0⟩)] }

theorem meets_FutureBackoff : (stFutBack 5).group? 2 = some { sleeper with idx := 0 } ∧ SMap.find? (stFutBack 5).backoffs 2 = some ⟨64, 0⟩ ∧
    0 ≤ (stFutBack 5).clock ∧ Memory.readNat (stFutBack 5).mem 0x2000 8 < 2 ^ 63 ∧ 2 ^ 63 ≤ Memory.readNat (stFutBack (2 ^ 63)).mem 0x2000 8 ∧
    poisoned (stFutBack 5) 0x2000 8 = false ∧ poisoned { stFutBack 5 with memPoison := [0x2000 / 4] } 0x2000 8 = true := by
  decide +kernel

theorem test_green_room : after (exec (.greenRoomBackoffExpire 2) (stFutBack 5)) (fun t _ => t.green == [⟨0, 2, .future 0x2000⟩] && t.backoffs.isEmpty) = true ∧
    after (exec (.greenRoomBackoffExpire 2) (stFutBack (2 ^ 63))) (fun t g => g.status == .ready && t.green.isEmpty) = true := by decide +kernel

/-- A bin of launch 0 for 0x2000 on core 0 with `n` threads, begun at 0. -/
def stBin (n : Nat) : State :=
  { st with cores := [(0, { CoreSt.reset with bins := [⟨0x2000, 0, (List.range n).map (fun i => (1, [BitVec.ofNat 32 i, 0, 0, 0])), 0⟩] })] }

/-- The same bin, opened by launch 1 of the context. -/
def stBin2 (n : Nat) : State :=
  { st with launches := [(0, probeLaunch), (1, probeLaunch)],
            cores := [(0, { CoreSt.reset with bins := [⟨0x2000, 1, (List.range n).map (fun i => (1, [BitVec.ofNat 32 i, 0, 0, 0])), 0⟩] })] }

theorem meets_SpawnBins : Issuing (stBin 62) aGroup ∧ aGroup.sOk (.reg 1) = true ∧ (stBin 62).crewOf aGroup = some aCrew ∧ aGroup.eff 0 ≠ 0 ∧
    (Instr.spawn 0 (.reg 1) (.reg 4)).wf = true ∧ quiet (stBin 62) 2 = true ∧ quiet (withReq (stBin 62) aReq anOp) 2 = false ∧
    ((binOf (stBin 62) 0 0 0x2000).elim [] Bin.threads).length < probeLaunch.w ∧ (lanesOf (aGroup.eff 0)).length ≤ probeLaunch.w ∧
    (stBin 62).launch? 0 = some probeLaunch ∧ (((stBin 62).core 0).bins.filter (binHolds (stBin 62) 0 0x2000)).length ≤ 1 ∧
    binOf (stBin 62) 0 0 0x2000 ≠ none ∧ ((stBin 62).core 0).bins.length < 33 ∧ binOf st 0 0 0x2000 = none ∧ (st.core 0).bins.length < 32 ∧
    -- the end of a bin's time, with one of another address before it
    (let b : Bin := ⟨0x2000, 0, (List.range 3).map (fun i => (1, [BitVec.ofNat 32 i, 0, 0, 0])), 0⟩
     ((stBin 3).core 0).bins = [] ++ b :: [] ∧ { stBin 3 with clock := 1 }.launch? b.launch = some probeLaunch ∧ b.start + probeLaunch.spawnt ≤ 1 ∧
      ∀ x ∈ [({ b with entry := 0x3000 } : Bin)], x.entry ≠ 0x2000) ∧
    -- a bin of another launch of the context
    binOf (stBin2 3) 0 0 0x2000 = some ⟨0x2000, 1, (List.range 3).map (fun i => (1, [BitVec.ofNat 32 i, 0, 0, 0])), 0⟩ :=
  ⟨issuing_of (by decide +kernel), by decide +kernel⟩

/-- Four threads join 62: 64 are flushed and two begin a bin. -/
theorem test_spawn_flushes : after (exec (.spawn 0 (.reg 1) (.reg 4)) (stBin 62)) (fun t g => g.pc == 1 && t.flushed.map (fun f => f.threads.length) == [64] &&
    ((t.core 0).bins.map (fun b => b.threads.length)) == [2] && (t.crew? 1).any (fun k => k.rcd.vcause == 4)) = true := by decide +kernel
theorem test_binflush : after (exec (.binflush 0 (.reg 1)) (stBin 3)) (fun t g => g.pc == 1 && t.flushed.map (fun f => f.threads.length) == [3] &&
    (t.core 0).bins.isEmpty) = true := by decide +kernel
theorem test_binflush_other : after (exec (.binflush 0 (.reg 2)) (stBin 3)) (fun t g => g.pc == 1 && t.flushed.isEmpty &&
    (t.core 0).bins == ((stBin 3).core 0).bins) = true := by decide +kernel
theorem test_spawn_joins_other_launch : after (exec (.spawn 0 (.reg 1) (.reg 4)) (stBin2 3)) (fun t _ =>
    (t.core 0).bins.map (fun b => (b.launch, b.threads.length)) == [(1, 7)]) = true := by decide +kernel
theorem meets_binflush_masked : aGroup.eff 2 = 0 ∧ aGroup.sOk (.reg 1) = true := by decide +kernel
theorem test_bin_timer : next (exec (.spawnBinTimerExpire 0 0x2000) { stBin 3 with clock := 1 }) (fun t => t.flushed.map (fun f => f.threads.length) == [3]) = true := by
  decide +kernel

/-! ## Launches and retakes (LaunchesAndRetakes) -/

/-- A record at 0x2000: entry 0x40, one crew of one group of 64 lanes and 512 registers; `c` is CONT, `w` the word at 0x70. -/
def recMem (c w : Nat) : Memory :=
  [0x40, 2 ^ 48 + 2 ^ 32 + 1, 63 * 2 ^ 20 + 2 * 2 ^ 18, 0x77, 0, c, 0, 0, 0, 0, 0, 0, 0, 0, w].zipIdx.foldl
    (fun m p => Memory.writeNat m (0x2000 + 8 * p.2) p.1 8) (tables leafBits)
def stRec (c w : Nat) : State := { st with mem := recMem c w }
/-- Its words. -/
def rec0 (c w : Nat) : List (BitVec 64) := recordAt (stRec c w) 0x2000 0x2040

theorem meets_LaunchInstructions : Issuing (stRec 0 0) aGroup ∧ aGroup.sOk (.reg 1) = true ∧ aGroup.eff 0 ≠ 0 ∧ aGroup.subHere = none ∧
    (aGroup.sval (.reg 2)).toNat % 64 ≠ 0 ∧ (aGroup.sval (.reg 1)).toNat % 64 = 0 ∧
    (let u := tlbFill (tlbFill (stRec 0 0) 0 0 0x2000) 0 0 0x2040
     xlate u 0 0 0x2000 false .write true = .ok ⟨0x2000, 0, false, false⟩ ∧ xlate u 0 0 0x2040 false .write true = .ok ⟨0x2040, 0, false, false⟩) ∧
    quiet (stRec 0 0) 2 = true ∧ quiet (withReq (stRec 0 0) aReq anOp) 2 = false ∧
    ((stRec 0 0).launches.filter (fun e => e.2.ctx == 0 && decide (1 ≤ e.2.state ∧ e.2.state ≤ 3))).length < 256 ∧
    256 ≤ (({ stRec 0 0 with launches := (List.range 256).map (fun i => (i, probeLaunch)) } : State).launches.filter
      (fun e => e.2.ctx == 0 && decide (1 ≤ e.2.state ∧ e.2.state ≤ 3))).length ∧
    (∀ p ∈ [0x2000, 0x2040], ∀ i, i < 64 → inWindow (stRec 0 0).lnkid (p + i) = false) ∧ submitFar (stRec 0 0) 0 0x2000 0x2040 = none ∧
    granuleFrozen (stRec 0 0) 0x2070 = false ∧ 0x2040 % 64 = 0 ∧ reasonOf (stRec 0 0) 0 false (rec0 0 0) = none ∧
    submitFar (stRec 0 4) 0 0x2000 0x2040 = none ∧
    reasonOf (stRec 0x3000 4) 0 true (rec0 0x3000 4) = none ∧ reasonOf (stRec 0 2) 0 false (rec0 0 2) = some 7 ∧
    reasonOf (stRec 0 4) 0 true (rec0 0 4) = some 10 ∧
    -- an answer that waits to be taken, and one that has not come
    (let a := some (0x100000001 : Word)
     ({ aGroup with subs := [⟨0, 0, 7, a⟩] } : Group).subHere = some ⟨0, 0, 7, a⟩ ∧ ({ aGroup with subs := [⟨0, 0, 7, none⟩] } : Group).subHere = some ⟨0, 0, 7, none⟩) ∧
    -- a page that may not be written
    (match xlate (stRec 0 0) 0 0 0x2000 false .write true with | .ok _ => true | .error _ => false) = true ∧
    (match xlate { stRec 0 0 with mem := tables (leafBits - 16) } 0 0 0x2000 false .write true with | .error (.fault c _) => c | _ => 0) = 8 :=
  ⟨issuing_of (by decide +kernel), by decide +kernel⟩

theorem ringReady_rec : RingReady (stRec 0 4) 0 0x9000 := ringReady_of (by decide +kernel)

theorem test_launch_accepted : after (exec (.launch 0 4 (.reg 1)) (stRec 0 0)) (fun t g => g.pc == 1 && g.regs.rdS 4 == 0x200000001 && t.gen == 2 &&
    Memory.readNat t.mem 0x2070 8 == 0x200000001 && (SMap.find? t.launches 10).any (fun l => l.entry == 0x40 && l.nregs == 512 && l.w == 64 && l.param == 0x77)) = true := by
  decide +kernel
theorem test_launch_running : after (exec (.launch 0 4 (.reg 1)) (stRec 0 2)) (fun t g => g.pc == 1 && g.regs.rdS 4 == 0x705 && t.gen == 1 &&
    Memory.readNat t.mem 0x2070 8 == 2 && Memory.readNat t.mem 0x9000 8 % 2 ^ 24 == 0x78021) = true := by decide +kernel
theorem test_retake_no_cont : after (exec (.retake 0 4 (.reg 1)) (stRec 0 4)) (fun t g => g.regs.rdS 4 == 0xA05 && Memory.readNat t.mem 0x2070 8 == 0xA05) = true := by
  decide +kernel
theorem test_retake_accepted : after (exec (.retake 0 4 (.reg 1)) (stRec 0x3000 4)) (fun t g => g.regs.rdS 4 == 0x200000001 &&
    (SMap.find? t.launches 10).any (fun l => l.isRetake && !l.decided && l.cont == 0x3000)) = true := by decide +kernel

theorem meets_LaunchReasons : 1 ≤ fieldOf (rec0 0 2) 0x70 0 4 ∧ fieldOf (rec0 0 2) 0x70 0 4 ≤ 3 ∧ fieldOf (rec0 0 0) 0x70 0 4 = 0 ∧
    -- no crew; an entry that is no line; a retake of a completed launch with a continuity area
    fieldOf ((rec0 0 0).set 1 0) 8 0 32 = 0 ∧ fieldOf ((rec0 0 0).set 0 0x41) 0 0 6 ≠ 0 ∧ fieldOf ((rec0 0 0).set 2 0x3F81000) 16 8 5 = 16 ∧
    fieldOf ((rec0 0 0).set 2 0x3F81000) 16 37 1 = 0 ∧ reasonOf (stRec 0 0) 0 false ((rec0 0 0).set 2 0x3F81000) ≠ some 1 ∧
    reasonOf (stRec 0x3000 4) 0 true (rec0 0x3000 4) = none := by decide +kernel

/-- The mailbox of context 0 holds one address. -/
def stMail (va : Word) : State := { stRec 0 0 with cryo := { (stRec 0 0).cryo with st := 4 }, ctxs := [(0, { st.ctx 0 with mailbox := [va, 0x40] })] }

theorem meets_MailboxTakes : ((stMail 0x2000).ctx 0).mailbox = 0x2000 :: [0x40] ∧ ((stMail 0x2000).ctx 0).mailBusy = none ∧
    (0x2001 : Word).toNat % 64 ≠ 0 ∧ RingReady (stMail 0x2001) 0 0x9000 ∧
    xlateWalk (stMail 0x2000) 0 0x2000 false ⟨true, true, false⟩ true = .ok ⟨0x2000, 0, false, false⟩ ∧
    xlateWalk (stMail 0x2000) 0 0x2040 false ⟨true, true, false⟩ true = .ok ⟨0x2040, 0, false, false⟩ ∧
    (∀ p ∈ [0x2000, 0x2040], ∀ i, i < 64 → inWindow (stMail 0x2000).lnkid (p + i) = false) ∧ submitFar (stMail 0x2000) 0 0x2000 0x2040 = none ∧
    granuleFrozen (stMail 0x2000) 0x2070 = false ∧ (stMail 0x2000).cryo.st ≠ 0 ∧ (stMail 0x2000).cryo.st ≠ 7 ∧
    reasonOf (stMail 0x2000) 0 false (recordAt (stMail 0x2000) 0x2000 0x2040) = none :=
  ⟨by decide +kernel, by decide +kernel, by decide, ringReady_of (by decide +kernel), by decide +kernel⟩

theorem test_mailbox : next (exec (.mailboxEntryTake 0) (stMail 0x2000)) (fun t => (t.ctx 0).mailbox == [0x40] && Memory.readNat t.mem 0x2070 8 == 0x200000001) = true ∧
    next (exec (.mailboxEntryTake 0) (stMail 0x2001)) (fun t => (t.ctx 0).mailbox == [0x40] && (t.ctx 0).fqtail == 1) = true := by decide +kernel

/-- A retake of two crews whose entries stand at 0x3000 and 0x3100: the first as `w` says, with one range of block 0x40, the second volatile. -/
def aRetake (preds : List Nat) : Launch :=
  { probeLaunch with isRetake := true, decided := false, state := 1, cont := 0x3000, gx := 2, preds := preds, begun := 0 }
def contMem (w0 w1 : Nat) : Memory :=
  Memory.writeNat (Memory.writeNat (Memory.writeNat (tables leafBits) 0x3000 w0 8) 0x3010 (0x40 * 2 ^ 24 + 1) 8) 0x3100 w1 8
def stRetake (preds : List Nat) (w0 w1 : Nat) (stamps : SMap (BitVec 32)) : State :=
  { st with launches := [(0, aRetake preds)], mem := contMem w0 w1, stamps := stamps }

theorem meets_RetakeDecides : (stRetake [] 0x100000801 0x100000003 []).launch? 0 = some (aRetake []) ∧ (aRetake []).isRetake = true ∧
    (aRetake []).state = 1 ∧ (aRetake []).decided = false ∧ (aRetake []).clearing = false ∧ (aRetake []).issuer = none ∧
    (aRetake []).reject = 0 ∧ (aRetake []).met5 = false ∧ decisionFar (stRetake [] 0x100000801 0x100000003 []) (aRetake []) = none ∧
    (aRetake []).coop = false ∧ (aRetake []).quad = false ∧
    (∀ k ∈ [0, 1], (match xlateWalk (stRetake [] 0x100000801 0x100000003 []) 0 (0x3000 + BitVec.ofNat 64 (256 * k)) false .read false with
      | .ok x => decide (x.pa = 0x3000 + 256 * k)
      | .error _ => false) = true) ∧
    (∀ k ∈ [0, 1], ∀ i, i < 256 → inWindow (stRetake [] 0x100000801 0x100000003 []).lnkid (0x3000 + 256 * k + i) = false) ∧
    -- a predecessor that runs, and one that is rejected
    (∀ w ∈ [2, 5], Memory.readNat (stRetake [0x3000] w 0 []).mem 0x3000 8 % 16 = w ∧ inWindow (stRetake [0x3000] w 0 []).lnkid 0x3000 = false ∧
      decisionFar (stRetake [0x3000] w 0 []) (aRetake [0x3000]) = none ∧ fqRoom ((stRetake [0x3000] w 0 []).ctx 0) = 127) := by decide +kernel

theorem ringReady_retake : RingReady (stRetake [0x3000] 5 0 []) 0 0x9000 := ringReady_of (by decide +kernel)

theorem test_retake_stands : next (exec (.retakeDecision 0) (stRetake [] 0x100000801 0x100000001 [(0x42, 9)])) (fun t => t.launches.isEmpty && t.gen == 2) = true := by
  decide +kernel
theorem test_retake_reruns : next (exec (.retakeDecision 0) (stRetake [] 0x100000801 0x100000001 [(0x41, 9)])) (fun t =>
    (t.launch? 0).any (fun l => l.decided && l.rerun == some [0])) = true := by decide +kernel
theorem test_retake_volatile : next (exec (.retakeDecision 0) (stRetake [] 0x100000801 0x100000003 [])) (fun t =>
    (t.launch? 0).any (fun l => l.rerun == some [1])) = true := by decide +kernel
theorem test_retake_waits : next (exec (.retakeDecision 0) (stRetake [0x3000] 2 0 [])) (fun t => t == stRetake [0x3000] 2 0 []) = true := by decide +kernel

/-! ## Retirement and late traps (Retirement) -/

/-- A group that has exited, the last of its crew; and one of two. -/
def left : Group := { aGroup with leaving := some .exit, active := 0, live := 0 }
def stLeft (gids : List Nat) : State :=
  { stG left with crews := [(1, { aCrew with gids := gids })], slates := [(5, ⟨some 2, [9], false⟩)], green := [⟨0, 2, .colour 0 7⟩],
                  launches := [(0, { probeLaunch with pa := 0x2070 })] }

theorem meets_RetirementEvents : (∀ gids ∈ [[2], [2, 3]], (stLeft gids).group? 2 = some left ∧ (stLeft gids).crew? left.crew = some { aCrew with gids := gids }) ∧
    left.leaving = some .exit ∧ left.stopped = false ∧ left.lc = [] ∧ left.sc = [] ∧ left.cc = [] ∧ left.xc = [] ∧ left.heldFaults = [] ∧ left.parks = [] ∧
    coloursBusy (stLeft [2]) 2 left.colours = false ∧ entryFar (stLeft [2]) left.crew = none ∧
    (let l : Launch := { probeLaunch with pa := 0x2070 }
     (stLeft [2]).launch? 0 = some l ∧ l.cont = 0 ∧ l.toRun ≤ l.begun ∧ 2 ≤ l.state ∧ ({ l with gx := 2 } : Launch).begun < ({ l with gx := 2 } : Launch).toRun) ∧
    (∀ e ∈ (stLeft [2]).crews, e.2.launch = 0 → e.1 = 1) ∧ (stLeft [2]).flushed = [] ∧ (stLeft [2]).cores = [] ∧
    inWindow (stLeft [2]).lnkid 0x2070 = false ∧ granuleFrozen (stLeft [2]) 0x2070 = false ∧ granuleFrozen (stLeft [2]) (0x2070 + 7) = false ∧
    (let g : Group := { aGroup with status := .parked .trigger }
     (stG g).group? 2 = some g ∧ g.places = [] ∧ storesPending (stG g) 2 = false) := by decide +kernel

theorem test_last_group_retires : next (exec (.groupRetire 2) (stLeft [2])) (fun t => t.groups.isEmpty && t.crews.isEmpty && t.launches.isEmpty && t.gen == 2 &&
    t.green.isEmpty && (SMap.get t.slates Slate.free 5).owner != some 2 && Memory.readNat t.mem 0x2070 8 == 0x100000004) = true := by decide +kernel
theorem test_a_group_retires : next (exec (.groupRetire 2) (stLeft [2, 3])) (fun t => t.groups.isEmpty && (t.crew? 1).any (fun k => k.gids == [3] && !k.rcd.broken) &&
    (t.launch? 0).isSome) = true := by decide +kernel
theorem test_trigger_completes : after (exec (.triggerComplete 2) (stG { aGroup with status := .parked .trigger })) (fun t g => g.pc == 1 &&
    (t.crew? 1).any Crew.triggered) = true := by decide +kernel

/-- A record of the group that waits for room, which there is. -/
def waitsRoom : Group := { aGroup with status := .parked .faultRoom, pend := some 4 }
def aPend : PendFault := ⟨0, some 2, 0x41, [FaultInfo.of 1 3], 0, 0, 0, false, none, none⟩
def stPend : State := { stG waitsRoom with pends := [(4, aPend)] }
/-- A request that is posted to a group that waits. -/
def posted : Group := { aGroup with status := .waiting (.colour 0 5), pager := some 0x5000 }
def postedSup : Group := { aGroup with status := .parked .counters, pager := some 0x5000, sup := true, tcause := 5, tpc := 0x77, trec := 9 }
def postedIdle : Group := { postedSup with status := .parked .idle }

theorem meets_LateTraps : stPend.group? 2 = some waitsRoom ∧ RingReady stPend (stPend.ctxOf waitsRoom) 0x9000 ∧ SMap.find? stPend.pends 4 = some aPend ∧
    aPend.recs = [FaultInfo.of 1 3] ∧ (FaultInfo.of 1 3).cause < 36 ∧ aPend.ctx = stPend.ctxOf waitsRoom ∧
    (stG posted).group? 2 = some posted ∧ RingReady (stG posted) ((stG posted).ctxOf posted) 0x9000 ∧ posted.pager = some 0x5000 ∧
    pagerPoint (stG posted) 2 posted = true ∧ waitsRoom.pend = some 4 ∧ waitsRoom.places = [] ∧ aPend.launch = none ∧ aPend.deliv = 0 ∧
    posted.status ≠ .parked .idle ∧ posted.sup = false ∧
    -- in a trap already, in a wait; and in `idle`
    pagerPoint (stG postedSup) 2 postedSup = true ∧ postedSup.sup = true ∧ postedIdle.status = .parked .idle ∧ postedIdle.sup = true ∧
    postedIdle.leaving = none ∧ mayTrap (stG postedIdle) postedIdle = true ∧
    RingReady (stG postedSup) ((stG postedSup).ctxOf postedSup) 0x9000 ∧ RingReady (stG postedIdle) ((stG postedIdle).ctxOf postedIdle) 0x9000 :=
  ⟨by decide +kernel, ringReady_of (by decide +kernel), by decide +kernel, rfl, by decide, by decide +kernel, by decide +kernel,
    ringReady_of (by decide +kernel), by decide +kernel, by decide +kernel, rfl, rfl, rfl, rfl, by decide, rfl, by decide +kernel, rfl, rfl, rfl, rfl,
    by decide +kernel, ringReady_of (by decide +kernel), ringReady_of (by decide +kernel)⟩

theorem test_record_written_late : after (exec (.faultRecordWrite 4) stPend) (fun t g => g.sup && g.tcause == 0x30001 && g.tpc == 0x41 && g.pend == none &&
    t.pends.isEmpty && Memory.readNat t.mem 0x9000 8 == 0x30001) = true := by decide +kernel
theorem test_pager_nested : after (exec (.pagerRequest 2 0x5000) (stG postedSup)) (fun _ g => g.sup && g.tcause == 0x30007 &&
    g.places.map (fun p => (p.nest.map TrapSave.tcause, p.nest.map TrapSave.tpc)) == [(some 5, some 0x77)]) = true := by decide +kernel
theorem test_pager_idle : after (exec (.pagerRequest 2 0x5000) (stG postedIdle)) (fun _ g => g.tcause == 0x30007 && g.tpc == 1 && g.pager == none) = true := by
  decide +kernel
theorem test_pager_request : after (exec (.pagerRequest 2 0x5000) (stG posted)) (fun t g => g.sup && g.tcause == 0x30007 && g.pager == none &&
    g.places.map Place.status == [.waiting (.colour 0 5)] && Memory.readNat t.mem 0x9010 8 == 0x5000) = true := by decide +kernel

/-! ## Placement and pre-emption (PlacementAndPreemption) -/

/-- Context 0 runs on die 0, with room for eight crews; no crew is there. -/
def runCtx : Ctx := { st.ctx 0 with vfcfg := 0xA00000101, svcount := 8, scheduled := true }
def stRun : State := { st with cryo := coldCryo, ctxs := [(0, runCtx)], groups := [], crews := [] }
/-- An eligible launch of one crew of two groups. -/
def ready1 : Launch := { probeLaunch with state := 1, begun := 0, groups := 2, nregs := 64, entry := 0x40, eligibleSince := some 0 }
def stPlace (l : Launch) : State := { stRun with launches := [(0, l)] }
/-- One that fills a core, at the head since 0; core 5 holds a group, and the others of the die are reserved for another unit. -/
def tooBig : Launch := { ready1 with groups := 4, nregs := 512, headSince := some 0 }
def stHead : State :=
  { stPlace tooBig with clock := 65536, groups := [(2, { aGroup with core := 5 })], crews := [(1, { aCrew with cores := [5] })],
                        reserved := [⟨0, .launch 9 0, (List.range 64).filter (· != 5)⟩] }
/-- A flushed group of two threads from core 3. -/
def aFlush : Flushed := ⟨0, 0, 3, 0x80, [[1, 2, 3, 4], [5, 6, 7, 8]], 0⟩
/-- A crew that has run for long on a core that has been hot for long. -/
def stHot : State :=
  { stRun with time := 10 ^ 12, launches := [(0, probeLaunch)], crews := [(1, aCrew)], groups := [(2, aGroup)],
               cores := [(0, { CoreSt.reset with hotSince := some 0 })] }

theorem meets_PlacementEvents : (stPlace ready1).launch? 0 = some ready1 ∧ eligible (stPlace ready1) ready1 = true ∧ placing (stPlace ready1) 0 = true ∧
    slotsOk (stPlace ready1) ready1.unit = true ∧ anyFits (stPlace ready1) (unitsBefore (stPlace ready1) ready1) = false ∧ unitFits (stPlace ready1) ready1.unit [5] = true ∧
    headDue (stPlace ready1) 0 (.launch 0 0) = false ∧
    (∀ c ∈ ready1.unit.cores [5], mayUse (stPlace ready1) (.launch 0 0) c = true) ∧ predFar (stPlace ready1) ready1 = none ∧
    (let s : State := { stPlace { ready1 with begun := 1 } with flushed := [aFlush] }
     s.launch? aFlush.launch = some { ready1 with begun := 1 } ∧ placing s 0 = true ∧ slotsOk s (aFlush.unit s) = true ∧
       spawnCore s (aFlush.unit s) (mayUse s (.spawn aFlush)) = some 3 ∧ (∀ a ∈ aFlush.threads, a.length = 4) ∧ aFlush.threads.length ≤ 64) ∧
    (let s : State := { stPlace ready1 with clock := 65536 }
     0 + 2 ^ ((s.ctx 0).schedctl.toNat / 2 ^ 4 % 2 ^ 4 + 10) ≤ s.clock ∧ eligible s ready1 = true) ∧
    (let s := stHead
     (headOf s 0).isSome = true ∧ placing s 0 = true ∧ (headOf s 0).any (fun h => h.2.2 == some 0 && !unitCanFit s h.1 h.2.1 && (reservedFor s h.1).isNone &&
       unitFits { s with groups := [], crews := [] } h.2.1 [5] && h.2.1.home.isNone && (h.2.1.cores [5]).all (mayUse s h.1)) = true ∧
       0 + 256 * Nat.max 1 ((s.ctx 0).schedctl.toNat / 2 ^ 16 % 2 ^ 16) ≤ s.clock) ∧
    together stHot 1 = [1] ∧ stHot.crew? 1 = some aCrew ∧ mayMigrate stHot aCrew = true := by decide +kernel

theorem test_crew_placed : next (exec (.crewPlace false 0 [5]) (stPlace ready1)) (fun t => (t.launch? 0).any (fun l => l.state == 2 && l.begun == 1) &&
    t.crews.map (fun e => (e.2.cores, e.2.started)) == [([5], 2)] && t.groups.map (fun e => (e.2.core, e.2.pc, e.2.idx, e.2.live == fullMask 64)) ==
      [(5, 0x40, 0, true), (5, 0x40, 1, true)]) = true := by decide +kernel
theorem test_spawned_placed : next (exec (.crewPlace true 0 [3]) { stPlace { ready1 with begun := 1 } with flushed := [aFlush] }) (fun t => t.flushed.isEmpty &&
    t.crews.map (fun e => (e.2.cores, e.2.spawned)) == [([3], true)] && t.groups.map (fun e => (e.2.pc, e.2.live, e.2.regs.rdV 2 1)) == [(0x80, 3, 7)]) = true := by
  decide +kernel
theorem test_ageing : next (exec (.priorityAgeing 0) { stPlace ready1 with clock := 65536 }) (fun t => (t.launch? 0).any (fun l => l.boost == 1 &&
    l.eligibleSince == some 65536)) = true := by decide +kernel
theorem test_head_reserves : next (exec (.headReservation 0 [5]) stHead) (fun t => (reservedFor t (.launch 0 0)) == some [5]) = true := by
  decide +kernel
theorem test_crew_migrates : next (exec (.crewMigrate 1) stHot) (fun t => (t.crew? 1).any Crew.migrating) = true := by decide +kernel

/-- The crew in a world switch: asked for, with its group at a stop point and not. -/
def waiting1 : Group := { aGroup with status := .waiting (.colour 0 5) }
def stAsk (g : Group) (c : Crew) : State :=
  { stRun with launches := [(0, probeLaunch)], crews := [(1, c)], groups := [(2, g)], ctxs := [(0, { runCtx with switching := true, svbase := 0x800000 })] }
def askedCrew : Crew := { aCrew with preempt := true }
/-- The crew, saved. -/
def savedCrew : Crew := { aCrew with saved := true, scratch := [(3, 7)], cores := [7] }
def stSaved : State :=
  { stRun with launches := [(0, probeLaunch)], crews := [(1, savedCrew)], groups := [(2, { waiting1 with stopped := true, core := 7 })] }
/-- Two crews of a cooperative launch, saved. -/
def stSaved2 : State :=
  { stRun with launches := [(0, { probeLaunch with coop := true })], crews := [(1, savedCrew), (4, { savedCrew with idx := 1, gids := [6], cores := [8] })],
               groups := [(2, { waiting1 with stopped := true, core := 7 }), (6, { waiting1 with stopped := true, core := 8, crew := 4 })] }
/-- Its matrix group, with the array of core 0 claimed. -/
def stMg : State :=
  { stAsk { waiting1 with stopped := true } { askedCrew with matrixGroup := some 2 } with
    cores := [(0, { CoreSt.reset with array := { CoreSt.reset.array with holder := some 1 } })] }

theorem meets_PreemptionEvents : together (stAsk waiting1 aCrew) 1 = [1] ∧ (stAsk waiting1 aCrew).crew? 1 = some aCrew ∧
    preemptReason (stAsk waiting1 aCrew) aCrew = true ∧ atStop (stAsk waiting1 aCrew) 2 waiting1 = true ∧ waiting1.crew = 1 ∧
    (let g : Group := { waiting1 with stopped := true }
     (stAsk g askedCrew).crew? 1 = some askedCrew ∧ askedCrew.preempt = true ∧ crewQuiet (stAsk g askedCrew) 1 = true ∧
       (stAsk g askedCrew).group? 2 = some g ∧ imageDue (stAsk g askedCrew) 1 askedCrew = none ∧ together (stAsk g askedCrew) 1 = [1] ∧
       saveReady (stAsk g askedCrew) 1 = true ∧ slotFar (stAsk g askedCrew) askedCrew = none ∧ askedCrew.saved = false ∧
       askedCrew.scratchBytes ≤ 655360 ∧ (∀ gid ∈ askedCrew.gids, ∀ h, (stAsk g askedCrew).group? gid = some h → h.stopped = true ∧ h.idx < 32) ∧
       -- its pages translate to themselves, and 0x2000 lies in none of them
       (slotPages (stAsk g askedCrew) askedCrew).all (fun p =>
         match xlateWalk (stAsk g askedCrew) 0 (slotVa (stAsk g askedCrew) askedCrew p) true .write false with
         | .ok x => decide (0x2000 < x.pa ∨ x.pa + 4096 ≤ 0x2000)
         | .error _ => false) = true) ∧
    (stMg.core 0).array.holder = some 1 ∧ stMg.crew? 1 = some { askedCrew with matrixGroup := some 2 } ∧ crewQuiet stMg 1 = true ∧
    stSaved.crew? 1 = some savedCrew ∧ together stSaved 1 = [1] ∧ stSaved.running = true ∧ (stSaved.ctx 0).scheduled = true ∧ (stSaved.ctx 0).switching = false ∧ (stSaved.ctx 0).restoring = false ∧
    unitFits stSaved (crewUnit stSaved [savedCrew]) [5] = true ∧ savedCrew.migrating = false ∧ savedCrew.hasImage = false ∧
    (∀ gid ∈ savedCrew.gids, ∀ g, stSaved.group? gid = some g → g.crew = 1) ∧ savedCrew.ctx = 0 ∧
    -- two crews that belong together, restored together
    (let us := together stSaved2 1
     us = [1, 4] ∧ us.Nodup ∧ (∀ k ∈ us, ∃ d ∈ stSaved2.crews.map Prod.snd, stSaved2.crew? k = some d ∧ d.saved = true ∧ d.ctx = 0) ∧
      unitFits stSaved2 (crewUnit stSaved2 (us.filterMap stSaved2.crew?)) [4, 5] = true) ∧
    (let s : State := { stRun with time := 10 ^ 12 }
     (s.ctx 0).quantumStart + 8400000 * Nat.max 1 ((s.ctx 0).vfcfg.toNat / 2 ^ 32 % 2 ^ 8) ≤ s.time ∧ (partners s 0).any (hasWork s) = false) ∧
    (let s : State := { stHot with ctxs := [(0, runCtx), (6, { runCtx with scheduled := false })], crews := [(1, aCrew), (5, { aCrew with ctx := 6 })] }
     (partners s 0).any (hasWork s) = true ∧ (s.ctx 0).restoring = false ∧ (∃ e ∈ s.crews, e.2.ctx = 0 ∧ e.2.saved = false)) ∧
    (let s : State := { st with cores := [(0, { CoreSt.reset with array := { CoreSt.reset.array with halt := true } })] }
     (s.core 0).array.halt = true ∧ (s.core 0).array.halted = false ∧ jointInFlight s (s.core 0).array = false) ∧
    -- a context without work gives way
    (let s : State := { stRun with ctxs := [(0, runCtx), (6, { runCtx with scheduled := false })], crews := [(5, { aCrew with ctx := 6 })] }
     hasWork s 0 = false ∧ (partners s 0).any (hasWork s) = true) := by decide +kernel

theorem test_request_stops : after (exec (.preemptRequest 1) (stAsk waiting1 aCrew)) (fun t g => g.stopped && (t.crew? 1).any Crew.preempt) = true := by decide +kernel
/-- A crew that is asked, all of it stopped, whose slot does not translate. -/
def stSave : State := { stAsk { waiting1 with stopped := true } askedCrew with mem := [] }

theorem slot_unmapped : (slotPages stSave askedCrew).foldl (fun s p => writeSlotPage stSave s askedCrew p) stSave = stSave := by
  have h : (slotPages stSave askedCrew).all (fun p => match xlateWalk stSave 0 (slotVa stSave askedCrew p) true .write false with
      | .ok _ => false
      | .error _ => true) = true := by decide +kernel
  generalize slotPages stSave askedCrew = l at h
  induction l with
  | nil => rfl
  | cons p l ih =>
    simp only [List.all_cons, Bool.and_eq_true] at h
    have : writeSlotPage stSave stSave askedCrew p = stSave := by
      have k := h.1
      unfold writeSlotPage
      split at k
      · simp at k
      · next hx => rw [show askedCrew.ctx = 0 from rfl, hx]
    rw [List.foldl_cons, this]
    exact ih h.2

theorem test_crew_saved : after (exec (.crewSave 1) stSave) (fun t g => g.stopped && (t.crew? 1).any (fun k => k.saved && !k.preempt)) = true := by
  have h : execCrewSave 1 stSave = .next (saveCrew stSave stSave 1 askedCrew) := by
    unfold execCrewSave
    rw [show stSave.crew? 1 = some askedCrew from rfl]
    dsimp only
    rw [if_neg (by decide +kernel), show imageDue stSave 1 askedCrew = none from by decide +kernel]
    dsimp only
    rw [if_neg (by decide +kernel), show toSave stSave 1 = [(1, askedCrew)] from by decide +kernel,
      show ([(1, askedCrew)] : List (Nat × Crew)).findSome? (fun e => slotFar stSave e.2) = none from by decide +kernel]
    dsimp only [List.foldl_cons, List.foldl_nil]
  rw [show exec (.crewSave 1) stSave = execCrewSave 1 stSave from rfl, h]
  unfold saveCrew
  rw [slot_unmapped]
  decide +kernel
theorem test_matrix_group_at_preempt : after (exec (.crewSave 1) stMg) (fun t g => g.sup && g.tcause == 34 && g.trec == 0xAB0000 &&
    (t.crew? 1).any (fun k => k.hasImage && !k.saved)) = true := by decide +kernel
theorem test_crew_restored : after (exec (.crewRestore 1 [5]) stSaved) (fun t g => !g.stopped && g.core == 5 && g.status == .waiting (.colour 0 5) &&
    (t.crew? 1).any (fun k => !k.saved && k.cores == [5] && k.scratch == [(3, 7)])) = true := by decide +kernel
theorem test_set_restored : next (exec (.crewRestore 4 [4, 5]) stSaved2) (fun t => t.crews.map (fun e => (e.2.saved, e.2.cores)) ==
    [(false, [4]), (false, [5])]) = true := by decide +kernel
theorem test_quantum : next (exec (.quantumExpire 0) { stRun with time := 10 ^ 12 }) (fun t => (t.ctx 0).quantumStart == 10 ^ 12 && (t.ctx 0).scheduled) = true := by
  decide +kernel
theorem test_array_halts : after (exec (.arrayHalt 0) { stG { aGroup with status := .parked .image } with
    cores := [(0, { CoreSt.reset with array := { CoreSt.reset.array with halt := true } })] }) (fun t g => g.status == .ready && (t.core 0).array.halted) = true := by
  decide +kernel

/-! ## Fetch and issue (FetchAndIssue) -/

/-- A group that stands before the line at 0x40. -/
def before1 (bt : Bool) : Group := { aGroup with pc := 0x40, entered := false, needBt := bt }
/-- The line holds five `nop`s and the line word `w`. -/
def stLine (bt : Bool) (w : Nat) : State := { stG (before1 bt) with cryo := coldCryo, mem := Memory.writeNat st.mem 0x7C w 4 }
/-- The line as it is fetched. -/
def lineOf1 (w : Nat) : BitVec 512 := BitVec.ofNat 512 (Memory.readNat (stLine false w).mem 0x40 64)

theorem meets_LineEntry : (stLine true 0).group? 2 = some (before1 true) ∧ maySelect (stLine true 0) (before1 true) = true ∧ (before1 true).pager = none ∧
    (before1 true).refetched = false ∧ ({ before1 true with refetched := true } : Group).refetched = true ∧
    4 < (0x45 : Word).toNat % 8 ∧ (0x40 : Word).toNat % 64 / 8 = 0 ∧
    xlate (stLine true 0) 0 ((stLine true 0).ctxOf (before1 true)) 0x40 false .exec false = .ok ⟨0x40, 0, false, false⟩ ∧ inWindow (stLine true 0).lnkid 0x40 = false ∧
    -- a reserved bit; the parity of slot 0; three in a row; slots 0 and 1, of class 000, marked; a BT bit, with its parity kept
    (lineOf1 1).toNat / 2 ^ 480 % 2 ^ 18 ≠ 0 ∧
    (ones (BitVec.ofNat 96 ((lineOf1 (2 ^ 27)).toNat / 2 ^ (96 * 0))) 96 + (if lineBit (lineOf1 (2 ^ 27)) 27 then 1 else 0)) % 2 = 1 ∧
    (lineBit (lineOf1 (3 * 2 ^ 18)) 18 = true ∧ lineBit (lineOf1 (3 * 2 ^ 18)) 19 = true) ∧
    (lineBit (lineOf1 (2 ^ 18)) 18 = true ∧ (mates (classAt (lineOf1 (2 ^ 18)) 0) (classAt (lineOf1 (2 ^ 18)) 1) ||
      mates (classAt (lineOf1 (2 ^ 18)) 1) (classAt (lineOf1 (2 ^ 18)) 0)) = false) ∧
    lineBit (lineOf1 0) 22 = false ∧ lineBit (lineOf1 (2 ^ 22)) 22 = true := by decide +kernel

theorem test_line_entered : after (exec (.lineFetch 2 0) (stLine true (2 ^ 22))) (fun t g => g.entered && !g.needBt && g.line == lineOf1 (2 ^ 22) && t.box.isEmpty) = true := by
  decide +kernel
theorem test_line_details : ([(0, 0xA0001), (1, 0x10002), (3 * 2 ^ 18, 0x30002), (2 ^ 18, 0x40002)].all (fun p =>
    after (exec (.lineFetch 2 0) (stLine true p.1)) (fun _ g => g.tcause.toNat == p.2))) = true := by decide +kernel
theorem test_line_parity : after (exec (.lineFetch 2 1) (stLine false 0)) (fun t g => g.refetched && !g.entered && t.box.map BoxEntry.src == [2]) = true ∧
    after (exec (.lineRefetch 2 1) { stLine false 0 with groups := [(2, { before1 false with refetched := true })] }) (fun _ g => g.tcause == 0x20002) = true := by decide +kernel

/-- `st` in COLD. -/
def stCold : State := { st with cryo := coldCryo }

theorem meets_IssueCycle : (stCold.groups.map Prod.fst).Nodup ∧ groupsOf stCold 0 = [(2, aGroup)] ∧ stCold.crewOf aGroup = some aCrew ∧ aGroup.core ∈ aCrew.cores ∧
    maySelect stCold aGroup = true ∧ aGroup.entered = true ∧ aGroup.overfull = false ∧ aGroup.w ≤ 64 ∧ aGroup.nextSlots = [pcSlot aGroup.pc] ∧
    passedOver stCold 2 aGroup (pcSlot aGroup.pc) = false := by
  decide +kernel

theorem test_issue_cycle : next (exec (.issueSelect 0) stCold) (fun t => t.issueNow == [2] && t.clock == 1 && t.time == 60 && (t.core 0).streams == [2]) = true ∧
    -- in WARM no context runs
    next (exec (.issueSelect 0) st) (fun t => t.issueNow.isEmpty) = true := by decide +kernel

theorem meets_WalksAndIdle : walk st 0 0x2000 = .ok ⟨0x1FB, 0x102000, 0x40000000⟩ ∧ tlbFind (st.core 0).tlb 0 (0x2000 % 2 ^ 57) = none ∧
    (let s : State := { stG { aGroup with status := .parked .idle } with idles := [(2, 0)] }
     s.group? 2 = some { aGroup with status := .parked .idle } ∧ SMap.find? s.idles 2 = some 0 ∧ 0 ≤ s.clock) := by decide +kernel

theorem test_walk_fills : next (exec (.tlbWalkComplete 0 0 0x2000) st) (fun t => (tlbFind (t.core 0).tlb 0 0x2000).any (fun e => e.base == 0 && e.size == 2 ^ 30 &&
    e.leaf == 0x1FB)) = true := by decide +kernel
theorem test_idle_ends : after (exec (.idleExpire 2) { stG { aGroup with status := .parked .idle } with idles := [(2, 0)] }) (fun _ g =>
    g.pc == 1 && g.status == .ready) = true := by decide +kernel

/-! ## Links (Links) -/

/-- Two packages, this one is 0; the ports to package 1 and to the host are up; region 0 belongs to VF 3. -/
def stLink : State :=
  { st with cryo := coldCryo, lnkid := 0x10, ports := [(1, { Port.reset with up := true, lseq := 65535 }), (16, { Port.reset with up := true })], owners := [(0, 3)],
            interrupts := [(4, 2)], thaws := [(2, (7, 0xFF))] }
/-- How a packet arrives whose flits are those expected, with a good CRC, where there is room for it. -/
def sealed (s : State) (far : Nat) (p : OutPacket) : Arrival := ⟨(s.port far).expect, { p with lseq := (s.port far).expect }.crc, true⟩
/-- A packet of TYPE `ty` for four bytes at 0x2000. -/
def aPacket (ty src vf : Nat) (d : List (BitVec 8)) : Packet :=
  let p : Packet := ⟨⟨0, 0, true⟩, vf, src, 0, 5, 0, 2, 0, 3, 0x2000, d⟩
  { p with link := sealed stLink src (arriving p ty) }

theorem accepts_of {s : State} {far : Nat} {p : OutPacket} (h : (s.port far).up = true ∧ p.data.length ≤ 128) : Accepts s far (sealed s far p) p :=
  ⟨h.1, ⟨rfl, rfl, rfl⟩, h.2⟩

theorem accepts_by {s : State} {far : Nat} {a : Arrival} {p : OutPacket} (h : (s.port far).up = true ∧
    (a.room = true ∧ a.crc = { p with lseq := a.lseq }.crc ∧ a.lseq = (s.port far).expect) ∧ p.data.length ≤ 128) : Accepts s far a p := ⟨h.1, h.2.1, h.2.2⟩

/-- A packet of one data flit. -/
theorem meets_PacketLayout : let p : OutPacket := { OutPacket.of 1 3 0x2000 [1, 2, 3, 4] with lseq := 65535, src := 1, aseq := 9, rseq := 2 ^ 31, code := 15 }
    p.lseq < 65536 ∧ p.ty < 16 ∧ p.vf < 64 ∧ p.src < 32 ∧ p.dst < 32 ∧ p.aseq < 65536 ∧ p.len < 128 ∧ p.code < 16 ∧ p.addr < 2 ^ 52 ∧ p.rseq < 2 ^ 32 ∧
      p.data.length ≤ 128 := by decide
/-- The check value of the polynomial: the CRC of the nine characters 123456789 (as IEEE 802.3 gives it; PRESUMED, log 69). -/
theorem test_crc : crc32 [0x31, 0x32, 0x33, 0x34, 0x35, 0x36, 0x37, 0x38, 0x39] = 0xCBF43926 := by decide +kernel

/-- A recall of granule 0 with number 9 by package 1, and its acknowledgement of the thaw of granule 2. -/
def recalled : Arrival := sealed stLink 1 { toUs stLink 1 8 0 0 [] with rseq := 9 }
def recallDone : Arrival := sealed stLink 1 { toUs stLink 1 9 0 (65536 * 2) [] with rseq := 7 }

/-- Every clause: an allowed packet of a peer and of the host, one for another VF, one out of HBM, HBM that is off, a frozen granule, a narrower scope,
flits that are not those expected, a packet whose CRC is bad and one for which there is no room, a recall, its answer, an interrupt. -/
theorem meets_LinkArrivals : (∀ p ∈ [aPacket 1 1 0 [1, 2, 3, 4], aPacket 1 16 3 [1, 2, 3, 4]], p.src ≤ 16 ∧ p.dst = stLink.pkg ∧ p.data ≠ [] ∧
      Accepts stLink p.src p.link (arriving p 1) ∧ Allowed stLink p p.data.length ∧ Allowed stLink p (p.len % 128 + 1)) ∧
    ¬Allowed stLink (aPacket 1 16 9 [1]) 1 ∧ ¬Allowed stLink { aPacket 1 1 0 [1] with addr := hbmEnd } 1 ∧
    ¬Allowed { stLink with cryo := { coldCryo with st := 7 } } (aPacket 1 1 0 [1]) 1 ∧
    (granuleFrozen stLink 0x2000 = false ∧ granuleFrozen { stLink with freezeTable := [(0, ⟨1, false, 0⟩)] } 0x2000 = true ∧
      granuleFrozen stLink (0x2000 + 3) = false ∧ granuleFrozen { stLink with freezeTable := [(1, ⟨1, false, 0⟩)] } (0xFFFE + 3) = true) ∧
    ((aPacket 2 1 0 [1, 2, 3, 4]).data.length = widthOf (Fmt.ofCode 2) ∧ (0 : BitVec 4).toNat < 8 ∧ (Fmt.ofCode 2).access = true ∧
      SMap.find? stLink.lineHolds (lineOf 0x2000) = none ∧ SMap.find? stLink.scopes (lineOf 0x2000) = none ∧
      (SMap.find? ({ stLink with scopes := [(64, ⟨.cr, 0, true⟩)] } : State).scopes (lineOf 0x2000)).map ScopeRec.scope = some .cr ∧
      (stLink.stream 1 0).highest = none ∧ Accepts stLink 1 (aPacket 2 1 0 [1, 2, 3, 4]).link (arriving (aPacket 2 1 0 [1, 2, 3, 4]) 2) ∧
      Accepts stLink 1 (aPacket 0 1 0 []).link (arriving (aPacket 0 1 0 []) 0)) ∧
    ((stLink.port 1).up = true ∧ (aPacket 2 1 0 [1, 2, 3, 4]).link.crc ≠ (arriving (aPacket 1 1 0 [1, 2, 3, 4]) 1).crc ∧ 1 ≠ (stLink.port 1).expect) ∧
    (Accepts stLink 1 recalled { toUs stLink 1 8 0 0 [] with rseq := 9 } ∧ 3 < 96 ∧ Accepts stLink 1 recallDone { toUs stLink 1 9 0 (65536 * 2) [] with rseq := 7 } ∧
      SMap.find? stLink.thaws 2 = some (7, 0xFF)) ∧
    (stLink.port 16).up = true ∧ stLink.interrupts = [(4, 2)] := by
  refine ⟨?_, by unfold Allowed StackOn; decide +kernel, by unfold Allowed StackOn; decide +kernel, by unfold Allowed StackOn; decide +kernel,
    by decide +kernel, ⟨by decide +kernel, by decide +kernel, by decide +kernel, by decide +kernel, by decide +kernel, by decide +kernel, by decide +kernel,
      accepts_by (by decide +kernel), accepts_by (by decide +kernel)⟩,
    by decide +kernel, ⟨accepts_of (by decide +kernel), by decide, accepts_of (by decide +kernel), by decide +kernel⟩, by decide +kernel⟩
  intro p hp
  rcases List.mem_cons.mp hp with rfl | hp
  · exact ⟨by decide, by decide +kernel, by decide, accepts_by (by decide +kernel),
      by unfold Allowed StackOn; decide +kernel, by unfold Allowed StackOn; decide +kernel⟩
  · rcases List.mem_singleton.mp hp with rfl
    exact ⟨by decide, by decide +kernel, by decide, accepts_by (by decide +kernel),
      by unfold Allowed StackOn; decide +kernel, by unfold Allowed StackOn; decide +kernel⟩

/-- What has left by a port: LSEQ, TYPE, VF, DST, ASEQ, CODE, address, RSEQ, data. -/
def sentBy (t : State) (far : Nat) : List (Nat × Nat × Nat × Nat × Nat × Nat × Nat × Nat × List (BitVec 8)) :=
  (t.port far).unacked.map (fun p => (p.lseq, p.ty, p.vf, p.dst, p.aseq, p.code, p.addr, p.rseq, p.data))

theorem test_link_write : next (exec (.linkWrite (aPacket 1 1 0 [1, 2, 3, 4])) stLink) (fun t => Memory.readNat t.mem 0x2000 4 == 0x04030201 &&
    sentBy t 1 == [(65535, 4, 0, 1, 5, 0, 0x2000, 0, [])] && (t.port 1).lseq == 0 && (t.port 1).expect == 2 && (t.port 1).answer == some (6, 1)) = true := by
  decide +kernel
theorem test_link_refused : next (exec (.linkWrite (aPacket 1 16 9 [1, 2, 3, 4])) stLink) (fun t => Memory.readNat t.mem 0x2000 4 == 0 &&
    sentBy t 16 == [(0, 11, 9, 16, 5, 3, 0x2000, 0, [])]) = true ∧
    next (exec (.linkWrite (aPacket 2 1 0 [1, 2, 3, 4])) stLink) (fun t => t.mem == stLink.mem && (t.port 1).answer == some (7, 0)) = true := by
  decide +kernel
theorem test_link_atomic : next (exec (.linkAtomic (aPacket 2 1 0 [1, 2, 3, 4])) { stLink with mem := Memory.writeNat st.mem 0x2000 0xFFFFFFFF 4 }) (fun t =>
    Memory.readNat t.mem 0x2000 4 == 0x04030200 && (t.port 1).unacked.map OutPacket.data == [[0xFF, 0xFF, 0xFF, 0xFF]] && (t.port 1).lseq == 1) = true := by
  decide +kernel
theorem test_link_read : next (exec (.linkRead (aPacket 0 1 0 [])) stLink) (fun t => sentBy t 1 == [(65535, 3, 0, 1, 5, 0, 0x2000, 0, [0, 0, 0, 0])]) = true := by
  decide +kernel
theorem test_link_recall : next (exec (.linkRecall ⟨recalled, 1⟩ 3 0 9) stLink) (fun t => (List.range 8).all (fun i => SMap.find? t.farRecall (96 + i) == some 9) &&
    sentBy t 1 == [(65535, 9, 0, 1, 0, 0, 0, 9, [])]) = true ∧
    next (exec (.linkRecallAck ⟨recallDone, 1⟩ 2 7) stLink) (fun t => SMap.find? t.thaws 2 == some (7, 0x7F)) = true := by decide +kernel
theorem test_link_interrupt : next (exec .linkInterrupt stLink) (fun t => t.interrupts.isEmpty && sentBy t 16 == [(0, 10, 4, 16, 0, 2, 0, 0, [])]) = true := by
  decide +kernel

/-- A load, a store and an atomic of group 2 to 0x2000 of package 1, sent. -/
def farReq (k : ReqKind) (d : Dst) : Req := { aReq with kind := k, dst := d, pa := 0xC00000000000 + 0x10000000000 + 0x2000, far := true }
def stAway (q : Req) : State := { withReq stLink q anOp with linkStreams := [(64 * 1 + 0, ⟨1, 1, none, [], []⟩)] }
/-- The 128 bytes 0, 1, 2, …; the read of the line by its home; a write of a copy to it. -/
def dataLine : List (BitVec 8) := (List.range 128).map (BitVec.ofNat 8)
def farLine : Nat := (0xC00000000000 + 0x10000000000 + 0x2000) / 128
def aFarWrite : FarWrite := ⟨.copy 3 0, 2, 0, 0x2000, 128 * farLine, 4, 0⟩
def stAsked : State :=
  { stLink with farReads := [(8, ⟨farLine, 0, true, false⟩)], farWrites := [(9, aFarWrite)], groups := [(2, { aGroup with status := .parked .walk })] }
/-- The answers of package 1: read data with a recall number and the frozen flag, a write's acknowledgement, an atomic's old value, a refusal. -/
def lineAnswer (s : State) (rseq : Nat) (fz : Bool) : OutPacket := lineData s 0 farLine rseq fz dataLine
def ackAnswer (s : State) : OutPacket := toUs s 1 4 0 0x2000 []
def oldAnswer (s : State) (old : Word) : OutPacket :=
  { toUs s 1 5 0 0x2000 ((List.range 4).map (fun i => BitVec.ofNat 8 (old.toNat / 2 ^ (8 * i)))) with aseq := aReq.aseq }
def refusal (s : State) (code : Nat) : OutPacket := { toUs s 1 11 0 0x2000 [] with code := code, aseq := aReq.aseq }

theorem meets_LinkAnswers : (∀ q ∈ [farReq .load (.v 4), farReq .store .none, farReq .atom (.v 4), farReq .atom .none],
      (SMap.find? (stAway q).reqs 6 = some q ∧ q.sent = true ∧ q.performed = false ∧ inWindow (stAway q).lnkid q.pa = true ∧
      (stAway q).group? q.gid = some aGroup ∧ plainOp (stAway q) q = true ∧ q.width = widthOf q.ty ∧ q.kind ≠ .pref ∧ (∀ h ∈ aGroup.heldFaults, h.op ≠ q.op)) ∧
      ((stAway q).port (farOf (stAway q) q.pa)).up = true ∧ q.ctx = 0 ∧ lineOf q.pa = farLine ∧ farAddr q.pa = 0x2000 ∧ farOf (stAway q) q.pa = 1 ∧
      recordedSeq (stAway q) q.pa ≤ 0) ∧
    dataLine.length = 128 ∧ (0 < recordedSeq { stAway (farReq .load (.v 4)) with farRecall := [(96 + homeSlice 0x2000, 5)] } (farReq .load (.v 4)).pa) ∧
    (SMap.find? stAsked.reqs 8 = none ∧ SMap.find? stAsked.farReads 8 = some ⟨farLine, 0, true, false⟩ ∧ recordedSeq stAsked (128 * farLine) ≤ 0 ∧
      stAsked.group? 2 = some { aGroup with status := .parked .walk }) ∧
    SMap.find? stAsked.reqs 9 = none ∧ SMap.find? stAsked.farWrites 9 = some aFarWrite ∧ aFarWrite.ctx = 0 ∧ farAddr aFarWrite.pa = 0x2000 := by
  decide +kernel
theorem meets_LinkAnswers_arrive : ∀ q ∈ [farReq .load (.v 4), farReq .store .none, farReq .atom (.v 4), farReq .atom .none], ∀ s ∈ [stAway q, stAsked],
    (∀ fz ∈ [false, true], Accepts s 1 (sealed s 1 (lineAnswer s 0 fz)) (lineAnswer s 0 fz)) ∧ Accepts s 1 (sealed s 1 (ackAnswer s)) (ackAnswer s) ∧
      (∀ old, Accepts s 1 (sealed s 1 (oldAnswer s old)) (oldAnswer s old)) ∧ ∀ code ∈ [1, 2, 3], Accepts s 1 (sealed s 1 (refusal s code)) (refusal s code) := by
  intro q hq s hs
  have up : (s.port 1).up = true := by
    rcases List.mem_cons.mp hs with rfl | hs
    · exact (by decide +kernel : ∀ q ∈ [farReq .load (.v 4), farReq .store .none, farReq .atom (.v 4), farReq .atom .none], ((stAway q).port 1).up = true) q hq
    · rcases List.mem_singleton.mp hs with rfl
      decide +kernel
  exact ⟨fun fz _ => accepts_of ⟨up, by simp [lineAnswer, lineData, toUs, OutPacket.of, dataLine]⟩, accepts_of ⟨up, by simp [ackAnswer, toUs, OutPacket.of]⟩,
    fun old => accepts_of ⟨up, by simp [oldAnswer, toUs, OutPacket.of]⟩, fun c _ => accepts_of ⟨up, by simp [refusal, toUs, OutPacket.of]⟩⟩

theorem test_link_read_data : let s := stAway (farReq .load (.v 4))
    next (exec (.linkReadData ⟨sealed s 1 (lineAnswer s 0 false), 6, 0, false⟩ dataLine) s) (fun t =>
      (SMap.find? t.reqs 6).any (fun q => q.performed && q.val == 0x03020100)) = true ∧
    next (exec (.linkReadData ⟨sealed stAsked 1 (lineAnswer stAsked 0 false), 8, 0, false⟩ dataLine) stAsked) (fun t =>
      (SMap.find? t.farCopies farLine).any (fun c => c.data.toNat % 2 ^ 32 == 0x03020100) && (t.group? 2).map Group.status == some .ready) = true := by decide +kernel
theorem test_link_write_ack : let s := stAway (farReq .store .none)
    next (exec (.linkWriteAck ⟨sealed s 1 (ackAnswer s), 6⟩) s) (fun t => t.reqs.isEmpty) = true := by decide +kernel
theorem test_link_atomic_result : let s := stAway (farReq .atom (.v 4))
    next (exec (.linkAtomicResult ⟨sealed s 1 (oldAnswer s 0x1FFFFFFFF), 6⟩ 0x1FFFFFFFF) s) (fun t =>
      (SMap.find? t.reqs 6).any (fun q => q.performed && q.val == 0xFFFFFFFF)) = true := by decide +kernel
theorem test_link_refuse : let s := stAway (farReq .store .none)
    after (exec (.linkRefuse ⟨sealed s 1 (refusal s 3), 6⟩ 3) s) (fun _ g =>
      g.heldFaults.map (fun h => h.recs.map (fun f => (f.cause, f.detail))) == [[(8, 18)]]) = true := by decide +kernel

/-- A port with two flits to be acknowledged, sixteen nacks of one flit, and three retrains. -/
def badPort : Port :=
  { Port.reset with up := true, lseq := 2, nacks := 16, nackAt := 0, retrains := [0, 0, 0],
                    unacked := [{ OutPacket.of 4 0 0x2000 [] with lseq := 65535 }, OutPacket.of 3 0 0 [1]] }
def stPort : State := { stAway (farReq .load (.v 4)) with ports := [(1, badPort)] }

theorem meets_LinkLevel : (1 ≤ 16 ∧ (stPort.port 1).up = true) ∧ 16 ≤ (stPort.port 1).nacks ∧
    ((stPort.port 1).nacks ≠ 0 ∧ (stPort.port 1).nackAt = 0) ∧
    3 ≤ ((stPort.port 1).retrains.filter (fun x => decide (stPort.time < x + 84000000))).length ∧ farEnd stPort 1 = true ∧
    (({ stPort with ports := [] } : State).port 1).up = false ∧ peersUp { stPort with ports := [] } < 12 ∧ farEnd stPort 16 = true ∧ (stPort.port 16).up = false := by
  decide +kernel

theorem test_link_ack : next (exec (.linkAck 1 0) stPort) (fun t => (t.port 1).unacked.map OutPacket.lseq == [0]) = true ∧
    next (exec (.linkAck 1 1) stPort) (fun t => (t.port 1).unacked.isEmpty) = true := by decide +kernel
theorem test_link_nack : next (exec (.linkNack 1 0) stPort) (fun t => (t.port 1).nacks == 17) = true ∧
    next (exec (.linkNack 1 65535) stPort) (fun t => (t.port 1).nacks == 1 && (t.port 1).nackAt == 65535) = true := by decide +kernel
theorem test_link_retrain : next (exec (.linkRetrain 1 true) stPort) (fun t => (t.port 1).nacks == 0 && (t.port 1).retrains == [0, 0, 0] && t.box.map BoxEntry.src == [9]) = true := by
  decide +kernel
theorem test_port_down : next (exec (.portDown 1) { stPort with ctxs := [(0, { st.ctx 0 with vfcfg := 1 })] }) (fun t => !(t.port 1).up && t.interrupts == [(4, 2), (0, 3)] &&
    (SMap.find? t.reqs 6).any Req.performed) = true := by decide +kernel
theorem test_port_up : next (exec (.portUp 1) { stPort with ports := [] }) (fun t => (t.port 1) == { Port.reset with up := true }) = true ∧
    next (exec (.portUp 13) { stPort with lnkid := 0xF0, ports := (List.range 12).map (fun i => (i + 1, { Port.reset with up := true })) }) (fun t => !(t.port 13).up) = true := by
  decide +kernel

/-! ## Registers written from outside (RegisterEvents) -/

/-- Context 1 on die 1, enabled; context 0 not. -/
def stReg : State := { st with crews := [], groups := [], launches := [], ctxs := [(0, Ctx.reset), (1, { Ctx.reset with vfcfg := 0x201 })],
                               ports := [(16, { Port.reset with up := true })], lnkid := 0x10, rgnidx := 7 }

theorem meets_ContextRegisterEvents :
    -- a far end that is none, one whose port is down, one whose port is up
    farEnd stReg 5 = false ∧ farEnd stReg 1 = true ∧ (stReg.port 1).up = false ∧ farEnd stReg 16 = true ∧ (stReg.port 16).up = true ∧
    ({ stReg.ctx 0 with jqcmd := some 0x100000 } : Ctx).jqcmd = some 0x100000 ∧
    (¬∃ k ∈ stReg.crews, k.2.ctx = 0) ∧ (∃ k ∈ st.crews, k.2.ctx = 0) ∧ (stReg.ctx 0).mailbox.length < 16 ∧
    16 ≤ ({ stReg.ctx 0 with mailbox := List.replicate 16 0 } : Ctx).mailbox.length ∧
    Nat.min ((5 : Word).toNat % 2 ^ 13) 6144 = 5 ∧ (stReg.crews.filter (fun k => k.2.ctx == 0)).length ≤ 5 ∧
    -- DIES of 0x201 is the set of die 1, that of 0x301 dies 0 and 1, that of 0x101 die 0
    dies 0x201 = 2 ∧ dies 0x301 ∈ dieSets ∧ dies 0x301 ≠ 2 ∧ dies 0x301 &&& 2 ≠ 0 ∧ dies 0x101 ∈ dieSets ∧ dies 0x101 &&& 2 = 0 ∧ dies 0x501 ∉ dieSets ∧
    (stReg.ctx 0).vfcfg.getLsbD 0 = false ∧ (stReg.ctx 1).vfcfg.getLsbD 0 = true ∧
    -- answers of ASEQ 5 and 9000 have come; ASEQ 5, 6, 9000 and 9001 are asked about, of 9001 that were sent
    (let y : Stream := ⟨9001, 0, none, [], [(5, some 7), (9000, none)]⟩
     let behind := fun (v n : Nat) => (n + 65536 - v) % 65536
     (behind 5 (y.nextAseq + 65535) < 32768 ∧ (∃ e ∈ y.answered, 4096 ≤ behind 5 e.1 ∧ behind 5 e.1 < 32768)) ∧
     (¬behind 9001 (y.nextAseq + 65535) < 32768) ∧
     (behind 9000 (y.nextAseq + 65535) < 32768 ∧ (¬∃ e ∈ y.answered, 4096 ≤ behind 9000 e.1 ∧ behind 9000 e.1 < 32768) ∧
       SMap.find? y.answered 9000 = some none) ∧ SMap.find? y.answered 8000 = none ∧ (¬∃ e ∈ y.answered, 4096 ≤ behind 8000 e.1 ∧ behind 8000 e.1 < 32768)) := by
  decide +kernel
/-- The host writes `v` to register `n` of context `x` by its BAR, or reads it. -/
def barWrite (x n : Nat) (v : Word) : Arrival := sealed stReg 16 (toUs stReg 16 1 x (barAt x n) (wordBytes v))
def barReads (x n : Nat) : Arrival := sealed stReg 16 { toUs stReg 16 0 x (barAt x n) [] with len := 7 }
theorem meets_HostPackets (x n : Nat) (v : Word) : Accepts stReg 16 (barWrite x n v) (toUs stReg 16 1 x (barAt x n) (wordBytes v)) ∧
    Accepts stReg 16 (barReads x n) { toUs stReg 16 0 x (barAt x n) [] with len := 7 } ∧ (1 : Nat) ≠ (stReg.port 16).expect :=
  ⟨accepts_of ⟨by decide +kernel, by simp [toUs, OutPacket.of, wordBytes]⟩, accepts_of ⟨by decide +kernel, by simp [toUs, OutPacket.of]⟩, by decide +kernel⟩

theorem test_lmbox : next (exec (.lmboxWrite 1 ⟨barWrite 1 0x0C0 0x4000, 0x4000⟩) stReg) (fun t => (t.ctx 1).mailbox == [0x4000] && (t.port 16).expect == 2) = true ∧
    next (exec (.lmboxWrite 1 ⟨{ barWrite 1 0x0C0 0x4000 with lseq := 1 }, 0x4000⟩) stReg) (fun t => (t.ctx 1).mailbox == [] && (t.port 16).answer == some (7, 0)) = true := by
  decide +kernel
/-- A query for ASEQ 5 of the host's stream of context 0, which has had its answer. -/
def stQuery : State := { stReg with ctxs := [(0, { Ctx.reset with jqcmd := some 0x100005 })], linkStreams := [(64 * 16, ⟨9, 0, none, [], [(5, some 7)]⟩)] }
theorem test_journal : next (exec (.journalQueryComplete 0 1 0) stQuery) (fun t => (t.ctx 0).jqres == 1 && (t.ctx 0).jqval == 7 && (t.ctx 0).jqcmd == none) = true := by
  decide +kernel
theorem test_jqcmd : next (exec (.jqcmdWrite 0 0x50001) stReg) (fun t => (t.ctx 0).jqres == 5) = true ∧
    next (exec (.jqcmdWrite 0 0x10001) stReg) (fun t => (t.ctx 0).jqres == 4) = true ∧
    next (exec (.jqcmdWrite 0 0x100001) stReg) (fun t => (t.ctx 0).jqres == 0 && (t.ctx 0).jqcmd == some 0x100001) = true := by decide +kernel
theorem test_featgnt : next (exec (.featgntWrite 0 0 0xFF) { stReg with ctxs := [(0, { Ctx.reset with featoff0 := 0x3C })] }) (fun t => (t.ctx 0).featgnt0 == 0x3C) = true := by
  decide +kernel
theorem test_vfcfg : next (exec (.vfcfgWrite 0 0x301) stReg) (fun t => t == stReg) = true ∧
    next (exec (.vfcfgWrite 0 0x101) stReg) (fun t => (t.ctx 0).vfcfg == 0x101) = true ∧
    next (exec (.vfcfgWrite 0 0x501) stReg) (fun t => t == stReg) = true := by decide +kernel
theorem test_svcount : next (exec (.svcountWrite 0 9000) stReg) (fun t => (t.ctx 0).svcount == 808) = true ∧
    next (exec (.svcountWrite 0 7000) stReg) (fun t => (t.ctx 0).svcount == 6144) = true := by decide +kernel

theorem meets_OtherRegisterEvents : stReg.rgnidx.toNat ≤ 294911 ∧ (stReg.port 16).up = true ∧ plainReg 0x010 = true ∧ (regRow 0x010).held = .context ∧
    plainOk 0x010 9 = true ∧ (regRow 0).held ≠ .context ∧ (stReg.ctxs.map Prod.fst).Nodup ∧
    -- limits that rise, and that do not
    300 ≤ Nat.min 310 344 ∧ Nat.min 310 344 < Nat.min 420 440 ∧ Nat.min 420 440 < Nat.min 600 640 ∧ Nat.min 600 640 < Nat.min 900 960 ∧ ¬300 ≤ Nat.min 200 344 ∧
    -- no millisecond has passed, and one has
    stReg.time / 84000000 ≤ stReg.uc12At ∧ ({ stReg with time := 84000000 } : State).uc12At < 84000000 / 84000000 ∧
    -- an entry of the black box
    (let e : BoxEntry := ⟨2, 4, 7, 0, 5, 63, 0x123, 9, 2⟩
     ({ stReg with box := [e] } : State).box[0]? = some e ∧ e.sev < 256 ∧ e.src < 256 ∧ e.die < 65536 ∧ e.unit < 65536 ∧ e.vf < 64) := by
  decide +kernel

theorem test_rgnown : next (exec (.rgnownWrite 0x85) stReg) (fun t => SMap.find? t.owners 7 == some 5) = true ∧
    next (exec (.rgnownWrite 5) { stReg with owners := [(7, 5)] }) (fun t => t.owners.isEmpty) = true := by decide +kernel
theorem test_bandhi : next (exec (.bandhiWrite 0x0384025801A40136) stReg) (fun t => t.cryo.reg.hi0 == 310 && t.cryo.reg.hi3 == 900 && t.cryo.lim.hi0 == 344) = true ∧
    next (exec (.bandhiWrite 0x03840258013601A4) stReg) (fun t => t.cryo.reg.hi0 == 344) = true := by decide +kernel
theorem test_arrctl : next (exec (.arrctlWrite 3 1) stReg) (fun t => (t.core 3).array.halt && !(t.core 3).array.halted) = true := by decide +kernel

theorem test_host_bar : next (exec (.hostBarAccess 1 0x080 ⟨barReads 1 0x080, none⟩) { stReg with ctxs := [(1, { Ctx.reset with ptroot := 0x3000 })] }) (fun t =>
      t.barRead == some 0x3000 && sentBy t 16 == [(0, 3, 1, 16, 0, 0, 0x10400, 0, [0, 0x30, 0, 0, 0, 0, 0, 0])]) = true ∧
    next (exec (.hostBarAccess 1 0 ⟨barReads 1 0, none⟩) stReg) (fun t => t.barRead == some 0) = true := by decide +kernel
theorem test_registerWrite : next (exec (.registerWrite 0 0x050 0xFFFF) stReg) (fun t => t.tvec == 0xFFC7) = true := by decide +kernel
theorem test_uc0 : next (exec (.uc0Snapshot (.uc 1 0)) { stReg with time := 168, ctxs := [(1, { Ctx.reset with uc := [(0, 84000), (5, 7)] })] }) (fun t =>
    (t.ctx 1).uctime == 2 && t.mgmtRead == some 1 && SMap.get (t.ctx 1).ucSnap 0 5 == 7) = true := by decide +kernel

theorem test_box_entry : next (exec (.uc0Snapshot (.box 0)) { stReg with box := [⟨2, 4, 7, 0, 5, 63, 0x123, 9, 2⟩] }) (fun t => t.mgmtBytes.take 16 ==
    [7, 4, 2, 0, 0, 0, 0, 0, 0, 0, 0, 0xFC, 5, 0, 0, 0]) = true := by decide +kernel

/-! ## Reliability (Reliability) -/

/-- An operation of the group in the array of core 0, and a copy of it. -/
def anMma : MOp :=
  { id := 5, gid := 2, kind := .accz, d := 2, p := 2, a := none, b := none, origin := 0, mm := 1, nn := 1, kk := 1, fa := .f16, fb := .f16, negA := false,
    negB := false, noAcc := true, k1 := 0, k2 := 0, joint := 0, batch := none, complete := false, tainted := false, colours := [], ready := 0, sup := false,
    fault := none, stuck := false, regs := [] }
def stArray : State := { st with cores := [(0, { CoreSt.reset with streams := [2], array := { CoreSt.reset.array with ops := [anMma] } })] }
/-- The group at a stop point, in a state where the ring has room. -/
def atWait : Group := { aGroup with status := .waiting (.colour 0 5) }

theorem meets_CheckerEvents : st.group? 2 = some aGroup ∧ atInstruction aGroup = true ∧ 4 * aGroup.core + 6 % 4 ∉ st.lanesSpared ∧
    4 * aGroup.core + 6 % 4 ∈ ({ st with lanesSpared := [2] } : State).lanesSpared ∧
    stArray.group? 2 = some aGroup ∧ (∃ o ∈ (stArray.core 0).array.ops, o.gid = 2 ∧ o.complete = false) ∧
    (stArray.core 0).array.ops.find? (fun o => o.gid == 2 && !o.complete) = (stArray.core 0).array.ops.head? ∧
    trapPoint stArray 2 aGroup = false ∧ trapPoint { stArray with groups := [(2, atWait)] } 2 atWait = true ∧ atWait.pipe = [] := by decide +kernel
theorem ringReady_checker : RingReady { stArray with groups := [(2, atWait)] } 0 0x9000 := ringReady_of (by decide +kernel)

theorem test_checker : next (exec (.checkerMismatch 2 1 6 .third) st) (fun t => t.lanesSpared == [2] && (t.core 0).suspect == 1 &&
    t.box.map (fun e => (e.sev, e.src, e.detail)) == [(3, 7, 1)]) = true ∧
    after (exec (.checkerMismatch 2 1 6 .fails) st) (fun t g => g.tcause == 0x10011 && t.lanesSpared == [2] && t.box.map (fun e => (e.sev, e.detail)) == [(3, 1), (4, 0)]) = true ∧
    after (exec (.checkerMismatch 2 2 0 .fails) st) (fun t g => g.tcause == 0x20011 && (t.core 0).suspect == 2) = true ∧
    after (exec (.checkerMismatch 2 4 0 .fails) stArray) (fun t g => g.pipe.map Prod.fst == [4] && g.tcause == 0 && (t.core 0).array.ops.map MOp.stuck == [true]) = true := by
  decide +kernel
theorem test_checker_at_stop : after (exec (.checkerMismatch 2 4 0 .fails) { stArray with groups := [(2, atWait)] }) (fun _ g => g.pipe.isEmpty &&
    g.tcause == 0x40011 && g.sup) = true := by decide +kernel

/-- A line of 0x2000 in core 0, clean, and one that is leased. -/
theorem meets_PoisonEvents : SMap.find? (({ st with cores := [(0, { CoreSt.reset with l1 := [(64, ⟨0, 0, false, false⟩)] })] } : State).core 0).l1 (lineOf 0x2000) =
    some ⟨0, 0, false, false⟩ ∧
    SMap.find? (({ st with cores := [(0, { CoreSt.reset with l1 := [(64, ⟨0, 0, false, true⟩)] })] } : State).core 0).l1 (lineOf 0x2000) =
      some ⟨0, 0, false, true⟩ ∧ st.crew? 1 = some aCrew ∧ inHbm 0x20000 = true ∧ 0x20000 % 65536 = 0 ∧ (4 : Nat) ≠ 0 := by decide +kernel

theorem test_poisoned : after (exec (.softError (.vreg 2 4 3)) st) (fun _ g => g.vPoison == [259] && g.regs == someRegs) = true ∧
    after (exec (.softError (.sreg 2 4 1)) st) (fun _ g => g.sPoison == [9]) = true ∧ next (exec (.softError (.mem 0x2006)) st) (fun t => t.memPoison == [0x801]) = true ∧
    next (exec (.softError (.stamp 3)) st) (fun t => t.stampPoison == [3]) = true := by decide +kernel

theorem meets_RepairEvents : (st.core 5).outOfService = false ∧ (st.core 5).failing = false ∧
    (∀ e ∈ st.crews, e.2.saved = false → ∀ c ∈ e.2.cores, c / 4 ≠ 5 / 4) ∧ st.spares.getLsbD (4 * (5 / 64) + 0) = false ∧
    ((0xF : BitVec 24).getLsbD 0 = true ∧ (0xF : BitVec 24).getLsbD 3 = true) ∧ 4 * 5 + 2 % 4 ∉ st.lanesSpared ∧ (7, 100) ∉ st.waySpares := by decide +kernel

theorem test_core_replaced : next (exec (.coreReplace 5) st) (fun t => (t.core 5).failing) = true ∧
    next (exec (.coreReplace 5) { st with cores := [(5, { CoreSt.reset with failing := true })], lanesSpared := [2, 21] }) (fun t => !(t.core 5).failing &&
      t.spares == 1 && t.lanesSpared == [2]) = true ∧
    next (exec (.coreReplace 5) { st with cores := [(5, { CoreSt.reset with failing := true })], spares := 0xF }) (fun t => (t.core 5).outOfService) = true := by
  decide +kernel
theorem test_spares : next (exec (.softError (.lane 5 2)) st) (fun t => t.lanesSpared == [22]) = true ∧
    next (exec (.softError (.way 7 100)) st) (fun t => t.waySpares == [(7, 100)] && t.box.map (fun e => (e.sev, e.src)) == [(3, 3)]) = true := by decide +kernel
theorem test_hbm_repair : next (exec (.softPostPackageRepair 3) st) (fun t => t.softppr == 8 && t.box.map (fun e => (e.sev, e.src, e.die, e.unit, e.detail)) == [(3, 4, 1, 3, 1)]) = true := by
  decide +kernel

/-! ## Cryogenic operation (CryogenicOperation) -/

/-- The package in a state of R347, at a time, with the state held since 0. -/
def stCryo (n time : Nat) : State :=
  { st with time := time, cryo := { Cryo.reset with st := n, step := 5, tmin := 1000, tmax := 1100, holdSince := some 0, wantBand := 4, band := 4 } }

theorem meets_SensorEvents : (∀ n ∈ [0, 1, 2, 3, 4, 5, 6, 7], (stCryo n 0).cryo.st = n) ∧
    (320 ∈ [(5, 320), (6, 300)].map Prod.snd ++ [310] ∧ 300 ∈ [(5, 320), (6, 300)].map Prod.snd ++ [310] ∧ ∀ x ∈ [(5, 320), (6, 300)].map Prod.snd ++ [310], 300 ≤ x ∧ x ≤ 320) ∧
    ((stCryo 2 0).cryo.reg.tripLo ≤ 300 ∧ 320 ≤ (stCryo 2 0).cryo.reg.tripHi ∧ ¬(stCryo 2 0).cryo.reg.tripLo ≤ 200) ∧ ((stCryo 2 0).cryo.readings = [] ∧ 320 ≤ 300 + 60) ∧
    320 ≤ (stCryo 2 0).cryo.reg.hi0 ∧ (stCryo 4 0).cryo.reg.hi0 < 400 ∧ (stCryo 5 0).cryo.reg.hi3 < 1000 ∧
    -- a gradient of more than 10 K, and one within it while COOLHOLD is asserted
    300 + 40 < 345 ∧ 345 ≤ 300 + 60 ∧ 320 ≤ 300 + 40 ∧ ({ (stCryo 3 0).cryo with coolhold := true } : Cryo).coolhold = true ∧
    -- DELTA of 1: 320 is more than that above the mean of 310, 311 is not
    620 + (256 : Word).toNat / 2 ^ 8 % 2 ^ 8 * 2 < 320 * 2 ∧ ¬621 + (256 : Word).toNat / 2 ^ 8 % 2 ^ 8 * 2 < 311 * 2 := by decide +kernel

theorem test_trip : next (exec (.sensorReading [(0, 320)] [] [200]) (stCryo 4 0)) (fun t => t.cryo.st == 7 && t.groups.isEmpty && t.mem.isEmpty && t.box.map BoxEntry.sev == [4]) = true := by
  decide +kernel
theorem test_off_band : next (exec (.sensorReading [(0, 320)] [] []) (stCryo 0 4)) (fun t => t.cryo.st == 0 && t.cryo.wantBand == 0) = true := by decide +kernel
theorem test_coolhold : next (exec (.sensorReading [(0, 345)] [] [300]) (stCryo 2 4)) (fun t => t.cryo.coolhold && t.cryo.withinSince == none) = true := by decide +kernel
theorem test_cooldown_ends : next (exec (.sensorReading [(0, 320)] [] [300]) (stCryo 2 7)) (fun t => t.cryo.st == 3 && t.cryo.wantBand == 0 && t.cryo.holdSince == some 7) = true := by
  decide +kernel
theorem test_retreat : next (exec (.sensorReading [(5, 500), (6, 300)] [] []) (stCryo 4 7)) (fun t => t.cryo.st == 5 && t.cryo.wantBand == 2 && (t.core 5).hotSince == some 7 &&
      (t.core 6).hotSince == none) = true ∧
    next (exec (.sensorReading [] [] [1000, 900]) (stCryo 5 7)) (fun t => t.cryo.st == 6) = true := by decide +kernel
theorem test_ascent_ends : next (exec (.sensorReading [] [] [1000, 960]) (stCryo 6 7)) (fun t => t.cryo.st == 0 && t.mem.isEmpty) = true := by decide +kernel

/-- Nothing holds a change to band 2; the crew of the tests, not saved, holds one to band 4. -/
theorem meets_TimerEvents : (let s := { stCryo 5 0 with cryo := { (stCryo 5 0).cryo with wantBand := 2 } }
     s.cryo.wantBand ≠ s.cryo.band ∧ 2 ≤ s.cryo.st ∧ s.cryo.st ≤ 6 ∧ ¬2 < s.cryo.wantBand ∧ ¬3 < s.cryo.wantBand) ∧
    (let s := { stCryo 6 0 with cryo := { (stCryo 6 0).cryo with band := 2 }, crews := [(1, { aCrew with saved := true })], cores := [(0, CoreSt.reset)] }
     s.cryo.wantBand ≠ s.cryo.band ∧ (s.cryo.band ≤ 2 ∧ 2 < s.cryo.wantBand) ∧ (∀ e ∈ s.cores, jointInFlight s e.2.array = false) ∧
     3 < s.cryo.wantBand ∧ ∀ e ∈ s.crews, e.2.saved = true) ∧
    bandWaits { stCryo 6 0 with cryo := { (stCryo 6 0).cryo with band := 2 } } 4 = true ∧
    ((stCryo 4 0).cryo.st = 4 ∧ ∀ pa ∈ [0x2000], inHbm pa = true) ∧
    (stCryo 3 (10 ^ 14)).cryo.holdSince = some 0 ∧ 0 + 600 * 84000000000 ≤ (stCryo 3 (10 ^ 14)).time ∧
    -- after a warm reset in COLD
    (let c := { (stCryo 4 0).cryo with step := 3 }
     c.st = 4 ∧ c.step = 3) ∧ (0 < 3 ∧ 3 ≤ 4 ∧ 4 ≤ 5) ∧
    ({ Cryo.reset with withinSince := some 0, coolhold := true } : Cryo).coolhold = true := by decide +kernel

theorem test_band_change : next (exec .bandChange { stCryo 5 0 with cryo := { (stCryo 5 0).cryo with wantBand := 2 } }) (fun t => t.cryo.band == 2 && t.cryo.tset == 2 &&
    t.box.map BoxEntry.detail == [0x542]) = true ∧
    next (exec .bandChange { stCryo 6 0 with cryo := { (stCryo 6 0).cryo with band := 2 } }) (fun t => t.cryo.band == 2) = true := by decide +kernel
theorem test_scrub : next (exec (.scrubSweep [0x2006]) (stCryo 4 0)) (fun t => t.memPoison == [0x801]) = true := by decide +kernel
/-- An image of `kind` with no payload, version 2, key 0, and zeros where the key, the signature and the digest stand. -/
def anImage (kind : BitVec 8) : List (BitVec 8) := [0x07, 0x0B, 0, 0x96, kind, 0, 0, 0, 2, 0, 0, 0] ++ List.replicate (0x400 - 12) 0
/-- What the opaque functions of Config say of it, where its signature is good: a fact of the device, not of the model. -/
structure Endorsed (kind : BitVec 8) : Prop where
  digest : (Config.sha256 ((anImage kind).drop 0x400)).toNat = byteField (anImage kind) 0x010 32
  key : Config.keyRevoked (byteField (anImage kind) 0x030 4) = false ∧
    Config.sha256 (((anImage kind).drop 0x080).take 384) = Config.keyHash (byteField (anImage kind) 0x030 4)
  sig : Config.rsaVerify (((anImage kind).drop 0x080).take 384) (((anImage kind).drop 0x200).take 384) ((anImage kind).take 0x200) = true

theorem meets_Signed : ∀ kind ∈ [1, 2], Endorsed kind → Signed (anImage kind) kind.toNat 2 := by
  intro kind hk e
  rcases List.mem_cons.mp hk with rfl | hk
  · exact ⟨by decide +kernel, by decide +kernel, by decide +kernel, by decide +kernel, ⟨by decide +kernel, e.key⟩, e.sig, e.digest, by decide +kernel⟩
  · rcases List.mem_singleton.mp hk with rfl
    exact ⟨by decide +kernel, by decide +kernel, by decide +kernel, by decide +kernel, ⟨by decide +kernel, e.key⟩, e.sig, e.digest, by decide +kernel⟩
theorem meets_unsigned : ¬Signed [] 1 0 ∧ ¬Signed (anImage 2) 1 0 ∧ ¬Signed (anImage 1) 1 3 :=
  ⟨fun h => absurd h.magic (by decide +kernel), fun h => absurd h.kind (by decide +kernel), fun h => absurd h.svn (by decide +kernel)⟩

theorem test_soak_fails : next (exec (.soakTimerExpire ⟨4, 0, [], [], [], 0⟩) (stCryo 3 (10 ^ 14))) (fun t => t.cryo.st == 3 && t.box.map BoxEntry.detail == [4]) = true ∧
    next (exec (.soakTimerExpire ⟨0, 0, [], [], [], 0⟩) (stCryo 3 (10 ^ 14))) (fun t => t.cryo.st == 3 && t.box.map BoxEntry.detail == [6]) = true := by decide +kernel
theorem test_retreat_ends : next (exec .retreatHoldExpire { stCryo 5 (10 ^ 14) with cryo := { (stCryo 5 0).cryo with wantBand := 1 } }) (fun t => t.cryo.st == 4 && t.cryo.wantBand == 0) = true := by
  decide +kernel

theorem meets_CommandEvents : (stCryo 0 0).cryo.st = 0 ∧ 0 < (stCryo 0 0).cryo.step ∧ 960 ≤ (stCryo 0 0).cryo.tmin ∧ (stCryo 0 0).cryo.tmax ≤ (stCryo 0 0).cryo.lim.tripHi ∧ (stCryo 7 0).cryo.lim.tripLo ≤ (stCryo 7 0).cryo.tmin ∧
    2 ≤ (stCryo 4 0).cryo.st ∧ (stCryo 4 0).cryo.st ≤ 5 ∧ (stCryo 1 0).cryo.st = 1 ∧ (stCryo 7 0).cryo.st = 7 ∧ 6 ≤ (7 : Word).toNat % 8 := by decide +kernel

theorem test_commands : next (exec .cmdCool (stCryo 0 0)) (fun t => t.cryo.st == 2) = true ∧ next (exec .cmdCool (stCryo 4 0)) (fun t => t.cryo.st == 4 && t.cryo.refused) = true ∧
    next (exec .cmdWarm (stCryo 4 0)) (fun t => t.cryo.st == 6 && (t.crew? 1).any Crew.preempt) = true ∧ next (exec (.cmdService 2) (stCryo 0 0)) (fun t => t.cryo.st == 1 && t.cryo.svcDie == 2) = true ∧
    next (exec .cmdOff (stCryo 1 0)) (fun t => t.cryo.st == 0) = true ∧ next (exec .cmdClear (stCryo 7 0)) (fun t => t.cryo.st == 0) = true := by decide +kernel

theorem meets_PowerEvents : State.reset.cryo.step = 0 ∧ State.reset.cryo.st = 0 ∧ State.reset.cryo.bank0 = none ∧ (stCryo 1 0).cryo.st = 1 ∧ (stCryo 4 0).cryo.st ≠ 1 := by decide +kernel

theorem test_resets : next (exec .warmReset (stCryo 4 0)) (fun t => t.groups.isEmpty && t.crews.isEmpty && t.mem == st.mem && t.cryo.st == 4 && (t.ctx 0).fqctl == 7) = true ∧
    next (exec .coldReset (stCryo 4 0)) (fun t => t.mem.isEmpty && t.cryo.st == 0 && t.cryo.step == 0) = true ∧
    next (exec (.powerUp [] (anImage 2)) State.reset) (fun t => t.cryo.step == 0 && t.box.map BoxEntry.detail == [1] && t.cryo.bank1 == some (anImage 2)) = true := by
  decide +kernel

/-! ## Records and operands (ShapeRecords) -/

/-- Words of a record of 16 by 16 dense f16 elements, rows of 32 bytes, in space `sp` from `base`; the box is 16 by 1. -/
def rec16 (base sp : Nat) : List (BitVec 64) :=
  [BitVec.ofNat 64 base, 0, 0x00100010, 0x2000000002, 0, 0x00010010, BitVec.ofNat 64 (2 ^ 6 + sp * 16 + 10), 0]
/-- Records as 64-byte values from 0x3000: A and B in the scratchpad at 0 and 0x200, and one in global memory at 0x4000. -/
def recsMem : Memory :=
  (rec16 0 1 ++ rec16 0x200 1 ++ rec16 0x4000 0).zipIdx.foldl (fun m p => Memory.writeNat m (0x3000 + 8 * p.2) p.1.toNat 8) (tables leafBits)
/-- The group names them in `s1`, `s2`, `s6`; `s5` is 0, `s7` holds 0x3001. -/
def mGroup : Group := { aGroup with regs := { someRegs with s := [(1, 0x3000), (2, 0x3040), (6, 0x3080), (7, 0x3001)] } }
/-- A has 2 and B has 3 at the origin. -/
def mCrew : Crew := { aCrew with scratch := [(1, 0x40), (0x201, 0x42)] }
def stM : State := { stG mGroup with mem := recsMem, crews := [(1, mCrew)] }

/-- Records that are not rejected, and one with a reserved bit; sparse and q4n ones; a metadata field that keeps positions 1 and 3. -/
theorem meets_RecordFields : (rec16 0 1).length = 8 ∧ shapeBad (rec16 0 1) (.of (rec16 0 1)) false = false ∧
    rowWord ((rec16 0 1).set 6 0x105A) 6 / 2 ^ 12 % 2 ^ 20 ≠ 0 := by decide +kernel

theorem meets_OperandReads : let h := Shape.of (rec16 0 1)
    h.e 0 ≤ 16 ∧ (0 < h.e 0 ∧ 0 < recRows h) ∧ h.sparse = 0 ∧
    (match readElem stM (.tile 0) 0 1 false h.space (elemAt h 0 0) (elemWidth h.fmt) with | .ok v b => (v, b) | _ => (0, true)) = (0x4000, false) ∧
    -- a sparse record whose metadata, at 0 of the scratchpad, is 0x40 and 0x19
    (let k : Shape := { h with sparse := 1, metaBase := 1 }
     k.sparse ≠ 0 ∧ (match readElem stM (.tile 0) 0 1 false k.space (metaField k 0 (0 / 8)).1 (metaField k 0 (0 / 8)).2 with | .ok v b => (v, b) | _ => (0, true)) = (0x40, false) ∧
       0x40 / 8 ^ 2 ≠ 0 ∧ (0x19 / 8 ^ 0 % 8 < 0x19 / 8 ^ 1 % 8 ∧ 0x19 / 8 ^ 2 = 0)) := by decide +kernel

theorem test_sparse_reads : let h : Shape := { Shape.of (rec16 0 1) with sparse := 1, metaBase := 0x100 }
    let s : State := { stM with crews := [(1, { mCrew with scratch := [(2, 7), (0x100, 0x19)] })] }
    -- stored element 1 of the run stands at position 3; position 2 is a zero
    (match operandElem s (.tile 0) 0 1 false h 3 0 with | .ok e => e == (some 7, false) | .error _ => false) = true ∧
    (match operandElem s (.tile 0) 0 1 false h 2 0 with | .ok e => e == (none, false) | .error _ => false) = true ∧
    (match operandElem stM (.tile 0) 0 1 false { h with metaBase := 1 } 2 0 with | .error .bad => true | _ => false) = true := by decide +kernel

/-- A window line that the leaf of the second GiB maps, and the home's copies of it: none, one, one whose read was refused. -/
def stWindow (q : Option FarCopy) : State :=
  { stM with lnkid := 0x10, mem := Memory.writeNat recsMem 0x102008 (leafBits + 0xC10000000000 / 4096 * 4096) 8, farCopies := q.elim [] (fun q => [(0xC10000002000 / 128, q)]) }
/-- A member of a quad set with index 1. -/
def quadCrewOf (i : Nat) : Crew := { mCrew with idx := i }

theorem meets_OperandPlaces : stM.crew? 1 = some mCrew ∧ (∀ w ∈ [EngineId.tile 0, .copy 0, .package 3], tlbFind (stM.walkAhead w) 0 (0x4000 % 2 ^ 57) = none) ∧ inHbm 0x4000 = true ∧
    (match xlateAhead stM (.tile 0) 0 (BitVec.ofNat 64 0x4000) false .read false with | .ok x => x.pa | .error _ => 0) = 0x4000 ∧
    (match xlateAhead stM (.tile 0) 0 (BitVec.ofNat 64 0x4000000000) false .read false with | .error (.page k _ _) => k | _ => 0) = 1 ∧
    ((match xlateAhead (stWindow none) (.tile 0) 0 (BitVec.ofNat 64 0x40002000) false .read false with | .ok x => x.pa | .error _ => 0) = 0xC10000002000 ∧
      inWindow (stWindow none).lnkid 0xC10000002000 = true ∧ SMap.find? (stWindow none).farCopies (lineOf 0xC10000002000) = none ∧
      SMap.find? (stWindow (some ⟨7, false, none⟩)).farCopies (lineOf 0xC10000002000) = some ⟨7, false, none⟩ ∧ 0xC10000002000 % 128 + 4 ≤ 128 ∧
      SMap.find? (stWindow (some ⟨7, false, some (8, 18)⟩)).farCopies (lineOf 0xC10000002000) = some ⟨7, false, some (8, 18)⟩) ∧
    2 ^ 19 / 2 ^ 19 % 4 ≠ mCrew.idx % 4 ∧ peerCrew stM mCrew 1 = none ∧
    (∃ k ∈ ({ stM with memPoison := [0x1001] } : State).memPoison, 4 * k < 0x4000 + 5 ∧ 0x4000 < 4 * k + 4) ∧
    ¬(∃ k ∈ ({ stM with memPoison := [0x1001] } : State).memPoison, 4 * k < 0x4000 + 4 ∧ 0x4000 < 4 * k + 4) := by decide +kernel

/-- A poisoned word marks the elements that lie on it, in memory and in the scratchpad, of its own crew and of a peer's. -/
theorem test_poisoned_elements : let s : State := { stM with memPoison := [0x1001], crews := [(1, { mCrew with scratchPoison := [0x10] })] }
    let marked := fun (sp a n : Nat) => match readElem s (.tile 0) 0 1 false sp a n with | .ok _ b => some (b != 0) | _ => none
    (marked 0 0x4004 4, marked 0 0x4002 2, marked 0 0x4000 8) = (some true, some false, some true) ∧
    (marked 1 0x40 2, marked 1 0x3E 2, marked 1 0x44 1) = (some true, some false, some false) := by decide +kernel

/-- Reading the root table in a window is asked for at the far end. -/
theorem meets_FarTables : (match xlateAhead { stWindow none with ctxs := [(0, { stM.ctx 0 with ptroot := 0xC10000002000 })] } (.tile 0) 0 0x4000 false .read false with
    | .error (.far pa) => pa | _ => 0) = 0xC10000002000 := by decide +kernel

theorem test_window_operand : (match readElem (stWindow (some ⟨7, false, none⟩)) (.tile 0) 0 1 false 0 0x40002000 4 with | .ok v b => (v, b) | _ => (0, true)) = (7, false) ∧
    (match readElem (stWindow none) (.tile 0) 0 1 false 0 0x40002000 4 with | .far pa => pa | _ => 0) = 0xC10000002000 ∧
    (match readElem (stWindow (some ⟨7, false, some (8, 18)⟩)) (.tile 0) 0 1 false 0 0x40002000 4 with | .lost c d => (c, d) | _ => (0, 0)) = (8, 18) := by decide +kernel

theorem pageOk_of {s : State} {g : Group} {p : Nat} {n : Need} {l : Leaf} {x : Xl} (h : walk s (s.ctxOf g) (BitVec.ofNat 64 (4096 * p)) = .ok l)
    (hx : xlateWalk s (s.ctxOf g) (BitVec.ofNat 64 (4096 * p)) g.sup n true = .ok x) (hc : pteColour l.e = 0) : PageOk s g p n := by
  refine ⟨⟨?_, ?_, ?_⟩, ?_, ?_⟩
  · intro k z e; rw [h] at e; cases e
  · intro pa e; rw [h] at e; cases e
  · intro c d e; rw [hx] at e; cases e
  · intro m e _; rw [h] at e; cases e; exact Or.inl hc
  · intro c z e; rw [h] at e; cases e

/-- Ranges in the scratchpad that end at its end and past it; a page that passes both steps, and one that is not mapped. -/
theorem meets_RangeChecks : stM.crewOf mGroup = some mCrew ∧ mCrew.scratchBytes < 65535 + 2 ∧ ¬mCrew.scratchBytes < 65534 + 2 ∧ quadCrew stM mCrew = false ∧
    (match walk stM 0 (BitVec.ofNat 64 (4096 * 0x4000000)) with | .error (.page 1 _ _) => true | _ => false) = true ∧
    pageNeed [⟨0, 0x4000, 2, false⟩] 4 .read := by
  refine ⟨by decide +kernel, by decide +kernel, by decide +kernel, by decide +kernel, by decide +kernel, ⟨_, List.mem_singleton.mpr rfl, rfl, by decide⟩, Or.inr ⟨rfl, ?_⟩⟩
  intro x hx _
  rw [List.mem_singleton.mp hx]

theorem test_range_checks : spanScratch stM mGroup [⟨1, 65534, 2, false⟩] = none ∧ spanScratch stM mGroup [⟨1, 65535, 2, false⟩] = some (FaultInfo.of 8 1) ∧
    spanChecks stM mGroup [⟨0, 0x4000, 2, false⟩] = none ∧
    spanChecks stM mGroup [⟨0, 0x4000000000, 2, false⟩] = some { FaultInfo.of 7 1 with addr := 0x4000000000, replay := true } ∧
    (spanChecks { stM with mem := tables (5 * 2 ^ 52 + leafBits) } mGroup [⟨0, 0x4000, 2, false⟩]).map FaultInfo.cause = some 13 := by decide +kernel

/-! ## Matrix instructions at issue (MatrixIssue) -/

theorem matrix_of {s : State} {g : Group} {c : Crew} (hi : Issuing s g) (h : (g.parkHere = none ∧ g.passedHere = none) ∧ s.crewOf g = some c)
    (hr : c.matrixGroup = none ∨ c.matrixGroup = some s.cur) : Matrix s g c :=
  ⟨hi, h.1, h.2, by rintro m hm; rcases hr with hr | hr <;> rw [hr] at hm <;> cases hm; rfl⟩

theorem matrix_stM : Matrix stM mGroup mCrew := matrix_of (issuing_of (by decide +kernel)) (by decide +kernel) (Or.inl rfl)

/-- A record in HBM of which the core holds no line. -/
theorem recordAt_of {s : State} {g : Group} {va : Word} {r : List (BitVec 64)} {x : Xl} (h : (va.toNat % 64 = 0 ∧
    xlate s g.core (s.ctxOf g) va g.sup .read false = .ok x) ∧ recordHeld s s.cur g va x.pa = false ∧ s.farFault x.pa = none ∧
    poisoned s x.pa 64 = false ∧ r.length = 8 ∧
    SMap.find? (s.core g.core).l1 (lineOf x.pa) = none ∧ inWindow s.lnkid x.pa = false)
    (hv : ∀ i, i < 8 → rowWord r i = Memory.readNat s.mem (x.pa + 8 * i) 8) : RecordAt s g va r := by
  refine ⟨h.1.1, x, h.1.2, h.2.1, h.2.2.1, h.2.2.2.1, h.2.2.2.2.1, ?_⟩
  rw [h.2.2.2.2.2.1, h.2.2.2.2.2.2]
  exact hv

theorem record_a : RecordAt stM mGroup 0x3000 (rec16 0 1) := recordAt_of (x := ⟨0x3000, 0, false, false⟩) (by decide +kernel) (by decide +kernel)
theorem record_b : RecordAt stM mGroup 0x3040 (rec16 0x200 1) := recordAt_of (x := ⟨0x3040, 0, false, false⟩) (by decide +kernel) (by decide +kernel)

/-- 16 by 16 by 16, f16, into tile 2, without the accumulator. -/
def aMma (fa : Fmt) : MmaOp := ⟨0, 2, .reg 1, .reg 2, .reg 5, fa, fa, 0, 0, 0, false, false, true⟩

theorem meets_ProductIssues : (Instr.mma (aMma .f16)).wf = true ∧ (Instr.mmaq { aMma .f16 with mc := 2, nc := 2 }).wf = true ∧ Matrix stM mGroup mCrew ∧
    mGroup.sOk (.reg 1) = true ∧ mGroup.sOk (.reg 2) = true ∧ mGroup.sOk (.reg 5) = true ∧ mGroup.eff 0 ≠ 0 ∧ quadCrew stM mCrew = false ∧
    RecordAt stM mGroup (mGroup.sval (.reg 1)) (rec16 0 1) ∧ RecordAt stM mGroup (mGroup.sval (.reg 2)) (rec16 0x200 1) ∧
    shapeBad (rec16 0 1) (.of (rec16 0 1)) false = false ∧ (Shape.of (rec16 0 1)).fmt = .f16 ∧ (Shape.of (rec16 0 1)).fmt ≠ .bf16 ∧ (Shape.of (rec16 0 1)).sparse = 0 ∧
    ¬(Shape.of (rec16 0 1)).e 0 < 0 + depthOf .f16 0 ∧ (Shape.of (rec16 0 1)).e 0 < 16 + depthOf .f16 0 ∧ (stM.core 0).array.holder = none ∧
    ((claimed stM mGroup mCrew).ops.filter (fun o => o.gid == stM.cur)).length < 64 := by
  refine ⟨by decide +kernel, by decide +kernel, matrix_stM, by decide +kernel, by decide +kernel, by decide +kernel, by decide +kernel, by decide +kernel, record_a, record_b, by decide +kernel⟩

/-- The array is another crew's; the group's 64 operations are queued; a range outside the scratchpad, and a page that is not mapped; a record in
an L1 copy, and one in the home's copy of a window line. -/
theorem meets_Queues : (let s : State := { stM with cores := [(0, { CoreSt.reset with array := { CoreSt.reset.array with holder := some 9 } })] }
      Matrix s mGroup mCrew ∧ ∃ x, (s.core mGroup.core).array.holder = some x ∧ x ≠ mGroup.crew) ∧
    (let a := { CoreSt.reset.array with holder := some 1, ops := List.replicate 64 (emptyOp stM mGroup .accz 2 16 16) }
      let s : State := { stM with crews := [(1, { mCrew with matrixGroup := some 2 })], cores := [(0, { CoreSt.reset with array := a })] }
      Matrix s mGroup { mCrew with matrixGroup := some 2 } ∧ 64 ≤ ((claimed s mGroup { mCrew with matrixGroup := some 2 }).ops.filter (fun o => o.gid == s.cur)).length) ∧
    spanScratch (asRole stM mGroup mCrew) mGroup [⟨1, 65535, 2, false⟩] = some (FaultInfo.of 8 1) ∧
    (spanChecks (asRole stM mGroup mCrew) mGroup [⟨0, 0x4000000000, 2, false⟩]).map FaultInfo.cause = some 7 ∧
    (spanScratch (asRole stM mGroup mCrew) mGroup [⟨0, 0x4000, 2, false⟩, ⟨1, 0, 2, false⟩] = none ∧
      spanChecks (asRole stM mGroup mCrew) mGroup [⟨0, 0x4000, 2, false⟩, ⟨1, 0, 2, false⟩] = none) := by
  refine ⟨⟨matrix_of (issuing_of (by decide +kernel)) (by decide +kernel) (Or.inl rfl), 9, by decide +kernel⟩,
    ⟨matrix_of (issuing_of (by decide +kernel)) (by decide +kernel) (Or.inr rfl), by decide +kernel⟩, by decide +kernel⟩

/-- The line of the records, words of 0 in an L1 copy, and in a copy of the home. -/
theorem meets_RecordCopies : (∃ s : State, s = { stM with cores := [(0, { CoreSt.reset with l1 := [(0x60, ⟨0, 0, false, false⟩)] })] } ∧
      RecordAt s mGroup 0x3000 (List.replicate 8 0)) ∧
    RecordAt { stWindow (some ⟨0, false, none⟩) with ctxs := [(0, st.ctx 0)] } mGroup 0x40002000 (List.replicate 8 0) := by
  constructor
  · refine ⟨_, rfl, by decide +kernel, ⟨0x3000, 0, false, false⟩, by decide +kernel, by decide +kernel, by decide +kernel, by decide +kernel, rfl, ?_⟩
    show ∀ i, i < 8 → _
    decide +kernel
  · refine ⟨by decide +kernel, ⟨0xC10000002000, 0, false, false⟩, by decide +kernel, by decide +kernel, by decide +kernel, by decide +kernel, rfl, ?_⟩
    exact ⟨⟨0, false, none⟩, by decide +kernel, by decide +kernel⟩

theorem test_mma_issues : after (exec (.mma (aMma .f16)) stM) (fun t g => g.pc == 1 && (t.core 0).array.holder == some 1 &&
    (t.crew? 1).any (fun k => k.matrixGroup == some 2) &&
    (t.core 0).array.ops.map (fun o => (o.d, o.mm, o.nn, o.kk, o.complete)) == [(2, 16, 16, 16, false)]) = true := by decide +kernel
theorem test_mma_format : after (exec (.mma (aMma .bf16)) stM) (fun _ g => g.tcause == 0x110001) = true := by decide +kernel
theorem test_mmaq_no_quad : after (exec (.mmaq { aMma .f16 with mc := 2, nc := 2 }) stM) (fun _ g => g.tcause == 0x20008) = true := by decide +kernel

theorem meets_TileIssues : Matrix stM mGroup mCrew ∧ mGroup.eff 0 ≠ 0 ∧ (Instr.accz 0 3).wf = true ∧ (Instr.acczPair 0 2).wf = true ∧
    (Instr.sacc 0 2 3 (.reg 5) (.reg 5) .f32 0 0 false).wf = true ∧ mGroup.sOk (.reg 5) = true ∧
    (mGroup.sval (.reg 5)).toNat + 16 ≤ mCrew.scratchBytes ∧ (mGroup.sval (.reg 5)).toNat % 4 = 0 ∧ (mGroup.sval (.reg 7)).toNat % 4 ≠ 0 ∧
    (Instr.accld 0 2 (.reg 1) (.reg 5) .f32 0 0).wf = true ∧ RecordAt stM mGroup (mGroup.sval (.reg 1)) (rec16 0 1) := by
  refine ⟨matrix_stM, by decide +kernel, by decide +kernel, by decide +kernel, by decide +kernel, by decide +kernel, by decide +kernel, by decide +kernel, by decide +kernel, by decide +kernel, record_a⟩

theorem test_accz_issues : after (exec (.acczPair 0 2) stM) (fun t g => g.pc == 1 && (t.core 0).array.ops.map (fun o => (o.kind, o.d, o.mm, o.nn)) == [(.accz, 2, 128, 64)]) = true := by
  decide +kernel
theorem test_sacc_align : after (exec (.sacc 0 2 3 (.reg 5) (.reg 7) .f32 0 0 false) stM) (fun _ g => g.tcause == 0x10006) = true ∧
    after (exec (.accld 0 2 (.reg 1) (.reg 5) .f32 0 0) stM) (fun _ g => g.tcause == 0x110001) = true := by decide +kernel

/-- Another group has the role. -/
theorem meets_MatrixStops : (Instr.mma (aMma .f16)).wf = true ∧ Issuing stM mGroup ∧ ({ mCrew with matrixGroup := some 9 } : Crew).matrixGroup = some 9 ∧ 9 ≠ stM.cur ∧
    Matrix stM mGroup mCrew ∧ (mGroup.sval (.reg 7)).toNat % 64 ≠ 0 ∧ mGroup.eff 2 = 0 := by
  refine ⟨by decide +kernel, matrix_stM.issuing, by decide +kernel, by decide +kernel, matrix_stM, by decide +kernel, by decide +kernel⟩

/-- A word of the second record is poisoned. -/
def stBadRec : State := { stM with memPoison := [0x3040 / 4] }
theorem meets_PoisonedRecord : Matrix stBadRec mGroup mCrew ∧ [SSrc.reg 1, .reg 2] = [SSrc.reg 1] ++ SSrc.reg 2 :: [] ∧
    (∀ b ∈ [SSrc.reg 1, .reg 2], (mGroup.sval b).toNat % 64 = 0 ∧ ∃ y, xlate stBadRec 0 0 (mGroup.sval b) false .read false = .ok y ∧ inHbm y.pa = true ∧
      inWindow stBadRec.lnkid y.pa = false ∧ stBadRec.farFault y.pa = none ∧ recordHeld stBadRec stBadRec.cur mGroup (mGroup.sval b) y.pa = false ∧
      (b ∈ [SSrc.reg 1] → poisoned stBadRec y.pa 64 = false)) ∧
    (∃ x, xlate stBadRec 0 0 (mGroup.sval (.reg 2)) false .read false = .ok x ∧ poisoned stBadRec x.pa 64 = true) := by
  have h : ∀ b ∈ [SSrc.reg 1, .reg 2], (mGroup.sval b).toNat % 64 = 0 ∧
      (let y : Xl := ⟨(mGroup.sval b).toNat, 0, false, false⟩
       xlate stBadRec 0 0 (mGroup.sval b) false .read false = .ok y ∧ inHbm y.pa = true ∧
         inWindow stBadRec.lnkid y.pa = false ∧ stBadRec.farFault y.pa = none ∧ recordHeld stBadRec stBadRec.cur mGroup (mGroup.sval b) y.pa = false ∧
         (b ∈ [SSrc.reg 1] → poisoned stBadRec y.pa 64 = false)) := by decide +kernel
  refine ⟨matrix_of (issuing_of (by decide +kernel)) (by decide +kernel) (Or.inl rfl), rfl, fun b hb => ⟨(h b hb).1, _, (h b hb).2⟩, ?_⟩
  exact ⟨⟨0x3040, 0, false, false⟩, by decide +kernel⟩

theorem test_poisoned_record : after (exec (.mma (aMma .f16)) stBadRec) (fun t g => g.live == 0 && g.dead == 0xF && (t.core 0).array.ops.isEmpty) = true := by
  decide +kernel

theorem test_matrix_stops : after (exec (.accz 0 1) { stM with crews := [(1, { mCrew with matrixGroup := some 9 })] }) (fun _ g => g.tcause == 0x120001) = true ∧
    after (exec (.mma { aMma .f16 with b := .reg 7 }) stM) (fun _ g => g.tcause == 0x30006) = true ∧
    after (exec (.accz 2 1) stM) (fun t g => g.pc == 1 && (t.core 0).array.holder == none) = true := by decide +kernel

/-- An operation of the group in the array of its crew. -/
def opOf (k : MKindOp) (b : Option Nat) : MOp :=
  { id := 5, gid := 2, kind := k, d := 2, p := 3, a := some (.of (rec16 0 1)), b := some (.of (rec16 0x200 1)), origin := 0, mm := 16, nn := 16, kk := 16,
    fa := .f16, fb := .f16, negA := false, negB := false, noAcc := true, k1 := 0, k2 := 0, joint := 0, batch := b, complete := false,
    tainted := false, colours := [], ready := 0, regs := [], sup := false, stuck := false, fault := none }
def mCrew1 : Crew := { mCrew with matrixGroup := some 2 }
def arrayOf (ops : List MOp) : ArraySt := { CoreSt.reset.array with holder := some 1, tiles := [(4096 * 2, 7), (4096 * 3, 0x3F800000)], ops := ops }
def stOps (ops : List MOp) : State := { stM with crews := [(1, mCrew1)], cores := [(0, { CoreSt.reset with array := arrayOf ops })], cryo := { Cryo.reset with band := 1 } }

theorem matrix_stOps (ops : List MOp) : Matrix (stOps ops) mGroup mCrew1 := matrix_of (issuing_of ⟨rfl, rfl, rfl, rfl⟩) ⟨⟨rfl, rfl⟩, rfl⟩ (Or.inr rfl)

theorem meets_BatchesAndOpready : Matrix (stOps [opOf .mma none]) mGroup mCrew1 ∧ (stOps []).cores.length = 1 ∧
    (∃ o ∈ (claimed (stOps [opOf .mma none]) mGroup mCrew1).ops, (o.gid == 2 && o.batch == none) = true ∧ o.complete = false) ∧ (claimed (stOps []) mGroup mCrew1).ops = [] :=
  ⟨matrix_stOps _, by decide +kernel⟩

/-- The group has written `s5` since an operation that names it. -/
def sRegGroup : Group := { mGroup with opRegs := [1, 5], sHit := [5] }
def sRegOp : MOp := { opOf .mma none with regs := [1, 5] }
theorem meets_SRegOps : let s : State := { stOps [sRegOp] with groups := [(2, sRegGroup)] }
    5 ∈ sRegGroup.opRegs ∧ s.group? 2 = some sRegGroup ∧ 5 ∈ sRegGroup.sHit ∧ sRegOp ∈ (s.core sRegGroup.core).array.ops ∧ sRegOp.gid = 2 ∧ 5 ∈ sRegOp.regs ∧
    sRegOp.complete = false := by decide +kernel

/-- `smov` to a register that an operation names, and to one that none names. -/
theorem test_sreg_taints : let s : State := { stOps [sRegOp] with groups := [(2, { sRegGroup with sHit := [] })] }
    next (exec (.smov ⟨0, .reg 5, .reg 1, .n64⟩) s) (fun t => ((noteRegs t 2).core 0).array.ops.map MOp.tainted == [true]) = true ∧
    next (exec (.smov ⟨0, .reg 6, .reg 1, .n64⟩) s) (fun t => ((noteRegs t 2).core 0).array.ops.map MOp.tainted == [false]) = true := by decide +kernel

theorem test_xbatch : after (exec .xbatch (stOps [opOf .mma none])) (fun t g => g.pc == 1 && g.xc.map CtrEntry.op == [10] && (t.core 0).array.ops.map MOp.batch == [some 10]) = true ∧
    after (exec .xbatch (stOps [])) (fun _ g => g.pc == 1 && g.xc.isEmpty) = true := by decide +kernel
theorem test_opready : after (exec .opready { stOps [] with crews := [(1, { mCrew1 with recent := [(0, 0x4000, 4, 2, 5)] })] }) (fun t g => g.pc == 1 && decide (10 ≤ g.ready) &&
    (t.crew? 1).any (fun k => k.recent.isEmpty)) = true := by decide +kernel

/-! ## What the array computes (MatrixResults) -/

theorem enabled_of {s : State} {core : Nat} {o : MOp} (h : (s.core core).array.ops = [o])
    (k : (o.complete = false ∧ o.stuck = false) ∧ ((s.core core).array.halted = false ∧ s.cryo.band ≤ 2) ∧ s.reqs = [] ∧ s.copies = []) : Enabled s core o :=
  ⟨⟨[], [], h, by simp⟩, k.1, k.2.1, by rw [k.2.2.1]; simp, by rw [k.2.2.2]; simp⟩

/-- Every element of an operand of 16 by 16 from the origin reads as `P` says. -/
def elemsAre (s : State) (core crew : Nat) (h : Shape) (P : Except TileRead Elem → Bool) : Bool :=
  (List.range 16).all (fun i => (List.range 16).all (fun k => P (operandElem s (.tile core) 0 crew false h k i)))
def isOk (e : Except TileRead Elem) : Bool := match e with | .ok _ => true | _ => false
def fails (e : Except TileRead Elem) : Option (Nat × Nat) :=
  match e with
  | .error .bad => some (0, 0)
  | .error .gone => some (1, 0)
  | .error (.wait va) => some (2, va)
  | .error (.far pa) => some (3, pa)
  | _ => none

theorem elems_at {s : State} {core crew : Nat} {h : Shape} {P : Except TileRead Elem → Bool} (e : elemsAre s core crew h P = true) {i k : Nat} (hi : i < 16)
    (hk : k < 16) : P (operandElem s (.tile core) 0 crew false h k i) = true :=
  List.all_eq_true.mp (List.all_eq_true.mp e i (List.mem_range.mpr hi)) k (List.mem_range.mpr hk)

/-- The elements of an operand that reads. -/
def elemsOf (s : State) (core crew : Nat) (h : Shape) (k i : Nat) : Option Nat := match operandElem s (.tile core) 0 crew false h k i with | .ok e => e.1 | _ => none

theorem gives_of {s : State} {core crew : Nat} {h : Shape} {rows : Nat} (hr : rows ≤ 16) (e : elemsAre s core crew h isOk = true) :
    Gives s core 0 crew false h 0 0 16 rows (elemsOf s core crew h) := by
  intro i k hi hk
  have h1 := elems_at e (Nat.lt_of_lt_of_le hi hr) hk
  simp only [Nat.zero_add, elemsOf] at *
  revert h1
  cases operandElem s (.tile core) 0 crew false h k i with
  | ok v => exact fun _ => ⟨v.2, rfl⟩
  | error e => exact fun h => absurd h (by simp [isOk])

theorem fails_of {s : State} {core crew : Nat} {h : Shape} {x : Nat × Nat} {e : TileRead} (hx : fails (.error e) = some x)
    (a : elemsAre s core crew h (fun v => fails v == some x) = true) (i k : Nat) (hi : i < 16) (hk : k < 16) :
    operandElem s (.tile core) 0 crew false h k i = .error e := by
  have h1 := elems_at a hi hk
  rw [beq_iff_eq, ← hx] at h1
  clear a
  revert h1
  cases operandElem s (.tile core) 0 crew false h k i with
  | ok v => intro h; rw [hx] at h; cases h
  | error b => intro h; cases e <;> cases b <;> simp [fails] at h hx ⊢ <;> exact h

/-- The operands of the tests read; an operand in the scratchpad of a peer that has gone, one whose metadata is not well-formed, one on a page that
is not resident, and one in a window of which the home has no copy. -/
theorem meets_OperandsRead : let s := stOps [opOf .mma none]
    Gives s 0 0 1 false (.of (rec16 0 1)) 0 0 16 16 (elemsOf s 0 1 (.of (rec16 0 1))) ∧
    Gives s 0 0 1 false (.of (rec16 0x200 1)) 0 0 16 16 (elemsOf s 0 1 (.of (rec16 0x200 1))) ∧
    (∀ i k, i < 16 → k < 16 → operandElem s (.tile 0) 0 1 false (.of (rec16 0x80000 2)) k i = .error .gone) ∧
    (∀ i k, i < 16 → k < 16 → operandElem s (.tile 0) 0 1 false { Shape.of (rec16 0 1) with sparse := 1, metaBase := 0x300 } k i = .error .bad) ∧
    (∀ i k, i < 16 → k < 16 → operandElem s (.tile 0) 0 1 false (.of (rec16 0x4000000000 0)) k i = .error (.wait 0x4000000000)) := by
  have h : elemsAre (stOps [opOf .mma none]) 0 1 (.of (rec16 0 1)) isOk = true ∧ elemsAre (stOps [opOf .mma none]) 0 1 (.of (rec16 0x200 1)) isOk = true ∧
      elemsAre (stOps [opOf .mma none]) 0 1 (.of (rec16 0x80000 2)) (fun v => fails v == some (1, 0)) = true ∧
      elemsAre (stOps [opOf .mma none]) 0 1 { Shape.of (rec16 0 1) with sparse := 1, metaBase := 0x300 } (fun v => fails v == some (0, 0)) = true ∧
      elemsAre (stOps [opOf .mma none]) 0 1 (.of (rec16 0x4000000000 0)) (fun v => fails v == some (2, 0x4000000000)) = true := by decide +kernel
  exact ⟨gives_of (Nat.le_refl _) h.1, gives_of (Nat.le_refl _) h.2.1, fails_of rfl h.2.2.1, fails_of rfl h.2.2.2.1, fails_of rfl h.2.2.2.2⟩

theorem meets_OperandFar : ∀ i k, i < 16 → k < 16 → operandElem { stOps [] with lnkid := 0x10, mem := (stWindow none).mem } (.tile 0) 0 1 false
    (.of ((rec16 0x40000000 0).set 3 0)) k i = .error (.far 0xC10000000000) :=
  fails_of rfl (by decide +kernel)

theorem meets_Products : ∀ k ∈ [MKindOp.mma, .mmas], Enabled (stOps [opOf k none]) 0 (opOf k none) ∧ ((stOps [opOf k none]).core 0).array.holder = some 1 ∧
    (stOps [opOf k none]).crew? 1 = some mCrew1 ∧ (opOf k none).a = some (.of (rec16 0 1)) ∧ (opOf k none).mm ≤ 128 ∧ (opOf k none).nn ≤ 64 ∧
    (opOf k none).kk % chunkSize (opOf k none).fa = 0 := by
  intro k hk
  exact ⟨enabled_of rfl ⟨⟨rfl, rfl⟩, ⟨rfl, (by decide : 1 ≤ 2)⟩, rfl, rfl⟩, rfl, rfl, rfl, (by decide : 16 ≤ 128), (by decide : 16 ≤ 64), (by decide : 16 % chunkSize .f16 = 0)⟩

theorem meets_ExactSums : XVal.nan ∈ [XVal.nan] ∧ XVal.nan ∉ [XVal.inf true] ∧ XVal.inf false ∉ [XVal.inf true] ∧ XVal.inf true ∈ [XVal.inf true] ∧
    [XVal.fin true 0 0] ≠ [] := by decide +kernel

/-- 2 times 3, and 0 elsewhere; an element outside the region stays. -/
theorem test_mma_completes : next (exec (.matrixOpComplete 0 5) (stOps [opOf .mma none])) (fun t =>
    (t.core 0).array.ops.map MOp.complete == [true] && SMap.get (t.core 0).array.tiles 0 (4096 * 2) == 0x40C00000 && SMap.get (t.core 0).array.tiles 0 (4096 * 3) == 0x3F800000) = true := by
  decide +kernel

/-- A quad set of crews 1 to 4 on cores 0 to 3, each with its operation of joint operation 0. -/
def quadOp (q : Nat) : MOp := { opOf .mmaq none with id := 5 + q, gid := 2 + q }
def quadCrewAt (q : Nat) : Crew := { mCrew1 with idx := q, cores := [q], matrixGroup := some (2 + q) }
def stQuad : State :=
  { stOps [] with launches := [(0, { probeLaunch with quad := true })], crews := (List.range 4).map (fun q => (q + 1, quadCrewAt q)),
                  cores := (List.range 4).map (fun q => (q, { CoreSt.reset with array := { arrayOf [quadOp q] with holder := some (q + 1) } })) }

theorem meets_JointMembers : ∀ q, q < 4 → Member stQuad (quadCrewAt 0) 0 q (q + 1) (quadCrewAt q) q (quadOp q) ∧ Enabled stQuad q (quadOp q) ∧
    ((quadOp q).tainted = false ∧ (quadOp q).a = some (.of (rec16 0 1)) ∧ (quadOp q).b = some (.of (rec16 0x200 1)) ∧ (quadOp q).mm = 16 ∧ (quadOp q).nn = 16 ∧
      (quadOp q).kk = 16) ∧
    Gives stQuad q (quadCrewAt q).ctx (q + 1) false (.of (rec16 0 1)) 0 0 16 16 (elemsOf stQuad q (q + 1) (.of (rec16 0 1))) ∧
    Gives stQuad q (quadCrewAt q).ctx (q + 1) false (.of (rec16 0x200 1)) 0 0 16 4 (elemsOf stQuad q (q + 1) (.of (rec16 0x200 1))) := by
  have h : ∀ q, q < 4 → (peerCrew stQuad (quadCrewAt 0) q = some (q + 1) ∧ stQuad.crew? (q + 1) = some (quadCrewAt q) ∧ (stQuad.core q).array.holder = some (q + 1) ∧
      (stQuad.core q).array.ops = [quadOp q] ∧ (stQuad.core q).array.halted = false) ∧ elemsAre stQuad q (q + 1) (.of (rec16 0 1)) isOk = true ∧
      elemsAre stQuad q (q + 1) (.of (rec16 0x200 1)) isOk = true := by decide +kernel
  intro q hq
  obtain ⟨⟨h1, h2, h3, h4, h5⟩, ha, hb⟩ := h q hq
  refine ⟨⟨h1, h2, ⟨List.mem_singleton.mpr rfl, h3⟩, fun y hy ny => absurd (List.mem_singleton.mp hy) ny, ⟨[], [], h4, by simp⟩, ?_⟩,
    enabled_of h4 ⟨⟨rfl, rfl⟩, ⟨h5, (by decide : 1 ≤ 2)⟩, rfl, rfl⟩, ⟨rfl, rfl, rfl, rfl, rfl, rfl⟩, gives_of (Nat.le_refl _) ha, gives_of (by decide) hb⟩
  exact ⟨rfl, rfl, (by decide : 16 ≤ 128), (by decide : 16 ≤ 64), (by decide : 16 % 4 = 0), (by decide : 16 % chunkSize .f16 = 0)⟩

/-- With no quad set the members of a joint operation are gone. -/
theorem meets_JointProducts : Enabled (stOps [opOf .mmaq none]) 0 (opOf .mmaq none) ∧ (opOf .mmaq none).kind = .mmaq ∧
    (∀ q, q < 4 → q ≠ 0 → peerCrew (stOps [opOf .mmaq none]) mCrew1 q = none) :=
  ⟨enabled_of rfl ⟨⟨rfl, rfl⟩, ⟨rfl, by decide⟩, rfl, rfl⟩, rfl, by decide +kernel⟩

/-- The set without its last member; the operation of crew 2 stands first in its array, or behind one that uses its tile. -/
def stThree (pre : List MOp) : State :=
  { stQuad with crews := (List.range 3).map (fun q => (q + 1, quadCrewAt q)),
                cores := (List.range 3).map (fun q => (q, { CoreSt.reset with
                  array := { arrayOf ((if q = 1 then pre else []) ++ [quadOp q]) with holder := some (q + 1) } })) }
def heldBack : MOp := { opOf .accz none with id := 3, gid := 3 }

theorem meets_RetiredMember : ∀ pre ∈ [[], [heldBack]], Enabled (stThree pre) 0 (quadOp 0) ∧ ((stThree pre).core 0).array.holder = some 1 ∧
    (stThree pre).crew? 1 = some (quadCrewAt 0) ∧ peerCrew (stThree pre) (quadCrewAt 0) 3 = none ∧
    Member (stThree pre) (quadCrewAt 0) 0 1 2 (quadCrewAt 1) 1 (quadOp 1) ∧ (pre = [] → Enabled (stThree pre) 1 (quadOp 1)) ∧
    (pre ≠ [] → opEnabled (stThree pre) 1 (quadOp 1) = false) := by
  have h : ∀ pre ∈ [[], [heldBack]], (((stThree pre).core 0).array.ops = [quadOp 0] ∧ ((stThree pre).core 0).array.holder = some 1 ∧
      (stThree pre).crew? 1 = some (quadCrewAt 0) ∧ peerCrew (stThree pre) (quadCrewAt 0) 3 = none) ∧
      (peerCrew (stThree pre) (quadCrewAt 0) 1 = some 2 ∧ (stThree pre).crew? 2 = some (quadCrewAt 1) ∧ ((stThree pre).core 1).array.holder = some 2 ∧
        ((stThree pre).core 1).array.ops = pre ++ quadOp 1 :: [] ∧ (∀ y ∈ pre, ¬(y.kind = .mmaq ∧ y.joint = 0)) ∧ ((stThree pre).core 0).array.halted = false ∧
        ((stThree pre).core 1).array.halted = false) ∧
      (pre ≠ [] → opEnabled (stThree pre) 1 (quadOp 1) = false) := by decide +kernel
  intro pre hp
  obtain ⟨⟨h1, h2, h3, h4⟩, ⟨h5, h6, h7, h8, h9, h10, h11⟩, h12⟩ := h pre hp
  refine ⟨enabled_of h1 ⟨⟨rfl, rfl⟩, ⟨h10, (by decide : 1 ≤ 2)⟩, rfl, rfl⟩, h2, h3, h4,
    ⟨h5, h6, ⟨List.mem_singleton.mpr rfl, h7⟩, fun y hy ny => absurd (List.mem_singleton.mp hy) ny, ⟨pre, [], h8, h9⟩, ?_⟩, ?_, h12⟩
  · exact ⟨rfl, rfl, (by decide : 16 ≤ 128), (by decide : 16 ≤ 64), (by decide : 16 % 4 = 0), (by decide : 16 % chunkSize .f16 = 0)⟩
  · rintro rfl
    exact enabled_of h8 ⟨⟨rfl, rfl⟩, ⟨h11, (by decide : 1 ≤ 2)⟩, rfl, rfl⟩

/-- The member whose operation may run fails with PEERGONE 2; one that is held back stays as it is. -/
theorem test_retired_member : next (exec (.matrixOpComplete 0 5) (stThree [])) (fun t => (t.core 1).array.ops.map (fun o => (o.complete, o.fault.map FaultInfo.cause)) ==
      [(true, some 16)]) = true ∧
    next (exec (.matrixOpComplete 0 5) (stThree [heldBack])) (fun t => (t.core 1).array == ((stThree [heldBack]).core 1).array) = true := by decide +kernel

theorem meets_TileMoves : ∀ k ∈ [MKindOp.accz, .accld, .sacc], Enabled (stOps [opOf k none]) 0 (opOf k none) ∧ (opOf k none).mm ≤ 128 ∧ (opOf k none).nn ≤ 64 ∧
    (opOf k none).tainted = false := by
  intro k hk
  exact ⟨enabled_of rfl ⟨⟨rfl, rfl⟩, ⟨rfl, (by decide : 1 ≤ 2)⟩, rfl, rfl⟩, (by decide : 16 ≤ 128), (by decide : 16 ≤ 64), rfl⟩

theorem test_accz_completes : next (exec (.matrixOpComplete 0 5) (stOps [opOf .accz none])) (fun t => SMap.get (t.core 0).array.tiles 0 (4096 * 2) == 0 &&
    SMap.get (t.core 0).array.tiles 0 (4096 * 3) == 0x3F800000) = true := by decide +kernel
/-- 1.0 of tile 3 scaled by (code 255 + 1) / 256 times 1.5, with the code at 0x10 and the scale at 0x20. -/
theorem test_sacc_completes : next (exec (.matrixOpComplete 0 5) { stOps [{ opOf .sacc none with fa := .f32, k1 := 0x10, k2 := 0x20, mm := 1, nn := 1 }] with
    crews := [(1, { mCrew1 with scratch := [(0x10, 255), (0x22, 0xC0), (0x23, 0x3F)] })] }) (fun t => SMap.get (t.core 0).array.tiles 0 (4096 * 2) == 0x3FC00000) = true := by
  decide +kernel

/-- The group has the batch on `xc`. -/
def batchGroup : Group := { mGroup with xc := [⟨9, false⟩] }
theorem meets_BatchesRetire : let s : State := { stOps [opOf .accz (some 9)] with groups := [(2, batchGroup)] }
    Enabled s 0 (opOf .accz (some 9)) ∧ s.group? 2 = some batchGroup ∧ batchGroup.xc = ⟨9, false⟩ :: [] ∧ batchGroup.imaged = false ∧
      ({ opOf .accz none with complete := true } : MOp).complete = true :=
  ⟨enabled_of rfl ⟨⟨rfl, rfl⟩, ⟨rfl, by decide⟩, rfl, rfl⟩, by decide +kernel⟩

theorem test_batch_retires : after (exec (.matrixOpComplete 0 5) { stOps [opOf .accz (some 9)] with groups := [(2, batchGroup)] }) (fun t g => g.xc.isEmpty &&
    (t.core 0).array.ops.isEmpty) = true := by decide +kernel

/-! ## Tiles stored, and images (TilesInMemory) -/

/-- `accst` of a region of tile 2 as f32 to a record of 16 by 16 f32 elements in the scratchpad at 0x400. -/
def recOut : List (BitVec 64) := (rec16 0x400 1).set 6 (2 ^ 6 + 16 + 12) |>.set 3 0x4000000004
/-- A box of one element. -/
def recOne : List (BitVec 64) := recOut.set 2 0x00010001
def stOne : State := { stOps [] with mem := recOne.zipIdx.foldl (fun m p => Memory.writeNat m (0x3000 + 8 * p.2) p.1.toNat 8) (tables leafBits) }

theorem record_one : RecordAt stOne mGroup 0x3000 recOne := recordAt_of (x := ⟨0x3000, 0, false, false⟩) (by decide +kernel) (by decide +kernel)

theorem meets_TileStores : Matrix stOne mGroup mCrew1 ∧ (Instr.accst 0 (.reg 1) (.reg 5) 2 .f32 0 0).wf = true ∧ mGroup.eff 0 ≠ 0 ∧
    RecordAt stOne mGroup (mGroup.sval (.reg 1)) recOne ∧ shapeBad recOne (.of recOne) false = false ∧ (Shape.of recOne).fmt = .f32 ∧
    (Shape.of recOne).sparse = 0 ∧ (Shape.of recOne).space ≠ 2 ∧ (Shape.of recOne).ndim < 2 ∧ mGroup.sc.length < 255 ∧
    (claimed stOne mGroup mCrew1).ops = [] ∧ mGroup.unwaited = [] ∧
    (∃ e ∈ List.range 256, (decide (0 + e % 16 < (Shape.of recOne).e 0 ∧ 0 + e / 16 < recRows (.of recOne))) = true) ∧
    255 ≤ ({ mGroup with sc := List.replicate 255 ⟨0, true⟩ } : Group).sc.length := by
  refine ⟨matrix_of (issuing_of ⟨rfl, rfl, rfl, rfl⟩) ⟨⟨rfl, rfl⟩, rfl⟩ (Or.inr rfl), by decide +kernel, by decide +kernel, record_one, by decide +kernel⟩

theorem test_accst : after (exec (.accst 0 (.reg 1) (.reg 5) 2 .f32 0 0) stOne) (fun t g => g.pc == 1 && g.sc.length == 1 &&
    t.copies.map (fun e => (e.2.todo, e.2.vals.map (fun m => SMap.get m 0 0))) == [([0], some 7)]) = true := by decide +kernel

/-- The pages of an image at 0x100000 × 16 translate to themselves. -/
def iGroup : Group := { mGroup with regs := { someRegs with s := [(1, 0x1000000), (7, 0x1000001)] } }
/-- The walk-ahead TLB of the copy unit holds the leaf of the image. -/
def stImg (a : ArraySt) : State :=
  { stG iGroup with crews := [(1, mCrew1)], cores := [(0, { CoreSt.reset with array := a, copyTlb := [⟨0, 0, 2 ^ 30, BitVec.ofNat 64 leafBits⟩] })],
                    mem := tables leafBits }

def pagesFine (s : State) (g : Group) (va : Word) (w : Bool) : Bool :=
  (List.range 69).all (fun i => decide (xlate s g.core (s.ctxOf g) (va + BitVec.ofNat 64 (4096 * i)) g.sup (if w then .write else .read) false =
    .ok ⟨va.toNat + 4096 * i, 0, false, false⟩) && inHbm (va.toNat + 4096 * i) && !granuleFrozen s (va.toNat + 4096 * i) && inHbm (va.toNat + 4096 * i + 4095) &&
    decide (imagePage s g va i w = .ok ⟨va.toNat + 4096 * i, 0, false, false⟩) &&
    (tlbFind (s.core g.core).copyTlb (s.ctxOf g) ((va + BitVec.ofNat 64 (4096 * i)).toNat % 2 ^ 57)).isSome)

/-- A page that the TLB holds is translated without memory. -/
theorem imagePage_steady {s : State} {g : Group} {va : Word} {i : Nat} {w : Bool}
    (h : (tlbFind (s.core g.core).copyTlb (s.ctxOf g) ((va + BitVec.ofNat 64 (4096 * i)).toNat % 2 ^ 57)).isSome = true) (m : Memory) (fc : SMap FarCopy) :
    imagePage { s with mem := m, farCopies := fc } g va i w = imagePage s g va i w := by
  obtain ⟨t, ht⟩ := Option.isSome_iff_exists.mp h
  have h1 : tlbFind (s.walkAhead (.copy g.core)) (s.ctxOf g) ((va + BitVec.ofNat 64 (4096 * i)).toNat % 2 ^ 57) = some t := ht
  have h2 : tlbFind (({ s with mem := m, farCopies := fc } : State).walkAhead (.copy g.core)) (({ s with mem := m, farCopies := fc } : State).ctxOf g)
      ((va + BitVec.ofNat 64 (4096 * i)).toNat % 2 ^ 57) = some t := ht
  unfold imagePage xlateAhead
  rw [h1, h2]

theorem imagePages_of {s : State} {g : Group} {va : Word} {w : Bool} (ha : va.toNat % 4096 = 0) (h : pagesFine s g va w = true) :
    ImagePages s g va w (fun i => va.toNat + 4096 * i) := by
  have k : ∀ i, i < 69 → _ := fun i hi => List.all_eq_true.mp h i (List.mem_range.mpr hi)
  simp only [Bool.and_eq_true, Bool.not_eq_eq_eq_not, Bool.not_true, decide_eq_true_eq] at k
  refine ⟨ha, fun i hi => ?_, fun i j _ _ h => by simpa using h, fun m fc _ i hi => ?_⟩
  · obtain ⟨⟨⟨⟨⟨h1, h2⟩, h3⟩, h4⟩, -⟩, -⟩ := k i hi
    exact ⟨_, h1, rfl, h2, h3, rfl, Or.inl rfl, by omega, h4⟩
  · obtain ⟨⟨-, h5⟩, h6⟩ := k i hi
    exact ⟨_, (imagePage_steady h6 m fc).trans h5, rfl⟩

theorem meets_ArrayImages : Matrix (stImg (arrayOf [])) iGroup mCrew1 ∧ iGroup.eff 0 ≠ 0 ∧ iGroup.sOk (.reg 1) = true ∧ (iGroup.sval (.reg 7)).toNat % 4096 ≠ 0 ∧
    ImagePages (stImg (arrayOf [])) iGroup (iGroup.sval (.reg 1)) true (fun i => 0x1000000 + 4096 * i) ∧
    ImagePages (stImg (arrayOf [])) iGroup (iGroup.sval (.reg 1)) false (fun i => 0x1000000 + 4096 * i) ∧
    ((claimed (stImg (arrayOf [])) iGroup mCrew1).tiles.map Prod.fst).Nodup ∧ iGroup.xc.length < 256 ∧ (stImg (arrayOf [])).memPoison = [] ∧
    (let a : ArraySt := { arrayOf [opOf .mma none] with halt := true, halted := true }
     (claimed (stImg a) iGroup mCrew1).halted = true ∧ ((claimed (stImg a) iGroup mCrew1).ops.filter (fun o => o.gid == 2 && !o.complete)).length ≤ 64) ∧
    imageNat (stImg (arrayOf [])) (fun i => 0x1000000 + 4096 * i) 0x40000 8 % 2 = 0 ∧
    (let m := Memory.writeNat (tables leafBits) 0x1040000 (0x9600 * 2 ^ 48 + 1) 8
     imageNat { stImg (arrayOf []) with mem := m } (fun i => 0x1000000 + 4096 * i) 0x40000 8 = 0x9600 * 2 ^ 48 + 1) :=
  ⟨matrix_of (issuing_of ⟨rfl, rfl, rfl, rfl⟩) ⟨⟨rfl, rfl⟩, rfl⟩ (Or.inr rfl), by decide +kernel, by decide +kernel, by decide +kernel,
    imagePages_of (va := 0x1000000) (by decide +kernel) (by decide +kernel), imagePages_of (va := 0x1000000) (by decide +kernel) (by decide +kernel),
    by decide +kernel, by decide +kernel, by decide +kernel, by decide +kernel, by decide +kernel, by decide +kernel⟩

/-- No operation has read the bytes of the image, and no write of another image is on its way; the array of another crew. -/
theorem meets_ImageClauses : Unread (stImg (arrayOf [])) iGroup mCrew1 0x1000000 ∧ (∀ e ∈ (stImg (arrayOf [])).farWrites, e.2.owner ≠ .image 2) ∧
    (stImg (arrayOf [])).group? 2 = some iGroup ∧ ((stImg { arrayOf [] with holder := some 9 }).core 0).array.holder = some 9 ∧
    ImagePages (stImg { arrayOf [] with holder := some 9 }) iGroup (iGroup.sval (.reg 1)) true (fun i => 0x1000000 + 4096 * i) :=
  ⟨by unfold Unread; decide +kernel, by decide +kernel, by decide +kernel, by decide +kernel, imagePages_of (va := 0x1000000) (by decide +kernel) (by decide +kernel)⟩

/-- A walk goes on past a pointer, and ends at a leaf that is not resident. -/
theorem walkFrom_step {s : State} {va t n : Nat} {e : BitVec 64} (h : readEntry s (t + 8 * (va / 2 ^ (12 + 9 * (n + 1)) % 512)) = .ok e)
    (k : pteV e = true ∧ pteLeaf e = false ∧ (e &&& ~~~(0x000FFFFFFFFFF001 : BitVec 64) != 0) = false) : walkFrom s va t (n + 1) = walkFrom s va (pteAddr e) n := by
  rw [walkFrom, h]
  simp only [k.1, k.2.1, k.2.2, Bool.not_true, Bool.false_eq_true, if_false]
theorem walkFrom_away {s : State} {va t n : Nat} {e : BitVec 64} (h : readEntry s (t + 8 * (va / 2 ^ (12 + 9 * (n + 1)) % 512)) = .ok e)
    (k : (pteV e = true ∧ pteLeaf e = true) ∧ pteP e = false ∧ n + 1 ≤ 2) : walkFrom s va t (n + 1) = .error (.page 2 (pteColour e) (pageSize (n + 1))) := by
  rw [walkFrom, h]
  simp only [k.1.1, k.1.2, k.2.1, Nat.not_lt.mpr k.2.2, Bool.not_true, Bool.not_false, Bool.false_eq_true, if_false, if_true]

theorem xlateWalk_error {s : State} {ctx : Nat} {va : Word} {sup fr : Bool} {need : Need} {e : XErr} (h : canonical va = true)
    (w : walkFrom s (va.toNat % 2 ^ 57) (pteAddr (s.ctx ctx).ptroot) 4 = .error e) : xlateWalk s ctx va sup need fr = .error e := by
  simp only [xlateWalk, walk, h, w, Bool.not_true, Bool.false_eq_true, if_false]

/-- The leaf of the image is not resident; the second GiB maps the first, and the next slot of the bounce buffer of `n` lines lies at 0x6000. -/
def stVoid (n : Nat) : State :=
  { stImg (arrayOf []) with cores := [(0, { CoreSt.reset with array := arrayOf [] })], mem := Memory.writeNat (tables 0x1F9) 0x102008 leafBits 8,
                            ctxs := [(0, { st.ctx 0 with bbbase := 0x40006000, bbhead := BitVec.ofNat 16 n })] }

theorem readEntry_void {n : Nat} {m : Memory} {fc : SMap FarCopy} {a : Nat} (hn : n < 4) (ha : a ∈ [0x100000, 0x101000, 0x102000])
    (h : ∀ x, x < 0x6000 ∨ 0x6000 + 256 ≤ x → Memory.byte m x = Memory.byte (stVoid n).mem x) :
    readEntry { stVoid n with mem := m, farCopies := fc } a = readEntry (stVoid n) a := by
  have e : Memory.readNat m a 8 = Memory.readNat (stVoid n).mem a 8 := Memory.readNat_congr 8 _ _ _ fun i hi => h _ (Or.inr (by
    simp only [List.mem_cons, List.not_mem_nil, or_false] at ha; omega))
  have k : ∀ n, n < 4 → ∀ a ∈ [0x100000, 0x101000, 0x102000], inWindow (stVoid n).lnkid a = false := by decide +kernel
  simp only [readEntry, State.homeNat?, State.farFault, k n hn a ha, e, Bool.false_eq_true, if_false]

theorem meets_ImageAway : ∀ n, n < 4 → ImageAway (stVoid n) iGroup 0x1000000 0x6000 := by
  intro n hn
  have h : ∀ n, n < 4 → (∀ i, i < 69 → xlate (stVoid n) iGroup.core ((stVoid n).ctxOf iGroup) (0x1000000 + BitVec.ofNat 64 (4096 * i)) iGroup.sup .write false =
        .error (.page 2 0 (2 ^ 30)) ∧ imagePage (stVoid n) iGroup 0x1000000 i true = .error (.page 2 0 (2 ^ 30))) ∧
      xlateWalk (stVoid n) ((stVoid n).ctxOf iGroup) (((stVoid n).ctx ((stVoid n).ctxOf iGroup)).bbbase +
        BitVec.ofNat 64 (256 * ((stVoid n).ctx ((stVoid n).ctxOf iGroup)).bbtail.toNat)) true .write false = .ok ⟨0x6000, 0, false, false⟩ ∧
      (inHbm 0x6000 = true ∧ granuleFrozen (stVoid n) 0x6000 = false) ∧ readEntry (stVoid n) 0x100000 = .ok 0x101001 ∧
      readEntry (stVoid n) 0x101000 = .ok 0x102001 ∧ readEntry (stVoid n) 0x102000 = .ok 0x1F9 ∧ pteAddr ((stVoid n).ctx 0).ptroot = 0x100000 := by decide +kernel
  obtain ⟨h1, h2, h3, r1, r2, r3, h4⟩ := h n hn
  refine ⟨rfl, fun i hi => ⟨0, _, Or.inl rfl, (h1 i hi).1⟩, fun i hi => ⟨_, _, _, (h1 i hi).2⟩, ⟨_, h2, rfl, rfl⟩, fun m fc hm => ⟨2, 0, 2 ^ 30, ?_⟩, rfl, h3.1, h3.2⟩
  have q : ∀ a e, a ∈ [0x100000, 0x101000, 0x102000] → readEntry (stVoid n) a = .ok e → readEntry { stVoid n with mem := m, farCopies := fc } a = .ok e :=
    fun a e ha he => (readEntry_void hn ha hm).trans he
  have w : walkFrom { stVoid n with mem := m, farCopies := fc } 0x1000000 0x100000 4 = .error (.page 2 0 (2 ^ 30)) := by
    rw [walkFrom_step (e := 0x101001) (q 0x100000 _ (by decide) r1) (by decide), walkFrom_step (e := 0x102001) (q 0x101000 _ (by decide) r2) (by decide),
      walkFrom_away (e := 0x1F9) (q 0x102000 _ (by decide) r3) (by decide)]
    rfl
  have h5 : pteAddr (({ stVoid n with mem := m, farCopies := fc } : State).ctx 0).ptroot = 0x100000 := h4
  rw [← h5] at w
  exact xlateWalk_error rfl w

theorem meets_ImageBounces : ∀ n ∈ [1, 2], Matrix (stVoid n) iGroup mCrew1 ∧ (∀ x, ((stVoid n).core iGroup.core).array.holder = some x → x = iGroup.crew) ∧
    (claimed (stVoid n) iGroup mCrew1).halt = false ∧ (claimed (stVoid n) iGroup mCrew1).ops = [] ∧
    ((claimed (stVoid n) iGroup mCrew1).tiles.map Prod.fst).Nodup ∧ ((stVoid n).ctx 0).bbtail + BitVec.ofNat 16 n = ((stVoid n).ctx 0).bbhead := by
  have h : ∀ n ∈ [1, 2], ((stVoid n).core iGroup.core).array.holder = some 1 ∧ (claimed (stVoid n) iGroup mCrew1).halt = false ∧
      (claimed (stVoid n) iGroup mCrew1).ops = [] ∧ ((claimed (stVoid n) iGroup mCrew1).tiles.map Prod.fst).Nodup ∧
      ((stVoid n).ctx 0).bbtail + BitVec.ofNat 16 n = ((stVoid n).ctx 0).bbhead := by decide +kernel
  intro n hn
  exact ⟨matrix_of (issuing_of ⟨rfl, rfl, rfl, rfl⟩) ⟨⟨rfl, rfl⟩, rfl⟩ (Or.inr rfl), fun x hx => by rw [(h n hn).1] at hx; cases hx; rfl, (h n hn).2⟩

/-- Every page of the image has colour 5, which the group does not hold. -/
def stHued : State := { stImg (arrayOf []) with mem := tables (5 * 2 ^ 52 + leafBits) }
theorem meets_ImageColours : Matrix stHued iGroup mCrew1 ∧ ∀ w ∈ [Need.read, .write], ∀ n, n < 69 →
    xlate stHued iGroup.core (stHued.ctxOf iGroup) (0x1000000 + BitVec.ofNat 64 (4096 * n)) iGroup.sup w false =
      .ok ((fun n => (⟨0x1000000 + 4096 * n, 5, false, false⟩ : Xl)) n) ∧ 5 ∉ iGroup.colours :=
  ⟨matrix_of (issuing_of ⟨rfl, rfl, rfl, rfl⟩) ⟨⟨rfl, rfl⟩, rfl⟩ (Or.inr rfl), by decide +kernel⟩

theorem test_image_colour : after (exec (.accdrain 0 (.reg 1)) stHued) (fun _ g => g.tcause == 0x1000D) = true ∧
    (match imageAt stHued iGroup 0x1000000 false with | .error f => (f.cause, f.detail, f.aux.toNat) | .ok _ => (0, 0, 0)) = (13, 1, 5) := by decide +kernel

/-- The first line of an image whose pages are not resident goes to the slot, and the group waits; with no slot free it waits at once. -/
theorem test_image_bounces : after (exec (.accdrain 0 (.reg 1)) (stVoid 2)) (fun t g => g.pager == some 0x1000000 && (t.ctx 0).bbtail == 1 &&
      g.status == .parked .image && Memory.readNat t.mem 0x6000 8 == 0x1000000 && Memory.readNat t.mem 0x6008 8 == 16) = true ∧
    after (exec (.accdrain 0 (.reg 1)) (stVoid 1)) (fun t g => (t.ctx 0).bbtail == 0 && g.status == .parked .image && g.passed == some (0, false, [[0]])) = true := by
  decide +kernel

/-- Page 8 holds the first rows of tile 2; after the tiles an `accdrain` writes the header, and ends. -/
theorem test_accdrain_tile : let s := stImg (arrayOf [])
    Memory.readNat (imageCut (imageOf s 2 iGroup).1 [] 8).1 0 4 = 7 := by decide +kernel
theorem test_accdrain : let s := stImg (arrayOf [])
    after (exec (.accdrain 0 (.reg 1)) { s with groups := [(2, { iGroup with passed := some (0, false, [[32 * 64]]) })] }) (fun t g => g.pc == 1 &&
      Memory.readNat t.mem 0x1040000 8 == 0x9600 * 2 ^ 48 + 1) = true := by decide +kernel
theorem test_accdrain_align : after (exec (.accdrain 0 (.reg 7)) (stImg (arrayOf []))) (fun _ g => g.tcause == 0x30006) = true := by decide +kernel
theorem test_accfill : let s : State := { stImg { arrayOf [] with tiles := [] } with mem := Memory.writeNat (tables leafBits) 0x1008004 9 4 }
    after (.next (fillImage s 2 iGroup ((List.range 69).map (fun i => 0x1000000 + 4096 * i)) 0 [])) (fun t g => g.pc == 1 &&
      (t.core 0).array.tiles == [(4096 * 2 + 1, 9)]) = true := by decide +kernel
theorem test_accfill_rejects : after (exec (.accfill 0 (.reg 1)) (stImg (arrayOf []))) (fun _ g => g.tcause == 0x60008) = true := by decide +kernel

/-! ## Copies (Copies) -/

/-- Two elements of 4 bytes: from 0x4000 of global memory to 0x100 of the scratchpad. -/
def recSrc : List (BitVec 64) := [0x4000, 0, 2, 4, 0, 2, 12, 0]
def recDst : List (BitVec 64) := [0x100, 0, 2, 4, 0, 2, 16 + 12, 0]
def cGroup : Group := { aGroup with regs := { someRegs with s := [(1, 0x3040), (2, 0x3000), (6, 0x40), (7, 0x48)] } }
def stCopy : State :=
  { stG cGroup with mem := (recSrc ++ recDst).zipIdx.foldl (fun m p => Memory.writeNat m (0x3000 + 8 * p.2) p.1.toNat 8) (Memory.writeNat (tables leafBits) 0x4000 0x1122334455667788 8),
                    crews := [(1, objCrew 0 8)] }

theorem record_dst : RecordAt stCopy cGroup 0x3040 recDst := recordAt_of (x := ⟨0x3040, 0, false, false⟩) (by decide +kernel) (by decide +kernel)
theorem record_src : RecordAt stCopy cGroup 0x3000 recSrc := recordAt_of (x := ⟨0x3000, 0, false, false⟩) (by decide +kernel) (by decide +kernel)

theorem meets_CopyIssues : (∀ i ∈ [Instr.copy 0 (.reg 1) (.reg 2), .copyBar 0 (.reg 1) (.reg 2) (.reg 6), .xcopy 0 (.reg 1) (.reg 2) 3], i.wf = true ∧ (copyRow i).isSome = true) ∧
    Issuing stCopy cGroup ∧ Anew cGroup ∧ stCopy.crewOf cGroup = some (objCrew 0 8) ∧ cGroup.sOk (.reg 1) = true ∧ cGroup.sOk (.reg 2) = true ∧
    cGroup.eff 0 ≠ 0 ∧ cGroup.eff 2 = 0 ∧ RecordAt stCopy cGroup (cGroup.sval (.reg 1)) recDst ∧ RecordAt stCopy cGroup (cGroup.sval (.reg 2)) recSrc ∧
    (let d := Shape.of recDst
     let a := Shape.of recSrc
     shapeBad recDst d false = false ∧ shapeBad recSrc a false = false ∧ a.ndim = d.ndim ∧ a.b 0 = d.b 0 ∧ a.b 0 ≠ 0 ∧ elemWidth a.fmt = elemWidth d.fmt ∧ a.fmt ≠ .q4n ∧
       (a.space, d.space) = (0, 1) ∧ a.zfill = false ∧ (List.range (boxSize a)).all (fun n => decide ((boxAt a n).getD 0 0 < a.e 0)) = true) ∧
    (cGroup.sval (.reg 6)).toNat + 16 ≤ (objCrew 0 8).scratchBytes ∧ (cGroup.sval (.reg 6)).toNat % 16 = 0 ∧ (cGroup.sval (.reg 7)).toNat % 16 ≠ 0 ∧
    (objCrew 0 8).absent = [] ∧ cGroup.cc.length < 255 := by
  refine ⟨by decide +kernel, issuing_of (by decide +kernel), ⟨by decide +kernel, by decide +kernel⟩, by decide +kernel, by decide +kernel, by decide +kernel, by decide +kernel, by decide +kernel, record_dst, record_src, by decide +kernel⟩

theorem test_copy_issues : after (exec (.copyBar 0 (.reg 1) (.reg 2) (.reg 6)) stCopy) (fun t g => g.pc == 1 && g.cc.length == 1 &&
    t.copies.map (fun e => (e.2.todo, e.2.obj)) == [([0, 1], some 0x40)] && (t.crew? 1).any (fun k => k.absent == [2])) = true := by decide +kernel
theorem test_copy_faults : after (exec (.copyBar 0 (.reg 1) (.reg 2) (.reg 7)) stCopy) (fun _ g => g.tcause == 0x20006) = true ∧
    -- an engine copies from global to global memory only
    after (exec (.xcopy 0 (.reg 1) (.reg 2) 3) stCopy) (fun _ g => g.tcause == 0x110001) = true := by decide +kernel

/-- The copy in flight, its element 0 still to land. -/
def aCopy : Copy :=
  { gid := 2, crew := 1, core := 0, ctx := 0, op := 5, unit := 16, after := 0, src := .of recSrc, dst := .of recDst, srcCrew := 1, obj := some 0x40, todo := [0, 1], sent := [], landed := [],
    tainted := false, gone := false, stuck := false, sup := false, colours := [], vals := none, bad := [] }
def stLand (q : Copy) : State :=
  { stCopy with copies := [(7, q)], ops := [(5, { anOp with ctrs := [.cc], left := 1 })], groups := [(2, { cGroup with cc := [⟨5, false⟩] })],
                crews := [(1, { objCrew 0 8 with absent := [2] })] }
/-- The first element back to global memory at 0x5000, by an engine that has landed the second. -/
def aXcopy : Copy := { aCopy with unit := 3, dst := .of (recSrc.set 0 0x5000), obj := none, todo := [0] }
/-- The same by the core's unit, with an object. -/
def objXcopy : Copy := { aXcopy with unit := 16, obj := some 0x40 }
def stXcopy (s : State) : State := { s with engines := [(3, [7])] }

/-- The copy without an object; the page of its destination is resident, in a window, or not resident. -/
def padCopy : Copy := { aCopy with obj := none }
def stTo (base : Nat) : State := stXcopy (stLand { aXcopy with dst := .of (recSrc.set 0 (BitVec.ofNat 64 base)) })

theorem unfenced_of {s : State} {q : Copy} {n cid : Nat} {g : Group} (h : s.group? q.gid = some g ∧ g.fences = [] ∧ pendingIn s q.gid 0 q.after = false ∧
    s.copies = [(cid, q)]) (v : q.vals = none) : Unfenced s q n :=
  ⟨fun x f hx hf => (by rw [h.1] at hx; cases hx; rw [h.2.1] at hf; cases hf),
    ⟨h.2.2.1, fun e he _ hv => by rw [h.2.2.2, List.mem_singleton] at he; subst he; exact absurd v hv⟩, fun k => absurd v k⟩

/-- Element 0 of a copy in flight may land with the value that its source has. -/
theorem mayLand_of {s : State} {cid v : Nat} {q : Copy} {g : Group} (h : SMap.find? s.copies cid = some q ∧ (0 ∈ q.todo ∧ 0 ∉ q.sent ∧ q.stuck = false))
    (ho : s.group? q.gid = some g ∧ g.fences = [] ∧ pendingIn s q.gid 0 q.after = false ∧ s.copies = [(cid, q)]) (hv : q.vals = none)
    (hs : q.src.within (boxCoord q.src 0) = true ∧ q.tainted = false) (ht : ∀ x, placeIn s q.crew q.dst.space (destOf q 0) = x →
      (x.elim true fun x => !q.touches s (x.1, x.2, q.dst.width)) = true)
    (hr : (match readElem s q.engine q.ctx q.crew q.sup q.src.space (q.src.addr (boxCoord q.src 0)) q.src.width with | .ok v _ => some v | _ => none) = some v) :
    MayLand s cid 0 v q := by
  refine ⟨h.1, h.2, unfenced_of ho hv, ?_⟩
  unfold CopyValue
  rw [hv]
  dsimp only
  rw [if_pos hs.1]
  refine ⟨hs.2, fun sp a e => by simpa using ht _ e, ?_⟩
  revert hr
  cases readElem s q.engine q.ctx q.crew q.sup q.src.space (q.src.addr (boxCoord q.src 0)) q.src.width with
  | ok x b => intro hr; cases hr; exact ⟨b, rfl⟩
  | _ => intro hr; cases hr

/-- Of one element an engine has no choice. -/
theorem engineTakes_of {s : State} {q : Copy} {n : Nat} (h : q.todo.filter (fun i => !q.sent.contains i) = [n]) : EngineTakes s q n := by
  unfold EngineTakes
  rw [h]
  simp [Nat.mod_one]

theorem meets_CopyLands : (∀ q ∈ [aCopy, padCopy, objXcopy], MayLand (stLand q) 7 0 0x55667788 q ∧ LandsBy (stLand q) 7 0 q (.copyBytesLand 7 0)) ∧
    (∀ base ∈ [0x5000, 0x40002000, 0x4000000000], let q : Copy := { aXcopy with dst := .of (recSrc.set 0 (BitVec.ofNat 64 base)) }
      MayLand (stTo base) 7 0 0x55667788 q ∧ LandsBy (stTo base) 7 0 q (.engineCommandPerform 3)) := by
  have h1 : ∀ q ∈ [aCopy, padCopy, objXcopy], (SMap.find? (stLand q).copies 7 = some q ∧ (0 ∈ q.todo ∧ 0 ∉ q.sent ∧ q.stuck = false)) ∧
      ((stLand q).group? q.gid = some { cGroup with cc := [⟨5, false⟩] } ∧ cGroup.fences = [] ∧ pendingIn (stLand q) q.gid 0 q.after = false ∧ (stLand q).copies = [(7, q)]) ∧ q.vals = none ∧
      (q.src.within (boxCoord q.src 0) = true ∧ q.tainted = false) ∧
      ((placeIn (stLand q) q.crew q.dst.space (destOf q 0)).elim true fun x => !q.touches (stLand q) (x.1, x.2, q.dst.width)) = true ∧
      (match readElem (stLand q) q.engine q.ctx q.crew q.sup q.src.space (q.src.addr (boxCoord q.src 0)) q.src.width with | .ok v _ => some v | _ => none) =
        some 0x55667788 ∧ q.unit = 16 := by decide +kernel
  have h2 : ∀ base ∈ [0x5000, 0x40002000, 0x4000000000], let q : Copy := { aXcopy with dst := .of (recSrc.set 0 (BitVec.ofNat 64 base)) }
      (SMap.find? (stTo base).copies 7 = some q ∧ (0 ∈ q.todo ∧ 0 ∉ q.sent ∧ q.stuck = false)) ∧
      ((stTo base).group? q.gid = some { cGroup with cc := [⟨5, false⟩] } ∧ cGroup.fences = [] ∧ pendingIn (stTo base) q.gid 0 q.after = false ∧ (stTo base).copies = [(7, q)]) ∧ q.vals = none ∧
      (q.src.within (boxCoord q.src 0) = true ∧ q.tainted = false) ∧
      ((placeIn (stTo base) q.crew q.dst.space (destOf q 0)).elim true fun x => !q.touches (stTo base) (x.1, x.2, q.dst.width)) = true ∧
      (match readElem (stTo base) q.engine q.ctx q.crew q.sup q.src.space (q.src.addr (boxCoord q.src 0)) q.src.width with | .ok v _ => some v | _ => none) =
        some 0x55667788 ∧ SMap.get (stTo base).engines [] 3 = [7] ∧ q.todo.filter (fun i => !q.sent.contains i) = [0] ∧
      (stTo base).group? 2 = some { cGroup with cc := [⟨5, false⟩] } := by decide +kernel
  constructor
  · intro q hq
    obtain ⟨a, b, c, d, e, f, u⟩ := h1 q hq
    exact ⟨mayLand_of a b c d (fun x hx => hx ▸ e) f, .unit u⟩
  · intro base hb
    obtain ⟨a, b, c, d, e, f, u, v, w⟩ := h2 base hb
    exact ⟨mayLand_of a b c d (fun x hx => hx ▸ e) f, .engine 3 [] u (engineTakes_of v) fun g hg => Or.inl (by rw [show ({ aXcopy with dst := .of (recSrc.set 0 (BitVec.ofNat 64 base)) } : Copy).gid = 2 from rfl, w] at hg; cases hg; rfl)⟩

/-- The places of its clauses: a page of HBM, frozen and not; the scratchpad, with and without an object; a window whose port is up and down; a page
that is not resident, the bounce buffer with room, its slot at 0x6000, and full. -/
theorem meets_CopyPlaces : let q (base : Nat) : Copy := { aXcopy with dst := .of (recSrc.set 0 (BitVec.ofNat 64 base)) }
    let pa (s : State) (base : Nat) : Nat := match destAt s (q base) 0 with | .ok x => x.pa | .error _ => 0
    (pa (stTo 0x5000) 0x5000 = 0x5000 ∧ inHbm 0x5000 = true ∧ granuleFrozen (stTo 0x5000) 0x5000 = false ∧ granuleFrozen (frozenIn (stTo 0x5000)) 0x5000 = true ∧
      tableBad (stTo 0x5000) 0x5000 4 true = false ∧ tableBad { stTo 0x5000 with stampPoison := [0x5000 / 4096] } 0x5000 4 true = true ∧
      tableBad { stTo 0x5000 with freezePoison := [0] } 0x5000 4 true = true ∧ ({ cGroup with cc := [⟨5, false⟩] } : Group).heldFaults = []) ∧
    (aCopy.dst.space = 1 ∧ aCopy.obj = some 0x40 ∧ 0x40 + 16 ≤ destOf aCopy 0) ∧ (objXcopy.dst.space = 0 ∧ objXcopy.obj = some 0x40 ∧ pa (stLand objXcopy) 0x5000 = 0x5000) ∧
    (padCopy.dst.space = 1 ∧ (stLand padCopy).crew? 1 = some { objCrew 0 8 with absent := [2] } ∧ destOf padCopy 0 + padCopy.dst.width ≤ 65536 ∧ padCopy.obj = none) ∧
    (let s : State := { stTo 0x40002000 with lnkid := 0x10, mem := Memory.writeNat (stTo 0x40002000).mem 0x102008 (leafBits + 0xC10000000000 / 4096 * 4096) 8,
                                             ports := [(1, { Port.reset with up := true })] }
     pa s 0x40002000 = 0xC10000002000 ∧ inWindow s.lnkid 0xC10000002000 = true ∧ (s.port (farOf s 0xC10000002000)).up = true ∧
        (({ s with ports := [] } : State).port (farOf s 0xC10000002000)).up = false) ∧
    (let s : State := { stTo 0x4000000000 with ctxs := [(0, { st.ctx 0 with bbbase := 0x6000 })] }
     1 = (match destAt s (q 0x4000000000) 0 with | .error (.page k _ _) => k | _ => 0) ∧ (s.ctx 0).bbtail + 1 ≠ (s.ctx 0).bbhead ∧
        (match xlateWalk s 0 ((s.ctx 0).bbbase + BitVec.ofNat 64 (256 * (s.ctx 0).bbtail.toNat)) true .write false with | .ok y => (y.pa, y.frz) | .error _ => (0, true)) =
          (0x6000, false) ∧ inHbm 0x6000 = true ∧ granuleFrozen s 0x6000 = false ∧ destOf (q 0x4000000000) 0 % 128 + 4 ≤ 128) ∧
    ({ st.ctx 0 with bbhead := 1 } : Ctx).bbtail + 1 = ({ st.ctx 0 with bbhead := 1 } : Ctx).bbhead := by decide +kernel

theorem test_copy_lands : next (exec (.copyBytesLand 7 0) (stLand aCopy)) (fun t => (t.crew? 1).any (fun k => Memory.readNat k.scratch 0x100 4 == 0x55667788 &&
      padWord k 0x48 == 4 && k.absent == [2]) && t.copies.map (fun e => e.2.todo) == [[1]]) = true := by decide +kernel
/-- The last element: the line is present, the copy and its operation are gone. -/
theorem test_copy_ends : next (exec (.copyBytesLand 7 1) (stLand { aCopy with todo := [1], landed := [0] })) (fun t => (t.crew? 1).any (fun k =>
      Memory.readNat k.scratch 0x104 4 == 0x11223344 && k.absent.isEmpty) && t.copies.isEmpty && t.ops.isEmpty) = true := by decide +kernel
theorem test_xcopy_lands : next (exec (.engineCommandPerform 3) (stXcopy (stLand aXcopy))) (fun t => Memory.readNat t.mem 0x5000 4 == 0x55667788 &&
    t.copies.isEmpty && (SMap.get t.engines [] 3).isEmpty) = true := by decide +kernel
/-- A frozen granule rejects the element, and a poisoned stamp of its tile stops it; an object of a destination in memory counts it in both cases. -/
theorem test_copy_reports : let told := fun (t : State) => (t.group? 2).map (fun g => g.heldFaults.map (fun h => (h.ctr, h.op, h.recs.map (fun f => (f.cause, f.detail)))))
    next (exec (.copyBytesLand 7 0) (frozenIn (stLand objXcopy))) (fun t => Memory.readNat t.mem 0x5000 4 == 0 && told t == some [(.cc, 5, [(10, 1)])] &&
      (t.crew? 1).any (fun k => padWord k 0x48 == 4)) = true ∧
    next (exec (.copyBytesLand 7 0) { stLand objXcopy with stampPoison := [0x5000 / 4096] }) (fun t => Memory.readNat t.mem 0x5000 4 == 0 &&
      told t == some [(.cc, 5, [(17, 6)])]) = true := by decide +kernel
/-- A destination page that does not translate: with a full bounce buffer the copy waits; else the line goes to a slot, and the group is posted the
pager's request. -/
theorem test_copy_bounces : next (exec (.engineCommandPerform 3) { stTo 0x4000000000 with ctxs := [(0, { st.ctx 0 with bbhead := 1 })] }) (fun t =>
      t.copies.map (fun e => (e.2.todo, e.2.landed)) == [([0], [])] && Memory.readNat t.mem 0x6000 8 == 0) = true ∧
    after (exec (.engineCommandPerform 3) { stXcopy (stLand { aXcopy with dst := .of (recSrc.set 0 0x4000000000), todo := [0] }) with
      ctxs := [(0, { st.ctx 0 with bbbase := 0x6000 })] }) (fun t g => g.pager == some 0x4000000000 && (t.ctx 0).bbtail == 1 &&
        Memory.readNat t.mem 0x6000 8 == 0x4000000000 && Memory.readNat t.mem 0x6080 4 == 0x55667788) = true := by decide +kernel

/-! ## Transfers that complete (TransfersComplete) -/

theorem boxPasses_of {s : State} {g : Group} {c : Crew} {h : Shape} {w : Bool} (hc : c.absent = [])
    (k : ∀ n, n < boxSize h → RangePasses s g c ⟨h.space, placeOf h (boxAt h n), elemWidth h.fmt, w⟩) : BoxPasses s g c h w :=
  fun n hn _ => ⟨k n hn, by rw [hc]; exact fun l hl => absurd hl (List.not_mem_nil)⟩

/-- The page of the source, read. -/
theorem page_read : PageOk stCopy cGroup 4 .read := by
  obtain ⟨l, h1, h2⟩ : ∃ l, walk stCopy (stCopy.ctxOf cGroup) (BitVec.ofNat 64 (4096 * 4)) = .ok l ∧ pteColour l.e = 0 := by
    have h : (match walk stCopy (stCopy.ctxOf cGroup) (BitVec.ofNat 64 (4096 * 4)) with | .ok l => pteColour l.e == 0 | .error _ => false) = true := by decide +kernel
    revert h
    cases walk stCopy (stCopy.ctxOf cGroup) (BitVec.ofNat 64 (4096 * 4)) with
    | ok l => exact fun h => ⟨l, rfl, by simpa using h⟩
    | error e => intro h; cases h
  exact pageOk_of (x := ⟨0x4000, 0, false, false⟩) h1 (by decide +kernel) h2

theorem meets_CopiesComplete : Issuing stCopy cGroup ∧ Anew cGroup ∧ stCopy.crewOf cGroup = some (objCrew 0 8) ∧ cGroup.eff 0 ≠ 0 ∧
    RecordAt stCopy cGroup (cGroup.sval (.reg 1)) recDst ∧ RecordAt stCopy cGroup (cGroup.sval (.reg 2)) recSrc ∧
    (shapeBad recDst (.of recDst) false = false ∧ shapeBad recSrc (.of recSrc) false = false) ∧
    (∀ n, n < boxSize (.of recSrc) → Inside (.of recSrc) (boxAt (.of recSrc) n)) ∧
    BoxPasses stCopy cGroup (objCrew 0 8) (.of recSrc) false ∧ BoxPasses stCopy cGroup (objCrew 0 8) (.of recDst) true ∧ cGroup.cc.length < 255 ∧
    (cGroup.sOk (.reg 6) = true ∧ (cGroup.sval (.reg 6)).toNat + 16 ≤ (objCrew 0 8).scratchBytes ∧ (cGroup.sval (.reg 6)).toNat % 16 = 0) ∧
    ((Instr.copy 0 (.reg 1) (.reg 2)).wf = true ∧ (Instr.copyBar 0 (.reg 1) (.reg 2) (.reg 6)).wf = true ∧ (Instr.xcopy 0 (.reg 1) (.reg 2) 3).wf = true) := by
  refine ⟨issuing_of (by decide +kernel), ⟨by decide +kernel, by decide +kernel⟩, by decide +kernel, by decide +kernel, record_dst, record_src, by decide +kernel, ?_,
    boxPasses_of (by decide +kernel) ?_, boxPasses_of (by decide +kernel) ?_, by decide +kernel, by decide +kernel, by decide +kernel⟩
  · unfold Inside; decide +kernel
  · intro n hn
    have h : ∀ n, n < boxSize (.of recSrc) → (Shape.of recSrc).space = 0 ∧ placeOf (.of recSrc) (boxAt (.of recSrc) n) / 4096 = 4 ∧
        (placeOf (.of recSrc) (boxAt (.of recSrc) n) + elemWidth (Shape.of recSrc).fmt - 1) / 4096 = 4 := by decide +kernel
    obtain ⟨h1, h2, h3⟩ := h n hn
    refine ⟨fun e => ?_, fun e => ?_, ?_⟩
    · rw [h1] at e; cases e
    · rw [h1] at e; cases e
    · rintro _ p (rfl | rfl)
      · rw [h2]; exact page_read
      · rw [h3]; exact page_read
  · have h : ∀ n, n < boxSize (.of recDst) → (Shape.of recDst).space = 1 ∧
        placeOf (.of recDst) (boxAt (.of recDst) n) + elemWidth (Shape.of recDst).fmt ≤ (objCrew 0 8).scratchBytes := by decide +kernel
    intro n hn
    obtain ⟨h1, h2⟩ := h n hn
    refine ⟨fun _ => h2, fun e => ?_, fun e => ?_⟩
    · rw [h1] at e; cases e
    · rw [h1] at e; cases e

theorem mismatch_none {a d : Shape} {unit : Nat} (h : (a.ndim = d.ndim ∧ elemWidth a.fmt = elemWidth d.fmt ∧ a.fmt ≠ .q4n ∧ d.fmt ≠ .q4n) ∧
    (∀ i, i < 4 → i ≤ a.ndim → a.b i = d.b i ∧ a.b i ≠ 0) ∧
    (if unit = 16 then (a.space, d.space) ∈ [(0, 1), (1, 0), (1, 1), (2, 1)] else (a.space, d.space) = (0, 0))) : ¬Mismatched a d unit := by
  rintro (x | ⟨i, h4, hi, x⟩ | x | x | x | x)
  · exact x h.1.1
  · exact x.elim (fun y => y (h.2.1 i h4 hi).1) (fun y => (h.2.1 i h4 hi).2 y)
  · exact x h.1.2.1
  · exact h.1.2.2.1 x
  · exact h.1.2.2.2 x
  · have := h.2.2
    split at this <;> simp_all

theorem meets_CopyUnits : ¬Mismatched (.of recSrc) (.of recDst) 16 ∧ ¬Mismatched (.of recSrc) (.of (recSrc.set 0 0x5000)) 3 :=
  ⟨mismatch_none (by decide +kernel), mismatch_none (by decide +kernel)⟩

theorem meets_LandingsComplete : MayLand (stLand padCopy) 7 0 0x55667788 padCopy ∧ padCopy.unit = 16 ∧ padCopy.dst.space = 1 ∧
    (stLand padCopy).crew? 1 = some { objCrew 0 8 with absent := [2] } ∧ destOf padCopy 0 + padCopy.dst.width ≤ 65536 ∧
    (let at_ := fun (s : State) (q : Copy) => (q.dst.space, match destAt s q 0 with | .ok x => (x.pa, inHbm x.pa, granuleFrozen s x.pa,
        granuleFrozen s (x.pa + q.dst.width - 1), tableBad s x.pa q.dst.width true) | .error _ => (0, false, true, true, true)) = (0, 0x5000, true, false, false, false)
     MayLand (stLand objXcopy) 7 0 0x55667788 objXcopy ∧ objXcopy.unit = 16 ∧ at_ (stLand objXcopy) objXcopy ∧
     (let q : Copy := { aXcopy with dst := .of (recSrc.set 0 (BitVec.ofNat 64 0x5000)) }
      MayLand (stTo 0x5000) 7 0 0x55667788 q ∧ SMap.get (stTo 0x5000).engines [] q.unit = [7] ∧ EngineTakes (stTo 0x5000) q 0 ∧
        (∀ g, (stTo 0x5000).group? q.gid = some g → g.pager = none ∨ crewSaved (stTo 0x5000) g = false) ∧ at_ (stTo 0x5000) q)) := by
  refine ⟨(meets_CopyLands.1 padCopy (by decide)).1, rfl, by decide +kernel, by decide +kernel, by decide +kernel, (meets_CopyLands.1 objXcopy (by decide)).1, rfl,
    by decide +kernel, (meets_CopyLands.2 0x5000 (by decide)).1, by decide +kernel, engineTakes_of (by decide +kernel), ?_, by decide +kernel⟩
  intro g hg
  have h : (stTo 0x5000).group? 2 = some { cGroup with cc := [⟨5, false⟩] } := by decide +kernel
  rw [show ({ aXcopy with dst := .of (recSrc.set 0 (BitVec.ofNat 64 0x5000)) } : Copy).gid = 2 from rfl, h] at hg
  cases hg
  exact Or.inl rfl

theorem meets_FlitsComplete : SMap.find? stFlit.flits 7 = some aFlit ∧ stFlit.group? aFlit.gid = some sender ∧ sender.waits (· == .parked .portRoom) = true ∧
    sender.live ≠ 0 ∧ groupOfCrew stFlit aFlit.tgt aFlit.grp = some (3, receiver) ∧ stFlit.group? 3 = some receiver ∧
    (SMap.get receiver.queues [] aFlit.port).length < 8 ∧ (∀ c, stFlit.crew? aFlit.tgt = some c → c.saved = false) ∧ sender.places = [] := by
  refine ⟨by decide +kernel, by decide +kernel, by decide +kernel, by decide +kernel, by decide +kernel, by decide +kernel, by decide +kernel, ?_, rfl⟩
  intro c hc
  have : stFlit.crew? aFlit.tgt = some aCrew := by decide +kernel
  rw [this] at hc; cases hc; rfl

/-- A load, a store and an atomic of a peer on the scratchpad of crew 1. -/
def peerReq (k : ReqKind) : Req := { aReq with kind := k, sp := .p, crew := 2, tgt := 1, pa := 0x40, far := true, dst := if k = .store then .none else .v 4 }

theorem meets_PeerAccessesComplete : ∀ k ∈ [ReqKind.load, .store, .atom], let s := withReq st (peerReq k) anOp
    (SMap.find? s.reqs 6 = some (peerReq k) ∧ (peerReq k).performed = false ∧ orderFree s (peerReq k) = true ∧ passedBefore s 6 (peerReq k) = false ∧
      s.freezePoison = [] ∧ s.stampPoison = [] ∧ (peerReq k).width = widthOf (peerReq k).ty) ∧ (peerReq k).kind ≠ .frzq ∧ (peerReq k).sp = .p ∧ (peerReq k).tgt ≠ (peerReq k).crew ∧
    (peerReq k).width = widthOf (peerReq k).ty ∧ (peerReq k).ty.access = true ∧ s.crew? (peerReq k).tgt = some aCrew ∧ aCrew.saved = false ∧
    lineAbsent aCrew (peerReq k).pa (peerReq k).width = false := by decide +kernel

theorem test_peer_access : next (exec (.peerAccessArrive 6) (withReq st (peerReq .store) anOp)) (fun t => (t.crew? 1).any (fun k =>
    Memory.readNat k.scratch 0x40 4 == 0x01020304)) = true := by decide +kernel

/-! ## Results of single instructions, by hand from the rules

`v1` is 5, -1; `v2` is 7, 1; `v4`, `v5` are the pair 0x1_80000000; `s1` is 0x2000, `s2` 3, `s3` -1; `m1` holds lanes 0 and 1. -/

/-- Lane `l` of `v6`, `s4` and `m2` after an instruction. -/
def vOut (i : Instr) (l : Nat) : Nat := match exec i st with | .next t => ((t.group? 2).map (fun g => (g.regs.rdV 6 l).toNat)).getD 0 | _ => 0
def sOut (i : Instr) : Nat := match exec i st with | .next t => ((t.group? 2).map (fun g => (g.regs.rdS 4).toNat)).getD 0 | _ => 0
def mOut (i : Instr) : Nat := match exec i st with | .next t => ((t.group? 2).map (fun g => (g.mval (.reg 2)).toNat)).getD 0 | _ => 0
/-- Two vector, two scalar sources and a format. -/
def v2 (a b : VSrc) (t : Fmt) : VOp2 := ⟨0, .reg 6, a, b, t⟩
def s2 (a b : SSrc) (t : Fmt) : SOp2 := ⟨0, .reg 4, a, b, t⟩

-- scalar (R184 to R187)
theorem test_sadd : sOut (.sadd (s2 (.reg 3) (.reg 2) .n64)) = 2 ∧ sOut (.ssub (s2 (.reg 2) (.reg 1) .n64)) = 2 ^ 64 - 0x1FFD := by decide +kernel
theorem test_smul : sOut (.smul (s2 (.reg 3) (.reg 2) .n64)) = 2 ^ 64 - 3 ∧ sOut (.smulhi (s2 (.reg 3) (.reg 2) .n64)) = 2 ∧
    sOut (.smulhi (s2 (.reg 3) (.reg 2) .i64)) = 2 ^ 64 - 1 ∧ sOut (.smad ⟨0, .reg 4, .reg 1, .reg 2, .reg 3, .n64⟩) = 0x5FFF := by decide +kernel
theorem test_smin : sOut (.smin (s2 (.reg 3) (.reg 2) .i64)) = 2 ^ 64 - 1 ∧ sOut (.smin (s2 (.reg 3) (.reg 2) .n64)) = 3 ∧
    sOut (.smax (s2 (.reg 3) (.reg 2) .i64)) = 3 := by decide +kernel
theorem test_slogic : sOut (.sand (s2 (.reg 3) (.reg 2) .b64)) = 3 ∧ sOut (.sor (s2 (.reg 1) (.reg 2) .b64)) = 0x2003 ∧
    sOut (.sxor (s2 (.reg 3) (.reg 2) .b64)) = 2 ^ 64 - 4 := by decide +kernel
theorem test_sshift : sOut (.sshl (s2 (.reg 1) (.reg 2) .n64)) = 0x10000 ∧ sOut (.sshr (s2 (.reg 1) (.reg 2) .n64)) = 0x400 ∧
    sOut (.ssar (s2 (.reg 3) (.reg 2) .i64)) = 2 ^ 64 - 1 := by decide +kernel
theorem test_scount : sOut (.spopc ⟨0, .reg 4, .reg 3, .b64⟩) = 64 ∧ sOut (.sclz ⟨0, .reg 4, .reg 1, .b64⟩) = 50 ∧
    sOut (.smov ⟨0, .reg 4, .reg 1, .n64⟩) = 0x2000 := by decide +kernel

-- integer vector (R188, R189)
theorem test_add : vOut (.add (v2 (.reg 1) (.reg 2) .n32)) 0 = 12 ∧ vOut (.add (v2 (.reg 1) (.reg 2) .n32)) 1 = 0 ∧
    vOut (.sub (v2 (.reg 1) (.reg 2) .n32)) 0 = 0xFFFFFFFE := by decide +kernel
theorem test_mul : vOut (.mul (v2 (.reg 1) (.reg 2) .n32)) 0 = 35 ∧ vOut (.mulhi (v2 (.reg 1) (.reg 1) .n32)) 1 = 0xFFFFFFFE ∧
    vOut (.mulhi (v2 (.reg 1) (.reg 1) .i32)) 1 = 0 ∧ vOut (.mad ⟨0, .reg 6, .reg 1, .reg 2, .reg 1, .n32⟩) 0 = 40 := by decide +kernel
theorem test_min : vOut (.min (v2 (.reg 1) (.reg 2) .i32)) 1 = 0xFFFFFFFF ∧ vOut (.min (v2 (.reg 1) (.reg 2) .n32)) 1 = 1 ∧
    vOut (.max (v2 (.reg 1) (.reg 2) .n32)) 0 = 7 := by decide +kernel
theorem test_abs : vOut (.abs ⟨0, .reg 6, .reg 1, .i32⟩) 1 = 1 ∧ vOut (.abs ⟨0, .reg 6, .reg 4, .i32⟩) 0 = 0x80000000 ∧ vOut (.neg ⟨0, .reg 6, .reg 1, .i32⟩) 0 = 0xFFFFFFFB := by
  decide +kernel
theorem test_logic : vOut (.and (v2 (.reg 1) (.reg 2) .b32)) 0 = 5 ∧ vOut (.or (v2 (.reg 1) (.reg 2) .b32)) 0 = 7 ∧ vOut (.xor (v2 (.reg 1) (.reg 2) .b32)) 0 = 2 ∧
    vOut (.not ⟨0, .reg 6, .reg 1, .b32⟩) 0 = 0xFFFFFFFA := by decide +kernel
theorem test_shift : vOut (.shl (v2 (.reg 1) (.reg 2) .n32)) 0 = 640 ∧ vOut (.shr (v2 (.reg 4) (.reg 2) .n32)) 0 = 0x1000000 ∧
    vOut (.sar (v2 (.reg 4) (.reg 2) .i32)) 0 = 0xFF000000 ∧ vOut (.rot (v2 (.reg 4) (.reg 2) .b32)) 0 = 0x40 := by decide +kernel
theorem test_bits : vOut (.popc ⟨0, .reg 6, .reg 1, .b32⟩) 1 = 32 ∧ vOut (.clz ⟨0, .reg 6, .reg 1, .b32⟩) 0 = 29 ∧ vOut (.brev ⟨0, .reg 6, .reg 1, .b32⟩) 0 = 0xA0000000 := by
  decide +kernel
theorem test_cmp : mOut (.cmp ⟨0, .reg 2, .reg 1, .reg 2, .i32, .lt⟩) = 3 ∧ mOut (.cmp ⟨0, .reg 2, .reg 1, .reg 2, .n32, .lt⟩) = 1 ∧
    vOut (.sel (v2 (.reg 1) (.reg 2) .n32) (.reg 1)) 0 = 5 ∧ vOut (.sel (v2 (.reg 1) (.reg 2) .n32) (.reg 2)) 0 = 7 := by decide +kernel
theorem test_mov : vOut (.mov ⟨0, .reg 6, .reg 2, .n32⟩) 0 = 7 ∧ vOut (.movi 0 (.reg 6) .n32 9) 3 = 9 ∧ vOut (.movs 0 (.reg 6) (.reg 2) .n32) 2 = 3 := by decide +kernel
/-- A guarded instruction writes the lanes of its guard only. -/
theorem test_guard : vOut (.movi 1 (.reg 6) .n32 9) 1 = 9 ∧ vOut (.movi 1 (.reg 6) .n32 9) 2 = 0 := by decide +kernel

-- float (R190 to R196): `v8` is 1, NaN; `v9` 3, 0
def fState : State :=
  stG { aGroup with regs := { someRegs with v := [(64 * 8, 0x3F800000), (64 * 8 + 1, 0x7FC00000), (64 * 9, 0x40400000)] } }
def fOut (i : Instr) (l : Nat) : Nat := match exec i fState with | .next t => ((t.group? 2).map (fun g => (g.regs.rdV 6 l).toNat)).getD 0 | _ => 0
theorem test_fadd : fOut (.fadd ⟨0, .reg 6, .reg 8, .reg 9, .f32, .rne⟩) 0 = 0x40800000 ∧ fOut (.fadd ⟨0, .reg 6, .reg 8, .reg 9, .f32, .rne⟩) 1 = 0x7FC00000 ∧
    fOut (.fsub ⟨0, .reg 6, .reg 8, .reg 9, .f32, .rne⟩) 0 = 0xC0000000 := by decide +kernel
theorem test_fmul : fOut (.fmul ⟨0, .reg 6, .reg 9, .reg 9, .f32, .rne⟩) 0 = 0x41100000 ∧ fOut (.ffma ⟨0, .reg 6, .reg 9, .reg 9, .reg 8, .f32, .rne⟩) 0 = 0x41200000 := by
  decide +kernel
/-- Of a number and NaN, the number (R192). -/
theorem test_fmin : fOut (.fmin ⟨0, .reg 6, .reg 8, .reg 9, .f32⟩) 1 = 0 ∧ fOut (.fmax ⟨0, .reg 6, .reg 8, .reg 9, .f32⟩) 0 = 0x40400000 := by decide +kernel
theorem test_fsqrt : fOut (.fsqrt ⟨0, .reg 6, .reg 8, .f32, .rne⟩) 0 = 0x3F800000 ∧ fOut (.frcp ⟨0, .reg 6, .reg 8, .f32, .rne⟩) 0 = 0x3F800000 := by decide +kernel

-- conversion and lanes (R197 to R206)
theorem test_cvt : vOut (.cvt 0 (.reg 6) (.reg 1) .f32 .i32 .rne) 0 = 0x40A00000 ∧ vOut (.cvt 0 (.reg 6) (.reg 1) .f32 .i32 .rne) 1 = 0xBF800000 ∧
    fOut (.cvt 0 (.reg 6) (.reg 9) .i32 .f32 .rtz) 0 = 3 := by decide +kernel
theorem test_shfl : vOut (.shfl 0 (.reg 6) (.reg 1) .n32 (.rot 1) 2) 0 = 0xFFFFFFFF ∧ vOut (.shfl 0 (.reg 6) (.reg 1) .n32 (.flip 1) 2) 1 = 5 := by decide +kernel
theorem test_vote : sOut (.vote 0 (.bits (.reg 4)) (.reg 1)) = 3 ∧ sOut (.vote 0 (.count (.reg 4)) (.reg 1)) = 2 ∧ mOut (.vote 0 (.some (.reg 2)) (.reg 1)) = 0xF ∧
    mOut (.vote 0 (.every (.reg 2)) (.reg 1)) = 0 := by decide +kernel
theorem test_redux : sOut (.redux 0 .add (.reg 4) (.reg 2) .n32) = 8 ∧ vOut (.vscan 0 .add false (.reg 6) (.reg 2) .n32) 2 = 8 ∧
    vOut (.vscan 0 .add true (.reg 6) (.reg 2) .n32) 1 = 7 := by decide +kernel
theorem test_match : mOut (.matchv 0 (.lead (.reg 2)) (.reg 1) .n32) = 7 := by decide +kernel

-- memory (R207 to R219)
theorem test_ld_sends : after (exec (.ld 1 6 ⟨.g, .reg 1, none, 4⟩ .n32) st) (fun t g => g.pc == 1 && g.lc.length == 1 &&
    t.reqs.map (fun e => (e.2.lane, e.2.va.toNat, e.2.pa)) == [(0, 0x2004, 0x2004), (1, 0x2008, 0x2008)]) = true := by decide +kernel
theorem test_ld_align : after (exec (.ld 1 6 ⟨.g, .reg 1, none, 2⟩ .n32) st) (fun t g => g.tcause == 0x10006 && t.reqs.isEmpty) = true := by decide +kernel
theorem test_wait : after (exec (.waitc .lc 0) (stG { aGroup with lc := [⟨5, false⟩] })) (fun _ g => g.pc == 0 && g.status == .parked .counters) = true ∧
    after (exec (.waitc .lc 1) (stG { aGroup with lc := [⟨5, false⟩] })) (fun _ g => g.pc == 1) = true := by decide +kernel

-- control and system (R176 to R182, R268 to R274)
theorem test_bra : after (exec (.bra 0 16) { stG { aGroup with pc := 0x44 } with mem := st.mem }) (fun _ g => g.pc != 0x45) = true := by decide +kernel
theorem test_if : after (exec (.ifm (.reg 1) 0) st) (fun _ g => g.active == 3 && g.stack.length == 1) = true := by decide +kernel
theorem test_exit : after (exec (.exit 1) st) (fun _ g => g.live == 0xC && g.active == 0xC && g.pc == 1) = true := by decide +kernel
theorem test_trap : after (exec (.trap 0 0x1234) st) (fun t g => g.sup && g.tcause == 0x123400000020 && g.tpc == 1 && g.trec == 0 && (t.ctx 0).fqtail == 0) = true := by decide +kernel
theorem test_privileged : after (exec .eret st) (fun _ g => g.tcause == 0xC0008) = true ∧ after (exec .halt st) (fun _ g => g.tcause == 0xC0008) = true := by decide +kernel
theorem test_srd : after (exec (.swr 0 (.reg 2) 0x000) st) (fun t g => g.pc == 1 && (exec (.srd 0 (.reg 4) 0x000) t matches .next _)) = true := by decide +kernel
theorem test_eret : after (exec .eret (stG inTrap)) (fun _ g => !g.sup && g.pc == 0x41 && g.active == 3) = true := by decide +kernel

end Sys2Proof.Tests
end

section
/-! PROOFS. Transfers of control and the mask stack (R152, R153, R173, R174, R176, R177). -/

namespace Sys2Proof.Machine

open Sys2Proof.Stmt

/-! ## The program counter (R153) -/

theorem pcSlot_eq (t : Word) : pcSlot t = t.toNat % 8 := by
  simp [pcSlot, BitVec.extractLsb'_toNat]

theorem pcOk_iff (t : Word) : pcOk t = true ↔ t.toNat % 8 ≤ 4 ∧ t.toNat % 64 / 8 = 0 := by
  have hbits : ((t.extractLsb' 3 3 : BitVec 3) == 0) = decide (t.toNat % 64 / 8 = 0) := by
    rw [Bool.eq_iff_iff]
    simp only [beq_iff_eq, decide_eq_true_eq, ← BitVec.toNat_inj, BitVec.extractLsb'_toNat, Nat.shiftRight_eq_div_pow]
    simp
    omega
  rw [pcOk, hbits, pcSlot_eq]
  simp [and_comm]

/-- Clearing the low six bits rounds down to a line. -/
theorem pcLine_toNat (pc : Word) : (pcLine pc).toNat = pc.toNat / 64 * 64 := by
  have hmask : ∀ i < 64, (~~~63 : Word).getLsbD i = !decide (i < 6) := by decide
  have hshift : pcLine pc = (pc >>> 6) <<< 6 := by
    apply BitVec.eq_of_getLsbD_eq
    intro i hi
    rw [pcLine, BitVec.getLsbD_and, hmask i hi, BitVec.getLsbD_shiftLeft, BitVec.getLsbD_ushiftRight]
    by_cases h6 : i < 6
    · simp [h6]
    · simp [h6, hi, Nat.add_sub_cancel' (Nat.le_of_not_lt h6)]
  rw [hshift, BitVec.toNat_shiftLeft, BitVec.toNat_ushiftRight, Nat.shiftRight_eq_div_pow, Nat.shiftLeft_eq]
  omega

theorem pcTarget_eq (pc : Word) (t : BitVec 32) : pcTarget pc t = targetOf pc t := by
  have hhigh : ((t.sshiftRight 3).signExtend 64 : Word) = BitVec.ofInt 64 (t.toInt / 8) := by
    rw [← BitVec.ofInt_toInt (x := (t.sshiftRight 3).signExtend 64), BitVec.toInt_signExtend_of_le (by decide), BitVec.toInt_sshiftRight]
    simp [Int.shiftRight_eq_div_pow]
  have hlow : ((t.extractLsb' 0 3 : BitVec 3).setWidth 64 : Word) = BitVec.ofNat 64 (t.toNat % 8) := by
    apply BitVec.eq_of_toNat_eq
    simp [BitVec.extractLsb'_toNat]
  have hline : pcLine pc = BitVec.ofNat 64 (pc.toNat / 64 * 64) := by
    rw [← pcLine_toNat, BitVec.ofNat_toNat, BitVec.setWidth_eq]
  unfold pcTarget targetOf
  rw [hhigh, hlow, hline, BitVec.ofInt_add, BitVec.ofInt_add, BitVec.ofInt_mul, BitVec.ofInt_natCast, BitVec.ofInt_natCast, BitVec.mul_comm]
  rfl

/-- Bit BT of a slot, as a digit of the line's number (R149). -/
theorem lineBt_ofNat (l i : Nat) (hi : i ≤ 4) : lineBt (BitVec.ofNat 512 l) i = decide (l / 2 ^ (480 + 22 + i) % 2 = 1) := by
  have h1 : 22 + i < 32 := by omega
  have h2 : 480 + 22 + i < 512 := by omega
  rw [lineBt, lineWord, bitsAt, BitVec.getLsbD_extractLsb', BitVec.getLsbD_ofNat, Nat.testBit_eq_decide_div_mod_eq, ← Nat.add_assoc]
  simp only [h1, h2, decide_true, Bool.true_and]

/-! ## Transfers (R152) -/

/-- The checks of a transfer pass exactly where the statements say that its target is reached. -/
theorem checkTarget_eq_none_iff (s : State) (g : Group) (t : Word) : checkTarget s g t true = none ↔ Reaches s g t := by
  unfold checkTarget Reaches
  cases hok : pcOk t with
  | false =>
    have hslot := mt (pcOk_iff t).mpr (by simp [hok])
    simp only [Bool.not_false, if_true, reduceCtorEq, false_iff]
    exact fun h => hslot ⟨h.1, h.2.1⟩
  | true =>
    obtain ⟨h4, h5⟩ := (pcOk_iff t).mp hok
    simp only [Bool.not_true, Bool.false_eq_true, if_false, h4, h5, true_and]
    show _ ↔ ∃ x l, xlate s g.core (s.ctxOf g) (pcLine t) g.sup .exec false = .ok x ∧ _
    cases xlate s g.core (s.ctxOf g) (pcLine t) g.sup .exec false with
    | error e => simp
    | ok x =>
      cases hf : s.farFault x.pa with
      | some f => simp [hf]
      | none =>
        have hbt := fun l => lineBt_ofNat l (t.toNat % 8) h4
        cases hl : s.homeNat? x.pa 64 <;> simp [lineAt, hf, hl, hbt, pcSlot_eq]

/-- Filling the TLBs of a core changes them and those of its quad, and nothing else. -/
theorem tlbFill_spec (s : State) (core ctx : Nat) (va : Word) :
    tlbFill s core ctx va = { s with cores := (tlbFill s core ctx va).cores, quadTlb := (tlbFill s core ctx va).quadTlb } ∧
    ∀ c, (tlbFill s core ctx va).core c = { s.core c with tlb := ((tlbFill s core ctx va).core c).tlb } := by
  have hins : ∀ (u : State) (l : List TlbEntry), u.cores = SMap.ins s.cores core { s.core core with tlb := l } →
      ∀ c, u.core c = { s.core c with tlb := (u.core c).tlb } := by
    intro u l hu c
    have hc : u.core c = if c = core then { s.core core with tlb := l } else s.core c := by
      rw [← State.core_setCore]; simp [State.core, State.setCore, hu]
    rw [hc]
    by_cases h : c = core <;> simp [h]
  unfold tlbFill
  split
  · exact ⟨rfl, fun c => rfl⟩
  · split
    · exact ⟨rfl, hins _ _ rfl⟩
    · split
      · exact ⟨rfl, fun c => rfl⟩
      · exact ⟨rfl, hins _ _ rfl⟩

/-- A change of TLBs before it leaves a transfer's frame as it is. -/
theorem OnlyFlow.afterTlbs {s u v : State} {h : Group} (hflow : OnlyFlow u v h)
    (hstate : u = { s with cores := u.cores, quadTlb := u.quadTlb }) (hcore : ∀ c, u.core c = { s.core c with tlb := (u.core c).tlb }) :
    OnlyFlow s v h := by
  have hcur : u.cur = s.cur := by rw [hstate]
  refine ⟨?_, hcur ▸ hflow.group, fun k hk => ?_, fun c => ?_, fun a => ?_⟩
  · rw [hflow.state, hstate]
  · rw [hflow.others k (hcur ▸ hk), hstate]
    rfl
  · rw [hflow.cores c, hcore c]
  · rw [hflow.mem a, hstate]

/-- A transfer jumps where the statements say, from a group that the instruction leaves as `g`. -/
theorem transfer_jumps {s : State} {g0 : Group} (h0 : s.group? s.cur = some g0) (g : Group) (t : Word) :
    Jumps s g0 g t (transfer s s.cur g t) := by
  unfold transfer
  refine ⟨fun hr => ?_, fun f hf => ⟨by rw [hf], h0⟩⟩
  rw [(checkTarget_eq_none_iff s g t).mpr hr]
  obtain ⟨hstate, hcore⟩ := tlbFill_spec s g.core (s.ctxOf g) (pcLine t)
  generalize tlbFill s g.core (s.ctxOf g) (pcLine t) = u at hstate hcore
  have hcur : u.cur = s.cur := by rw [hstate]
  obtain ⟨h, hgo⟩ := finishGoto_spec u g t false
  rw [hcur] at hgo
  refine ⟨_, h, rfl, ⟨hgo.only.afterTlbs hstate hcore, hgo.moved, hgo.regs, hgo.ready, hgo.goes⟩⟩

/-- Completing without a latch result falls through. -/
theorem finish_falls (s : State) (g : Group) (blocks : Bool) : Falls s g blocks (.next (finish s s.cur g .none blocks)) := by
  obtain ⟨h, hcompleted, hregs, hlatch⟩ := finish_spec s g .none blocks
  exact ⟨_, h, rfl, hcompleted, hregs, hlatch⟩

/-! ## Checks before a control instruction -/

/-- A control instruction names no source but its guard. -/
theorem withReads_guard {s : State} {g : Group} (h : Issuing s g) (k : BitVec 4) (body : Nat → Group → Mask → State → Out) :
    withReads { g := k } s body = body s.cur g (g.eff k) s :=
  withReads_clean h { g := k } body rfl rfl (Or.inr rfl)

end Sys2Proof.Machine
end

section
/-! PROOFS. The mask stack (R173, R174): what each structured control instruction answers, in the terms of the statements. -/

namespace Sys2Proof.Machine

open Sys2Proof.Stmt

/-! ## The stack -/

theorem Group.fd_eq_callers (g : Group) : g.fd = callers g := by
  unfold Group.fd callers
  rcases g.frames with _ | ⟨f, r⟩ <;> simp

theorem dropLanes_eq_without (st : List MaskEntry) (n : Nat) (m : Mask) : dropLanes st n m = without st n m := by
  have hlen : min n st.length + (st.length - n) = st.length := by omega
  apply List.ext_getElem (by simp [dropLanes, without, hlen])
  intro i h1 h2
  have hs : i < st.length := by simpa [without] using h2
  by_cases hi : i < n
  · simp [dropLanes, without, hi, hs]
  · have hmin : min n st.length = n := by omega
    simp [dropLanes, without, List.getElem_append, hi, hmin, Nat.add_sub_cancel' (Nat.le_of_not_lt hi)]

/-- The innermost ITER entry above FD, where there is one. -/
theorem Group.iterAt_eq_some {g : Group} {n : Nat} {e : MaskEntry} (he : g.stack[n]? = some e) (hk : e.kind = .iterK)
    (hn : n + callers g < g.stack.length) (hmin : ∀ j x, j < n → g.stack[j]? = some x → x.kind ≠ .iterK) : g.iterAt = some n := by
  obtain ⟨hlt, hget⟩ := List.getElem?_eq_some_iff.mp he
  rw [Group.iterAt, Group.fd_eq_callers, List.findIdx?_eq_some_iff_getElem]
  refine ⟨by rw [List.length_take]; omega, by simp [hget, hk], fun j hj => ?_⟩
  simpa using hmin j _ hj (List.getElem?_eq_getElem (by omega))

/-- No ITER entry stands above FD. -/
theorem Group.iterAt_eq_none {g : Group} (hno : ∀ n e, g.stack[n]? = some e → n + callers g < g.stack.length → e.kind ≠ .iterK) :
    g.iterAt = none := by
  rw [Group.iterAt, Group.fd_eq_callers, List.findIdx?_eq_none_iff]
  intro e he
  obtain ⟨n, hn, hget⟩ := List.mem_take_iff_getElem.mp he
  simpa using hno n e (List.getElem?_eq_some_iff.mpr ⟨by omega, hget⟩) (by omega)

/-! ## The instructions (R174) -/

section

variable {s : State} {g : Group} (h : Issuing s g)
include h

/-- Where lanes are wanting an instruction transfers, else it completes. -/
theorem Issuing.jumps_or_falls (g1 : Group) (t : BitVec 32) (stop : Prop) [Decidable stop] :
    let o := if stop then transfer s s.cur g1 (pcTarget g.pc t) else .next (finish s s.cur g1 .none false)
    (¬stop → Falls s g1 false o) ∧ (stop → Jumps s g g1 (targetOf g.pc t) o) := by
  refine ⟨fun hn => ?_, fun hp => ?_⟩
  · rw [if_neg hn]
    exact finish_falls s g1 false
  · rw [if_pos hp, pcTarget_eq]
    exact transfer_jumps h.group g1 (targetOf g.pc t)

theorem exec_ifm (a : MSrc) (t : BitVec 32) (hm : g.mOk a = true) :
    exec (.ifm a t) s =
      if g.stack.length = 32 then .next (raiseCD s s.cur 5 1)
      else
        let g1 := { g with stack := ⟨.ifK, g.active, s.nextId⟩ :: g.stack, active := g.active &&& g.mval a }
        if g.active &&& g.mval a = 0 then transfer s s.cur g1 (pcTarget g.pc t) else .next (finish s s.cur g1 .none false) := by
  have hlatches : ({ ms := [a] } : Reads).latchesOk g = true := by simp [Reads.latchesOk, hm]
  show execIf a t s = _
  rw [execIf, withReads_clean h { ms := [a] } _ rfl hlatches (Or.inr rfl)]

/-- `else` with an entry on the stack. -/
theorem exec_elsem_cons (t : BitVec 32) {e : MaskEntry} {r : List MaskEntry} (hs : g.stack = e :: r) :
    exec (.elsem t) s =
      if g.stack.length ≤ callers g ∨ e.kind ≠ .ifK then .next (raiseCD s s.cur 5 2)
      else
        let g1 := { g with stack := { e with kind := .elseK } :: r, active := e.mask &&& ~~~g.active &&& g.live }
        if e.mask &&& ~~~g.active &&& g.live = 0 then transfer s s.cur g1 (pcTarget g.pc t) else .next (finish s s.cur g1 .none false) := by
  show execElse t s = _
  rw [execElse, withReads_guard h]
  simp only [hs, Group.fd_eq_callers, Bool.or_eq_true, decide_eq_true_eq, bne_iff_ne]

/-- `endif` with an entry on the stack. -/
theorem exec_endif_cons {e : MaskEntry} {r : List MaskEntry} (hs : g.stack = e :: r) :
    exec .endif s =
      if g.stack.length ≤ callers g ∨ (e.kind ≠ .ifK ∧ e.kind ≠ .elseK) then .next (raiseCD s s.cur 5 2)
      else .next (finish s s.cur (addFence s s.cur { g with stack := r, active := e.mask &&& g.live } e.since) .none false) := by
  show execEndif s = _
  rw [execEndif, withReads_guard h]
  simp only [hs, Group.fd_eq_callers, Bool.or_eq_true, Bool.and_eq_true, decide_eq_true_eq, bne_iff_ne]

/-- With an empty stack `else`, `endif` and `endloop` have no entry of their kind. -/
theorem exec_nil (hs : g.stack = []) (t : BitVec 32) :
    exec (.elsem t) s = .next (raiseCD s s.cur 5 2) ∧ exec .endif s = .next (raiseCD s s.cur 5 2) ∧
      exec (.endloop t) s = .next (raiseCD s s.cur 5 2) := by
  refine ⟨?_, ?_, ?_⟩
  · show execElse t s = _
    rw [execElse, withReads_guard h, hs]
  · show execEndif s = _
    rw [execEndif, withReads_guard h, hs]
  · show execEndloop t s = _
    rw [execEndloop, withReads_guard h, hs]

theorem exec_loop (t : BitVec 32) :
    exec (.loop t) s =
      if 30 < g.stack.length then .next (raiseCD s s.cur 5 1)
      else
        let g1 := { g with stack := ⟨.iterK, g.active, s.nextId⟩ :: ⟨.exitK, g.active, s.nextId⟩ :: g.stack }
        if g.active = 0 then transfer s s.cur g1 (pcTarget g.pc t) else .next (finish s s.cur g1 .none false) := by
  show execLoop t s = _
  rw [execLoop, withReads_guard h]

/-- `endloop` with one entry on the stack. -/
theorem exec_endloop_single (t : BitVec 32) {e : MaskEntry} (hs : g.stack = [e]) :
    exec (.endloop t) s = .next (raiseCD s s.cur 5 2) := by
  show execEndloop t s = _
  rw [execEndloop, withReads_guard h, hs]

/-- `endloop` with two entries on the stack. -/
theorem exec_endloop_cons (t : BitVec 32) {e x : MaskEntry} {r : List MaskEntry} (hs : g.stack = e :: x :: r) :
    exec (.endloop t) s =
      if g.stack.length ≤ callers g + 1 ∨ e.kind ≠ .iterK ∨ x.kind ≠ .exitK then .next (raiseCD s s.cur 5 2)
      else if e.mask &&& g.live ≠ 0 then
        transfer s s.cur (addFence s s.cur { g with active := e.mask &&& g.live } e.since) (pcTarget g.pc t)
      else .next (finish s s.cur (addFence s s.cur { g with stack := r, active := x.mask &&& g.live } e.since) .none false) := by
  show execEndloop t s = _
  rw [execEndloop, withReads_guard h]
  simp only [hs, Group.fd_eq_callers, Bool.or_eq_true, decide_eq_true_eq, bne_iff_ne, or_assoc]

/-- `break` and `cont` in a loop whose innermost ITER entry has `n` entries above it. -/
theorem leaveLoop_some (brk : Bool) (k : BitVec 4) (t : BitVec 32) {n : Nat} (hn : g.iterAt = some n) :
    leaveLoop brk k t s =
      let g1 := { g with active := g.active &&& ~~~g.eff k, stack := without g.stack (if brk then n + 1 else n) (g.eff k) }
      if g.active &&& ~~~g.eff k = 0 ∧ n = 0 then transfer s s.cur g1 (pcTarget g.pc t) else .next (finish s s.cur g1 .none false) := by
  rw [leaveLoop, withReads_guard h, hn]
  simp only [dropLanes_eq_without, Bool.and_eq_true, decide_eq_true_eq, beq_iff_eq]

/-- `break` and `cont` outside any loop. -/
theorem leaveLoop_none (brk : Bool) (k : BitVec 4) (t : BitVec 32) (hn : g.iterAt = none) :
    leaveLoop brk k t s = .next (raiseCD s s.cur 5 3) := by
  rw [leaveLoop, withReads_guard h, hn]

end

end Sys2Proof.Machine
end

section
/-! PROOFS. The words of the structured control instructions (R170, R174, R182). -/

namespace Sys2Proof

/-! ## Details (R169) -/

theorem leastDetail_eq_min? (l : List Nat) : leastDetail l = l.min? := by
  induction l with
  | nil => rfl
  | cons d l ih =>
    rw [leastDetail, ih, List.min?_cons]
    cases l.min? with
    | none => rfl
    | some e => simp only [Option.elim, Nat.min_def]; split <;> split <;> simp <;> omega

theorem mem_bad {b : Bool} {d e : Nat} : e ∈ bad b d ↔ b = true ∧ e = d := by
  cases b <;> simp [bad]

theorem bad_eq_nil_iff (b : Bool) (d : Nat) : bad b d = [] ↔ b = false := by
  cases b <;> simp [bad]

/-- A word decodes to an instruction exactly where its row reads that instruction and no detail fails. -/
theorem decode_eq_ok_iff (n w : Nat) (x : IWord) (i : Instr) :
    decode n w x = .ok i ↔ (decodeFields n w (Fields.ofWord x)).2 = [] ∧ (decodeFields n w (Fields.ofWord x)).1 = i := by
  unfold decode
  dsimp only
  rw [leastDetail_eq_min?, ← List.min?_eq_none_iff]
  cases List.min? (decodeFields n w (Fields.ofWord x)).2 <;> simp

/-- A word raises a detail exactly where it is the least that fails (R169). -/
theorem decode_eq_error_iff (n w : Nat) (x : IWord) (d : Nat) :
    decode n w x = .error d ↔
      d ∈ (decodeFields n w (Fields.ofWord x)).2 ∧ ∀ e ∈ (decodeFields n w (Fields.ofWord x)).2, d ≤ e := by
  unfold decode
  dsimp only
  rw [leastDetail_eq_min?, ← List.min?_eq_some_iff]
  cases List.min? (decodeFields n w (Fields.ofWord x)).2 <;> simp

/-! ## The opcode of a decoded instruction -/

/-- A row reads an instruction of its own opcode, or refuses the word. -/
def ReadsOwn (f : Fields) (r : Dec) : Prop := r.2 = [] → (encodeFields r.1).map Fields.opc = some f.opc

theorem readsOwn_of_opc {f : Fields} {r : Dec} {o : Nat} (h : f.opc.toNat = o) (hr : (encodeFields r.1).map Fields.opc = some (BitVec.ofNat 10 o)) :
    ReadsOwn f r := by
  intro _
  rw [hr, ← h, BitVec.ofNat_toNat, BitVec.setWidth_eq]

/-- An unassigned opcode has no instruction. -/
theorem readsOwn_unassigned (f : Fields) : ReadsOwn f (.nop, [1]) := by
  intro h
  cases h

theorem decodeControl_readsOwn (n : Nat) (f : Fields) : ReadsOwn f (decodeControl n f) := by
  unfold decodeControl
  split
  case h_16 => exact readsOwn_unassigned f
  all_goals
    rename_i h
    exact readsOwn_of_opc h rfl

theorem decodeScalar_readsOwn (f : Fields) : ReadsOwn f (decodeScalar f) := by
  unfold decodeScalar
  split
  -- `sli` and `sli.pc` share an opcode
  case h_17 h =>
    refine readsOwn_of_opc h ?_
    unfold decSli
    dsimp only
    split <;> rfl
  case h_21 => exact readsOwn_unassigned f
  all_goals
    rename_i h
    exact readsOwn_of_opc h rfl

theorem decodeInteger_readsOwn (n : Nat) (f : Fields) : ReadsOwn f (decodeInteger n f) := by
  unfold decodeInteger
  split
  case h_28 => exact readsOwn_unassigned f
  all_goals
    rename_i h
    exact readsOwn_of_opc h rfl

theorem decodeFloat_readsOwn (n : Nat) (f : Fields) : ReadsOwn f (decodeFloat n f) := by
  unfold decodeFloat
  split
  case h_17 => exact readsOwn_unassigned f
  all_goals
    rename_i h
    exact readsOwn_of_opc h rfl

theorem decodeCross_readsOwn (n w : Nat) (f : Fields) : ReadsOwn f (decodeCross n w f) := by
  unfold decodeCross
  split
  case h_9 => exact readsOwn_unassigned f
  all_goals
    rename_i h
    exact readsOwn_of_opc h rfl

theorem decodeMemory_readsOwn (n : Nat) (f : Fields) : ReadsOwn f (decodeMemory n f) := by
  unfold decodeMemory
  split
  -- `red` and `red.far` share an opcode
  case h_7 h =>
    refine readsOwn_of_opc h ?_
    unfold decRed
    dsimp only
    split <;> rfl
  case h_9 => exact readsOwn_unassigned f
  all_goals
    rename_i h
    exact readsOwn_of_opc h rfl

theorem decodeSync_readsOwn (n : Nat) (f : Fields) : ReadsOwn f (decodeSync n f) := by
  unfold decodeSync
  split
  case h_21 => exact readsOwn_unassigned f
  all_goals
    rename_i h
    exact readsOwn_of_opc h rfl

theorem decodeSystem_readsOwn (f : Fields) : ReadsOwn f (decodeSystem f) := by
  unfold decodeSystem
  split
  -- `accz` and `accz.pair` share an opcode
  case h_5 h =>
    refine readsOwn_of_opc h ?_
    unfold decAccz
    dsimp only
    split <;> rfl
  -- `copy` and `copy.bar` share an opcode
  case h_13 h =>
    refine readsOwn_of_opc h ?_
    unfold decCopy
    dsimp only
    split <;> rfl
  case h_21 => exact readsOwn_unassigned f
  all_goals
    rename_i h
    exact readsOwn_of_opc h rfl

theorem decodeFields_readsOwn (n w : Nat) (f : Fields) : ReadsOwn f (decodeFields n w f) := by
  unfold decodeFields
  split
  · exact decodeControl_readsOwn n f
  · exact decodeScalar_readsOwn f
  · exact decodeInteger_readsOwn n f
  · exact decodeFloat_readsOwn n f
  · exact decodeCross_readsOwn n w f
  · exact decodeMemory_readsOwn n f
  · exact decodeSync_readsOwn n f
  · exact decodeSystem_readsOwn f

/-- A word decodes to an instruction of opcode `o` exactly where its opcode is `o` and the row of `o` reads it. -/
theorem decode_eq_ok_iff_row {n w : Nat} {x : IWord} {i : Instr} {o : BitVec 10} {r : Fields → Dec} (hi : (encodeFields i).map Fields.opc = some o)
    (hrow : ∀ f, f.opc = o → decodeFields n w f = r f) :
    decode n w x = .ok i ↔
      (Fields.ofWord x).opc = o ∧ (r (Fields.ofWord x)).2 = [] ∧ (r (Fields.ofWord x)).1 = i := by
  rw [decode_eq_ok_iff]
  constructor
  · rintro ⟨hd, he⟩
    have hown := decodeFields_readsOwn n w (Fields.ofWord x) hd
    rw [he, hi, Option.some_inj] at hown
    rw [hrow _ hown.symm] at hd he
    exact ⟨hown.symm, hd, he⟩
  · rintro ⟨ho, hd, he⟩
    rw [hrow _ ho]
    exact ⟨hd, he⟩

/-! ## Rows of control instructions (R182) -/

/-- A control row passes where the fields that it does not show are zero. -/
theorem decCtl_eq_nil_iff (f : Fields) (guard : Bool) (m : BitVec 32) (i : Instr) :
    (decCtl f guard m i).2 = [] ↔
      f = { Fields.op f.opc with grd := f.grd, imm := f.imm } ∧ f.imm &&& ~~~m = 0 ∧ (guard = false → f.grd = 0) := by
  obtain ⟨opc, grd, dst, nwb, sa, sela, sb, selb, sc, selc, typ, mod, imm⟩ := f
  cases guard <;>
    simp [decCtl, noD, noABC, noB, noC, noT, noMod, noG, immMask, unused, bad_eq_nil_iff, Fields.op] <;> tauto

/-- No detail of a control row comes before 2. -/
theorem two_le_of_mem_decCtl {f : Fields} {guard : Bool} {m : BitVec 32} {i : Instr} {e : Nat} (h : e ∈ (decCtl f guard m i).2) : 2 ≤ e := by
  have hguard : e ∈ (if guard then [] else noG f) → e = 2 := by
    cases guard <;> simp [noG, mem_bad]
  rcases List.mem_append.mp h with h | h
  · simp only [noD, noABC, noB, noC, noT, noMod, immMask, unused, List.mem_append, mem_bad] at h
    omega
  · exact (hguard h).ge

theorem two_mem_decCtl {f : Fields} (m : BitVec 32) (i : Instr) (h : f.grd ≠ 0) : 2 ∈ (decCtl f false m i).2 :=
  List.mem_append_right _ (mem_bad.mpr ⟨by simpa using h, rfl⟩)

/-- The row of `if`. -/
def decIf (f : Fields) : Dec := (.ifm (srcM f.sa f.sela).1 f.imm, (srcM f.sa f.sela).2 ++ noD f ++ noB f ++ noC f ++ noTM f ++ noG f)

section

variable (n w : Nat) {f : Fields}

theorem decodeFields_ifm (h : f.opc = 0x007) : decodeFields n w f = decIf f := by
  unfold decodeFields decodeControl; rw [h]; rfl
theorem decodeFields_elsem (h : f.opc = 0x008) : decodeFields n w f = decCtl f false (-1) (.elsem f.imm) := by
  unfold decodeFields decodeControl; rw [h]; rfl
theorem decodeFields_endif (h : f.opc = 0x009) : decodeFields n w f = decCtl f false 0 .endif := by
  unfold decodeFields decodeControl; rw [h]; rfl
theorem decodeFields_loop (h : f.opc = 0x00A) : decodeFields n w f = decCtl f false (-1) (.loop f.imm) := by
  unfold decodeFields decodeControl; rw [h]; rfl
theorem decodeFields_brk (h : f.opc = 0x00B) : decodeFields n w f = decCtl f true (-1) (.brk f.grd f.imm) := by
  unfold decodeFields decodeControl; rw [h]; rfl
theorem decodeFields_cont (h : f.opc = 0x00C) : decodeFields n w f = decCtl f true (-1) (.cont f.grd f.imm) := by
  unfold decodeFields decodeControl; rw [h]; rfl
theorem decodeFields_endloop (h : f.opc = 0x00D) : decodeFields n w f = decCtl f false (-1) (.endloop f.imm) := by
  unfold decodeFields decodeControl; rw [h]; rfl

end

/-- A row with a target and no guard. -/
theorem decode_target_iff {n w : Nat} {x : IWord} {o : BitVec 10} {k : BitVec 32 → Instr} (hk : k.Injective)
    (ho : ∀ t, (encodeFields (k t)).map Fields.opc = some o) (hrow : ∀ f, f.opc = o → decodeFields n w f = decCtl f false (-1) (k f.imm))
    (t : BitVec 32) : decode n w x = .ok (k t) ↔ Fields.ofWord x = { Fields.op o with imm := t } := by
  rw [decode_eq_ok_iff_row (ho t) hrow, decCtl_eq_nil_iff]
  generalize Fields.ofWord x = f
  constructor
  · rintro ⟨hopc, ⟨hf, -, hg⟩, hi⟩
    rw [hf, hopc, hg rfl, hk hi]
    rfl
  · rintro rfl
    exact ⟨rfl, ⟨rfl, by simp, fun _ => rfl⟩, rfl⟩

/-- A row with a guard and a target. -/
theorem decode_guardTarget_iff {n w : Nat} {x : IWord} {o : BitVec 10} {k : BitVec 4 → BitVec 32 → Instr} (hk : k.Injective2)
    (ho : ∀ g t, (encodeFields (k g t)).map Fields.opc = some o)
    (hrow : ∀ f, f.opc = o → decodeFields n w f = decCtl f true (-1) (k f.grd f.imm)) (g : BitVec 4) (t : BitVec 32) :
    decode n w x = .ok (k g t) ↔ Fields.ofWord x = { Fields.op o with grd := g, imm := t } := by
  rw [decode_eq_ok_iff_row (ho g t) hrow, decCtl_eq_nil_iff]
  generalize Fields.ofWord x = f
  constructor
  · rintro ⟨hopc, ⟨hf, -, -⟩, hi⟩
    obtain ⟨hgrd, himm⟩ := hk hi
    rw [hf, hopc, hgrd, himm]
  · rintro rfl
    exact ⟨rfl, ⟨rfl, by simp, nofun⟩, rfl⟩

/-- With no bit of IMM in use the whole of it is checked. -/
theorem and_not_zero (v : BitVec 32) : v &&& ~~~0 = v := BitVec.and_allOnes

theorem decode_endif_iff (n w : Nat) (x : IWord) : decode n w x = .ok .endif ↔ Fields.ofWord x = Fields.op 0x009 := by
  rw [decode_eq_ok_iff_row rfl (fun f h => decodeFields_endif n w h), decCtl_eq_nil_iff, and_not_zero]
  generalize Fields.ofWord x = f
  constructor
  · rintro ⟨hopc, ⟨hf, himm, hg⟩, -⟩
    rw [hf, hopc, hg rfl, himm]
    rfl
  · rintro rfl
    exact ⟨rfl, ⟨rfl, rfl, fun _ => rfl⟩, rfl⟩

/-- A mask source that its field and select name without a detail is encoded by them. -/
theorem srcM_eq_iff (fld : BitVec 9) (sel : BitVec 2) (a : MSrc) : srcM fld sel = (a, []) ↔ (fld, sel) = a.enc := by
  constructor
  · intro h
    have hfield : ∀ fld : BitVec 9, (bitsAt fld 4 5 : BitVec 5) = 0 → fld = (bitsAt fld 0 4 : BitVec 4).setWidth 9 := by decide
    have hsel : ∀ sel : BitVec 2, sel ≠ 0 → sel = (LatchSel.ofSel sel).sel := by decide
    unfold srcM at h
    split at h
    · next hs =>
      obtain ⟨rfl, hd⟩ := Prod.mk.inj h
      have hf : fld = 0 := by simpa [bad_eq_nil_iff] using hd
      exact Prod.ext hf (hsel sel (by simpa using hs))
    · next hs =>
      obtain ⟨rfl, hd⟩ := Prod.mk.inj h
      exact Prod.ext (hfield fld (by simpa [bad_eq_nil_iff] using hd)) (show sel = 0 by simpa using hs)
  · intro h
    obtain ⟨rfl, rfl⟩ := Prod.mk.inj h
    exact srcM_enc a

/-- The row of `if` passes where its mask source reads and the fields that it does not show are zero. -/
theorem decIf_eq_nil_iff (f : Fields) :
    (decIf f).2 = [] ↔ f = { Fields.op f.opc with sa := f.sa, sela := f.sela, imm := f.imm } ∧ (srcM f.sa f.sela).2 = [] := by
  obtain ⟨opc, grd, dst, nwb, sa, sela, sb, selb, sc, selc, typ, mod, imm⟩ := f
  simp [decIf, noD, noB, noC, noT, noMod, noTM, noG, unused, bad_eq_nil_iff, Fields.op]
  tauto

theorem decode_ifm_iff (n w : Nat) (x : IWord) (a : MSrc) (t : BitVec 32) :
    decode n w x = .ok (.ifm a t) ↔ Fields.ofWord x = { Fields.op 0x007 with sa := a.enc.1, sela := a.enc.2, imm := t } := by
  rw [decode_eq_ok_iff_row rfl (fun f h => decodeFields_ifm n w h), decIf_eq_nil_iff]
  generalize Fields.ofWord x = f
  constructor
  · rintro ⟨hopc, ⟨hf, hd⟩, hi⟩
    obtain ⟨ha, himm⟩ := Instr.ifm.inj hi
    obtain ⟨hfld, hsel⟩ : f.sa = a.enc.1 ∧ f.sela = a.enc.2 := Prod.mk.inj ((srcM_eq_iff f.sa f.sela a).mp (Prod.ext ha hd))
    rw [hf, hopc, hfld, hsel, himm]
  · rintro rfl
    exact ⟨rfl, ⟨rfl, by rw [srcM_enc]⟩, by simp only [decIf, srcM_enc]⟩

/-- No detail of the row of `if` comes before 2. -/
theorem two_le_of_mem_decIf {f : Fields} {e : Nat} (h : e ∈ (decIf f).2) : 2 ≤ e := by
  have hsrc : e ∈ (srcM f.sa f.sela).2 → e = 2 := by
    unfold srcM
    split <;> simp [mem_bad]
  simp only [decIf, List.append_assoc] at h
  rcases List.mem_append.mp h with h | h
  · exact (hsrc h).ge
  · simp only [noD, noB, noC, noT, noMod, noTM, noG, unused, List.mem_append, mem_bad] at h
    omega

theorem two_mem_decIf {f : Fields} (h : f.grd ≠ 0) : 2 ∈ (decIf f).2 :=
  List.mem_append_right _ (mem_bad.mpr ⟨by simpa using h, rfl⟩)

/-- A guard on a row that takes none raises ILLEGAL 2. -/
theorem decode_unguarded_error (n w : Nat) (x : IWord) (ho : (Fields.ofWord x).opc ∈ ([0x007, 0x008, 0x009, 0x00A, 0x00D] : List (BitVec 10)))
    (hg : (Fields.ofWord x).grd ≠ 0) : decode n w x = .error 2 := by
  rw [decode_eq_error_iff]
  generalize Fields.ofWord x = f at ho hg
  have hctl : ∀ m i, decodeFields n w f = decCtl f false m i → 2 ∈ (decodeFields n w f).2 ∧ ∀ e ∈ (decodeFields n w f).2, 2 ≤ e := by
    intro m i hrow
    rw [hrow]
    exact ⟨two_mem_decCtl m i hg, fun e he => two_le_of_mem_decCtl he⟩
  simp only [List.mem_cons, List.not_mem_nil, or_false] at ho
  rcases ho with ho | ho | ho | ho | ho
  · rw [decodeFields_ifm n w ho]
    exact ⟨two_mem_decIf hg, fun e he => two_le_of_mem_decIf he⟩
  · exact hctl _ _ (decodeFields_elsem n w ho)
  · exact hctl _ _ (decodeFields_endif n w ho)
  · exact hctl _ _ (decodeFields_loop n w ho)
  · exact hctl _ _ (decodeFields_endloop n w ho)

end Sys2Proof
end

section
/-! PROOFS. The statements on transfers and on the mask stack. -/

namespace Sys2Proof.Proofs

open Sys2Proof.Machine Sys2Proof.Stmt

/-! ## `bra` and `call` (R176, R177) -/

/-- No lane is effective that is not active. -/
theorem eff_of_srcActive_eq_zero {g : Group} (h : g.srcActive = 0) (k : BitVec 4) : g.eff k = 0 := by
  simp [Group.eff, h]

/-- What `bra` and `call` decide on, by the lanes that the guard holds (R176). -/
theorem taken_eq (g : Group) (k : BitVec 4) :
    (g.eff k = 0 → taken g (g.eff k) = some false) ∧
    (g.eff k ≠ 0 → g.eff k = g.srcActive → taken g (g.eff k) = some true) ∧
    (g.eff k ≠ 0 → g.eff k ≠ g.srcActive → taken g (g.eff k) = none) := by
  have hactive : g.eff k ≠ 0 → g.srcActive ≠ 0 := mt (fun h => eff_of_srcActive_eq_zero h k)
  unfold taken
  refine ⟨fun h0 => by simp [h0], fun h0 heq => ?_, fun h0 hne => ?_⟩
  · rw [if_neg (by tauto), if_pos heq]
  · rw [if_neg (by tauto), if_neg hne]

/-- Settles O20: the guard decides by `taken_eq`, and a transfer goes as `transfer_jumps` says. -/
theorem transfersAndCalls : Obligations.TransfersAndCalls := by
  unfold Obligations.TransfersAndCalls
  intro s g k t h
  obtain ⟨hnone, hall, hsome⟩ := taken_eq g k
  have hbra : exec (.bra k t) s = execBra k t s := rfl
  have hcall : exec (.call k t) s = execCall k t s := rfl
  rw [hbra, hcall, execBra, execCall, withReads_guard h, withReads_guard h]
  refine ⟨fun h0 => ?_, fun h0 heq => ?_, fun h0 hne => ?_⟩
  · rw [hnone h0]
    exact ⟨finish_falls s g false, finish_falls s g false⟩
  · rw [hall h0 heq, pcTarget_eq]
    refine ⟨transfer_jumps h.group g _, fun hfull => if_pos hfull, fun hroom => ?_⟩
    simp only [if_neg (Nat.ne_of_lt hroom)]
    exact transfer_jumps h.group _ _
  · rw [hsome h0 hne]
    exact ⟨rfl, rfl⟩

/-! ## The mask stack (R174) -/

section

variable {s : State} {g : Group} (h : Issuing s g)
include h

theorem if_clauses (a : MSrc) (t : BitVec 32) (hm : g.mOk a = true) :
    let act := g.active &&& g.mval a
    let g1 := { g with stack := ⟨.ifK, g.active, s.nextId⟩ :: g.stack, active := act }
    (g.stack.length = 32 → exec (.ifm a t) s = .next (raiseCD s s.cur 5 1)) ∧
    (g.stack.length < 32 → act ≠ 0 → Falls s g1 false (exec (.ifm a t) s)) ∧
    (g.stack.length < 32 → act = 0 → Jumps s g g1 (targetOf g.pc t) (exec (.ifm a t) s)) := by
  intro act g1
  obtain ⟨hfalls, hjumps⟩ := h.jumps_or_falls g1 t (act = 0)
  rw [exec_ifm h a t hm]
  refine ⟨fun hfull => if_pos hfull, fun hroom => ?_, fun hroom => ?_⟩
  all_goals rw [if_neg (Nat.ne_of_lt hroom)]
  · exact hfalls
  · exact hjumps

theorem else_clauses (t : BitVec 32) {e : MaskEntry} {r : List MaskEntry} (hs : g.stack = e :: r) :
    let act := e.mask &&& ~~~g.active &&& g.live
    let g1 := { g with stack := { e with kind := .elseK } :: r, active := act }
    (callers g < g.stack.length → e.kind = .ifK → act ≠ 0 → Falls s g1 false (exec (.elsem t) s)) ∧
    (callers g < g.stack.length → e.kind = .ifK → act = 0 → Jumps s g g1 (targetOf g.pc t) (exec (.elsem t) s)) ∧
    (g.stack.length ≤ callers g ∨ e.kind ≠ .ifK → exec (.elsem t) s = .next (raiseCD s s.cur 5 2)) := by
  intro act g1
  obtain ⟨hfalls, hjumps⟩ := h.jumps_or_falls g1 t (act = 0)
  rw [exec_elsem_cons h t hs]
  refine ⟨fun hown hk => ?_, fun hown hk => ?_, fun hbad => if_pos hbad⟩
  all_goals rw [if_neg (by simp [hk, hown])]
  · exact hfalls
  · exact hjumps

theorem endif_clauses {e : MaskEntry} {r : List MaskEntry} (hs : g.stack = e :: r) :
    (callers g < g.stack.length → e.kind = .ifK ∨ e.kind = .elseK →
      Falls s (addFence s s.cur { g with stack := r, active := e.mask &&& g.live } e.since) false (exec .endif s)) ∧
    (g.stack.length ≤ callers g ∨ (e.kind ≠ .ifK ∧ e.kind ≠ .elseK) → exec .endif s = .next (raiseCD s s.cur 5 2)) := by
  rw [exec_endif_cons h hs]
  refine ⟨fun hown hk => ?_, fun hbad => if_pos hbad⟩
  rw [if_neg (by simp only [not_or, not_and, not_not, ne_eq]; exact ⟨by omega, fun hne => hk.resolve_left hne⟩)]
  exact finish_falls s _ false

theorem loop_clauses (t : BitVec 32) :
    let g1 := { g with stack := ⟨.iterK, g.active, s.nextId⟩ :: ⟨.exitK, g.active, s.nextId⟩ :: g.stack }
    (30 < g.stack.length → exec (.loop t) s = .next (raiseCD s s.cur 5 1)) ∧
    (g.stack.length ≤ 30 → g.active ≠ 0 → Falls s g1 false (exec (.loop t) s)) ∧
    (g.stack.length ≤ 30 → g.active = 0 → Jumps s g g1 (targetOf g.pc t) (exec (.loop t) s)) := by
  intro g1
  obtain ⟨hfalls, hjumps⟩ := h.jumps_or_falls g1 t (g.active = 0)
  rw [exec_loop h t]
  refine ⟨fun hfull => if_pos hfull, fun hroom => ?_, fun hroom => ?_⟩
  all_goals rw [if_neg (Nat.not_lt.mpr hroom)]
  · exact hfalls
  · exact hjumps

theorem endloop_clauses (t : BitVec 32) {e x : MaskEntry} {r : List MaskEntry} (hs : g.stack = e :: x :: r) :
    (callers g + 1 < g.stack.length → e.kind = .iterK → x.kind = .exitK →
      (e.mask &&& g.live ≠ 0 →
        Jumps s g (addFence s s.cur { g with active := e.mask &&& g.live } e.since) (targetOf g.pc t) (exec (.endloop t) s)) ∧
      (e.mask &&& g.live = 0 →
        Falls s (addFence s s.cur { g with stack := r, active := x.mask &&& g.live } e.since) false (exec (.endloop t) s))) ∧
    (g.stack.length ≤ callers g + 1 ∨ e.kind ≠ .iterK ∨ x.kind ≠ .exitK → exec (.endloop t) s = .next (raiseCD s s.cur 5 2)) := by
  rw [exec_endloop_cons h t hs]
  refine ⟨fun hown he hx => ?_, fun hbad => if_pos hbad⟩
  rw [if_neg (by simp [he, hx, hown])]
  refine ⟨fun hlanes => ?_, fun hlanes => ?_⟩
  · rw [if_pos hlanes, pcTarget_eq]
    exact transfer_jumps h.group _ _
  · rw [if_neg (not_not.mpr hlanes)]
    exact finish_falls s _ false

/-- `break` (`brk`) and `cont`, in a loop and outside any. -/
theorem leaveLoop_clauses (brk : Bool) (k : BitVec 4) (t : BitVec 32) :
    let act := g.active &&& ~~~g.eff k
    (∀ n, g.iterAt = some n →
      let g1 := { g with active := act, stack := without g.stack (if brk then n + 1 else n) (g.eff k) }
      (act ≠ 0 ∨ n ≠ 0 → Falls s g1 false (leaveLoop brk k t s)) ∧
      (act = 0 → n = 0 → Jumps s g g1 (targetOf g.pc t) (leaveLoop brk k t s))) ∧
    (g.iterAt = none → leaveLoop brk k t s = .next (raiseCD s s.cur 5 3)) := by
  intro act
  refine ⟨fun n hn => ?_, leaveLoop_none h brk k t⟩
  intro g1
  obtain ⟨hfalls, hjumps⟩ := h.jumps_or_falls g1 t (act = 0 ∧ n = 0)
  rw [leaveLoop_some h brk k t hn]
  exact ⟨fun hlanes => hfalls (by tauto), fun hact h0 => hjumps ⟨hact, h0⟩⟩

end

theorem stackedMasks : StackedMasks := by
  intro s g h
  refine ⟨if_clauses h, fun t e r hs => ?_, fun hs t => exec_nil h hs t, loop_clauses h, fun t e x r hs => endloop_clauses h t hs,
    fun t e hs => exec_endloop_single h t hs, fun k t => ?_⟩
  · obtain ⟨hfalls, hjumps, hfault⟩ := else_clauses h t hs
    obtain ⟨hpops, hfault'⟩ := endif_clauses h hs
    exact ⟨hfalls, hjumps, hfault, hpops, hfault'⟩
  · obtain ⟨hbrk, hbrkFault⟩ := leaveLoop_clauses h true k t
    obtain ⟨hcont, hcontFault⟩ := leaveLoop_clauses h false k t
    refine ⟨fun n e he hk hn hmin => ?_, fun hno => ?_⟩
    · have hat := Group.iterAt_eq_some he hk hn hmin
      obtain ⟨hbFalls, hbJumps⟩ := hbrk n hat
      obtain ⟨hcFalls, hcJumps⟩ := hcont n hat
      exact ⟨fun hl => ⟨hbFalls hl, hcFalls hl⟩, fun hact h0 => ⟨hbJumps hact h0, hcJumps hact h0⟩⟩
    · have hat := Group.iterAt_eq_none hno
      exact ⟨hbrkFault hat, hcontFault hat⟩

theorem structuredWords : StructuredWords := by
  intro n w x k t
  refine ⟨fun a => decode_ifm_iff n w x a t, ?_, decode_endif_iff n w x, ?_, ?_, ?_, ?_, decode_unguarded_error n w x⟩
  · exact decode_target_iff (fun _ _ => Instr.elsem.inj) (fun _ => rfl) (fun f ho => decodeFields_elsem n w ho) t
  · exact decode_target_iff (fun _ _ => Instr.loop.inj) (fun _ => rfl) (fun f ho => decodeFields_loop n w ho) t
  · exact decode_guardTarget_iff (fun _ _ _ _ => Instr.brk.inj) (fun _ _ => rfl) (fun f ho => decodeFields_brk n w ho) k t
  · exact decode_guardTarget_iff (fun _ _ _ _ => Instr.cont.inj) (fun _ _ => rfl) (fun f ho => decodeFields_cont n w ho) k t
  · exact decode_target_iff (fun _ _ => Instr.endloop.inj) (fun _ => rfl) (fun f ho => decodeFields_endloop n w ho) t

/-- Settles O19, by the clauses of each instruction on the mask stack and the rows of their words. -/
theorem structuredControl : Obligations.StructuredControl :=
  ⟨stackedMasks, structuredWords⟩

end Sys2Proof.Proofs
end
